-- ==== Sys2Proof/Word.lean ====
section
/-! DEFINITION. Word.lean: the two bit vectors the spec's data is made of, and nothing else. -/

namespace Sys2Proof

/-- A byte of a byte region (IN, OUT), or one of the four bytes of a word. -/
abbrev Byte := BitVec 8

/-- A CSR, a command word, a host address or a memory word: all are 32 bits wide (00_scope.md R21). -/
abbrev Word := BitVec 32

/-- The 32-bit register value of a natural number (00_scope.md R40: within the parameters of R20 nothing wraps). -/
abbrev word (n : Nat) : Word := BitVec.ofNat 32 n

end Sys2Proof
end

