-- ==== Sys2Proof/Config.lean ====
section
/-! DEFINITION. Config.lean: the parameters of 00_scope.md R20, which the model takes as an argument, with this
hardware's value of each, and the free values: constants without a body, so that nothing can be proved about which
value they have. -/

namespace Sys2Proof.Config

/-- The implementation parameters (00_scope.md R20): "A model takes each as an argument". They are no state
(10_state.md R102): a definition that depends on them takes a `P : Params`, and the machine of Machine/Step.lean is
the one at `hw` (log 19). -/
structure Params where
  /-- WINDOW: the largest match distance -/
  window : Nat
  /-- MIN_MATCH: the shortest match length -/
  minMatch : Nat
  /-- MAX_MATCH: the longest match length -/
  maxMatch : Nat
  /-- LL_CODES: the literal/length alphabet of the cost model and the Huffman constructor -/
  llCodes : Nat
  /-- D_CODES: the distance alphabet -/
  dCodes : Nat
  /-- MAXBITS: the longest code of the two main alphabets -/
  maxBits : Nat
  /-- CL_MAXBITS: the longest code of the code-length alphabet -/
  clMaxBits : Nat
  /-- IN_CAP: bytes of the IN memory -/
  inCap : Nat
  /-- OUT_CAP: bytes of the OUT memory -/
  outCap : Nat
  /-- STORE_CAP: entries of each symbol store -/
  storeCap : Nat
  /-- PLAN_CAP: entries of the block plan -/
  planCap : Nat
  /-- STORED_MAX: the largest LEN of one stored block -/
  storedMax : Nat
  /-- MAXCHAIN's reset value -/
  maxChainReset : Nat
  /-- STAGNATION's reset value -/
  stagnationReset : Nat
  /-- NUMITER's reset value -/
  numIterReset : Nat
  /-- SPLITMAX's reset value -/
  splitMaxReset : Nat
  /-- ABSENTCOST's reset value -/
  absentCostReset : Nat
  /-- SPLITMARGIN's reset value -/
  splitMarginReset : Nat
deriving DecidableEq, Repr

/-- This hardware's value of every parameter (00_scope.md R20, the value column). -/
abbrev hw : Params :=
  { window := 32768, minMatch := 3, maxMatch := 258, llCodes := 286, dCodes := 30, maxBits := 15, clMaxBits := 7
    inCap := 16777216, outCap := 16842752, storeCap := 16777216, planCap := 65536, storedMax := 65535
    maxChainReset := 8192, stagnationReset := 5, numIterReset := 15, splitMaxReset := 15, absentCostReset := 15
    splitMarginReset := 0 }

/-- FREE VALUE (log 4). What the byte at a host address holds after the given hardware reset, before anything
writes it: "unspecified, and a model gives each word any value" (70_reset_and_hazards.md R1100). -/
opaque powerOn : Nat → Nat → Byte

/-- FREE VALUE (log 5). The n-th value drawn for a read the spec leaves unspecified (20_memory.md R232,
93_implementation_defined.md U13, U16) or for BITSTATE after WRITE_ERROR (60_exceptions.md R1012). -/
opaque freeWord : Nat → Word

/-- FREE VALUE (log 5). The n-th count drawn for how far a running command has gone before a host read: any number,
without a bound (20_memory.md R231, 70_reset_and_hazards.md R1141, 93_implementation_defined.md U14). -/
opaque freeCount : Nat → Nat

/-- FREE VALUE (log 3). How many host accesses land while a command is BUSY: "any finite number"
(70_reset_and_hazards.md R1140, 93_implementation_defined.md U15). -/
opaque busyAccesses : Nat → Nat

end Sys2Proof.Config
end

