-- ==== Sys2Proof/Machine/State.lean ====
section
/-! DEFINITION. Machine/State.lean: everything the spec gives the machine, as plain data, and its value after
reset. INVENTORY.md lists each field with its rule. -/

namespace Sys2Proof.Machine

/-- The values of STATUS.PHASE (10_state.md R130). -/
inductive Phase
  | idle
  | decode
  | greedy
  | split
  | sqBoot
  | sqPath
  | sqTrace
  | sqEval
  | sqUpdate
  | write
  | flush
  | unit
deriving DecidableEq, Repr

/-- The values of STATUS.ERRCODE that have a name (60_exceptions.md R1001); 7 to 14 are never raised. -/
inductive ErrCode
  | none
  | illegalCmd
  | badArg
  | huffError
  | badSymbol
  | writeError
  | readError
  /-- never raised by a rule (60_exceptions.md R1009) -/
  | internal
deriving DecidableEq, Repr

/-- The stored bits of STATUS (10_state.md R115). IRQ is computed (60_exceptions.md R1030). -/
structure Status where
  busy : Bool
  done : Bool
  err : Bool
  dropped : Bool
  errCode : ErrCode
  phase : Phase
deriving DecidableEq, Repr

/-- The CSRs only the host (and SRESET) writes: the options, the window length, the input-failure report and the
output limit (10_state.md R113, R118 to R126, 40_control.md R405). Reserved bits are kept 0 (R110). -/
structure Options where
  ctrl : Word
  inLen : Word
  inErr : Word
  numIter : Word
  splitMax : Word
  maxChain : Word
  stagnation : Word
  absentCost : Word
  splitMargin : Word
  outLimit : Word
deriving DecidableEq, Repr

/-- ARG0 to ARG3 (10_state.md R127). -/
structure Args where
  a0 : Word
  a1 : Word
  a2 : Word
  a3 : Word
deriving DecidableEq, Repr

/-- RES0 to RES3 (10_state.md R128). -/
structure Results where
  r0 : Word
  r1 : Word
  r2 : Word
  r3 : Word
deriving DecidableEq, Repr

/-- The bit packer: OUT_LEN and BITSTATE (10_state.md R129), BLOCKS_OUT and LAST_BLOCK (R132). -/
structure Packer where
  outLen : Word
  bitCnt : BitVec 3
  bitBuf : Byte
  blocksOut : Word
  /-- bit [2] BFINAL, bits [1:0] BTYPE -/
  lastBlock : BitVec 3
deriving DecidableEq, Repr

/-- The store and plan lengths, and the byte range G covers (10_state.md R131). -/
structure Lens where
  gLen : Word
  gA : Word
  gB : Word
  sLen : Word
  planLen : Word
deriving DecidableEq, Repr

/-- CUR_BLOCK (10_state.md R130), ITER_COUNT and BEST_BITS (R132). -/
structure Observed where
  curBlock : Word
  iterCount : Word
  bestBits : Word
deriving DecidableEq, Repr

/-- The memories (10_state.md section 3): every byte written since the last hardware reset, under its host
address (20_memory.md R210). -/
abbrev Memory := List Host.Cell

/-- The match record of a position (41_lz77_parser.md R506): the best length, and the sublength vector from
length MIN_MATCH on, `sub[k]` being the distance of length MIN_MATCH + k. -/
structure MatchRec where
  best : Nat
  sub : List Nat
deriving DecidableEq, Repr

/-- The match cache (10_state.md R150): the positions whose valid bit is 1, with their records. -/
abbrev Cache := List (Nat × MatchRec)

/-- Why a host access breaks 20_memory.md R220. -/
inductive BusProblem
  /-- a byte of the access is mapped to no region -/
  | unmapped
  /-- the region does not accept the width -/
  | badWidth
  /-- the address is not a multiple of the width -/
  | misaligned
deriving DecidableEq, Repr

/-- A fault. CORE has none: its errors are taken (60_exceptions.md R1010). -/
inductive Fault
  /-- A host access that breaks 20_memory.md R220. Raised by a host read or write, never by a command, and never the
  end of a step: it is the fault of the HOST AGENT's transaction (R221), recorded in `host.faults`, and CORE goes on
  as if the access had not been made (60_exceptions.md R1021; log 17). Safe: R221 says that the access changes no
  state and returns no value. -/
  | busError (why : BusProblem) (addr : Word) (n : Nat)
deriving DecidableEq, Repr

/-- One access of the host (20_memory.md R220), its wait loop (30_encoding.md R351), or the hardware reset
(70_reset_and_hazards.md R1100). -/
inductive HostOp
  /-- MemRead of n bytes at an address -/
  | read (addr : Word) (n : Nat)
  /-- MemWrite of n bytes at an address -/
  | write (addr : Word) (n : Nat) (v : Word)
  /-- read STATUS until DONE or ERR reads 1 -/
  | waitDone
  /-- the hardware reset -/
  | hardReset
deriving DecidableEq, Repr

/-- The command being executed (40_control.md R401), with the model's own account of what the host can see of it
meanwhile (logs 3, 12 and 13). -/
structure Issue where
  /-- the accepted command word, while BUSY -/
  word : Option Word
  /-- model's own: how many more host accesses land before the command ends -/
  busyLeft : Nat
  /-- model's own: how far the progressive output has gone -/
  progress : Nat
  /-- model's own: the largest CUR_BLOCK read while the command runs -/
  blockSeen : Word
  /-- model's own: where in the command's sequence of phases the last one shown stands -/
  phaseAt : Nat
deriving DecidableEq, Repr

/-- The host as the model holds it (log 1): its future accesses in program order, the values its reads returned,
newest first, and the faults of its transactions, newest first (log 17). -/
structure HostSide where
  pending : List HostOp
  reads : List Word
  faults : List Fault
deriving DecidableEq, Repr

/-- The machine. `draws` and `epoch` are the model's own: how many free values have been drawn (log 5), and which
power-on contents the memories hold (log 4). -/
structure State where
  status : Status
  errInfo : Word
  opt : Options
  arg : Args
  res : Results
  packer : Packer
  lens : Lens
  obs : Observed
  mem : Memory
  cache : Cache
  issue : Issue
  host : HostSide
  draws : Nat
  epoch : Nat
deriving DecidableEq, Repr

/-- Why an instruction has no meaning. -/
inductive Refusal
  /-- Raised by an arm of `exec` whose instruction the model does not give a meaning yet. Safe: no claim about
  such an instruction can be proved. No arm raises it. -/
  | notModelled (mnemonic : String)
deriving DecidableEq, Repr

/-- STATUS after reset: idle, no error (70_reset_and_hazards.md R1100). -/
def Status.reset : Status :=
  { busy := false, done := false, err := false, dropped := false, errCode := .none, phase := .idle }

/-- The option CSRs after reset (10_state.md R110, R113, R118 to R126). -/
def Options.reset (P : Config.Params) : Options :=
  { ctrl := 0x00000022, inLen := 0, inErr := 0, numIter := word P.numIterReset,
    splitMax := word P.splitMaxReset, maxChain := word P.maxChainReset,
    stagnation := word P.stagnationReset, absentCost := word P.absentCostReset,
    splitMargin := word P.splitMarginReset, outLimit := word P.outCap }

/-- ARG0 to ARG3 after reset (10_state.md R127). -/
def Args.reset : Args := { a0 := 0, a1 := 0, a2 := 0, a3 := 0 }

/-- RES0 to RES3 after reset (10_state.md R128). -/
def Results.reset : Results := { r0 := 0, r1 := 0, r2 := 0, r3 := 0 }

/-- The bit packer after reset (10_state.md R129, R132), and after WRESET (45_block_writer.md R910). -/
def Packer.reset : Packer := { outLen := 0, bitCnt := 0, bitBuf := 0, blocksOut := 0, lastBlock := 0 }

/-- The store and plan lengths after reset (10_state.md R131). -/
def Lens.reset : Lens := { gLen := 0, gA := 0, gB := 0, sLen := 0, planLen := 0 }

/-- The observation registers after reset (10_state.md R130, R132). -/
def Observed.reset : Observed := { curBlock := 0, iterCount := 0, bestBits := 0 }

/-- No command is executing (10_state.md R130, IDLE). -/
def Issue.none : Issue := { word := Option.none, busyLeft := 0, progress := 0, blockSeen := 0, phaseAt := 0 }

/-- A machine of the given parameters right after a hardware reset (70_reset_and_hazards.md R1100, R1101): every CSR
at its reset value, the cache invalid, nothing of the memories written yet (their contents are free values, log 4),
no host access pending (log 1). -/
def State.resetWith (P : Config.Params) : State :=
  { status := .reset, errInfo := 0, opt := .reset P, arg := .reset, res := .reset, packer := .reset,
    lens := .reset, obs := .reset, mem := [], cache := [], issue := .none,
    host := { pending := [], reads := [], faults := [] }, draws := 0, epoch := 0 }

/-- This hardware right after a hardware reset (70_reset_and_hazards.md R1100). -/
def State.reset : State := .resetWith Config.hw

end Sys2Proof.Machine
end

