-- ==== Sys2Proof/Syntax.lean ====
section
/-! DEFINITION. Syntax.lean: the 22 commands of spec/opcode_table.json. -/

namespace Sys2Proof

/-- The T bit of a command word: which symbol store the command reads (30_encoding.md R310). -/
inductive StoreSel
  /-- T = 0. -/
  | g
  /-- T = 1. -/
  | s
deriving DecidableEq, Repr

/-- One constructor per row of the opcode map (30_encoding.md R312). The operands are not in the command word
(R311), so a constructor carries only the flags its row takes: F (`final`) and T (`store`). -/
inductive Instr
  | nop
  | sreset
  | cacheclr
  | compress
  | findmatch
  | greedy
  | split
  | coststat (store : StoreSel)
  | costfixed
  | sppass
  | squeeze
  | count (store : StoreSel)
  | hufflen
  | canon
  | wreset
  | wbits
  | wflush
  | wstored (final : Bool)
  | wfixed (final : Bool) (store : StoreSel)
  | wdynamic (final : Bool) (store : StoreSel)
  | wauto (final : Bool) (store : StoreSel)
  | blkcost (store : StoreSel)
deriving DecidableEq, Repr

end Sys2Proof
end

