-- ==== Sys2Proof/Machine/Ops.lean ====
section
/-! DEFINITION. Machine/Ops.lean: the named operations over memory and registers that every meaning is written
with: the byte list, the address map, bytes and words, free values, the end of a command, and taking and
acknowledging an error. -/

namespace Sys2Proof.Machine

variable (P : Config.Params)

/-! ## The byte list -/

/-- The canonical form of the memory: addresses strictly rising. A listed byte is a byte that was written since
the last hardware reset, so no entry equals what an unlisted address holds, which is no value (log 4). -/
abbrev Memory.wf (m : Memory) : Prop := m.Pairwise (fun x y => x.1 < y.1)

/-- The byte written at an address, if any. -/
def Memory.get? (m : Memory) (a : Nat) : Option Byte := (m.find? (fun c => c.1 == a)).map (·.2)

/-- The entries of a run of bytes from an address upward. -/
def Memory.run : Nat → List Byte → Memory
  | _, [] => []
  | a, b :: bs => (a, b) :: Memory.run (a + 1) bs

/-- Writes a run of bytes from an address upward, keeping the canonical form. -/
def Memory.store (m : Memory) (a : Nat) (bs : List Byte) : Memory :=
  m.filter (fun c => decide (c.1 < a)) ++ Memory.run a bs ++ m.filter (fun c => decide (a + bs.length ≤ c.1))

/-- The byte at a host address: what was written there, else what it held at power-on (10_state.md R140 to R146,
70_reset_and_hazards.md R1100, R1111; log 4). -/
def State.readByte (s : State) (a : Nat) : Byte := (Memory.get? s.mem a).getD (Config.powerOn s.epoch a)

/-- n bytes from an address upward. -/
def State.readBytes (s : State) (a n : Nat) : List Byte := (List.range n).map (fun k => s.readByte (a + k))

/-- The bytes of a word, least significant first (20_memory.md R222). -/
def wordBytes (w : Word) : List Byte :=
  [w.extractLsb' 0 8, w.extractLsb' 8 8, w.extractLsb' 16 8, w.extractLsb' 24 8]

/-- The 32-bit word at an address, little-endian (20_memory.md R222). -/
def State.readWord (s : State) (a : Nat) : Word :=
  s.readByte (a + 3) ++ s.readByte (a + 2) ++ s.readByte (a + 1) ++ s.readByte a

/-- Writes bytes from an address upward. -/
def State.storeBytes (s : State) (a : Nat) (bs : List Byte) : State :=
  { s with mem := Memory.store s.mem a bs }

/-- Writes 32-bit words from an address upward. -/
def State.storeWords (s : State) (a : Nat) (ws : List Word) : State :=
  s.storeBytes a (ws.flatMap wordBytes)

/-! ## The address map -/

/-- The regions of 20_memory.md R210. -/
inductive Region
  | csr | freq | dfreq | len | code | llcost | dcost | sublen | plan | input | output | storeG | storeS
deriving DecidableEq, Repr

/-- The base address of a region (20_memory.md R210). -/
def Region.base : Region → Nat
  | .csr => 0x00000000
  | .freq => 0x00010000
  | .dfreq => 0x00011000
  | .len => 0x00012000
  | .code => 0x00013000
  | .llcost => 0x00014000
  | .dcost => 0x00015000
  | .sublen => 0x00016000
  | .plan => 0x01000000
  | .input => 0x10000000
  | .output => 0x20000000
  | .storeG => 0x40000000
  | .storeS => 0x50000000

/-- The number of entries of a region (20_memory.md R210). -/
def Region.entries : Region → Nat
  | .csr => 1024
  | .freq => 288
  | .dfreq => P.dCodes
  | .len => 288
  | .code => 288
  | .llcost => P.llCodes
  | .dcost => P.dCodes
  | .sublen => P.maxMatch + 1
  | .plan => P.planCap
  | .input => P.inCap
  | .output => P.outCap
  | .storeG => P.storeCap
  | .storeS => P.storeCap

/-- The bytes of one entry of a region (20_memory.md R210). -/
def Region.stride : Region → Nat
  | .plan => 32
  | .input => 1
  | .output => 1
  | .storeG => 8
  | .storeS => 8
  | _ => 4

/-- The address of an entry of a region (20_memory.md R211). -/
def Region.entry (r : Region) (k : Nat) : Nat := r.base + r.stride * k

/-- Is the address inside the region, below its last entry's end? -/
def Region.covers (r : Region) (a : Nat) : Bool :=
  decide (r.base ≤ a) && decide (a < r.base + r.stride * r.entries P)

/-- Every region of the map. -/
def Region.all : List Region :=
  [.csr, .freq, .dfreq, .len, .code, .llcost, .dcost, .sublen, .plan, .input, .output, .storeG, .storeS]

/-- The region an address is mapped to (20_memory.md R210). Irreducible, so that no tactic compares a variable address
with the large bases by unfolding; `unfold regionAt` opens it. -/
@[irreducible] def regionAt (a : Nat) : Option Region := Region.all.find? (·.covers P a)

/-- The region of a symbol store. -/
def storeRegion : StoreSel → Region
  | .g => .storeG
  | .s => .storeS

/-! ## The CSRs by name -/

/-- The CSRs (10_state.md R110). -/
inductive Csr
  | id | version | ctrl | cmd | status | errInfo | inLen | inErr | numIter | splitMax | maxChain | stagnation
  | absentCost | splitMargin | outLimit | arg0 | arg1 | arg2 | arg3 | res0 | res1 | res2 | res3 | outLen
  | bitState | gLen | gA | gB | sLen | planLen | curBlock | iterCount | bestBits | blocksOut | lastBlock
deriving DecidableEq, Repr

/-- The byte offset of a CSR (10_state.md R110). -/
def Csr.offset : Csr → Nat
  | .id => 0x000
  | .version => 0x004
  | .ctrl => 0x008
  | .cmd => 0x00C
  | .status => 0x010
  | .errInfo => 0x014
  | .inLen => 0x018
  | .inErr => 0x01C
  | .numIter => 0x020
  | .splitMax => 0x024
  | .maxChain => 0x028
  | .stagnation => 0x02C
  | .absentCost => 0x030
  | .splitMargin => 0x034
  | .outLimit => 0x038
  | .arg0 => 0x040
  | .arg1 => 0x044
  | .arg2 => 0x048
  | .arg3 => 0x04C
  | .res0 => 0x050
  | .res1 => 0x054
  | .res2 => 0x058
  | .res3 => 0x05C
  | .outLen => 0x060
  | .bitState => 0x064
  | .gLen => 0x068
  | .gA => 0x06C
  | .gB => 0x070
  | .sLen => 0x074
  | .planLen => 0x078
  | .curBlock => 0x07C
  | .iterCount => 0x080
  | .bestBits => 0x084
  | .blocksOut => 0x088
  | .lastBlock => 0x08C

/-- Every CSR of the map. -/
def Csr.all : List Csr :=
  [.id, .version, .ctrl, .cmd, .status, .errInfo, .inLen, .inErr, .numIter, .splitMax, .maxChain, .stagnation,
   .absentCost, .splitMargin, .outLimit, .arg0, .arg1, .arg2, .arg3, .res0, .res1, .res2, .res3, .outLen,
   .bitState, .gLen, .gA, .gB, .sLen, .planLen, .curBlock, .iterCount, .bestBits, .blocksOut, .lastBlock]

/-- The CSR at an offset; none for an offset the table does not list (10_state.md R110). -/
def csrAt (off : Nat) : Option Csr := Csr.all.find? (fun c => c.offset == off)

/-! ## Fields of the option CSRs -/

/-- CTRL.BTYPE, the block-type hint: 0 STORED, 1 FIXED, 2 DYNAMIC, 3 illegal at use (10_state.md R113). -/
def Options.btype (o : Options) : Nat := (o.ctrl.extractLsb' 0 2).toNat

/-- CTRL.IRQ_EN (10_state.md R113). -/
def Options.irqEn (o : Options) : Bool := o.ctrl.getLsbD 4

/-- CTRL.LAZY (10_state.md R113). -/
def Options.lazy (o : Options) : Bool := o.ctrl.getLsbD 5

/-- IN_ERR.FAIL (10_state.md R119). -/
def Options.readFailed (o : Options) : Bool := o.inErr.getLsbD 0

/-- IN_ERR.KIND (10_state.md R119). -/
def Options.readKind (o : Options) : Byte := o.inErr.extractLsb' 8 8

/-! ## Free values -/

/-- Draws a free value (log 5). -/
def State.draw (s : State) : Word × State := (Config.freeWord s.draws, { s with draws := s.draws + 1 })

/-- Draws a free count, which no width bounds (log 5). -/
def State.drawCount (s : State) : Nat × State := (Config.freeCount s.draws, { s with draws := s.draws + 1 })

/-! ## The end of a command -/

/-- An error a command ends with: its code and the value ERRINFO takes (60_exceptions.md R1001). -/
structure CmdError where
  code : ErrCode
  info : Word
deriving DecidableEq, Repr

/-- Where a command's rule has got to: it goes on from a state, or it has raised an error in a state. The state
of an error is what was written before it (60_exceptions.md R1012). -/
inductive Run
  | ok (s : State)
  | stop (e : CmdError) (s : State)
deriving DecidableEq, Repr

/-- The next part of a command's rule, unless an error has ended it (60_exceptions.md R1010). -/
def Run.andThen (r : Run) (k : State → Run) : Run :=
  match r with
  | .ok s => k s
  | .stop e s => .stop e s

/-- Completion without error (40_control.md R403). -/
def State.complete (s : State) : State :=
  { s with
    status := { s.status with busy := false, done := true, phase := .idle }
    issue := .none }

/-- TAKING AN ERROR, CORE's only exception (60_exceptions.md R1010): the code and ERRINFO are recorded, ERR and
DONE are set, the command is over. There is no saved pc, no vector and no mode to change. -/
def State.raiseError (s : State) (e : CmdError) : State :=
  { s with
    status := { s.status with busy := false, done := true, err := true, errCode := e.code, phase := .idle }
    errInfo := e.info
    issue := .none }

/-- THE RETURN FROM AN ERROR, the host's acknowledgement (60_exceptions.md R1025, 10_state.md R115 to R117): a
write of v to STATUS. Writing 1 to DONE, ERR or DROPPED clears it, and clearing ERR clears ERRCODE and ERRINFO.
While BUSY, DONE and ERR are left; with the fatal INTERNAL, ERR is left (60_exceptions.md R1009). -/
def State.ackStatus (s : State) (v : Word) : State :=
  let clearDone := v.getLsbD 1 && !s.status.busy
  let clearErr := v.getLsbD 2 && !s.status.busy && decide (s.status.errCode ≠ .internal)
  let clearDropped := v.getLsbD 3
  { s with
    status := { s.status with
      done := s.status.done && !clearDone
      err := s.status.err && !clearErr
      dropped := s.status.dropped && !clearDropped
      errCode := if clearErr then .none else s.status.errCode }
    errInfo := if clearErr then 0 else s.errInfo }

/-- Ends a command: completion (40_control.md R403) or error entry (60_exceptions.md R1010). Every command ends,
so every meaning answers a next state. -/
def Run.finish : Run → Host.Outcome State Fault Refusal
  | .ok s => .next s.complete
  | .stop e s => .next (s.raiseError e)

/-- Runs a command's effects after its operand and store checks; a check that fails raises its error with no
effect at all (40_control.md R402, 60_exceptions.md R1011). -/
def afterChecks {α : Type} (s : State) (checks : Except CmdError α) (effects : α → Run) : Run :=
  match checks with
  | .ok a => effects a
  | .error e => .stop e s

/-! ## Results and memories the commands write -/

/-- RES0 <- n. -/
def State.setRes0 (s : State) (n : Nat) : State := { s with res := { s.res with r0 := word n } }

/-- RES1 <- n. -/
def State.setRes1 (s : State) (n : Nat) : State := { s with res := { s.res with r1 := word n } }

/-- RES2 <- n. -/
def State.setRes2 (s : State) (n : Nat) : State := { s with res := { s.res with r2 := word n } }

/-- RES3 <- n. -/
def State.setRes3 (s : State) (n : Nat) : State := { s with res := { s.res with r3 := word n } }

/-- Invalidates every entry of the match cache (41_lz77_parser.md R532). -/
def State.clearCache (s : State) : State := { s with cache := [] }

/-- Writes the first entries of a table region (20_memory.md R211). -/
def State.storeTable (s : State) (r : Region) (ns : List Nat) : State := s.storeWords r.base (ns.map word)

/-- The first n words of a table region, as numbers (20_memory.md R211). -/
def State.readTable (s : State) (r : Region) (n : Nat) : List Nat :=
  (List.range n).map (fun k => (s.readWord (r.base + 4 * k)).toNat)

/-- Word k of plan entry j (20_memory.md R211, 30_encoding.md R325). -/
def planAddr (j k : Nat) : Nat := Region.plan.base + 32 * j + 4 * k

/-- The value of word k of plan entry j. -/
def State.planWord (s : State) (j k : Nat) : Nat := (s.readWord (planAddr j k)).toNat

/-- The window W = IN[0..N), N = IN_LEN (41_lz77_parser.md R501). -/
def State.window (s : State) : List Byte := s.readBytes Region.input.base s.opt.inLen.toNat

end Sys2Proof.Machine
end

