-- ==== Sys2Proof/Machine/Deflate.lean ====
section
/-! DEFINITION. Machine/Deflate.lean: symbols and their two words, and the code tables of RFC 1951 as
30_encoding.md section 3 gives them. -/

namespace Sys2Proof.Machine

variable (P : Config.Params)

/-! ## Symbols and store entries -/

/-- A symbol (00_scope.md R33): `lit b`, or the back-reference (L, d). -/
inductive Sym
  | lit (b : Byte)
  | ref (len dist : Nat)
deriving DecidableEq, Repr

/-- The input bytes a symbol covers (00_scope.md R33). -/
def Sym.span : Sym → Nat
  | .lit _ => 1
  | .ref len _ => len

/-- A store entry: a symbol and the input position it starts at (10_state.md R142). -/
structure Entry where
  sym : Sym
  pos : Nat
deriving DecidableEq, Repr

/-- The symbol word (30_encoding.md R320): DIST in [15:0], LITLEN in [24:16]. -/
def Sym.toWord : Sym → Word
  | .lit b => word (b.toNat <<< 16)
  | .ref len dist => word ((len <<< 16) ||| dist)

/-- The symbol a symbol word holds, none for a malformed word (30_encoding.md R320, R321). -/
def symOfWord (w : Word) : Option Sym :=
  let dist := (w.extractLsb' 0 16).toNat
  let litlen := (w.extractLsb' 16 9).toNat
  if w.extractLsb' 25 7 ≠ 0 then none
  else if dist = 0 then (if litlen ≤ 255 then some (.lit (BitVec.ofNat 8 litlen)) else none)
  else if dist ≤ P.window ∧ P.minMatch ≤ litlen ∧ litlen ≤ P.maxMatch then some (.ref litlen dist)
  else none

/-- The two words of a store entry (20_memory.md R211). -/
def Entry.toWords (e : Entry) : List Word := [e.sym.toWord, word e.pos]

/-- Does X[i..j) tile the byte range [a, b)? The index at which it fails, if it does not: the entry whose position
word is not the expected one, or the end index j (40_control.md R423, 00_scope.md R33). -/
def tilingFailure : List Entry → Nat → Nat → Nat → Option Nat
  | [], i, e, b => if e = b then none else some i
  | x :: xs, i, e, b => if x.pos ≠ e then some i else tilingFailure xs (i + 1) (e + x.sym.span) b

/-! ## Length and distance codes -/

/-- A row of a code table: a code, its number of extra bits, and the first value it codes. -/
structure CodeRow where
  code : Nat
  extra : Nat
  base : Nat
deriving DecidableEq, Repr

/-- The length codes (30_encoding.md R331). -/
def lengthRows : List CodeRow :=
  [ ⟨257, 0, 3⟩, ⟨258, 0, 4⟩, ⟨259, 0, 5⟩, ⟨260, 0, 6⟩, ⟨261, 0, 7⟩, ⟨262, 0, 8⟩, ⟨263, 0, 9⟩, ⟨264, 0, 10⟩,
    ⟨265, 1, 11⟩, ⟨266, 1, 13⟩, ⟨267, 1, 15⟩, ⟨268, 1, 17⟩, ⟨269, 2, 19⟩, ⟨270, 2, 23⟩, ⟨271, 2, 27⟩,
    ⟨272, 2, 31⟩, ⟨273, 3, 35⟩, ⟨274, 3, 43⟩, ⟨275, 3, 51⟩, ⟨276, 3, 59⟩, ⟨277, 4, 67⟩, ⟨278, 4, 83⟩,
    ⟨279, 4, 99⟩, ⟨280, 4, 115⟩, ⟨281, 5, 131⟩, ⟨282, 5, 163⟩, ⟨283, 5, 195⟩, ⟨284, 5, 227⟩, ⟨285, 0, 258⟩ ]

/-- The distance codes (30_encoding.md R332). -/
def distanceRows : List CodeRow :=
  [ ⟨0, 0, 1⟩, ⟨1, 0, 2⟩, ⟨2, 0, 3⟩, ⟨3, 0, 4⟩, ⟨4, 1, 5⟩, ⟨5, 1, 7⟩, ⟨6, 2, 9⟩, ⟨7, 2, 13⟩, ⟨8, 3, 17⟩,
    ⟨9, 3, 25⟩, ⟨10, 4, 33⟩, ⟨11, 4, 49⟩, ⟨12, 5, 65⟩, ⟨13, 5, 97⟩, ⟨14, 6, 129⟩, ⟨15, 6, 193⟩,
    ⟨16, 7, 257⟩, ⟨17, 7, 385⟩, ⟨18, 8, 513⟩, ⟨19, 8, 769⟩, ⟨20, 9, 1025⟩, ⟨21, 9, 1537⟩, ⟨22, 10, 2049⟩,
    ⟨23, 10, 3073⟩, ⟨24, 11, 4097⟩, ⟨25, 11, 6145⟩, ⟨26, 12, 8193⟩, ⟨27, 12, 12289⟩, ⟨28, 13, 16385⟩,
    ⟨29, 13, 24577⟩ ]

/-- The row of a value: the last row whose base it reaches, `d` where it reaches none. -/
def rowFor : List CodeRow → CodeRow → Nat → CodeRow
  | [], d, _ => d
  | r :: rs, d, v => if r.base ≤ v then rowFor rs r v else d

/-- The row of a match length (30_encoding.md R331). -/
def lengthRow (len : Nat) : CodeRow := rowFor lengthRows ⟨257, 0, 3⟩ len

/-- The row of a distance (30_encoding.md R332). -/
def distanceRow (dist : Nat) : CodeRow := rowFor distanceRows ⟨0, 0, 1⟩ dist

/-- The fixed literal/length code lengths of symbols 0 to 287 (30_encoding.md R333). -/
def fixedLitLens : List Nat :=
  List.replicate 144 8 ++ List.replicate 112 9 ++ List.replicate 24 7 ++ List.replicate 8 8

/-- The fixed distance code lengths of symbols 0 to 31 (30_encoding.md R333). -/
def fixedDistLens : List Nat := List.replicate 32 5

/-- The end-of-block symbol (30_encoding.md R334). -/
def endOfBlock : Nat := 256

/-- The order in which the code-length code lengths are sent (30_encoding.md R336). -/
def clOrder : List Nat := [16, 17, 18, 0, 8, 7, 9, 6, 10, 5, 11, 4, 12, 3, 13, 2, 14, 1, 15]

/-- The extra bits of a code-length symbol (30_encoding.md R337, 45_block_writer.md R932). -/
def clExtra (c : Nat) : Nat := if c = 16 then 2 else if c = 17 then 3 else if c = 18 then 7 else 0

end Sys2Proof.Machine
end

