-- ==== Sys2Proof/Machine/Operands.lean ====
section
/-! DEFINITION. Machine/Operands.lean: the operand forms of the commands and the checks they share
(40_control.md R420 to R423, 30_encoding.md R311). A check answers the first error it meets, in the order the rule
lists (60_exceptions.md R1020), and changes no state (40_control.md R402). -/

namespace Sys2Proof.Machine

variable (P : Config.Params)

/-- The operand registers (10_state.md R127). -/
inductive ArgReg
  | x0 | x1 | x2 | x3
deriving DecidableEq, Repr

/-- The operand an ARG register holds, an unsigned number (30_encoding.md R311). -/
def State.argOf (s : State) : ArgReg → Nat
  | .x0 => s.arg.a0.toNat
  | .x1 => s.arg.a1.toNat
  | .x2 => s.arg.a2.toNat
  | .x3 => s.arg.a3.toNat

/-- The byte address of an ARG register, which ERRINFO takes (40_control.md R421). -/
def ArgReg.offset : ArgReg → Nat
  | .x0 => Csr.arg0.offset
  | .x1 => Csr.arg1.offset
  | .x2 => Csr.arg2.offset
  | .x3 => Csr.arg3.offset

/-- BAD_ARG with the address of the offending register or word (60_exceptions.md R1004). -/
def badArg (addr : Nat) : CmdError := { code := .badArg, info := word addr }

/-- BAD_SYMBOL with the index of the offending entry (60_exceptions.md R1006). -/
def badSymbol (k : Nat) : CmdError := { code := .badSymbol, info := word k }

/-- HUFF_ERROR with the number the command's rule gives (60_exceptions.md R1005). -/
def huffError (n : Nat) : CmdError := { code := .huffError, info := word n }

/-- One check: the error when the condition does not hold. -/
def require (cond : Bool) (e : CmdError) : Except CmdError Unit := if cond then .ok () else .error e

/-- N, the number of window bytes. -/
def State.inputLen (s : State) : Nat := s.opt.inLen.toNat

/-- `CheckWindow` (40_control.md R420). -/
def checkWindow (s : State) : Except CmdError Unit :=
  require (decide (s.inputLen ≤ P.inCap)) (badArg Csr.inLen.offset)

/-- `CheckBytes(ARGx, ARGy)` (40_control.md R421). -/
def checkBytes (s : State) (x y : ArgReg) : Except CmdError Unit := do
  checkWindow P s
  require (decide (s.argOf x ≤ s.inputLen)) (badArg x.offset)
  require (decide (s.argOf x ≤ s.argOf y) && decide (s.argOf y ≤ s.inputLen)) (badArg y.offset)

/-- The length CSR of a store (10_state.md R131). -/
def State.storeLen (s : State) : StoreSel → Nat
  | .g => s.lens.gLen.toNat
  | .s => s.lens.sLen.toNat

/-- The address of a store's length CSR. -/
def storeLenOffset : StoreSel → Nat
  | .g => Csr.gLen.offset
  | .s => Csr.sLen.offset

/-- The BAD_ARG checks of `CheckStore(T, ARGx, ARGy)` (40_control.md R422). -/
def checkStoreArgs (s : State) (t : StoreSel) (x y : ArgReg) : Except CmdError Unit := do
  require (decide (s.storeLen t ≤ P.storeCap)) (badArg (storeLenOffset t))
  require (decide (s.argOf x ≤ s.storeLen t)) (badArg x.offset)
  require (decide (s.argOf x ≤ s.argOf y) && decide (s.argOf y ≤ s.storeLen t)) (badArg y.offset)

/-- Entry k of a store, none when its symbol word is malformed (20_memory.md R211, 30_encoding.md R321). -/
def State.entryAt (s : State) (t : StoreSel) (k : Nat) : Option Entry :=
  (symOfWord P (s.readWord ((storeRegion t).entry k))).map
    (fun sym => { sym := sym, pos := (s.readWord ((storeRegion t).entry k + 4)).toNat })

/-- The symbol check of n entries from k on, with the entries it read (40_control.md R422). -/
def readEntries (s : State) (t : StoreSel) : Nat → Nat → Except CmdError (List Entry)
  | 0, _ => .ok []
  | n + 1, k =>
    match s.entryAt P t k with
    | none => .error (badSymbol k)
    | some e => (readEntries s t n (k + 1)).map (e :: ·)

/-- The tiling check of the entries X[i..j) over [a, b) (40_control.md R423). -/
def checkTiling (entries : List Entry) (i a b : Nat) : Except CmdError Unit :=
  match tilingFailure entries i a b with
  | none => .ok ()
  | some k => .error (badSymbol k)

/-- The symbol range X[i..j) of a command, i = ARGx and j = ARGy, after the whole of CheckStore
(40_control.md R422). -/
def loadRange (s : State) (t : StoreSel) (x y : ArgReg) : Except CmdError (List Entry) := do
  checkStoreArgs P s t x y
  readEntries P s t (s.argOf y - s.argOf x) (s.argOf x)

/-- The operands of WAUTO and BLKCOST: a symbol range and the byte range it tiles, checked in the order of
45_block_writer.md R982. -/
def loadTiledRange (s : State) (t : StoreSel) : Except CmdError (List Entry) := do
  checkStoreArgs P s t .x0 .x1
  checkBytes P s .x2 .x3
  let entries ← readEntries P s t (s.argOf .x1 - s.argOf .x0) (s.argOf .x0)
  checkTiling entries (s.argOf .x0) (s.argOf .x2) (s.argOf .x3)
  return entries

/-- The hint 3 is illegal at use (10_state.md R113, 93_implementation_defined.md U21). -/
def checkHint (s : State) : Except CmdError Unit :=
  require (decide (s.opt.btype ≠ 3)) (badArg Csr.ctrl.offset)

/-- Writes entries of a store from index k on (20_memory.md R211). -/
def State.storeEntries (s : State) (t : StoreSel) (k : Nat) (entries : List Entry) : State :=
  s.storeWords ((storeRegion t).entry k) (entries.flatMap Entry.toWords)

end Sys2Proof.Machine
end

