-- ==== Sys2Proof/Machine/Search.lean ====
section
/-! DEFINITION. Machine/Search.lean: the match search, the match cache and the greedy/lazy parse
(41_lz77_parser.md). The window is a list of bytes; a position's candidates come as pairs of a distance and the
window from the candidate on. -/

namespace Sys2Proof.Machine

variable (P : Config.Params)

/-- The key of a position, from the window suffix that starts there (41_lz77_parser.md R502). -/
def keyOf : List Byte → Option (Byte × Byte × Byte)
  | x :: y :: z :: _ => some (x, y, z)
  | _ => none

/-- How many of the first n bytes, from the start, equal b. -/
def leading (b : Byte) : Nat → List Byte → Nat
  | 0, _ => 0
  | _, [] => 0
  | n + 1, c :: cs => if c = b then leading b n cs + 1 else 0

/-- The run length of a position, at most MAX_MATCH (41_lz77_parser.md R503). -/
def runOf : List Byte → Nat
  | [] => 0
  | b :: bs => leading b (P.maxMatch - 1) bs + 1

/-- The longest common prefix of two suffixes, at most n (41_lz77_parser.md R505). -/
def lcp : Nat → List Byte → List Byte → Nat
  | 0, _, _ => 0
  | _, [], _ => 0
  | _, _, [] => 0
  | n + 1, x :: xs, y :: ys => if x = y then lcp n xs ys + 1 else 0

/-- The positions before a position, nearest first: the bytes before it (nearest first), the suffix at it, the
next distance. -/
def walkBack : List Byte → List Byte → Nat → List (Nat × List Byte)
  | [], _, _ => []
  | b :: bs, suffix, d => (d, b :: suffix) :: walkBack bs (b :: suffix) (d + 1)

/-- The positions q = p-1, ..., max(0, p - 32768), as (p - q, suffix at q). -/
def earlier (w : List Byte) (p : Nat) : List (Nat × List Byte) :=
  walkBack ((w.take p).reverse.take P.window) (w.drop p) 1

/-- `chain1(p)` (41_lz77_parser.md R504): empty for a position without a key. -/
def chain1 (w : List Byte) (p : Nat) : List (Nat × List Byte) :=
  match keyOf (w.drop p) with
  | none => []
  | some key => (earlier P w p).filter (fun c => keyOf c.2 == some key)

/-- The members of a chain that are among its first m₁, or among the first m₂ of those of run length r, in the
chain's order. -/
def firstOfBoth (r : Nat) : Nat → Nat → List (Nat × List Byte) → List (Nat × List Byte)
  | _, _, [] => []
  | m₁, m₂, c :: cs =>
    if runOf P c.2 = r then
      if 0 < m₁ ∨ 0 < m₂ then c :: firstOfBoth r (m₁ - 1) (m₂ - 1) cs else firstOfBoth r (m₁ - 1) (m₂ - 1) cs
    else
      if 0 < m₁ then c :: firstOfBoth r (m₁ - 1) m₂ cs else firstOfBoth r (m₁ - 1) m₂ cs

/-- `Cand(p)` (41_lz77_parser.md R504): the first MAXCHAIN entries of chain1 united with the first MAXCHAIN
entries of chain2, by increasing distance. -/
def candidates (w : List Byte) (maxChain p : Nat) : List (Nat × List Byte) :=
  firstOfBoth P (runOf P (w.drop p)) maxChain maxChain (chain1 P w p)

/-- `lim(p)` (41_lz77_parser.md R505). -/
def matchLimit (w : List Byte) (p : Nat) : Nat := min P.maxMatch (w.length - p)

/-- A sublength vector after one more candidate, of distance d and common prefix l: the lengths above those already
reached, up to l, are reached at distance d. -/
def extendSub (sub : List Nat) (d l : Nat) : List Nat := sub ++ List.replicate (l - (sub.length + (P.minMatch - 1))) d

/-- `Rec(p)` (41_lz77_parser.md R506): as the candidates come by increasing distance, the first to reach a length
has the least distance reaching it. -/
def matchRec (w : List Byte) (maxChain p : Nat) : MatchRec :=
  let sub := (candidates P w maxChain p).foldl
    (fun sub c => extendSub P sub c.1 (lcp (matchLimit P w p) c.2 (w.drop p))) []
  { best := if sub.isEmpty then 0 else sub.length + (P.minMatch - 1), sub := sub }

/-- `sub(p)[L]`, 0 where the record has none (41_lz77_parser.md R506). -/
def MatchRec.subAt (r : MatchRec) (len : Nat) : Nat := if len < P.minMatch then 0 else r.sub.getD (len - P.minMatch) 0

/-- What a match search reads: the window and MAXCHAIN (41_lz77_parser.md R501). -/
structure SearchCtx where
  window : List Byte
  maxChain : Nat
deriving DecidableEq, Repr

/-- The search context of a state. -/
def State.searchCtx (s : State) : SearchCtx := { window := s.window, maxChain := s.opt.maxChain.toNat }

/-- The cached record of a position, if its valid bit is 1 (41_lz77_parser.md R530). -/
def Cache.get? (c : Cache) (p : Nat) : Option MatchRec := (c.find? (fun e => e.1 == p)).map (·.2)

/-- Stores a position's record and sets its valid bit (41_lz77_parser.md R530). -/
def Cache.put (c : Cache) (p : Nat) (r : MatchRec) : Cache :=
  c.filter (fun e => decide (e.1 < p)) ++ (p, r) :: c.filter (fun e => decide (p < e.1))

/-- `Rec(p)` through the cache (41_lz77_parser.md R530): a hit returns the stored record, a miss runs the search
and stores its record. -/
def cachedRec (x : SearchCtx) (c : Cache) (p : Nat) : MatchRec × Cache :=
  match c.get? p with
  | some r => (r, c)
  | none => (matchRec P x.window x.maxChain p, c.put p (matchRec P x.window x.maxChain p))

/-- `Match(p, limit)` from the record of p: a length and its distance, or (0, 0) (41_lz77_parser.md R508). -/
def clipMatch (r : MatchRec) (limit : Nat) : Nat × Nat :=
  if min r.best limit < P.minMatch then (0, 0) else (min r.best limit, r.subAt P (min r.best limit))

/-- The literal entry of a position. -/
def litEntry (x : SearchCtx) (p : Nat) : Entry := { sym := .lit (x.window.getD p 0), pos := p }

/-- Does the lazy step emit a literal at p although a match of the given length was found? It looks at p + 1,
clipped at the range end (41_lz77_parser.md R521). -/
def lazyStep (x : SearchCtx) (lazy : Bool) (b p len : Nat) (c : Cache) : Bool × Cache :=
  if lazy && decide (p + 1 < b) then
    let r := cachedRec P x c (p + 1)
    (decide (len < (clipMatch P r.1 (b - p - 1)).1), r.2)
  else (false, c)

/-- `Greedy(a, b)` from position p on (41_lz77_parser.md R521); the first argument bounds the number of symbols
still to come. -/
def greedyFrom (x : SearchCtx) (lazy : Bool) (b : Nat) : Nat → Nat → Cache → List Entry × Cache
  | 0, _, c => ([], c)
  | k + 1, p, c =>
    if b ≤ p then ([], c)
    else
      let r := cachedRec P x c p
      let m := clipMatch P r.1 (b - p)
      if P.minMatch ≤ m.1 then
        let z := lazyStep P x lazy b p m.1 r.2
        if z.1 then
          let rest := greedyFrom x lazy b k (p + 1) z.2
          (litEntry x p :: rest.1, rest.2)
        else
          let rest := greedyFrom x lazy b k (p + m.1) z.2
          ({ sym := .ref m.1 m.2, pos := p } :: rest.1, rest.2)
      else
        let rest := greedyFrom x lazy b k (p + 1) r.2
        (litEntry x p :: rest.1, rest.2)

/-- `Greedy(a, b)` (41_lz77_parser.md R521): the entries, and the cache with the records it filled. -/
def greedyParse (x : SearchCtx) (lazy : Bool) (a b : Nat) (c : Cache) : List Entry × Cache :=
  greedyFrom P x lazy b (b - a) a c

end Sys2Proof.Machine
end

