-- ==== Sys2Proof/Machine/Parser.lean ====
section
/-! DEFINITION. Machine/Parser.lean: the meanings of FINDMATCH and GREEDY (41_lz77_parser.md R510, R520). -/

namespace Sys2Proof.Machine

variable (P : Config.Params)

/-- The SUBLEN words of a record: 0 for words 0 to 2 and beyond the best length (41_lz77_parser.md R510,
10_state.md R146). -/
def sublenWords (r : MatchRec) : List Nat := (List.range (P.maxMatch + 1)).map (r.subAt P)

/-- The checks of FINDMATCH in order (41_lz77_parser.md R510). -/
def checkFindmatch (s : State) : Except CmdError Unit := do
  checkWindow P s
  require (decide (s.argOf .x0 < s.inputLen)) (badArg ArgReg.x0.offset)

/-- FINDMATCH (41_lz77_parser.md R510): ARG0 = p, ARG1 = limit. -/
def findmatchCmd (s : State) : Run :=
  afterChecks s (checkFindmatch P s)
    (fun _ =>
      let r := cachedRec P s.searchCtx s.cache (s.argOf .x0)
      let m := clipMatch P r.1 (s.argOf .x1)
      .ok ((({ s with cache := r.2 }.storeTable .sublen (sublenWords P r.1)).setRes0 m.1).setRes1 m.2
        |>.setRes2 r.1.best |>.setRes3 (r.1.subAt P r.1.best)))

/-- The meaning of FINDMATCH on this hardware. -/
def execFindmatch (s : State) : Host.Outcome State Fault Refusal := (findmatchCmd Config.hw s).finish

/-- `Greedy(a, b)` into G, with G_LEN and the covered range (41_lz77_parser.md R520, 40_control.md R433). -/
def State.runGreedy (s : State) (a b : Nat) : List Entry × State :=
  let g := greedyParse P s.searchCtx s.opt.lazy a b s.cache
  (g.1, { { s with cache := g.2 }.storeEntries .g 0 g.1 with
    lens := { s.lens with gLen := word g.1.length, gA := word a, gB := word b } })

/-- GREEDY (41_lz77_parser.md R520): ARG0 = a, ARG1 = b. -/
def greedyCmd (s : State) : Run :=
  afterChecks s (checkBytes P s .x0 .x1)
    (fun _ =>
      let g := s.runGreedy P (s.argOf .x0) (s.argOf .x1)
      .ok (g.2.setRes0 g.1.length))

/-- The meaning of GREEDY on this hardware. -/
def execGreedy (s : State) : Host.Outcome State Fault Refusal := (greedyCmd Config.hw s).finish

end Sys2Proof.Machine
end

