-- ==== Sys2Proof/Machine/HuffmanCode.lean ====
section
/-! DEFINITION. Machine/HuffmanCode.lean: frequencies, the length-limited Huffman constructor, the completion
patch and canonical codes (44_huffman.md). -/

namespace Sys2Proof.Machine

variable (P : Config.Params)

/-! ## Frequencies -/

/-- The literal/length symbol of a symbol (44_huffman.md R810). -/
def Sym.litCode : Sym → Nat
  | .lit b => b.toNat
  | .ref len _ => (lengthRow len).code

/-- The distance symbol of a symbol, none for a literal (44_huffman.md R810). -/
def Sym.distCode : Sym → Option Nat
  | .lit _ => none
  | .ref _ dist => some (distanceRow dist).code

/-- How often each of the symbols 0 to n - 1 occurs. -/
def tally (n : Nat) (codes : List Nat) : List Nat :=
  (List.range n).map (fun s => (codes.filter (· == s)).length)

/-- `Count`: the literal/length frequencies (288 of them, the end-of-block symbol counted once) and the distance
frequencies (30) of a store range (44_huffman.md R810). -/
def countSyms (t : List Sym) : List Nat × List Nat :=
  (tally 288 (endOfBlock :: t.map Sym.litCode), tally P.dCodes (t.filterMap Sym.distCode))

/-! ## Package-merge (44_huffman.md R821) -/

/-- An item of a package-merge list. -/
structure Item where
  weight : Nat
  syms : List Nat
deriving DecidableEq, Repr

/-- Puts a leaf before the leaves of at least its weight. -/
def insertLeaf (x : Item) : List Item → List Item
  | [] => [x]
  | y :: ys => if x.weight ≤ y.weight then x :: y :: ys else y :: insertLeaf x ys

/-- The leaves: the symbols of nonzero frequency by weight ascending, then by symbol ascending. -/
def leaves (f : List Nat) : List Item :=
  ((f.zipIdx.filter (fun x => decide (0 < x.1))).map (fun x => (⟨x.1, [x.2]⟩ : Item))).foldr insertLeaf []

/-- The packages of a list: its items taken two by two. -/
def packages : List Item → List Item
  | x :: y :: rest => ⟨x.weight + y.weight, x.syms ++ y.syms⟩ :: packages rest
  | _ => []

/-- The first n items of the merge of packages and leaves by weight ascending; on equal weight the package comes
before the leaf. -/
def mergeFirst : Nat → List Item → List Item → List Item
  | 0, _, _ => []
  | n + 1, [], ls => ls.take (n + 1)
  | n + 1, ps, [] => ps.take (n + 1)
  | n + 1, p :: ps, l :: ls =>
    if p.weight ≤ l.weight then p :: mergeFirst n ps (l :: ls) else l :: mergeFirst n (p :: ps) ls

/-- One round: the packages of the list merged with the leaves, cut to n items; repeated k times. -/
def packageRounds (n : Nat) (ls : List Item) : Nat → List Item → List Item
  | 0, list => list
  | k + 1, list => packageRounds n ls k (mergeFirst n (packages list) ls)

/-- How often a symbol occurs in the items of a list. 44_huffman.md R821 says "the number of items of list whose
symbols contain s"; an item that holds s twice counts twice here, as the rule's "the sum of 2^-len[s] over nonzero
lengths is exactly 1" and its test vector H10 need (log 8). -/
def occurrences (s : Nat) (list : List Item) : Nat := (list.map (fun it => it.syms.count s)).sum

/-- `Katajainen(f, L)`: the code lengths of the symbols 0 to |f| - 1 (44_huffman.md R821, R822). -/
def katajainen (f : List Nat) (limit : Nat) : List Nat :=
  let ls := leaves f
  match ls with
  | [] => f.map (fun _ => 0)
  | [_] => f.map (fun w => if 0 < w then 1 else 0)
  | _ :: _ :: _ =>
    let n := 2 * ls.length - 2
    let list := packageRounds n ls (limit - 1) (ls.take n)
    f.zipIdx.map (fun x => if 0 < x.1 then occurrences x.2 list else 0)

/-! ## The completion patch -/

/-- The symbols with a code: those of nonzero length. -/
def codedSyms (lens : List Nat) : List Nat :=
  (lens.zipIdx.filter (fun x => decide (0 < x.1))).map (·.2)

/-- `Patch` (44_huffman.md R830): completes a code of fewer than two symbols. -/
def patchLens (lens : List Nat) : List Nat :=
  match codedSyms lens with
  | [] => (lens.set 0 1).set 1 1
  | [s] => lens.set (if s = 0 then 1 else 0) 1
  | _ => lens

/-! ## Canonical codes (44_huffman.md R841) -/

/-- The coded symbols with their lengths, by (length, symbol) ascending; lengths are at most 15. -/
def codeOrder (lens : List Nat) : List (Nat × Nat) :=
  (List.range' 1 P.maxBits).flatMap (fun l =>
    (lens.zipIdx.filter (fun x => x.1 == l)).map (fun x => (x.2, l)))

/-- Consecutive codes along that order: after a code c of length l, the next is (c + 1) << (l' - l). -/
def assignCodes : Option (Nat × Nat) → List (Nat × Nat) → List (Nat × Nat)
  | _, [] => []
  | none, (s, l) :: rest => (s, 0) :: assignCodes (some (0, l)) rest
  | some (c, l₀), (s, l) :: rest =>
    (s, (c + 1) <<< (l - l₀)) :: assignCodes (some ((c + 1) <<< (l - l₀), l)) rest

/-- `Canonical`: the code of every symbol, 0 for a symbol of length 0 (44_huffman.md R841). -/
def canonical (lens : List Nat) : List Nat :=
  let codes := assignCodes none (codeOrder P lens)
  lens.zipIdx.map (fun x => if x.1 = 0 then 0 else (codes.lookup x.2).getD 0)

/-- The Kraft sum K in units of 2^-15 (44_huffman.md R840). -/
def kraftSum (lens : List Nat) : Nat :=
  (lens.map (fun l => if 0 < l then 2 ^ (P.maxBits - l) else 0)).sum

end Sys2Proof.Machine
end

