-- ==== Sys2Proof/Machine/BlockSize.lean ====
section
/-! DEFINITION. Machine/BlockSize.lean: the tables of a dynamic block and the exact bit lengths of the three block
encodings (45_block_writer.md R920 to R935), which the writer, the squeeze and the splitter share. -/

namespace Sys2Proof.Machine

variable (P : Config.Params)

/-! ## Symbol data -/

/-- The bits of a symbol's code and extra bits under the given code lengths (45_block_writer.md R920). -/
def symBits (ll dd : List Nat) : Sym → Nat
  | .lit b => ll.getD b.toNat 0
  | .ref len dist =>
    ll.getD (lengthRow len).code 0 + (lengthRow len).extra + dd.getD (distanceRow dist).code 0
      + (distanceRow dist).extra

/-- `DataBits` (45_block_writer.md R920): the symbols' bits and the end-of-block code's. -/
def dataBits (t : List Sym) (ll dd : List Nat) : Nat := (t.map (symBits ll dd)).sum + ll.getD endOfBlock 0

/-! ## Run-length coding of code lengths (45_block_writer.md R930) -/

/-- The maximal runs of equal values, as (value, length). -/
def runsOf : List Nat → List (Nat × Nat)
  | [] => []
  | x :: xs =>
    match runsOf xs with
    | (y, k) :: rest => if x = y then (y, k + 1) :: rest else (x, 1) :: (y, k) :: rest
    | [] => [(x, 1)]

/-- The items of a run of r zeros; the first argument bounds the pieces of symbol 18. -/
def zeroItems : Nat → Nat → List (Nat × Nat)
  | 0, r => List.replicate r (0, 0)
  | k + 1, r =>
    if 11 ≤ r then (18, min r 138 - 11) :: zeroItems k (r - min r 138)
    else if 3 ≤ r then [(17, r - 3)]
    else List.replicate r (0, 0)

/-- The items of r further repeats of x; the first argument bounds the pieces of symbol 16. -/
def repeatItems (x : Nat) : Nat → Nat → List (Nat × Nat)
  | 0, r => List.replicate r (x, 0)
  | k + 1, r =>
    if 3 ≤ r then (16, min r 6 - 3) :: repeatItems x k (r - min r 6)
    else List.replicate r (x, 0)

/-- The items of one run. -/
def runItems (run : Nat × Nat) : List (Nat × Nat) :=
  if run.1 = 0 then zeroItems run.2 run.2 else (run.1, 0) :: repeatItems run.1 run.2 (run.2 - 1)

/-- `RLE` (45_block_writer.md R930): code-length symbols with their extra-bit values. -/
def rle (lens : List Nat) : List (Nat × Nat) := (runsOf lens).flatMap runItems

/-! ## Dynamic tables (45_block_writer.md R931) -/

/-- One more than the largest index with a nonzero value, 0 when there is none. -/
def usedLength (l : List Nat) : Nat := (l.reverse.dropWhile (· == 0)).length

/-- The code tables of a dynamic block. -/
structure DynTables where
  ll : List Nat
  dd : List Nat
  nlit : Nat
  ndist : Nat
  items : List (Nat × Nat)
  cl : List Nat
  ncl : Nat
deriving DecidableEq, Repr

/-- `DynTrees` (45_block_writer.md R931). -/
def dynTables (t : List Sym) : DynTables :=
  let freq := countSyms P t
  let ll := patchLens (katajainen (freq.1.take P.llCodes) P.maxBits) ++ [0, 0]
  let dd := patchLens (katajainen freq.2 P.maxBits)
  let nlit := max 257 (usedLength ll)
  let ndist := max 1 (usedLength dd)
  let items := rle (ll.take nlit ++ dd.take ndist)
  let cl := patchLens (katajainen (tally 19 (items.map (·.1))) P.clMaxBits)
  let ncl := max 4 (usedLength (clOrder.map (fun c => cl.getD c 0)))
  { ll := ll, dd := dd, nlit := nlit, ndist := ndist, items := items, cl := cl, ncl := ncl }

/-- `DynBits` (45_block_writer.md R932). -/
def dynBits (t : List Sym) : Nat :=
  let d := dynTables P t
  3 + 5 + 5 + 4 + 3 * d.ncl + (d.items.map (fun x => d.cl.getD x.1 0 + clExtra x.1)).sum + dataBits t d.ll d.dd

/-- `FixedBits` (45_block_writer.md R933). -/
def fixedBits (t : List Sym) : Nat := 3 + dataBits t fixedLitLens fixedDistLens

/-- The chunks of a stored encoding of n bytes (45_block_writer.md R950, R934): pieces of 65535 and the rest, one
empty chunk when n = 0. The first argument bounds the number of full pieces. -/
def chunkLens : Nat → Nat → List Nat
  | 0, n => [n]
  | k + 1, n => if n ≤ P.storedMax then [n] else P.storedMax :: chunkLens k (n - P.storedMax)

/-- The chunks of n bytes. -/
def storedChunks (n : Nat) : List Nat := chunkLens P (n / P.storedMax) n

/-- The padding after a stored header that begins at stream position pos (45_block_writer.md R934). -/
def storedPad (pos : Nat) : Nat := (8 - (pos + 3) % 8) % 8

/-- The bits of stored chunks from a stream position on (45_block_writer.md R934). -/
def chunkBits : Nat → List Nat → Nat
  | _, [] => 0
  | pos, len :: rest =>
    let n := 3 + storedPad pos + 32 + 8 * len
    n + chunkBits (pos + n) rest

/-- `StoredBits(pos, n)` (45_block_writer.md R934). -/
def storedBits (pos n : Nat) : Nat := chunkBits pos (storedChunks P n)

/-- `EstBits` (45_block_writer.md R935). -/
def estBits (t : List Sym) : Nat := min (dynBits P t) (fixedBits t)

/-- The squeeze estimator under the hint h = CTRL.BTYPE (42_squeeze.md R651): FixedBits under FIXED, else
EstBits. -/
def est (h : Nat) (t : List Sym) : Nat := if h = 1 then fixedBits t else estBits P t

/-- The block type AutoBlock chooses at stream position pos for a block of n bytes (45_block_writer.md R980): 0
stored, 1 fixed, 2 dynamic. -/
def autoChoice (pos n : Nat) (t : List Sym) : Nat :=
  let d := dynBits P t
  let f := fixedBits t
  let st := storedBits P pos n
  if n ≤ P.storedMax ∧ st < d ∧ st < f then 0 else if f < d then 1 else 2

end Sys2Proof.Machine
end

