-- ==== Sys2Proof/Machine/Splitter.lean ====
section
/-! DEFINITION. Machine/Splitter.lean: the block splitter and the meaning of SPLIT (43_block_splitter.md). -/

namespace Sys2Proof.Machine

variable (P : Config.Params)

/-- A symbol range of the bisection: [i, j), still open or closed (43_block_splitter.md R711). -/
structure SymRange where
  i : Nat
  j : Nat
  isOpen : Bool
deriving DecidableEq, Repr

/-- The symbols of the range [i, j). -/
def slice {α : Type} (l : List α) (i j : Nat) : List α := (l.drop i).take (j - i)

/-- `est(i, j)` (43_block_splitter.md R711). -/
def rangeEst (h : Nat) (t : List Sym) (i j : Nat) : Nat := est P h (slice t i j)

/-- The open range of at least two symbols with the most symbols, the first on a tie (43_block_splitter.md R711);
the ranges are in rising order, so the first has the lowest i. -/
def pickRange : List SymRange → Option SymRange
  | [] => none
  | r :: rs =>
    if r.isOpen && decide (2 ≤ r.j - r.i) then
      match pickRange rs with
      | none => some r
      | some q => if r.j - r.i < q.j - q.i then some q else some r
    else pickRange rs

/-- Of the n split points from k on, the one with the least est(i, k) + est(k, j), the smallest on a tie, given the
best so far (43_block_splitter.md R711). -/
def bestSplitFrom (h : Nat) (t : List Sym) (i j : Nat) : Nat → Nat → Nat × Nat → Nat × Nat
  | 0, _, best => best
  | n + 1, k, best =>
    let v := rangeEst P h t i k + rangeEst P h t k j
    bestSplitFrom h t i j n (k + 1) (if v < best.2 then (k, v) else best)

/-- `(k*, v)` of a range of at least two symbols (43_block_splitter.md R711). -/
def bestSplit (h : Nat) (t : List Sym) (i j : Nat) : Nat × Nat :=
  bestSplitFrom P h t i j (j - i - 2) (i + 2) (i + 1, rangeEst P h t i (i + 1) + rangeEst P h t (i + 1) j)

/-- A range of the list replaced by others. -/
def replaceRange (r : SymRange) (new : List SymRange) : List SymRange → List SymRange
  | [] => []
  | q :: qs => if q = r then new ++ qs else q :: replaceRange r new qs

/-- The loop of `Bisect` (43_block_splitter.md R711). The first argument bounds its rounds: each round splits or
closes an open range, so 2M + 1 rounds suffice for M symbols. -/
def bisectLoop (h splitMax margin : Nat) (t : List Sym) : Nat → List SymRange → List SymRange
  | 0, ranges => ranges
  | n + 1, ranges =>
    if splitMax ≠ 0 ∧ splitMax ≤ ranges.length then ranges
    else if P.planCap ≤ ranges.length then ranges
    else
      match pickRange ranges with
      | none => ranges
      | some r =>
        let b := bestSplit P h t r.i r.j
        if b.2 + margin < rangeEst P h t r.i r.j then
          bisectLoop h splitMax margin t n
            (replaceRange r [{ i := r.i, j := b.1, isOpen := true }, { i := b.1, j := r.j, isOpen := true }] ranges)
        else
          bisectLoop h splitMax margin t n (replaceRange r [{ r with isOpen := false }] ranges)

/-- `Bisect(M)` (43_block_splitter.md R711). -/
def bisect (h splitMax margin : Nat) (t : List Sym) : List SymRange :=
  bisectLoop P h splitMax margin t (2 * t.length + 1) [{ i := 0, j := t.length, isOpen := true }]

/-- A block of the plan as SPLIT writes it: its byte range and its symbol range (30_encoding.md R325). -/
structure PlanBlock where
  a : Nat
  b : Nat
  gs : Nat
  ge : Nat
deriving DecidableEq, Repr

/-- The byte range of a symbol range of G, which covers [ga, gb) (43_block_splitter.md R712). -/
def planBlock (entries : List Entry) (ga gb : Nat) (r : SymRange) : PlanBlock :=
  { a := if r.i = 0 then ga else (entries[r.i]?.map Entry.pos).getD gb
    b := if r.j = entries.length then gb else (entries[r.j]?.map Entry.pos).getD gb
    gs := r.i, ge := r.j }

/-- The eight words SPLIT writes for a block (30_encoding.md R325). -/
def PlanBlock.words (p : PlanBlock) : List Word :=
  [word p.a, word p.b, word p.gs, word p.ge, 0, 0, 0, 0]

/-- `Split()` of a greedy store into PLAN, with PLAN_LEN (43_block_splitter.md R710, 40_control.md R433). -/
def State.runSplit (s : State) (entries : List Entry) : List PlanBlock × State :=
  let blocks := (bisect P s.opt.btype s.opt.splitMax.toNat s.opt.splitMargin.toNat (entries.map Entry.sym)).map
    (planBlock entries s.lens.gA.toNat s.lens.gB.toNat)
  (blocks, { s.storeWords (planAddr 0 0) (blocks.flatMap PlanBlock.words) with
    lens := { s.lens with planLen := word blocks.length } })

/-- The checks of SPLIT in order, with the greedy store they read (43_block_splitter.md R710). -/
def checkSplit (s : State) : Except CmdError (List Entry) := do
  checkHint s
  require (decide (s.storeLen .g ≤ P.storeCap)) (badArg (storeLenOffset .g))
  let entries ← readEntries P s .g (s.storeLen .g) 0
  checkTiling entries 0 s.lens.gA.toNat s.lens.gB.toNat
  return entries

/-- SPLIT (43_block_splitter.md R710). -/
def splitCmd (s : State) : Run :=
  afterChecks s (checkSplit P s)
    (fun entries =>
      let p := s.runSplit P entries
      .ok (p.2.setRes0 p.1.length))

/-- The meaning of SPLIT on this hardware. -/
def execSplit (s : State) : Host.Outcome State Fault Refusal := (splitCmd Config.hw s).finish

end Sys2Proof.Machine
end

