-- ==== Sys2Proof/Machine/ShortestPath.lean ====
section
/-! DEFINITION. Machine/ShortestPath.lean: the cost model and the shortest-path pass (42_squeeze.md R610 to R643). -/

namespace Sys2Proof.Machine

variable (P : Config.Params)

/-- A cost model: the cost in bits of each literal/length symbol and of each distance symbol (42_squeeze.md R610). -/
structure CostModel where
  ll : List Nat
  dd : List Nat
deriving DecidableEq, Repr

/-- `CostFromLens` (42_squeeze.md R611). -/
def costFromLens (absent : Nat) (ll dd : List Nat) : CostModel :=
  { ll := ll.map (fun l => if 0 < l then l else absent), dd := dd.map (fun l => if 0 < l then l else absent) }

/-- `CostStat` of a symbol range (42_squeeze.md R613). -/
def costStat (absent : Nat) (t : List Sym) : CostModel :=
  costFromLens absent (katajainen ((countSyms P t).1.take P.llCodes) P.maxBits)
    (katajainen (countSyms P t).2 P.maxBits)

/-- `CostFixed` (42_squeeze.md R613). -/
def costFixed : CostModel :=
  { ll := fixedLitLens.take P.llCodes, dd := fixedDistLens.take P.dCodes }

/-- `LitCost(b)` (42_squeeze.md R612). -/
def CostModel.lit (c : CostModel) (b : Byte) : Nat := c.ll.getD b.toNat 0

/-- `MatchCost(L, d)` (42_squeeze.md R612). -/
def CostModel.ref (c : CostModel) (len dist : Nat) : Nat :=
  c.ll.getD (lengthRow len).code 0 + (lengthRow len).extra + c.dd.getD (distanceRow dist).code 0
    + (distanceRow dist).extra

/-- dp and prev of one position (42_squeeze.md R641): the least cost found so far and the symbol of its final
edge; no symbol at the start of the range. A position no edge has reached yet (dp = infinity) has no slot. -/
structure Slot where
  cost : Nat
  via : Option Sym
deriving DecidableEq, Repr

/-- The match edges of a position, from length len on, along its sublength vector (42_squeeze.md R641). -/
def matchEdges (c : CostModel) : Nat → List Nat → List (Option (Nat × Sym))
  | _, [] => []
  | len, d :: ds => some (c.ref len d, .ref len d) :: matchEdges c (len + 1) ds

/-- The edges out of position p: entry k is the edge to p + k + 1, the literal first, none of a length
between, then the matches from MIN_MATCH up to maxL = min(best, b - p) (42_squeeze.md R641). -/
def edgesFrom (x : SearchCtx) (c : CostModel) (b p : Nat) (r : MatchRec) : List (Option (Nat × Sym)) :=
  some (c.lit (x.window.getD p 0), .lit (x.window.getD p 0)) :: List.replicate (P.minMatch - 2) none
    ++ matchEdges c P.minMatch (r.sub.take (min r.best (b - p) - (P.minMatch - 1)))

/-- Relaxation of one position (42_squeeze.md R641, R642): an edge replaces what is there when its cost is not
above it. -/
def relaxSlot (cost : Nat) (sym : Sym) : Option Slot → Slot
  | none => { cost := cost, via := some sym }
  | some old => if cost ≤ old.cost then { cost := cost, via := some sym } else old

/-- Relaxation along the edges out of a position of cost `base`. -/
def relax (base : Nat) : List (Option (Nat × Sym)) → List (Option Slot) → List (Option Slot)
  | [], dp => dp
  | _, [] => []
  | none :: es, slot :: dp => slot :: relax base es dp
  | some e :: es, slot :: dp => some (relaxSlot (base + e.1) e.2 slot) :: relax base es dp

/-- The left-to-right pass from position p: `dp` holds the slots of p, ..., b and `done` those of p-1, ..., a. It
answers the slots of b, ..., a and the cache (42_squeeze.md R641). The first argument is b - p. -/
def passFrom (x : SearchCtx) (c : CostModel) (b : Nat) :
    Nat → Nat → List (Option Slot) → List (Option Slot) → Cache → List (Option Slot) × Cache
  | 0, _, dp, done, cache => (dp.head?.join :: done, cache)
  | k + 1, p, dp, done, cache =>
    match dp with
    | [] => (done, cache)
    | slot :: rest =>
      let r := cachedRec P x cache p
      let base := (slot.map Slot.cost).getD 0
      passFrom x c b k (p + 1) (relax base (edgesFrom P x c b p r.1) rest) (slot :: done) r.2

/-- The trace back from position t along prev (42_squeeze.md R642): `slots` are those of t, ..., a. -/
def traceBack : Nat → Nat → List (Option Slot) → List Entry → List Entry
  | 0, _, _, acc => acc
  | k + 1, t, slots, acc =>
    match slots with
    | some { cost := _, via := some sym } :: rest =>
      traceBack k (t - sym.span) (rest.drop (sym.span - 1)) ({ sym := sym, pos := t - sym.span } :: acc)
    | _ => acc

/-- What a pass answers: the entries of the path, its cost, and the cache with the records it filled. -/
structure PathResult where
  path : List Entry
  cost : Nat
  cache : Cache
deriving DecidableEq, Repr

/-- `ShortestPath(a, b, LLC, DC)` (42_squeeze.md R641, R642). -/
def shortestPath (x : SearchCtx) (c : CostModel) (a b : Nat) (cache : Cache) : PathResult :=
  let start := some { cost := 0, via := none } :: List.replicate (b - a) none
  let pass := passFrom P x c b (b - a) a start [] cache
  { path := traceBack (b - a) b pass.1 [], cost := ((pass.1.head?.join).map Slot.cost).getD 0, cache := pass.2 }

end Sys2Proof.Machine
end

