-- ==== Sys2Proof/Machine/Squeeze.lean ====
section
/-! DEFINITION. Machine/Squeeze.lean: the squeeze state machine and the meanings of COSTSTAT, COSTFIXED, SPPASS and
SQUEEZE (42_squeeze.md). -/

namespace Sys2Proof.Machine

variable (P : Config.Params)

/-- The cost model a pass reads from LLCOST and DCOST: bits [15:0] of each word (42_squeeze.md R610, R640). -/
def State.loadCosts (s : State) : CostModel :=
  { ll := (s.readTable .llcost P.llCodes).map (· % 2 ^ 16)
    dd := (s.readTable .dcost P.dCodes).map (· % 2 ^ 16) }

/-- LLCOST and DCOST <- a cost model, bits [31:16] 0 (42_squeeze.md R620). -/
def State.storeCosts (s : State) (c : CostModel) : State := (s.storeTable .llcost c.ll).storeTable .dcost c.dd

/-- The cost of an absent symbol, ABSENTCOST[15:0] (42_squeeze.md R611). -/
def State.absent (s : State) : Nat := s.opt.absentCost.toNat % 2 ^ 16

/-- COSTSTAT (42_squeeze.md R620): ARG0 = i, ARG1 = j. -/
def coststatCmd (store : StoreSel) (s : State) : Run :=
  afterChecks s (loadRange P s store .x0 .x1)
    (fun entries => .ok (s.storeCosts (costStat P s.absent (entries.map Entry.sym))))

/-- The meaning of COSTSTAT on this hardware. -/
def execCoststat (store : StoreSel) (s : State) : Host.Outcome State Fault Refusal :=
  (coststatCmd Config.hw store s).finish

/-- COSTFIXED (42_squeeze.md R630). -/
def costfixedCmd (s : State) : Run :=
  .ok (s.storeCosts (costFixed P))

/-- The meaning of COSTFIXED on this hardware. -/
def execCostfixed (s : State) : Host.Outcome State Fault Refusal := (costfixedCmd Config.hw s).finish

/-- The check that a pass over n bytes fits in S (42_squeeze.md R640, R650). -/
def checkStoreRoom (s : State) (n : Nat) : Except CmdError Unit :=
  require (decide (s.storeLen .s ≤ P.storeCap) && decide (s.storeLen .s + n ≤ P.storeCap))
    (badArg (storeLenOffset .s))

/-- The checks of SPPASS in order (42_squeeze.md R640). -/
def checkSppass (s : State) : Except CmdError Unit := do
  checkBytes P s .x0 .x1
  checkStoreRoom P s (s.argOf .x1 - s.argOf .x0)

/-- SPPASS (42_squeeze.md R640): ARG0 = a, ARG1 = b. -/
def sppassCmd (s : State) : Run :=
  afterChecks s (checkSppass P s)
    (fun _ =>
      let r := shortestPath P s.searchCtx (s.loadCosts P) (s.argOf .x0) (s.argOf .x1) s.cache
      let s₁ := { s with cache := r.cache }.storeEntries .s (s.storeLen .s) r.path
      .ok ((({ s₁ with lens := { s₁.lens with sLen := word (s.storeLen .s + r.path.length) } }.setRes0
        r.path.length).setRes1 (r.cost % 2 ^ 32)).setRes2 (r.cost / 2 ^ 32)))

/-- The meaning of SPPASS on this hardware. -/
def execSppass (s : State) : Host.Outcome State Fault Refusal := (sppassCmd Config.hw s).finish

/-! ## The squeeze state machine (42_squeeze.md R650 to R655) -/

/-- The squeeze's working state between iterations (42_squeeze.md R652, R654). -/
structure SqueezeState where
  best : List Entry
  bestBits : Nat
  costs : CostModel
  stale : Nat
  iters : Nat
  cache : Cache
deriving DecidableEq, Repr

/-- The next cost model: the fixed code's under the FIXED hint, else the parse's statistics (42_squeeze.md R652,
R654). -/
def nextCosts (h absent : Nat) (t : List Sym) : CostModel := if h = 1 then costFixed P else costStat P absent t

/-- SQ_BOOT (42_squeeze.md R652). -/
def squeezeBoot (h absent : Nat) (block : List Entry) (cache : Cache) : SqueezeState :=
  { best := block, bestBits := est P h (block.map Entry.sym), costs := nextCosts P h absent (block.map Entry.sym),
    stale := 0, iters := 0, cache := cache }

/-- One iteration, SQ_PATH to SQ_UPDATE (42_squeeze.md R653, R654). -/
def squeezeStep (x : SearchCtx) (h absent a b : Nat) (q : SqueezeState) : SqueezeState :=
  let r := shortestPath P x q.costs a b q.cache
  let bits := est P h (r.path.map Entry.sym)
  let better := decide (bits < q.bestBits)
  { best := if better then r.path else q.best
    bestBits := if better then bits else q.bestBits
    costs := nextCosts P h absent (r.path.map Entry.sym)
    stale := if better then 0 else q.stale + 1
    iters := q.iters + 1
    cache := r.cache }

/-- The iterations: at most NUMITER (the first argument), until stale >= STAGNATION (42_squeeze.md R653, R654). -/
def squeezeLoop (x : SearchCtx) (h absent stagnation a b : Nat) : Nat → SqueezeState → SqueezeState
  | 0, q => q
  | n + 1, q =>
    let q' := squeezeStep P x h absent a b q
    if stagnation ≤ q'.stale then q' else squeezeLoop x h absent stagnation a b n q'

/-- The squeeze of a block [a, b) with greedy store `block` (42_squeeze.md R652 to R654). -/
def State.squeezeBlock (s : State) (a b : Nat) (block : List Entry) : SqueezeState :=
  squeezeLoop P s.searchCtx s.opt.btype s.absent s.opt.stagnation.toNat a b s.opt.numIter.toNat
    (squeezeBoot P s.opt.btype s.absent block s.cache)

/-- `Squeeze(j)` (42_squeeze.md R655, without the RES registers, 40_control.md R433): the best store appended to S,
and PLAN[j].SS, SE, BITS, S_LEN, ITER_COUNT and BEST_BITS. -/
def State.runSqueeze (s : State) (j a b : Nat) (block : List Entry) : SqueezeState × State :=
  let q := s.squeezeBlock P a b block
  let s0 := s.storeLen .s
  let s₁ := { s with cache := q.cache }.storeEntries .s s0 q.best
  let s₂ := s₁.storeWords (planAddr j 4) [word s0, word (s0 + q.best.length)]
  let s₃ := s₂.storeWords (planAddr j 7) [word q.bestBits]
  (q, { s₃ with
    lens := { s₃.lens with sLen := word (s0 + q.best.length) }
    obs := { s₃.obs with iterCount := word q.iters, bestBits := word q.bestBits } })

/-- The operand checks of SQUEEZE in the order of 42_squeeze.md R650, then the symbol check and the tiling check of
the block's greedy store, which they answer. -/
def checkSqueeze (s : State) : Except CmdError (List Entry) := do
  let j := s.argOf .x0
  let a := s.planWord j 0
  let b := s.planWord j 1
  let gs := s.planWord j 2
  let ge := s.planWord j 3
  checkHint s
  checkWindow P s
  require (decide (s.lens.planLen.toNat ≤ P.planCap)) (badArg Csr.planLen.offset)
  require (decide (j < s.lens.planLen.toNat)) (badArg ArgReg.x0.offset)
  require (decide (s.storeLen .g ≤ P.storeCap)) (badArg (storeLenOffset .g))
  require (decide (a ≤ s.inputLen)) (badArg (planAddr j 0))
  require (decide (a ≤ b) && decide (b ≤ s.inputLen)) (badArg (planAddr j 1))
  require (decide (gs ≤ s.storeLen .g)) (badArg (planAddr j 2))
  require (decide (gs ≤ ge) && decide (ge ≤ s.storeLen .g)) (badArg (planAddr j 3))
  checkStoreRoom P s (b - a)
  let entries ← readEntries P s .g (ge - gs) gs
  checkTiling entries gs a b
  return entries

/-- SQUEEZE (42_squeeze.md R650, R655): ARG0 = j. -/
def squeezeCmd (s : State) : Run :=
  afterChecks s (checkSqueeze P s)
    (fun block =>
      let j := s.argOf .x0
      let q := s.runSqueeze P j (s.planWord j 0) (s.planWord j 1) block
      .ok (((q.2.setRes0 q.1.best.length).setRes1 q.1.bestBits).setRes2 q.1.iters))

/-- The meaning of SQUEEZE on this hardware. -/
def execSqueeze (s : State) : Host.Outcome State Fault Refusal := (squeezeCmd Config.hw s).finish

end Sys2Proof.Machine
end

