-- ==== Sys2Proof/Machine/BitPacker.lean ====
section
/-! DEFINITION. Machine/BitPacker.lean: the bit packer and the block encoders (45_block_writer.md R900 to R980). -/

namespace Sys2Proof.Machine

variable (P : Config.Params)

/-- The stream position in bits (45_block_writer.md R900). -/
def State.streamPos (s : State) : Nat := 8 * s.packer.outLen.toNat + s.packer.bitCnt.toNat

/-- `BITBUF[cnt] <- x` (45_block_writer.md R901). -/
def putInBuf (buf : Byte) (cnt : Nat) (x : Bool) : Byte :=
  (buf &&& ~~~(1#8 <<< cnt)) ||| (if x then 1#8 <<< cnt else 0#8)

/-- BITSTATE after WRITE_ERROR: any value (60_exceptions.md R1012; log 6). -/
def State.loseBitState (s : State) : State :=
  let drawn := s.draw
  { drawn.2 with packer := { s.packer with
      bitCnt := drawn.1.extractLsb' 0 3, bitBuf := drawn.1.extractLsb' 8 8 } }

/-- `PutBit(x)` (45_block_writer.md R901): the eighth bit completes a byte, which is written to OUT[OUT_LEN] unless
OUT_LEN >= OUT_LIMIT, the output-write failure. -/
def putBit (x : Bool) (s : State) : Run :=
  let buf := putInBuf s.packer.bitBuf s.packer.bitCnt.toNat x
  if s.packer.bitCnt.toNat + 1 = 8 then
    if s.opt.outLimit.toNat ≤ s.packer.outLen.toNat then
      .stop { code := .writeError, info := s.packer.outLen } s.loseBitState
    else
      .ok { s.storeBytes (Region.output.entry s.packer.outLen.toNat) [buf] with
            packer := { s.packer with outLen := s.packer.outLen + 1, bitCnt := 0, bitBuf := 0 } }
  else
    .ok { s with packer := { s.packer with bitCnt := s.packer.bitCnt + 1, bitBuf := buf } }

/-- PutBit of each bit in order. -/
def putAll : List Bool → State → Run
  | [], s => .ok s
  | x :: xs, s => (putBit x s).andThen (putAll xs)

/-- The bits of an n-bit number, least significant first: what `PutBits(v, n)` writes (45_block_writer.md R902). -/
def bitsOf (v n : Nat) : List Bool := (List.range n).map (fun k => v.testBit k)

/-- The bits of an n-bit Huffman code, most significant first: what `PutHuff(c, n)` writes
(45_block_writer.md R903). -/
def huffBits (c n : Nat) : List Bool := (bitsOf c n).reverse

/-- The zero bits `Flush()` adds: up to the next byte boundary (45_block_writer.md R904). -/
def State.flushCount (s : State) : Nat := (8 - s.packer.bitCnt.toNat) % 8

/-- `Flush()` (45_block_writer.md R904). -/
def flush (s : State) : Run := putAll (List.replicate s.flushCount false) s

/-- `Header(final, t)` (45_block_writer.md R905, 30_encoding.md R330). -/
def putHeader (final : Bool) (t : Nat) (s : State) : Run :=
  (putAll (final :: bitsOf t 2) s).andThen (fun s =>
    .ok { s with packer := { s.packer with
            blocksOut := s.packer.blocksOut + 1
            lastBlock := BitVec.ofBool final ++ BitVec.ofNat 2 t } })

/-- The bits of one symbol (45_block_writer.md R920, 30_encoding.md R338). -/
def symCode (ll llc dd dc : List Nat) : Sym → List Bool
  | .lit b => huffBits (llc.getD b.toNat 0) (ll.getD b.toNat 0)
  | .ref len dist =>
    huffBits (llc.getD (lengthRow len).code 0) (ll.getD (lengthRow len).code 0)
      ++ bitsOf (len - (lengthRow len).base) (lengthRow len).extra
      ++ huffBits (dc.getD (distanceRow dist).code 0) (dd.getD (distanceRow dist).code 0)
      ++ bitsOf (dist - (distanceRow dist).base) (distanceRow dist).extra

/-- The bits `EmitData` writes (45_block_writer.md R920). -/
def dataCode (t : List Sym) (ll llc dd dc : List Nat) : List Bool :=
  t.flatMap (symCode ll llc dd dc) ++ huffBits (llc.getD endOfBlock 0) (ll.getD endOfBlock 0)

/-- The bits of a fixed block after its header (45_block_writer.md R960). -/
def fixedBody (t : List Sym) : List Bool :=
  dataCode t fixedLitLens (canonical P fixedLitLens) fixedDistLens (canonical P fixedDistLens)

/-- The bits of a dynamic block after its header (45_block_writer.md R970, 30_encoding.md R336). -/
def dynBody (t : List Sym) : List Bool :=
  let d := dynTables P t
  let clc := canonical P d.cl
  bitsOf (d.nlit - 257) 5 ++ bitsOf (d.ndist - 1) 5 ++ bitsOf (d.ncl - 4) 4
    ++ (clOrder.take d.ncl).flatMap (fun c => bitsOf (d.cl.getD c 0) 3)
    ++ d.items.flatMap (fun x => huffBits (clc.getD x.1 0) (d.cl.getD x.1 0) ++ bitsOf x.2 (clExtra x.1))
    ++ dataCode t d.ll (canonical P d.ll) d.dd (canonical P d.dd)

/-- `FixedBlock(T, final)` (45_block_writer.md R960). -/
def fixedBlock (t : List Sym) (final : Bool) (s : State) : Run :=
  (putHeader final 1 s).andThen (putAll (fixedBody P t))

/-- `DynamicBlock(T, final)` (45_block_writer.md R970). -/
def dynamicBlock (t : List Sym) (final : Bool) (s : State) : Run :=
  (putHeader final 2 s).andThen (putAll (dynBody P t))

/-- LEN, NLEN and the data bytes of a stored chunk (30_encoding.md R335, 45_block_writer.md R950). -/
def storedBody (bytes : List Byte) : List Bool :=
  bitsOf bytes.length 16 ++ bitsOf (bytes.length ^^^ 0xFFFF) 16 ++ bytes.flatMap (fun b => bitsOf b.toNat 8)

/-- The chunks of a stored encoding of the window bytes from p on, the last one carrying `final`
(45_block_writer.md R950). -/
def storedChunksFrom (final : Bool) : List Nat → Nat → State → Run
  | [], _, s => .ok s
  | len :: rest, p, s =>
    (putHeader (final && rest.isEmpty) 0 s).andThen (fun s =>
      (flush s).andThen (fun s =>
        (putAll (storedBody (s.readBytes (Region.input.entry p) len)) s).andThen
          (storedChunksFrom final rest (p + len))))

/-- `StoredBlocks(a, b, final)` (45_block_writer.md R950). -/
def storedBlocks (a b : Nat) (final : Bool) (s : State) : Run :=
  storedChunksFrom final (storedChunks P (b - a)) a s

/-- `AutoBlock(T, [a, b), final)` with the block type it chose (45_block_writer.md R980). -/
def autoBlock (t : List Sym) (a b : Nat) (final : Bool) (s : State) : Run :=
  match autoChoice P s.streamPos (b - a) t with
  | 0 => storedBlocks P a b final s
  | 1 => fixedBlock P t final s
  | _ => dynamicBlock P t final s

end Sys2Proof.Machine
end

