-- ==== Sys2Proof/Machine/Writer.lean ====
section
/-! DEFINITION. Machine/Writer.lean: the meanings of the eight block writer commands (45_block_writer.md). -/

namespace Sys2Proof.Machine

variable (P : Config.Params)

/-- RES0 <- pos - p0, with pos the stream position now (45_block_writer.md R951, R961, R971, R982). -/
def State.setWritten (p0 : Nat) (s : State) : State := s.setRes0 (s.streamPos - p0)

/-- WRESET's effect (45_block_writer.md R910, 40_control.md R431): the stream starts again at bit 0 of OUT[0]. -/
def State.resetStream (s : State) : State := { s with packer := .reset }

/-- WRESET (45_block_writer.md R910). -/
def execWreset (s : State) : Host.Outcome State Fault Refusal := Run.finish (.ok s.resetStream)

/-- The check of WBITS (45_block_writer.md R911). -/
def checkWbits (s : State) : Except CmdError Unit :=
  require (decide (s.argOf .x1 ≤ 32)) (badArg ArgReg.x1.offset)

/-- WBITS (45_block_writer.md R911): ARG0 = v, ARG1 = n. -/
def execWbits (s : State) : Host.Outcome State Fault Refusal :=
  Run.finish (afterChecks s (checkWbits s)
    (fun _ => putAll (bitsOf (s.argOf .x0) (s.argOf .x1)) s))

/-- WFLUSH (45_block_writer.md R912). -/
def execWflush (s : State) : Host.Outcome State Fault Refusal :=
  Run.finish ((flush s).andThen (fun s' => .ok (s'.setRes0 s.flushCount)))

/-- WSTORED (45_block_writer.md R951): ARG0 = a, ARG1 = b. -/
def wstoredCmd (final : Bool) (s : State) : Run :=
  afterChecks s (checkBytes P s .x0 .x1)
    (fun _ => (storedBlocks P (s.argOf .x0) (s.argOf .x1) final s).andThen
      (fun s' => .ok (s'.setWritten s.streamPos)))

/-- The meaning of WSTORED on this hardware. -/
def execWstored (final : Bool) (s : State) : Host.Outcome State Fault Refusal := (wstoredCmd Config.hw final s).finish

/-- WFIXED (45_block_writer.md R961): ARG0 = i, ARG1 = j. -/
def wfixedCmd (final : Bool) (store : StoreSel) (s : State) : Run :=
  afterChecks s (loadRange P s store .x0 .x1)
    (fun entries => (fixedBlock P (entries.map Entry.sym) final s).andThen
      (fun s' => .ok (s'.setWritten s.streamPos)))

/-- The meaning of WFIXED on this hardware. -/
def execWfixed (final : Bool) (store : StoreSel) (s : State) : Host.Outcome State Fault Refusal :=
  (wfixedCmd Config.hw final store s).finish

/-- WDYNAMIC (45_block_writer.md R971): ARG0 = i, ARG1 = j. -/
def wdynamicCmd (final : Bool) (store : StoreSel) (s : State) : Run :=
  afterChecks s (loadRange P s store .x0 .x1)
    (fun entries => (dynamicBlock P (entries.map Entry.sym) final s).andThen
      (fun s' => .ok (s'.setWritten s.streamPos)))

/-- The meaning of WDYNAMIC on this hardware. -/
def execWdynamic (final : Bool) (store : StoreSel) (s : State) : Host.Outcome State Fault Refusal :=
  (wdynamicCmd Config.hw final store s).finish

/-- WAUTO (45_block_writer.md R982): ARG0 = i, ARG1 = j, ARG2 = a, ARG3 = b. -/
def wautoCmd (final : Bool) (store : StoreSel) (s : State) : Run :=
  afterChecks s (loadTiledRange P s store)
    (fun entries =>
      (autoBlock P (entries.map Entry.sym) (s.argOf .x2) (s.argOf .x3) final s).andThen
        (fun s' => .ok ((s'.setWritten s.streamPos).setRes1
          (autoChoice P s.streamPos (s.argOf .x3 - s.argOf .x2) (entries.map Entry.sym)))))

/-- The meaning of WAUTO on this hardware. -/
def execWauto (final : Bool) (store : StoreSel) (s : State) : Host.Outcome State Fault Refusal :=
  (wautoCmd Config.hw final store s).finish

/-- BLKCOST (45_block_writer.md R990): operands as WAUTO, nothing written but RES0 to RES3. -/
def blkcostCmd (store : StoreSel) (s : State) : Run :=
  afterChecks s (loadTiledRange P s store)
    (fun entries =>
      let t := entries.map Entry.sym
      let n := s.argOf .x3 - s.argOf .x2
      .ok ((((s.setRes0 (storedBits P s.streamPos n)).setRes1 (fixedBits t)).setRes2 (dynBits P t)).setRes3
        (autoChoice P s.streamPos n t)))

/-- The meaning of BLKCOST on this hardware. -/
def execBlkcost (store : StoreSel) (s : State) : Host.Outcome State Fault Refusal :=
  (blkcostCmd Config.hw store s).finish

end Sys2Proof.Machine
end

