-- ==== Sys2Proof/Machine/Compress.lean ====
section
/-! DEFINITION. Machine/Compress.lean: the meaning of COMPRESS, the core entry point (40_control.md R430 to R437). -/

namespace Sys2Proof.Machine

variable (P : Config.Params)

/-- COMPRESS start (40_control.md R431). -/
def State.compressStart (s : State) : State :=
  { s.clearCache.resetStream with
    lens := { gLen := 0, gA := 0, gB := word s.inputLen, sLen := 0, planLen := 0 }
    obs := { s.obs with curBlock := 0 } }

/-- One block of COMPRESS (40_control.md R433): CUR_BLOCK, the squeeze, the block writer, PLAN[j].INFO. -/
def State.compressBlock (s : State) (j : Nat) (final : Bool) (p : PlanBlock) (entries : List Entry) : Run :=
  let q := { s with obs := { s.obs with curBlock := word j } }.runSqueeze P j p.a p.b (slice entries p.gs p.ge)
  let t := q.1.best.map Entry.sym
  let fixedHint := decide (s.opt.btype = 1)
  let kind := if fixedHint then 1 else autoChoice P q.2.streamPos (p.b - p.a) t
  (if fixedHint then fixedBlock P t final q.2 else autoBlock P t p.a p.b final q.2).andThen
    (fun s' => .ok (s'.storeWords (planAddr j 6) [word (kind + (if final then 4 else 0) + 256)]))

/-- The blocks of the plan from index j on (40_control.md R433). -/
def compressBlocks (entries : List Entry) : List PlanBlock → Nat → State → Run
  | [], _, s => .ok s
  | p :: ps, j, s => (s.compressBlock P j ps.isEmpty p entries).andThen (compressBlocks entries ps (j + 1))

/-- The stream before the final flush: stored blocks under the STORED hint (40_control.md R432), else the source's
control flow (R433). -/
def compressBody (s : State) : Run :=
  if s.opt.btype = 0 then storedBlocks P 0 s.inputLen true s
  else
    let g := s.runGreedy P 0 s.inputLen
    let p := g.2.runSplit P g.1
    compressBlocks P g.1 p.1 0 p.2

/-- The results of COMPRESS (40_control.md R435): `bits` is the stream position before the final flush. Under the
STORED hint ITER_COUNT and BEST_BITS are set to 0. -/
def State.compressResults (bits : Nat) (s : State) : State :=
  let s₁ := (((s.setRes0 s.packer.outLen.toNat).setRes1 s.lens.planLen.toNat).setRes2
    s.packer.blocksOut.toNat).setRes3 bits
  if s.opt.btype = 0 then { s₁ with obs := { s₁.obs with iterCount := 0, bestBits := 0 } } else s₁

/-- The end of COMPRESS: success, or READ_ERROR when the host reported an input failure (40_control.md R436,
60_exceptions.md R1008). -/
def compressEnd (s : State) : Run :=
  if s.opt.readFailed then
    .stop { code := .readError, info := word (s.opt.readKind.toNat <<< 24) } s
  else .ok s

/-- The checks of COMPRESS in order (40_control.md R430). -/
def checkCompress (s : State) : Except CmdError Unit := do
  checkHint s
  checkWindow P s

/-- COMPRESS (40_control.md R430). -/
def compressCmd (s : State) : Run :=
  afterChecks s (checkCompress P s)
    (fun _ =>
      (compressBody P s.compressStart).andThen (fun s₁ =>
        (flush s₁).andThen (fun s₂ => compressEnd (s₂.compressResults s₁.streamPos))))

/-- The meaning of COMPRESS on this hardware. -/
def execCompress (s : State) : Host.Outcome State Fault Refusal := (compressCmd Config.hw s).finish

end Sys2Proof.Machine
end

