-- ==== Sys2Proof/Machine/Control.lean ====
section
/-! DEFINITION. Machine/Control.lean: the meanings of NOP, SRESET and CACHECLR (40_control.md R410 to R412).
COMPRESS stands in Machine/Compress.lean, after the units it sequences. -/

namespace Sys2Proof.Machine

/-- NOP (40_control.md R410). -/
def execNop (s : State) : Host.Outcome State Fault Refusal := Run.finish (.ok s)

/-- SRESET (40_control.md R411, 70_reset_and_hazards.md R1103): every CSR, STATUS included, takes its reset value,
the cache is invalidated, DONE is set; the memories are kept (and the model's own fields, logs 1, 4 and 5). -/
def sresetState (P : Config.Params) (s : State) : State :=
  { State.resetWith P with
    status := { Status.reset with done := true }
    mem := s.mem, host := s.host, draws := s.draws, epoch := s.epoch }

/-- The meaning of SRESET on this hardware. -/
def execSreset (s : State) : Host.Outcome State Fault Refusal := .next (sresetState Config.hw s)

/-- CACHECLR (40_control.md R412). -/
def execCacheclr (s : State) : Host.Outcome State Fault Refusal := Run.finish (.ok s.clearCache)

end Sys2Proof.Machine
end

