-- ==== Sys2Proof/Machine/Huffman.lean ====
section
/-! DEFINITION. Machine/Huffman.lean: the meanings of COUNT, HUFFLEN and CANON (44_huffman.md R811, R820, R840). -/

namespace Sys2Proof.Machine

variable (P : Config.Params)

/-- COUNT (44_huffman.md R811): ARG0 = i, ARG1 = j. -/
def countCmd (store : StoreSel) (s : State) : Run :=
  afterChecks s (loadRange P s store .x0 .x1)
    (fun entries =>
      let f := countSyms P (entries.map Entry.sym)
      .ok (((s.storeTable .freq f.1).storeTable .dfreq f.2).setRes0 (s.argOf .x1 - s.argOf .x0)))

/-- The meaning of COUNT on this hardware. -/
def execCount (store : StoreSel) (s : State) : Host.Outcome State Fault Refusal := (countCmd Config.hw store s).finish

/-- The alphabet size operand of HUFFLEN and CANON (44_huffman.md R820, R840). -/
def checkAlphabet (s : State) : Except CmdError Unit :=
  require (decide (1 ≤ s.argOf .x0) && decide (s.argOf .x0 ≤ 288)) (badArg ArgReg.x0.offset)

/-- The checks of HUFFLEN in order, with the frequencies FREQ[0..n) it read and the number m of nonzero ones
(44_huffman.md R820, R822). -/
def checkHufflen (s : State) : Except CmdError (List Nat × Nat) := do
  checkAlphabet s
  require (decide (1 ≤ s.argOf .x1) && decide (s.argOf .x1 ≤ P.maxBits)) (badArg ArgReg.x1.offset)
  let f := s.readTable .freq (s.argOf .x0)
  let m := (codedSyms f).length
  require (decide (m ≤ 2 ^ s.argOf .x1)) (huffError m)
  return (f, m)

/-- HUFFLEN (44_huffman.md R820): ARG0 = n, ARG1 = maxbits. -/
def hufflenCmd (s : State) : Run :=
  afterChecks s (checkHufflen P s)
    (fun r => .ok ((s.storeTable .len (katajainen r.1 (s.argOf .x1))).setRes0 r.2))

/-- The meaning of HUFFLEN on this hardware. -/
def execHufflen (s : State) : Host.Outcome State Fault Refusal := (hufflenCmd Config.hw s).finish

/-- The check of the LEN words from symbol k on: each is at most 15 (44_huffman.md R840). -/
def checkLens : Nat → List Nat → Except CmdError Unit
  | _, [] => .ok ()
  | k, l :: ls =>
    if P.maxBits < l then .error (badArg (Region.len.entry k)) else checkLens (k + 1) ls

/-- The checks of CANON in order, with the lengths LEN[0..n) it read (44_huffman.md R840). -/
def checkCanon (s : State) : Except CmdError (List Nat) := do
  checkAlphabet s
  let lens := s.readTable .len (s.argOf .x0)
  checkLens P 0 lens
  require (decide (kraftSum P lens ≤ 2 ^ P.maxBits)) (huffError (kraftSum P lens))
  return lens

/-- CANON (44_huffman.md R840): ARG0 = n. -/
def canonCmd (s : State) : Run :=
  afterChecks s (checkCanon P s)
    (fun lens =>
      .ok (((s.storeTable .code (canonical P lens)).setRes0 (codedSyms lens).length).setRes1 (kraftSum P lens)))

/-- The meaning of CANON on this hardware. -/
def execCanon (s : State) : Host.Outcome State Fault Refusal := (canonCmd Config.hw s).finish

end Sys2Proof.Machine
end

