-- ==== Sys2Proof/Machine/Dispatch.lean ====
section
/-! DEFINITION. Machine/Dispatch.lean: the meaning of every command. -/

namespace Sys2Proof.Machine

/-- What an accepted command does, from the state at acceptance to the state after its end (40_control.md R402). -/
def exec (i : Instr) (s : State) : Host.Outcome State Fault Refusal :=
  match i with
  | .nop => Sys2Proof.Machine.execNop s
  | .sreset => Sys2Proof.Machine.execSreset s
  | .cacheclr => Sys2Proof.Machine.execCacheclr s
  | .compress => Sys2Proof.Machine.execCompress s
  | .findmatch => Sys2Proof.Machine.execFindmatch s
  | .greedy => Sys2Proof.Machine.execGreedy s
  | .split => Sys2Proof.Machine.execSplit s
  | .coststat store => Sys2Proof.Machine.execCoststat store s
  | .costfixed => Sys2Proof.Machine.execCostfixed s
  | .sppass => Sys2Proof.Machine.execSppass s
  | .squeeze => Sys2Proof.Machine.execSqueeze s
  | .count store => Sys2Proof.Machine.execCount store s
  | .hufflen => Sys2Proof.Machine.execHufflen s
  | .canon => Sys2Proof.Machine.execCanon s
  | .wreset => Sys2Proof.Machine.execWreset s
  | .wbits => Sys2Proof.Machine.execWbits s
  | .wflush => Sys2Proof.Machine.execWflush s
  | .wstored final => Sys2Proof.Machine.execWstored final s
  | .wfixed final store => Sys2Proof.Machine.execWfixed final store s
  | .wdynamic final store => Sys2Proof.Machine.execWdynamic final store s
  | .wauto final store => Sys2Proof.Machine.execWauto final store s
  | .blkcost store => Sys2Proof.Machine.execBlkcost store s

end Sys2Proof.Machine
end

