-- ==== Sys2Proof/Machine/Flags.lean ====
section
/-! DEFINITION. Machine/Flags.lean: STATUS as the host reads it, its phase and error codes, and the interrupt
output. CORE has no other flags (10_state.md R160). -/

namespace Sys2Proof.Machine

/-- The value of STATUS.PHASE (10_state.md R130). -/
def Phase.code : Phase → BitVec 8
  | .idle => 0x00
  | .decode => 0x01
  | .greedy => 0x02
  | .split => 0x03
  | .sqBoot => 0x04
  | .sqPath => 0x05
  | .sqTrace => 0x06
  | .sqEval => 0x07
  | .sqUpdate => 0x08
  | .write => 0x09
  | .flush => 0x0A
  | .unit => 0x0B

/-- The value of STATUS.ERRCODE (60_exceptions.md R1001). -/
def ErrCode.code : ErrCode → BitVec 4
  | .none => 0
  | .illegalCmd => 1
  | .badArg => 2
  | .huffError => 3
  | .badSymbol => 4
  | .writeError => 5
  | .readError => 6
  | .internal => 15

/-- The interrupt output, and STATUS.IRQ (10_state.md R152, 60_exceptions.md R1030): a level. -/
def State.irq (s : State) : Bool := s.opt.irqEn && (s.status.done || s.status.err)

/-- STATUS as a host reads it (10_state.md R115): [23:16] PHASE, [11:8] ERRCODE, [4] IRQ, [3] DROPPED, [2] ERR,
[1] DONE, [0] BUSY, every other bit 0. -/
def State.statusWord (s : State) : Word :=
  (0 : BitVec 8) ++ s.status.phase.code ++ (0 : BitVec 4) ++ s.status.errCode.code ++ (0 : BitVec 3)
    ++ BitVec.ofBool s.irq ++ BitVec.ofBool s.status.dropped ++ BitVec.ofBool s.status.err
    ++ BitVec.ofBool s.status.done ++ BitVec.ofBool s.status.busy

end Sys2Proof.Machine
end

