-- ==== Sys2Proof/WellFormed.lean ====
section
/-! DEFINITION. WellFormed.lean: when the fields of a command word are those of a legal command
(30_encoding.md R310, R312, R315). A value of `Instr` carries only flags its row takes, so every one of them is
well formed; what can be ill formed is a command WORD, and each of the four ways has a name. -/

namespace Sys2Proof

/-- The fields of a command word (30_encoding.md R310). -/
structure CmdFields where
  /-- w[7:0] -/
  op : BitVec 8
  /-- w[8], F -/
  final : Bool
  /-- w[9], T -/
  store : Bool
  /-- w[31:10] -/
  reserved : BitVec 22
deriving DecidableEq, Repr

/-- Why a command word is illegal (30_encoding.md R315), in the order this model looks. All four are the one
error ILLEGAL_CMD to the host (60_exceptions.md R1003). -/
inductive DecodeError
  /-- a bit of w[31:10] is set -/
  | reservedBits
  /-- OP is not in the opcode map -/
  | unknownOpcode
  /-- F is set on a command that does not take it -/
  | finalNotTaken
  /-- T is set on a command that does not take it -/
  | storeNotTaken
deriving DecidableEq, Repr

/-- The OP values of the opcode map (30_encoding.md R312). -/
def knownOps : List (BitVec 8) :=
  [0x00, 0x01, 0x02, 0x08, 0x10, 0x11, 0x18, 0x20, 0x21, 0x22, 0x23, 0x30, 0x31, 0x32,
   0x40, 0x41, 0x42, 0x43, 0x44, 0x45, 0x46, 0x47]

/-- The OP values of the commands that take F: WSTORED, WFIXED, WDYNAMIC, WAUTO (R310). -/
def finalOps : List (BitVec 8) := [0x43, 0x44, 0x45, 0x46]

/-- The OP values of the commands that take T: COUNT, COSTSTAT, WFIXED, WDYNAMIC, WAUTO, BLKCOST (R310). -/
def storeOps : List (BitVec 8) := [0x20, 0x30, 0x44, 0x45, 0x46, 0x47]

/-- The first way in which the fields of a command word are illegal (30_encoding.md R315), if any. -/
def CmdFields.problem (c : CmdFields) : Option DecodeError :=
  if c.reserved ≠ 0 then some .reservedBits
  else if c.op ∉ knownOps then some .unknownOpcode
  else if c.final = true ∧ c.op ∉ finalOps then some .finalNotTaken
  else if c.store = true ∧ c.op ∉ storeOps then some .storeNotTaken
  else none

/-- The fields of a legal command word. -/
abbrev CmdFields.wellFormed (c : CmdFields) : Prop := c.problem = none

end Sys2Proof
end

