-- ==== Sys2Proof/Decode.lean ====
section
/-! DEFINITION. Decode.lean: the opcode map as rows of pattern and mask (30_encoding.md R312, R313), the decoder
that reads a command word by it, and the encoder. -/

namespace Sys2Proof

/-- The fields of a command word (30_encoding.md R310). -/
def CmdFields.ofWord (w : Word) : CmdFields :=
  { op := w.extractLsb' 0 8, final := w.getLsbD 8, store := w.getLsbD 9, reserved := w.extractLsb' 10 22 }

/-- The command word with these fields (30_encoding.md R310). -/
def CmdFields.toWord (c : CmdFields) : Word :=
  c.reserved ++ BitVec.ofBool c.store ++ BitVec.ofBool c.final ++ c.op

/-- The store a T bit selects: G when T = 0, S when T = 1 (30_encoding.md R310). -/
def StoreSel.ofBit (t : Bool) : StoreSel := if t then .s else .g

/-- The T bit of a store. -/
def StoreSel.bit : StoreSel → Bool
  | .g => false
  | .s => true

/-- A row of the opcode map: a word w is the row's when `w &&& mask = pattern` (30_encoding.md R313); the row's
command is then built from w[8] and w[9], of which it uses those it takes. -/
structure OpRow where
  pattern : Word
  mask : Word
  build : Bool → Bool → Instr

/-- A row that takes neither flag (R313). -/
def OpRow.plain (op : Word) (i : Instr) : OpRow := ⟨op, 0xFFFFFFFF, fun _ _ => i⟩

/-- A row that takes F only (R313). -/
def OpRow.takesF (op : Word) (i : Bool → Instr) : OpRow := ⟨op, 0xFFFFFEFF, fun f _ => i f⟩

/-- A row that takes T only (R313). -/
def OpRow.takesT (op : Word) (i : StoreSel → Instr) : OpRow := ⟨op, 0xFFFFFDFF, fun _ t => i (.ofBit t)⟩

/-- A row that takes both flags (R313). -/
def OpRow.takesFT (op : Word) (i : Bool → StoreSel → Instr) : OpRow :=
  ⟨op, 0xFFFFFCFF, fun f t => i f (.ofBit t)⟩

/-- The opcode map (30_encoding.md R312). -/
def opRows : List OpRow :=
  [ .plain 0x00 .nop, .plain 0x01 .sreset, .plain 0x02 .cacheclr, .plain 0x08 .compress,
    .plain 0x10 .findmatch, .plain 0x11 .greedy, .plain 0x18 .split,
    .takesT 0x20 .coststat, .plain 0x21 .costfixed, .plain 0x22 .sppass, .plain 0x23 .squeeze,
    .takesT 0x30 .count, .plain 0x31 .hufflen, .plain 0x32 .canon,
    .plain 0x40 .wreset, .plain 0x41 .wbits, .plain 0x42 .wflush,
    .takesF 0x43 .wstored, .takesFT 0x44 .wfixed, .takesFT 0x45 .wdynamic, .takesFT 0x46 .wauto,
    .takesT 0x47 .blkcost ]

/-- Decoding (30_encoding.md R313): the command of the row the word matches. A word no row matches is illegal
(R315), for the named reason. -/
def decode (w : Word) : Except DecodeError Instr :=
  match opRows.find? (fun r => w &&& r.mask == r.pattern) with
  | some r => .ok (r.build (w.getLsbD 8) (w.getLsbD 9))
  | none => .error (((CmdFields.ofWord w).problem).getD .unknownOpcode)

/-- The fields of an instruction's word (30_encoding.md R310, R312). -/
def fieldsOf : Instr → CmdFields
  | .nop => ⟨0x00, false, false, 0⟩
  | .sreset => ⟨0x01, false, false, 0⟩
  | .cacheclr => ⟨0x02, false, false, 0⟩
  | .compress => ⟨0x08, false, false, 0⟩
  | .findmatch => ⟨0x10, false, false, 0⟩
  | .greedy => ⟨0x11, false, false, 0⟩
  | .split => ⟨0x18, false, false, 0⟩
  | .coststat t => ⟨0x20, false, t.bit, 0⟩
  | .costfixed => ⟨0x21, false, false, 0⟩
  | .sppass => ⟨0x22, false, false, 0⟩
  | .squeeze => ⟨0x23, false, false, 0⟩
  | .count t => ⟨0x30, false, t.bit, 0⟩
  | .hufflen => ⟨0x31, false, false, 0⟩
  | .canon => ⟨0x32, false, false, 0⟩
  | .wreset => ⟨0x40, false, false, 0⟩
  | .wbits => ⟨0x41, false, false, 0⟩
  | .wflush => ⟨0x42, false, false, 0⟩
  | .wstored f => ⟨0x43, f, false, 0⟩
  | .wfixed f t => ⟨0x44, f, t.bit, 0⟩
  | .wdynamic f t => ⟨0x45, f, t.bit, 0⟩
  | .wauto f t => ⟨0x46, f, t.bit, 0⟩
  | .blkcost t => ⟨0x47, false, t.bit, 0⟩

/-- The command word of an instruction (30_encoding.md R310, R312, R314). -/
def encode (i : Instr) : Word := (fieldsOf i).toWord

/-- The instruction the decoder reads from a table row's bits: a command is one 32-bit word (30_encoding.md
R310), and every bit above `nbits` is 0. -/
def decodeTableWord (nbits w : Nat) : Option Instr :=
  match decode (BitVec.ofNat 32 (w % 2 ^ nbits)) with
  | .ok i => some i
  | .error _ => none

end Sys2Proof
end

