-- ==== Sys2Proof/Machine/Phases.lean ====
section
/-! DEFINITION. Machine/Phases.lean: the sequence of phases a command goes through, its rule's `phase <-` steps in
order, DECODE first (10_state.md R130, 70_reset_and_hazards.md R1141). It ends where the command ends, so a command
that fails a check never leaves DECODE (40_control.md R402). -/

namespace Sys2Proof.Machine

variable (P : Config.Params)

/-- The phases after a command's checks: none when a check fails (40_control.md R402). -/
def phasesAfter {α : Type} (checks : Except CmdError α) (work : α → List Phase) : List Phase :=
  match checks with
  | .ok a => work a
  | .error _ => []

/-- The phases of a squeeze of the given number of iterations (42_squeeze.md R652, R653). -/
def squeezePhases (iters : Nat) : List Phase :=
  .sqBoot :: (List.replicate iters [.sqPath, .sqTrace, .sqEval, .sqUpdate]).flatten

/-- The phases of the blocks of a plan from index j on, then of the final flush (40_control.md R433); a block whose
bits do not fit is the last (R437). -/
def blockPhases (entries : List Entry) : List PlanBlock → Nat → State → List Phase
  | [], _, _ => [.flush]
  | p :: ps, j, s =>
    squeezePhases (s.squeezeBlock P p.a p.b (slice entries p.gs p.ge)).iters ++ .write ::
      match s.compressBlock P j ps.isEmpty p entries with
      | .ok t => blockPhases entries ps (j + 1) t
      | .stop _ _ => []

/-- The phases of COMPRESS after its checks (40_control.md R432, R433). -/
def compressPhases (s : State) : List Phase :=
  if s.opt.btype = 0 then
    .write ::
      match compressBody P s.compressStart with
      | .ok _ => [.flush]
      | .stop _ _ => []
  else
    let g := s.compressStart.runGreedy P 0 s.inputLen
    let p := g.2.runSplit P g.1
    .greedy :: .split :: blockPhases P g.1 p.1 0 p.2

/-- The phases of HUFFLEN after DECODE: HUFF_ERROR is raised in UNIT (44_huffman.md R820). -/
def hufflenPhases (s : State) : List Phase :=
  match checkHufflen P s with
  | .ok _ => [.unit]
  | .error e => if e.code = .huffError then [.unit] else []

/-- The phases of SQUEEZE after DECODE (42_squeeze.md R650 to R654). -/
def squeezeCmdPhases (s : State) : List Phase :=
  phasesAfter (checkSqueeze P s) (fun block =>
    squeezePhases
      (s.squeezeBlock P (s.planWord (s.argOf .x0) 0) (s.planWord (s.argOf .x0) 1) block).iters)

/-- The phases of a command after DECODE, from the state it is accepted in. -/
def workPhases (i : Instr) (s : State) : List Phase :=
  match i with
  | .nop => [.unit]
  | .sreset => [.unit]
  | .cacheclr => [.unit]
  | .compress => phasesAfter (checkCompress P s) (fun _ => compressPhases P s)
  | .findmatch => phasesAfter (checkFindmatch P s) (fun _ => [.unit])
  | .greedy => phasesAfter (checkBytes P s .x0 .x1) (fun _ => [.greedy])
  | .split => phasesAfter (checkSplit P s) (fun _ => [.split])
  | .coststat store => phasesAfter (loadRange P s store .x0 .x1) (fun _ => [.unit])
  | .costfixed => [.unit]
  | .sppass => phasesAfter (checkSppass P s) (fun _ => [.sqPath])
  | .squeeze => squeezeCmdPhases P s
  | .count store => phasesAfter (loadRange P s store .x0 .x1) (fun _ => [.unit])
  | .hufflen => hufflenPhases P s
  | .canon => phasesAfter (checkCanon P s) (fun _ => [.unit])
  | .wreset => [.unit]
  | .wbits => phasesAfter (checkWbits s) (fun _ => [.unit])
  | .wflush => [.flush]
  | .wstored _ => phasesAfter (checkBytes P s .x0 .x1) (fun _ => [.write])
  | .wfixed _ store => phasesAfter (loadRange P s store .x0 .x1) (fun _ => [.write])
  | .wdynamic _ store => phasesAfter (loadRange P s store .x0 .x1) (fun _ => [.write])
  | .wauto _ store => phasesAfter (loadTiledRange P s store) (fun _ => [.write])
  | .blkcost store => phasesAfter (loadTiledRange P s store) (fun _ => [.unit])

/-- The sequence of phases of an accepted command word, from the state it is accepted in; an illegal word never
leaves DECODE (60_exceptions.md R1003). -/
def commandPhases (w : Word) (s : State) : List Phase :=
  .decode ::
    match decode w with
    | .ok i => workPhases P i s
    | .error _ => []

end Sys2Proof.Machine
end

