-- ==== Sys2Proof/Machine/Bus.lean ====
section
/-! DEFINITION. Machine/Bus.lean: the host's accesses (20_memory.md, 10_state.md R110 to R132), the acceptance of a
command and its run (40_control.md R401 to R403), and what the host sees of a command that is still running. -/

namespace Sys2Proof.Machine

/-- What the host's side of a machine depends on: its parameters (00_scope.md R20) and what its commands do. -/
structure Chip where
  params : Config.Params
  meaning : Instr → State → Host.Outcome State Fault Refusal

/-- This hardware. -/
def chip : Chip := { params := Config.hw, meaning := exec }

variable (P : Config.Params) (C : Chip)

/-! ## The command cycle -/

/-- Acceptance of a command word (40_control.md R401). `left` is how many more host accesses land before it ends. -/
def State.accept (s : State) (w : Word) (left : Nat) : State :=
  { s with
    status := { s.status with done := false, busy := true, phase := .decode }
    issue := { word := some w, busyLeft := left, progress := 0, blockSeen := 0, phaseAt := 0 } }

/-- The run of an accepted command word: the meaning of the command it decodes to, or ILLEGAL_CMD with the word
(40_control.md R402, 60_exceptions.md R1003). -/
def runCommand (w : Word) (s : State) : Host.Outcome State Fault Refusal :=
  match decode w with
  | .ok i => C.meaning i s
  | .error _ => .next (s.raiseError { code := .illegalCmd, info := w })

/-! ## What the host sees of a running command (log 12, log 13) -/

/-- The place in a sequence of `len` phases after the place `now`, for a free count n: any place from `now` to the end
(`exists_placeAfter_eq`), "possibly skipping any" (70_reset_and_hazards.md R1141). -/
def placeAfter (now len n : Nat) : Nat := now + n % (len - now)

/-- The core's progress before a host access that lands while it is BUSY: the output has gone on by a free amount,
and the phase by a free number of steps along the command's sequence (20_memory.md R231,
70_reset_and_hazards.md R1141). -/
def State.coreProgress (s : State) : State :=
  match s.issue.word with
  | none => s
  | some w =>
    let far := s.drawCount
    let which := far.2.drawCount
    let phases := commandPhases P w s
    let place := placeAfter s.issue.phaseAt phases.length which.1
    { which.2 with
      issue := { s.issue with progress := s.issue.progress + far.1, phaseAt := place }
      status := { s.status with phase := (phases[place]?).getD s.status.phase } }

/-- The state the running command will leave. -/
def State.final (s : State) : State :=
  match s.issue.word with
  | none => s
  | some w =>
    match runCommand C w s with
    | .next t => t
    | .fault _ => s
    | .refused _ => s

/-- Does the running command restart the stream, OUT_LEN <- 0? COMPRESS past its checks, WRESET and SRESET do
(40_control.md R411, R431, 45_block_writer.md R910). -/
def State.restartsStream (s : State) : Bool :=
  match s.issue.word with
  | none => false
  | some w =>
    match decode w with
    | .ok .compress => decide ((s.final C).status.errCode ≠ .badArg)
    | .ok .wreset => true
    | .ok .sreset => true
    | _ => false

/-- OUT_LEN while a command runs: it goes from its value at acceptance, through 0 where the command restarts the
stream, up to the value the command leaves, never down again (20_memory.md R231); `progress` says how far. -/
def State.busyOutLen (s : State) : Nat :=
  if s.issue.progress = 0 then s.packer.outLen.toNat
  else if s.restartsStream C then min (s.issue.progress - 1) (s.final C).packer.outLen.toNat
  else min (s.packer.outLen.toNat + s.issue.progress) (s.final C).packer.outLen.toNat

/-- OUT_LEN as the host sees it. -/
def State.visibleOutLen (s : State) : Nat := if s.status.busy then s.busyOutLen C else s.packer.outLen.toNat

/-- The byte of OUT the host sees below the visible OUT_LEN: final (10_state.md R141, 20_memory.md R231). -/
def State.visibleOutByte (s : State) (a : Nat) : Byte :=
  if s.status.busy && decide (s.issue.progress ≠ 0) then (s.final C).readByte a else s.readByte a

/-! ## Host reads -/

/-- The value of a CSR (10_state.md R110 to R132). -/
def State.csrValue (s : State) : Csr → Word
  | .id => 0x5A4F5046
  | .version => 0x00010007
  | .ctrl => s.opt.ctrl
  | .cmd => 0
  | .status => s.statusWord
  | .errInfo => s.errInfo
  | .inLen => s.opt.inLen
  | .inErr => s.opt.inErr
  | .numIter => s.opt.numIter
  | .splitMax => s.opt.splitMax
  | .maxChain => s.opt.maxChain
  | .stagnation => s.opt.stagnation
  | .absentCost => s.opt.absentCost
  | .splitMargin => s.opt.splitMargin
  | .outLimit => s.opt.outLimit
  | .arg0 => s.arg.a0
  | .arg1 => s.arg.a1
  | .arg2 => s.arg.a2
  | .arg3 => s.arg.a3
  | .res0 => s.res.r0
  | .res1 => s.res.r1
  | .res2 => s.res.r2
  | .res3 => s.res.r3
  | .outLen => word (s.visibleOutLen C)
  | .bitState => (0 : BitVec 16) ++ s.packer.bitBuf ++ (0 : BitVec 5) ++ s.packer.bitCnt
  | .gLen => s.lens.gLen
  | .gA => s.lens.gA
  | .gB => s.lens.gB
  | .sLen => s.lens.sLen
  | .planLen => s.lens.planLen
  | .curBlock => s.obs.curBlock
  | .iterCount => s.obs.iterCount
  | .bestBits => s.obs.bestBits
  | .blocksOut => s.packer.blocksOut
  | .lastBlock => (0 : BitVec 29) ++ s.packer.lastBlock

/-- The CSRs whose value is unspecified while BUSY (20_memory.md R232). -/
def Csr.unspecifiedWhileBusy : Csr → Bool
  | .res0 | .res1 | .res2 | .res3 | .iterCount | .bestBits | .blocksOut | .lastBlock | .gLen | .sLen | .planLen
  | .curBlock | .bitState => true
  | _ => false

/-- Is the word region's entry at or above its length CSR, so that its contents are unspecified (10_state.md R142,
R143, 93_implementation_defined.md U16)? -/
def State.aboveLength (s : State) (r : Region) (a : Nat) : Bool :=
  match r with
  | .storeG => decide (s.lens.gLen.toNat ≤ (a - r.base) / 8)
  | .storeS => decide (s.lens.sLen.toNat ≤ (a - r.base) / 8)
  | .plan => decide (s.lens.planLen.toNat ≤ (a - r.base) / 32)
  | _ => false

/-- The word the host reads from a word region: reserved bits and the first three SUBLEN words read 0
(10_state.md R145, R146). -/
def State.regionWord (s : State) (r : Region) (a : Nat) : Word :=
  match r with
  | .llcost => s.readWord a &&& 0x0000FFFF
  | .dcost => s.readWord a &&& 0x0000FFFF
  | .sublen => if a < r.base + 12 then 0 else s.readWord a &&& 0x0000FFFF
  | _ => s.readWord a

/-- The value of bytes, least significant first (20_memory.md R222). -/
def packBytes : List Byte → Nat
  | [] => 0
  | b :: bs => b.toNat + 256 * packBytes bs

/-- Byte k of a free value. -/
def freeByteOf (d : Word) (k : Nat) : Byte := d.extractLsb' (8 * k) 8

/-- The k-th byte of a host read of OUT: final below OUT_LEN, unspecified at and above it (10_state.md R141). -/
def State.outputByte (s : State) (d : Word) (a k : Nat) : Byte :=
  if a + k - Region.output.base < s.visibleOutLen C then s.visibleOutByte C (a + k) else freeByteOf d k

/-- What a legal host read returns: the value where the spec gives one, else the free value d
(20_memory.md R223, R231, R232). While BUSY all 32 bits of an unspecified read are free, the reserved ones of LLCOST,
DCOST, SUBLEN, BITSTATE and LAST_BLOCK and SUBLEN[0..2] too: the MODEL's choice between R232's "unspecified value"
and the "read 0" of 10_state.md R110, R145, R146 (log 27). -/
def State.readValue (s : State) (d : Word) (a n : Nat) : Word :=
  match regionAt C.params a with
  | none => 0
  | some .csr =>
    match csrAt a with
    | none => 0
    | some c =>
      if s.status.busy && c.unspecifiedWhileBusy then
        (if c = .curBlock then (if d.toNat < s.issue.blockSeen.toNat then s.issue.blockSeen else d) else d)
      else s.csrValue C c
  | some .input =>
    word (packBytes ((List.range n).map (fun k => if s.status.busy then freeByteOf d k else s.readByte (a + k))))
  | some .output => word (packBytes ((List.range n).map (s.outputByte C d a)))
  | some r => if s.status.busy || s.aboveLength r a then d else s.regionWord r a

/-- Which accesses break 20_memory.md R220, and how. -/
def busProblem (a n : Nat) : Option BusProblem :=
  match regionAt P a with
  | none => some .unmapped
  | some r =>
    if r = .input ∨ r = .output then
      if n ≠ 1 ∧ n ≠ 2 ∧ n ≠ 4 then some .badWidth
      else if a % n ≠ 0 then some .misaligned
      else if r.covers P (a + n - 1) then none else some .unmapped
    else if n ≠ 4 then some .badWidth
    else if a % 4 ≠ 0 then some .misaligned
    else none

/-- A host read of a legal address, returning v: the value is recorded, and a CUR_BLOCK read while BUSY is
remembered, so that the next is not below it (70_reset_and_hazards.md R1141). -/
def State.noteRead (s : State) (a : Nat) (v : Word) : State :=
  { s with
    host := { s.host with reads := v :: s.host.reads }
    issue := { s.issue with
      blockSeen := if s.status.busy && decide (csrAt a = some .curBlock) then v else s.issue.blockSeen } }

/-- `MemRead` (20_memory.md R220, R221): the value, and the state after. -/
def hostReadValue (a n : Nat) (s : State) : Word × State :=
  let s₁ := if s.status.busy then s.coreProgress C.params else s
  let d := s₁.draw
  (s₁.readValue C d.1 a n, d.2.noteRead a (s₁.readValue C d.1 a n))

/-! ## Host writes -/

/-- A host write that is ignored because CORE is busy or in error (10_state.md R117). -/
def State.drop (s : State) : State := { s with status := { s.status with dropped := true } }

/-- A host write to a CSR other than STATUS while CORE is not busy (10_state.md R113 to R132). -/
def State.writeCsr (s : State) (c : Csr) (v : Word) : State :=
  match c with
  | .cmd =>
    if s.status.err then s.drop
    else { s with draws := s.draws + 1 }.accept v (Config.busyAccesses s.draws)
  | .ctrl => { s with opt := { s.opt with ctrl := v &&& 0x0000003F } }
  | .inLen => { s with opt := { s.opt with inLen := v } }.clearCache
  | .inErr => { s with opt := { s.opt with inErr := v &&& 0x0000FF01 } }
  | .numIter => { s with opt := { s.opt with numIter := v } }
  | .splitMax => { s with opt := { s.opt with splitMax := v } }
  | .maxChain => { s with opt := { s.opt with maxChain := v } }.clearCache
  | .stagnation => { s with opt := { s.opt with stagnation := v } }
  | .absentCost => { s with opt := { s.opt with absentCost := v &&& 0x0000FFFF } }
  | .splitMargin => { s with opt := { s.opt with splitMargin := v } }
  | .outLimit => { s with opt := { s.opt with outLimit := if P.outCap < v.toNat then word P.outCap else v } }
  | .arg0 => { s with arg := { s.arg with a0 := v } }
  | .arg1 => { s with arg := { s.arg with a1 := v } }
  | .arg2 => { s with arg := { s.arg with a2 := v } }
  | .arg3 => { s with arg := { s.arg with a3 := v } }
  | .gLen => { s with lens := { s.lens with gLen := v } }
  | .gA => { s with lens := { s.lens with gA := v } }
  | .gB => { s with lens := { s.lens with gB := v } }
  | .sLen => { s with lens := { s.lens with sLen := v } }
  | .planLen => { s with lens := { s.lens with planLen := v } }
  | .status => s.ackStatus v
  | .id | .version | .errInfo | .res0 | .res1 | .res2 | .res3 | .outLen | .bitState | .curBlock | .iterCount
  | .bestBits | .blocksOut | .lastBlock => s

/-- A host write to a memory region while CORE is not busy (10_state.md R140 to R146, 20_memory.md R223). -/
def State.writeRegion (s : State) (r : Region) (a n : Nat) (v : Word) : State :=
  match r with
  | .csr => s
  | .output => s
  | .sublen => s
  | .input => (s.storeBytes a ((wordBytes v).take n)).clearCache
  | .llcost => s.storeWords a [v &&& 0x0000FFFF]
  | .dcost => s.storeWords a [v &&& 0x0000FFFF]
  | _ => s.storeWords a [v]

/-- What a legal host write does (10_state.md R117, 20_memory.md R223): a write to STATUS always acts, any other is
dropped while BUSY; an offset that is no CSR ignores it (10_state.md R110). -/
def hostWriteState (a n : Nat) (v : Word) (s : State) : State :=
  match regionAt P a with
  | none => s
  | some .csr =>
    if csrAt a = some .status then s.ackStatus v
    else if s.status.busy then s.drop
    else
      match csrAt a with
      | some c => s.writeCsr P c v
      | none => s
  | some r => if s.status.busy then s.drop else s.writeRegion r a n v

/-! ## The host's operations -/

/-- The hardware reset (70_reset_and_hazards.md R1100, R1102): the state after reset, with memories of unspecified
contents anew (log 4). What is still to come from the host is no state of CORE and stays. -/
def State.hardReset (s : State) : State :=
  { State.resetWith P with host := s.host, draws := s.draws, epoch := s.epoch + 1 }

/-- A bus error: the host's transaction faults, and nothing of CORE changes (20_memory.md R221, 60_exceptions.md
R1021): a command that is executing goes on (log 17). -/
def State.busFault (s : State) (f : Fault) : State :=
  { s with host := { s.host with faults := f :: s.host.faults } }

/-- One operation of the host, already taken off its list. A wait loop reads STATUS once, and comes again unless
DONE or ERR reads 1 (30_encoding.md R351). -/
def hostStep (op : HostOp) (s : State) : State :=
  match op with
  | .read addr n =>
    match busProblem C.params addr.toNat n with
    | some p => s.busFault (.busError p addr n)
    | none => (hostReadValue C addr.toNat n s).2
  | .write addr n v =>
    match busProblem C.params addr.toNat n with
    | some p => s.busFault (.busError p addr n)
    | none => hostWriteState C.params addr.toNat n v s
  | .waitDone =>
    let r := hostReadValue C Csr.status.offset 4 s
    if r.1.getLsbD 1 || r.1.getLsbD 2 then r.2
    else { r.2 with host := { r.2.host with pending := .waitDone :: r.2.host.pending } }
  | .hardReset => s.hardReset C.params

/-- The next host operation is taken off the list; while a command runs it is one of those that land before its
end. -/
def State.takeOp (s : State) (rest : List HostOp) : State :=
  { s with
    host := { s.host with pending := rest }
    issue := { s.issue with busyLeft := s.issue.busyLeft - 1 } }

end Sys2Proof.Machine
end

