-- ==== Sys2Proof/Machine/Step.lean ====
section
/-! DEFINITION. Machine/Step.lean: one step of the machine, and where a command word is put so that the next step
runs it. -/

namespace Sys2Proof.Machine

/-- One step of a machine of the given parameters and commands (00_scope.md R22, 70_reset_and_hazards.md R1140).
While a command runs, the host accesses that land before its end come first, then the core ends it. Otherwise the
next host access comes; with none pending CORE is idle and nothing changes (60_exceptions.md R1046). -/
def stepOf (C : Chip) (s : State) : Host.Outcome State Fault Refusal :=
  match s.issue.word, s.host.pending with
  | some w, [] => runCommand C w s
  | some w, op :: rest => if 0 < s.issue.busyLeft then .next (hostStep C op (s.takeOp rest)) else runCommand C w s
  | none, [] => .next s
  | none, op :: rest => .next (hostStep C op (s.takeOp rest))

/-- One step of this hardware. -/
def step (s : State) : Host.Outcome State Fault Refusal := stepOf chip s

/-- The state in which the command word w (its bits above `nbits` zero) has been accepted and is the next thing to
run (40_control.md R401): CORE fetches no instructions, a command is the value of a CMD write (20_memory.md R250). -/
def State.withFetchWord (s : State) (nbits w : Nat) : State :=
  s.accept (BitVec.ofNat 32 (w % 2 ^ nbits)) 0

end Sys2Proof.Machine
end

