-- ==== Sys2Proof/Safety.lean ====
section
/-! DEFINITION. Safety.lean: the terms claims about the machine are made in: the invariant of every reachable state,
the coherence of the match cache, what a command leaves alone, its operand checks as the rules list them, what the units
choose, and what the stores and the output stream hold. -/

namespace Sys2Proof.Machine

open Config (hw)

/-! ## Invariants -/

/-- What holds of every state a run reaches. -/
structure Inv (s : State) : Prop where
  /-- the memory is in its canonical form (log 4) -/
  memory : Memory.wf s.mem
  /-- the cache lists each position once, in rising order -/
  positions : s.cache.Pairwise (fun x y => x.1 < y.1)
  /-- BUSY is 1 exactly while a command is held (40_control.md R401, R403) -/
  busy : s.status.busy = s.issue.word.isSome
  /-- without a command the model's account of one is empty -/
  idleIssue : s.issue.word = none → s.issue = Issue.none
  /-- PHASE is IDLE whenever BUSY is 0 (10_state.md R130) -/
  idlePhase : s.status.busy = false → s.status.phase = .idle
  /-- DONE and ERR are 0 while BUSY is 1 (10_state.md R117) -/
  busyClean : s.status.busy = true → s.status.done = false ∧ s.status.err = false
  /-- ERRCODE is 0 exactly when ERR is 0 (10_state.md R115) -/
  errCode : s.status.err = false ↔ s.status.errCode = .none
  /-- ERRINFO is 0 when ERR is 0 (10_state.md R116) -/
  errInfo : s.status.err = false → s.errInfo = 0
  /-- INTERNAL is unreachable (60_exceptions.md R1009) -/
  notInternal : s.status.errCode ≠ .internal
  /-- the reserved bits of CTRL read 0 (10_state.md R113) -/
  ctrlReserved : s.opt.ctrl &&& 0x0000003F = s.opt.ctrl
  /-- the reserved bits of IN_ERR read 0 (10_state.md R119) -/
  inErrReserved : s.opt.inErr &&& 0x0000FF01 = s.opt.inErr
  /-- the reserved bits of ABSENTCOST read 0 (10_state.md R124) -/
  absentReserved : s.opt.absentCost &&& 0x0000FFFF = s.opt.absentCost
  /-- OUT_LIMIT never exceeds OUT_CAP (10_state.md R126) -/
  outLimit : s.opt.outLimit.toNat ≤ hw.outCap
  /-- OUT_LEN never exceeds OUT_CAP (45_block_writer.md R901) -/
  outLen : s.packer.outLen.toNat ≤ hw.outCap

/-- Every cached record is what a miss would compute (41_lz77_parser.md R531), of a position of a legal window. -/
def CacheCoherent (s : State) : Prop :=
  ∀ e ∈ s.cache, s.inputLen ≤ hw.inCap ∧ e.1 < s.inputLen ∧
    e.2 = matchRec hw s.window s.opt.maxChain.toNat e.1

/-- n steps, stopping at the first fault or refusal (what Host/Core.lean calls a run). -/
def steps : Nat → State → Host.Outcome State Fault Refusal
  | 0, s => .next s
  | n + 1, s =>
    match step s with
    | .next t => steps n t
    | .fault f => .fault f
    | .refused r => .refused r

/-- A safe run: no host access is a bus error (20_memory.md R221, log 17). -/
def SafeFrom (s : State) : Prop := ∀ n t, steps n s = .next t → t.host.faults = s.host.faults

/-! ## What a command leaves alone -/

/-- What every command that ends without error does to the state it does not name: STATUS ends as 40_control.md
R403 says, and ERRINFO, the option CSRs, ARG0 to ARG3 and the model's own account of the host stay. -/
structure EndsWell (s t : State) : Prop where
  status : t.status = { s.status with busy := false, done := true, phase := .idle }
  errInfo : t.errInfo = s.errInfo
  issue : t.issue = Issue.none
  opt : t.opt = s.opt
  arg : t.arg = s.arg
  host : t.host = s.host
  draws : t.draws = s.draws
  epoch : t.epoch = s.epoch

/-- Every byte of memory reads as before. -/
def SameMem (s t : State) : Prop := ∀ x, t.readByte x = s.readByte x

/-- Every byte of memory outside the n bytes from a on reads as before. -/
def SameMemBut (a n : Nat) (s t : State) : Prop := ∀ x, (x < a ∨ a + n ≤ x) → t.readByte x = s.readByte x

/-- Every byte of memory outside the listed runs (start, length) reads as before. -/
def SameMemOutside (runs : List (Nat × Nat)) (s t : State) : Prop :=
  ∀ x, (∀ r ∈ runs, x < r.1 ∨ r.1 + r.2 ≤ x) → t.readByte x = s.readByte x

/-- No cached record is lost or changed (41_lz77_parser.md R532: nothing else invalidates an entry). -/
def KeepsCache (s t : State) : Prop := ∀ p r, s.cache.get? p = some r → t.cache.get? p = some r

/-- The words a memory holds from an address upward. -/
def HoldsWords (t : State) (a : Nat) (ws : List Word) : Prop :=
  ∀ k, k < ws.length → t.readWord (a + 4 * k) = ws.getD k 0

/-- The numbers a table region holds from its first entry upward (20_memory.md R211). -/
def HoldsTable (t : State) (r : Region) (ns : List Nat) : Prop := HoldsWords t r.base (ns.map word)

/-- The errors a command can raise (60_exceptions.md R1001, R1002). -/
def errorsOf : Instr → List ErrCode
  | .nop | .sreset | .cacheclr | .costfixed | .wreset => []
  | .findmatch | .greedy | .sppass => [.badArg]
  | .split | .coststat _ | .squeeze | .count _ | .blkcost _ => [.badArg, .badSymbol]
  | .hufflen | .canon => [.badArg, .huffError]
  | .wflush => [.writeError]
  | .wbits | .wstored _ => [.badArg, .writeError]
  | .wfixed _ _ | .wdynamic _ _ | .wauto _ _ => [.badArg, .badSymbol, .writeError]
  | .compress => [.badArg, .writeError, .readError]

/-! ## Operand checks, as the rules list them -/

/-- CheckBytes (40_control.md R421): for each check in order, whether it fails, and its ERRINFO. -/
def byteChecks (s : State) (x y : ArgReg) : List (Bool × Nat) :=
  [(decide (hw.inCap < s.inputLen), 0x018), (decide (s.inputLen < s.argOf x), x.offset),
   (decide (s.argOf y < s.argOf x) || decide (s.inputLen < s.argOf y), y.offset)]

/-- The BAD_ARG checks of CheckStore on ARG0 and ARG1 (40_control.md R422). -/
def storeChecks (s : State) (x : StoreSel) : List (Bool × Nat) :=
  [(decide (hw.storeCap < s.storeLen x), storeLenOffset x), (decide (s.storeLen x < s.argOf .x0), 0x040),
   (decide (s.argOf .x1 < s.argOf .x0) || decide (s.storeLen x < s.argOf .x1), 0x044)]

/-- The table of 42_squeeze.md R650. -/
def squeezeChecks (s : State) : List (Bool × Nat) :=
  let j := s.argOf .x0
  let a := s.planWord j 0
  let b := s.planWord j 1
  let gs := s.planWord j 2
  let ge := s.planWord j 3
  [(decide (s.opt.btype = 3), 0x008), (decide (hw.inCap < s.inputLen), 0x018),
   (decide (hw.planCap < s.lens.planLen.toNat), 0x078), (decide (s.lens.planLen.toNat ≤ j), 0x040),
   (decide (hw.storeCap < s.storeLen .g), 0x068), (decide (s.inputLen < a), 0x01000000 + 32 * j),
   (decide (b < a) || decide (s.inputLen < b), 0x01000000 + 32 * j + 4),
   (decide (s.storeLen .g < gs), 0x01000000 + 32 * j + 8),
   (decide (ge < gs) || decide (s.storeLen .g < ge), 0x01000000 + 32 * j + 12),
   (decide (hw.storeCap < s.storeLen .s) || decide (hw.storeCap < s.storeLen .s + (b - a)), 0x074)]

/-- The BAD_ARG checks of a command, in the order its rule lists them (60_exceptions.md R1004, R1020): whether each
fails, and its ERRINFO. -/
def argChecks (s : State) : Instr → List (Bool × Nat)
  | .nop | .sreset | .cacheclr | .costfixed | .wreset | .wflush => []
  | .compress => [(decide (s.opt.btype = 3), 0x008), (decide (hw.inCap < s.inputLen), 0x018)]
  | .findmatch => [(decide (hw.inCap < s.inputLen), 0x018), (decide (s.inputLen ≤ s.argOf .x0), 0x040)]
  | .greedy | .wstored _ => byteChecks s .x0 .x1
  | .split => [(decide (s.opt.btype = 3), 0x008), (decide (hw.storeCap < s.storeLen .g), 0x068)]
  | .coststat x | .count x | .wfixed _ x | .wdynamic _ x => storeChecks s x
  | .wauto _ x | .blkcost x => storeChecks s x ++ byteChecks s .x2 .x3
  | .sppass => byteChecks s .x0 .x1 ++
      [(decide (hw.storeCap < s.storeLen .s) ||
        decide (hw.storeCap < s.storeLen .s + (s.argOf .x1 - s.argOf .x0)), 0x074)]
  | .squeeze => squeezeChecks s
  | .hufflen => [(decide (s.argOf .x0 < 1) || decide (288 < s.argOf .x0), 0x040),
      (decide (s.argOf .x1 < 1) || decide (15 < s.argOf .x1), 0x044)]
  | .canon => (decide (s.argOf .x0 < 1) || decide (288 < s.argOf .x0), 0x040) ::
      (List.range (s.argOf .x0)).map (fun k =>
        (decide (15 < (s.readWord (Region.len.entry k)).toNat), 0x00012000 + 4 * k))
  | .wbits => [(decide (32 < s.argOf .x1), 0x044)]

/-- No BAD_ARG check of the command fails. -/
def ArgsPass (i : Instr) (s : State) : Prop := ∀ c ∈ argChecks s i, c.1 = false

/-- The symbol range a command's symbol check reads: store, first and end index (40_control.md R422). -/
def symbolCheck (s : State) : Instr → Option (StoreSel × Nat × Nat)
  | .coststat x | .count x | .wfixed _ x | .wdynamic _ x | .wauto _ x | .blkcost x =>
    some (x, s.argOf .x0, s.argOf .x1)
  | .split => some (.g, 0, s.storeLen .g)
  | .squeeze => some (.g, s.planWord (s.argOf .x0) 2, s.planWord (s.argOf .x0) 3)
  | _ => none

/-- The byte range a command's symbol range has to tile (40_control.md R423). -/
def tilingCheck (s : State) : Instr → Option (Nat × Nat)
  | .wauto _ _ | .blkcost _ => some (s.argOf .x2, s.argOf .x3)
  | .split => some (s.lens.gA.toNat, s.lens.gB.toNat)
  | .squeeze => some (s.planWord (s.argOf .x0) 0, s.planWord (s.argOf .x0) 1)
  | _ => none

/-! ## Host accesses -/

/-- The accesses 20_memory.md R220 accepts: aligned 4-byte accesses of the CSR and word regions, and naturally
aligned accesses of 1, 2 or 4 mapped bytes of IN and OUT. -/
def LegalAccess (a n : Nat) : Prop :=
  (∃ r : Region, r ∈ Region.all ∧ r ≠ .input ∧ r ≠ .output ∧ r.covers hw a = true ∧ n = 4 ∧ a % 4 = 0) ∨
  (∃ r : Region, (r = .input ∨ r = .output) ∧ (n = 1 ∨ n = 2 ∨ n = 4) ∧ a % n = 0 ∧
    r.covers hw a = true ∧ r.covers hw (a + n - 1) = true)

/-! ## Stores -/

/-- A store range tiles [a, b) (00_scope.md R33). -/
def Tiles : List Entry → Nat → Nat → Prop
  | [], a, b => a = b
  | e :: es, a, b => e.pos = a ∧ Tiles es (a + e.sym.span) b

/-- A valid symbol (30_encoding.md R321). -/
def Sym.Valid : Sym → Prop
  | .lit _ => True
  | .ref len dist => 3 ≤ len ∧ len ≤ hw.maxMatch ∧ 1 ≤ dist ∧ dist ≤ hw.window

/-- The entry stands for the window bytes it covers: a literal is the byte at its position, a match repeats the
bytes at its distance (41_lz77_parser.md R522, 42_squeeze.md R643). -/
def Entry.Reconstructs (w : List Byte) (e : Entry) : Prop :=
  match e.sym with
  | .lit b => w[e.pos]? = some b
  | .ref len dist =>
    dist ≤ e.pos ∧ e.pos + len ≤ w.length ∧ ∀ k, k < len → w[e.pos + k]? = w[e.pos + k - dist]?

/-- A parse of the window bytes [a, b): it tiles them, its symbols are valid and stand for the window. -/
def IsParse (w : List Byte) (es : List Entry) (a b : Nat) : Prop :=
  Tiles es a b ∧ ∀ e ∈ es, e.sym.Valid ∧ e.Reconstructs w

/-- Blocks of a plan that follow one another from symbol i and byte a to symbol j and byte b
(43_block_splitter.md R712). -/
def PlanChain : List PlanBlock → Nat → Nat → Nat → Nat → Prop
  | [], i, a, j, b => i = j ∧ a = b
  | p :: ps, i, a, j, b => p.gs = i ∧ p.a = a ∧ PlanChain ps p.ge p.b j b

/-- The entries a store holds from index k on. -/
def HoldsEntries (t : State) (x : StoreSel) (k : Nat) (es : List Entry) : Prop :=
  ∀ n, n < es.length → t.entryAt hw x (k + n) = es[n]?

/-- The operands of a command that reads a byte range: a range of a legal window (40_control.md R421). -/
def ByteRange (s : State) (x y : ArgReg) : Prop :=
  s.inputLen ≤ hw.inCap ∧ s.argOf x ≤ s.argOf y ∧ s.argOf y ≤ s.inputLen

/-- The operands of a command that reads a symbol range: the entries `es` of a store from ARG0 to ARG1, each with
a valid symbol (40_control.md R422). -/
def SymbolRange (s : State) (x : StoreSel) (es : List Entry) : Prop :=
  s.storeLen x ≤ hw.storeCap ∧ s.argOf .x0 ≤ s.argOf .x1 ∧ s.argOf .x1 ≤ s.storeLen x ∧
    es.length = s.argOf .x1 - s.argOf .x0 ∧ HoldsEntries s x (s.argOf .x0) es

/-- The operands of WAUTO and BLKCOST: a symbol range that tiles the byte range from ARG2 to ARG3
(45_block_writer.md R982). -/
def TiledSymbolRange (s : State) (x : StoreSel) (es : List Entry) : Prop :=
  SymbolRange s x es ∧ ByteRange s .x2 .x3 ∧ Tiles es (s.argOf .x2) (s.argOf .x3)

/-- The operands of SQUEEZE: plan entry ARG0, with the greedy store `es` of its block (42_squeeze.md R650). -/
def SqueezeOperands (s : State) (es : List Entry) : Prop :=
  let j := s.argOf .x0
  s.opt.btype ≠ 3 ∧ s.inputLen ≤ hw.inCap ∧ s.lens.planLen.toNat ≤ hw.planCap ∧
    j < s.lens.planLen.toNat ∧ s.storeLen .g ≤ hw.storeCap ∧
    s.planWord j 0 ≤ s.planWord j 1 ∧ s.planWord j 1 ≤ s.inputLen ∧
    s.planWord j 2 ≤ s.planWord j 3 ∧ s.planWord j 3 ≤ s.storeLen .g ∧
    s.storeLen .s + (s.planWord j 1 - s.planWord j 0) ≤ hw.storeCap ∧
    es.length = s.planWord j 3 - s.planWord j 2 ∧ HoldsEntries s .g (s.planWord j 2) es ∧
    Tiles es (s.planWord j 0) (s.planWord j 1)

/-! ## What the parser, the splitter and the squeeze choose -/

/-- The symbol the parse of a range ending at b emits at p (41_lz77_parser.md R521): the match of p clipped at b,
unless there is none or, with lazy matching, the clipped match of p + 1 is strictly longer. -/
def greedySym (x : SearchCtx) (lazy : Bool) (b p : Nat) : Sym :=
  let m := clipMatch hw (matchRec hw x.window x.maxChain p) (b - p)
  let next := clipMatch hw (matchRec hw x.window x.maxChain (p + 1)) (b - p - 1)
  if m.1 < 3 ∨ (lazy = true ∧ p + 1 < b ∧ m.1 < next.1) then .lit (x.window.getD p 0) else .ref m.1 m.2

/-- The estimated bits of a range cut at k (43_block_splitter.md R711). -/
def cutBits (h : Nat) (t : List Sym) (i k j : Nat) : Nat := rangeEst hw h t i k + rangeEst hw h t k j

/-- No cut of the range saves more than the margin. -/
def NoCut (h margin : Nat) (t : List Sym) (i j : Nat) : Prop :=
  ∀ k, i < k → k < j → rangeEst hw h t i j ≤ cutBits h t i k j + margin

/-- The cut of the range with the least estimate, the smallest on a tie, when it saves more than the margin. -/
def BestCut (h margin : Nat) (t : List Sym) (i k j : Nat) : Prop :=
  i < k ∧ k < j ∧ cutBits h t i k j + margin < rangeEst hw h t i j ∧
    ∀ l, i < l → l < j → cutBits h t i k j ≤ cutBits h t i l j ∧ (l < k → cutBits h t i k j < cutBits h t i l j)

/-- The lists of symbol ranges the splitter goes through (43_block_splitter.md R711): from the whole store, each
time the range with the most symbols that has a saving cut, the first on a tie, is cut at its best cut. -/
inductive Bisected (h margin : Nat) (t : List Sym) : List (Nat × Nat) → Prop
  | whole : Bisected h margin t [(0, t.length)]
  | cut (before after : List (Nat × Nat)) (i k j : Nat) :
    Bisected h margin t (before ++ (i, j) :: after) → BestCut h margin t i k j →
    (∀ r ∈ before, j - i ≤ r.2 - r.1 → NoCut h margin t r.1 r.2) →
    (∀ r ∈ after, j - i < r.2 - r.1 → NoCut h margin t r.1 r.2) →
    Bisected h margin t (before ++ (i, k) :: (k, j) :: after)

/-- The plan of a greedy store that covers [a, b): the ranges of the bisection with their byte ranges, which follow
one another, none left with a saving cut unless a cap stopped the bisection (43_block_splitter.md R711, R712). -/
structure IsPlan (h splitMax margin : Nat) (es : List Entry) (a b : Nat) (blocks : List PlanBlock) : Prop where
  nonempty : blocks ≠ []
  chain : PlanChain blocks 0 a es.length b
  ranges : Bisected h margin (es.map Entry.sym) (blocks.map (fun p => (p.gs, p.ge)))
  planCap : blocks.length ≤ hw.planCap
  splitCap : splitMax ≠ 0 → blocks.length ≤ splitMax
  complete : blocks.length < hw.planCap → (splitMax = 0 ∨ blocks.length < splitMax) →
    ∀ p ∈ blocks, NoCut h margin (es.map Entry.sym) p.gs p.ge

/-- The n-th parse of a squeeze of [a, b): the block's greedy store, then the paths of the passes, each under the
costs of the one before (42_squeeze.md R652 to R654). -/
def squeezePass (x : SearchCtx) (h absent a b : Nat) (block : List Entry) : Nat → List Entry
  | 0 => block
  | n + 1 =>
    (shortestPath hw x (nextCosts hw h absent ((squeezePass x h absent a b block n).map Entry.sym)) a b []).path

/-- m is the first of 0 to n at which e is least. -/
def IsFirstLeast (e : Nat → Nat) (n m : Nat) : Prop :=
  m ≤ n ∧ (∀ k, k ≤ n → e m ≤ e k) ∧ ∀ k, k < m → e m < e k

/-- What the squeeze of a block [a, b) with greedy store `block` keeps and how many passes it runs (42_squeeze.md
R652 to R656): the first parse of least estimate among the greedy store and the passes; the passes end at NUMITER,
or after the first one that is the STAGNATION-th in a row without a new minimum. -/
def IsSqueezed (s : State) (a b : Nat) (block best : List Entry) (iters : Nat) : Prop :=
  let e := fun n => est hw s.opt.btype ((squeezePass s.searchCtx s.opt.btype s.absent a b block n).map Entry.sym)
  ∃ m, IsFirstLeast e iters m ∧ best = squeezePass s.searchCtx s.opt.btype s.absent a b block m ∧
    iters ≤ s.opt.numIter.toNat ∧
    (∀ k l, 1 ≤ k → k < iters → IsFirstLeast e k l → k < l + s.opt.stagnation.toNat) ∧
    (iters = s.opt.numIter.toNat ∨ (1 ≤ iters ∧ m + s.opt.stagnation.toNat ≤ iters))

/-! ## Parses as paths and as text -/

/-- A path along the edges of the squeeze over [a, b): literals, and matches at a length of the record with its
least distance (42_squeeze.md R641). -/
def IsEdgePath (x : SearchCtx) (es : List Entry) (a b : Nat) : Prop :=
  Tiles es a b ∧ ∀ e ∈ es,
    match e.sym with
    | .lit v => v = x.window.getD e.pos 0
    | .ref len dist =>
      3 ≤ len ∧ len ≤ (matchRec hw x.window x.maxChain e.pos).best ∧
        dist = (matchRec hw x.window x.maxChain e.pos).subAt hw len

/-- The cost of one symbol under a cost model (42_squeeze.md R612). -/
def CostModel.sym (c : CostModel) : Sym → Nat
  | .lit b => c.lit b
  | .ref len dist => c.ref len dist

/-- The cost of a path under a cost model. -/
def pathCost (c : CostModel) (es : List Entry) : Nat := (es.map (fun e => c.sym e.sym)).sum

/-- The span of the last symbol of a path, 0 for an empty path. -/
def lastSpan (es : List Entry) : Nat := (es.getLast?.map (fun e => e.sym.span)).getD 0

/-- n bytes copied one by one from `dist` bytes back. -/
def copyBack (dist : Nat) : Nat → List Byte → List Byte
  | 0, out => out
  | n + 1, out => copyBack dist n (out ++ [out.getD (out.length - dist) 0])

/-- What a sequence of symbols stands for, after the bytes so far: "the concatenation of literals and the
referenced bytes (expanded by length)" (42_squeeze.md R643). -/
def expandSyms : List Byte → List Sym → List Byte
  | out, [] => out
  | out, .lit b :: rest => expandSyms (out ++ [b]) rest
  | out, .ref len dist :: rest => expandSyms (copyBack dist len out) rest

/-- What a sequence of code-length symbols stands for, after the lengths so far (30_encoding.md R337). -/
def expandItems : List Nat → List (Nat × Nat) → List Nat
  | out, [] => out
  | out, (c, e) :: rest =>
    if c = 16 then expandItems (out ++ List.replicate (e + 3) (out.getLast?.getD 0)) rest
    else if c = 17 then expandItems (out ++ List.replicate (e + 3) 0) rest
    else if c = 18 then expandItems (out ++ List.replicate (e + 11) 0) rest
    else expandItems (out ++ [c]) rest

/-! ## The output stream -/

/-- The bits of the output stream, in order: the bits of OUT[0..OUT_LEN), then the BITCNT waiting bits
(45_block_writer.md R900, 20_memory.md R225). -/
def State.streamBits (s : State) : List Bool :=
  (s.readBytes Region.output.base s.packer.outLen.toNat).flatMap (fun b => bitsOf b.toNat 8)
    ++ bitsOf s.packer.bitBuf.toNat s.packer.bitCnt.toNat

/-- Do n more bits fit: does no byte they complete land at or above OUT_LIMIT (45_block_writer.md R901)? -/
abbrev State.HasRoom (s : State) (n : Nat) : Prop :=
  (s.streamPos + n) / 8 ≤ max s.opt.outLimit.toNat s.packer.outLen.toNat

/-- The bits of the stored chunks of the given lengths over `bytes`, from stream position pos on
(45_block_writer.md R950, R934): header, padding, LEN, NLEN, data. -/
def storedStream (final : Bool) : Nat → List Nat → List Byte → List Bool
  | _, [], _ => []
  | pos, len :: rest, bytes =>
    [final && rest.isEmpty, false, false] ++ List.replicate (storedPad pos) false ++ storedBody (bytes.take len)
      ++ storedStream final (pos + 3 + storedPad pos + 32 + 8 * len) rest (bytes.drop len)

/-- The bits of a whole fixed block: BFINAL, BTYPE = 1, the data (45_block_writer.md R960). -/
def fixedStream (final : Bool) (t : List Sym) : List Bool := [final, true, false] ++ fixedBody hw t

/-- The bits of a whole dynamic block: BFINAL, BTYPE = 2, the tables, the data (45_block_writer.md R970). -/
def dynamicStream (final : Bool) (t : List Sym) : List Bool := [final, false, true] ++ dynBody hw t

/-- The run of OUT bytes a command completed. -/
def writtenRun (s t : State) : Nat × Nat :=
  (Region.output.entry s.packer.outLen.toNat, t.packer.outLen.toNat - s.packer.outLen.toNat)

/-- The block counters after one more block header of type k (45_block_writer.md R905). -/
def HeaderCounted (s t : State) (final : Bool) (k : Nat) : Prop :=
  t.packer.blocksOut = s.packer.blocksOut + 1 ∧ t.packer.lastBlock = BitVec.ofBool final ++ BitVec.ofNat 2 k

/-- The block headers of stored chunks from stream position pos on: where each begins, and the LAST_BLOCK it sets
(45_block_writer.md R905, R950). -/
def storedHeaders (final : Bool) : Nat → List Nat → List (Nat × BitVec 3)
  | _, [] => []
  | pos, len :: rest =>
    (pos, BitVec.ofBool (final && rest.isEmpty) ++ 0#2)
      :: storedHeaders final (pos + 3 + storedPad pos + 32 + 8 * len) rest

/-- What the output stream holds after a command whose bits did not all fit (45_block_writer.md R901, R905,
60_exceptions.md R1007, R1012): the bytes of OUT below OUT_LEN are those of the old stream followed by the command's
bits, as many as fit below OUT_LIMIT, and the headers counted are those whose three bits were put. BITSTATE is
left open (log 6). -/
structure StreamCut (s t : State) (bits : List Bool) (headers : List (Nat × BitVec 3)) : Prop where
  outLen : t.packer.outLen.toNat = max s.opt.outLimit.toNat s.packer.outLen.toNat
  bytes : (t.readBytes Region.output.base t.packer.outLen.toNat).flatMap (fun b => bitsOf b.toNat 8) =
    (s.streamBits ++ bits).take (8 * t.packer.outLen.toNat)
  counted : ∀ put, put = headers.takeWhile
      (fun x => decide ((x.1 + 3) / 8 ≤ max s.opt.outLimit.toNat s.packer.outLen.toNat)) →
    t.packer.blocksOut = s.packer.blocksOut + word put.length ∧
      t.packer.lastBlock = (put.getLast?.map (·.2)).getD s.packer.lastBlock

/-- How a command ends whose bits did not all fit: WRITE_ERROR with OUT_LEN (60_exceptions.md R1007, R1010); the
options, the operands, the results and the host's account stay. -/
structure EndsFull (s t : State) : Prop where
  status : t.status =
    { s.status with busy := false, done := true, err := true, errCode := .writeError, phase := .idle }
  errInfo : t.errInfo = t.packer.outLen
  issue : t.issue = Issue.none
  opt : t.opt = s.opt
  arg : t.arg = s.arg
  res : t.res = s.res
  host : t.host = s.host
  epoch : t.epoch = s.epoch

/-- A writer command whose bits did not all fit: the stream is cut, and nothing else changes. -/
def WriterStops (s t : State) (bits : List Bool) (headers : List (Nat × BitVec 3)) : Prop :=
  EndsFull s t ∧ StreamCut s t bits headers ∧ t.lens = s.lens ∧ t.obs = s.obs ∧ t.cache = s.cache ∧
    SameMemOutside [writtenRun s t] s t

/-! ## The stream of COMPRESS -/

/-- A block of the plan with the parse the squeeze kept for it. -/
abbrev DoneBlock := PlanBlock × List Sym

/-- The type COMPRESS writes a block with, from stream position pos (40_control.md R433, 45_block_writer.md R980). -/
def blockType (h pos : Nat) (x : DoneBlock) : Nat := if h = 1 then 1 else autoChoice hw pos (x.1.b - x.1.a) x.2

/-- The bits of a block from stream position pos on. -/
def blockStream (h : Nat) (w : List Byte) (final : Bool) (pos : Nat) (x : DoneBlock) : List Bool :=
  match blockType h pos x with
  | 0 => storedStream final pos [x.1.b - x.1.a] (slice w x.1.a x.1.b)
  | 1 => fixedStream final x.2
  | _ => dynamicStream final x.2

/-- The bits of the blocks from stream position pos on, BFINAL on the last (40_control.md R433). -/
def planStream (h : Nat) (w : List Byte) : Nat → List DoneBlock → List Bool
  | _, [] => []
  | pos, x :: rest =>
    let bits := blockStream h w rest.isEmpty pos x
    bits ++ planStream h w (pos + bits.length) rest

/-- The blocks' headers: where each begins, its type and BFINAL. -/
def planHeaders (h : Nat) (w : List Byte) : Nat → List DoneBlock → List (Nat × BitVec 3)
  | _, [] => []
  | pos, x :: rest =>
    (pos, BitVec.ofBool rest.isEmpty ++ BitVec.ofNat 2 (blockType h pos x))
      :: planHeaders h w (pos + (blockStream h w rest.isEmpty pos x).length) rest

/-- The eight words PLAN holds of a finished block whose parse begins at index ss of S (30_encoding.md R325,
40_control.md R433). -/
def doneWords (h : Nat) (header : BitVec 3) (ss : Nat) (x : DoneBlock) : List Word :=
  [word x.1.a, word x.1.b, word x.1.gs, word x.1.ge, word ss, word (ss + x.2.length),
   word (header.toNat + 256), word (est hw h x.2)]

end Sys2Proof.Machine
end

