-- ==== Sys2Proof/Certificates/Slice0/Obligations.lean ====
section
/-! DEFINITION. Certificates/Slice0/Obligations.lean: the statements about the model, one definition each. A name of
the form `R<n>` is a rule of spec/; "log <n>" is notes/assumptions/<n>.md. -/

section Statements

open Sys2Proof Sys2Proof.Machine Sys2Proof.Config

/-! ## Encoding -/

/-- Decoding and encoding are inverse to one another, on every word and every command: no bit of a command word is
dropped (R310, R312, R313). -/
def Obligations.DecodeAndEncodeAgree : Prop :=
  ∀ (w : Word) (i : Instr), decode w = .ok i ↔ encode i = w

/-- R313: the match-and-mask form of every row says that OP equals w[7:0], that w[31:10] is 0, and that w[8] and
w[9] are 0 or taken; no two rows match one word; the word decodes to the command of the row it matches. -/
def Obligations.DecodingSelectsOneRow : Prop :=
  ∀ w : Word,
    (∀ r ∈ opRows, r.mask ∈ [0xFFFFFFFF#32, 0xFFFFFEFF#32, 0xFFFFFDFF#32, 0xFFFFFCFF#32] ∧
      (w &&& r.mask = r.pattern ↔
        w.extractLsb' 0 8 = r.pattern.extractLsb' 0 8 ∧ w.extractLsb' 10 22 = 0 ∧
          (w.getLsbD 8 = false ∨ r.mask.getLsbD 8 = false) ∧
          (w.getLsbD 9 = false ∨ r.mask.getLsbD 9 = false))) ∧
    opRows.Pairwise (fun r q => ¬ (w &&& r.mask = r.pattern ∧ w &&& q.mask = q.pattern)) ∧
    (∀ r ∈ opRows, w &&& r.mask = r.pattern → decode w = .ok (r.build (w.getLsbD 8) (w.getLsbD 9)))

/-- R315: exactly the words with a reserved bit, an unmapped OP, or a flag the command does not take are illegal. Which
of the four reasons the decoder names, the first that holds in the order reserved bits, OP, F, T, is no rule of the
spec but the MODEL's choice (DESIGN CHOICE, log 24). -/
def Obligations.IllegalWordsAreNamed : Prop :=
  ∀ w : Word,
    ((∃ e, decode w = .error e) ↔
      w.extractLsb' 10 22 ≠ 0 ∨ w.extractLsb' 0 8 ∉ knownOps ∨
        (w.getLsbD 8 = true ∧ w.extractLsb' 0 8 ∉ finalOps) ∨
        (w.getLsbD 9 = true ∧ w.extractLsb' 0 8 ∉ storeOps)) ∧
    (∀ e, decode w = .error e ↔ (CmdFields.ofWord w).problem = some e)

/-- R314: the worked encodings. -/
def Obligations.WorkedEncodingsDecode : Prop :=
  decode 0x00000000 = .ok .nop ∧ decode 0x00000008 = .ok .compress ∧ decode 0x00000010 = .ok .findmatch ∧
    decode 0x00000344 = .ok (.wfixed true .s) ∧ decode 0x00000146 = .ok (.wauto true .g) ∧
    decode 0x00000230 = .ok (.count .s) ∧
  encode .nop = 0x00000000 ∧ encode .compress = 0x00000008 ∧ encode .findmatch = 0x00000010 ∧
    encode (.wfixed true .s) = 0x00000344 ∧ encode (.wauto true .g) = 0x00000146 ∧
    encode (.count .s) = 0x00000230

/-- R320, R321: a symbol word is read as the valid symbol it encodes, and only words of the form R321 gives are
read. -/
def Obligations.SymbolWordsRoundTrip : Prop :=
  (∀ (w : Word) (y : Sym), symOfWord hw w = some y ↔ y.Valid ∧ y.toWord = w) ∧
  (∀ w : Word, (symOfWord hw w).isSome = true ↔
    w.extractLsb' 25 7 = 0 ∧
      ((w.extractLsb' 0 16 = 0 ∧ (w.extractLsb' 16 9).toNat ≤ 255) ∨
        (1 ≤ (w.extractLsb' 0 16).toNat ∧ (w.extractLsb' 0 16).toNat ≤ 32768 ∧
          3 ≤ (w.extractLsb' 16 9).toNat ∧ (w.extractLsb' 16 9).toNat ≤ 258)))

/-! ## The step, and what can stop it -/

/-- What a step does around `exec`: the accepted command runs when no further host access lands first, otherwise
the next host access comes; with nothing to do nothing changes (log 1, log 3). `withFetchWord` puts a command word
where the very next step runs it (log 2). -/
def Obligations.StepRunsTheAcceptedCommand : Prop :=
  (∀ (s : State) (w : Word) (i : Instr), decode w = .ok i → s.issue.word = some w →
    s.host.pending = [] ∨ s.issue.busyLeft = 0 → step s = exec i s) ∧
  (∀ (s : State) (w : Word) (op : HostOp) (rest : List HostOp), s.issue.word = some w →
    s.host.pending = op :: rest → 0 < s.issue.busyLeft → step s = .next (hostStep chip op (s.takeOp rest))) ∧
  (∀ (s : State) (op : HostOp) (rest : List HostOp), s.issue.word = none →
    s.host.pending = op :: rest → step s = .next (hostStep chip op (s.takeOp rest))) ∧
  (∀ s : State, s.issue.word = none → s.host.pending = [] → step s = .next s) ∧
  (∀ (s : State) (i : Instr),
    step (s.withFetchWord 32 (encode i).toNat) = exec i (s.accept (encode i) 0))

/-- R1003: an accepted word that matches no row ends with ILLEGAL_CMD before any operand is read; ERRINFO is the
word, and nothing else changes. -/
def Obligations.IllegalCommandEndsAtDecode : Prop :=
  ∀ (s : State) (w : Word) (e : DecodeError), decode w = .error e →
    runCommand chip w s = .next
      { s with
        status := { busy := false, done := true, err := true, dropped := s.status.dropped,
                    errCode := .illegalCmd, phase := .idle }
        errInfo := w
        issue := .none }

/-- R403, R221, R1021: every command answers a next state from every state, and so does every step: nothing stops the
machine. The record of the host's faulted transactions grows only by an access R220 does not accept (log 17). -/
def Obligations.StepNeverStops : Prop :=
  (∀ (i : Instr) (s : State), ∃ t, exec i s = .next t) ∧
  (∀ s : State, ∃ t, step s = .next t ∧
    (t.host.faults = s.host.faults ∨
      ∃ op rest a n p, s.host.pending = op :: rest ∧ (op = .read a n ∨ ∃ v, op = .write a n v) ∧
        ¬ LegalAccess a.toNat n ∧ t.host.faults = .busError p a n :: s.host.faults))

/-- R403, R1140, R1021: whatever the host does meanwhile, bus errors included, an accepted command is over after at
most `busyLeft` further host accesses and one more step (`busyLeft` is a free value, log 3). -/
def Obligations.EveryAcceptedCommandEnds : Prop :=
  ∀ (s : State) (w : Word), Inv s → s.issue.word = some w →
    ∃ n t, n ≤ s.issue.busyLeft + 1 ∧ steps n s = .next t ∧ t.issue.word = none

/-! ## The host interface -/

/-- R401: a write of w to CMD is accepted when BUSY and ERR are 0, and then DONE, BUSY, PHASE and the command are
all that changes (beside the model's own draw of `busyLeft`, log 3); otherwise it is dropped, and only DROPPED
changes. -/
def Obligations.CmdWriteIsAcceptedOrDropped : Prop :=
  ∀ (s : State) (w : Word),
    (s.status.busy = false ∧ s.status.err = false →
      ∃ left, hostWriteState hw Csr.cmd.offset 4 w s =
        { s with
          status := { s.status with done := false, busy := true, phase := .decode }
          issue := { word := some w, busyLeft := left, progress := 0, blockSeen := 0, phaseAt := 0 }
          draws := s.draws + 1 }) ∧
    (s.status.busy = true ∨ s.status.err = true →
      hostWriteState hw Csr.cmd.offset 4 w s = { s with status := { s.status with dropped := true } })

/-- R117: while BUSY a legal write to anything but STATUS sets DROPPED and does nothing else; a write to STATUS
then acts on DROPPED only. That a write to a read-only CSR, an unlisted offset, OUT or SUBLEN, which would be ignored
anyway, sets DROPPED as well is the MODEL's reading of R117 (DEDUCED, log 10; R1120 says "every host write except to
STATUS is dropped"). -/
def Obligations.BusyWritesAreDropped : Prop :=
  ∀ (s : State) (a n : Nat) (v : Word), s.status.busy = true → LegalAccess a n →
    (a ≠ Csr.status.offset →
      hostWriteState hw a n v s = { s with status := { s.status with dropped := true } }) ∧
    (a = Csr.status.offset →
      hostWriteState hw a n v s =
        { s with status := { s.status with dropped := s.status.dropped && !v.getLsbD 3 } })

/-- R115, R1025, R1009: the acknowledgement. While not BUSY, writing 1 to DONE, ERR or DROPPED clears it; clearing
ERR clears ERRCODE and ERRINFO with it; after the fatal code 15 ERR, ERRCODE and ERRINFO stay. -/
def Obligations.StatusWritesAcknowledge : Prop :=
  ∀ (s : State) (v : Word), s.status.busy = false →
    (s.status.errCode ≠ .internal →
      hostWriteState hw Csr.status.offset 4 v s =
        { s with
          status :=
            { busy := false, phase := s.status.phase
              done := if v.getLsbD 1 then false else s.status.done
              err := if v.getLsbD 2 then false else s.status.err
              dropped := if v.getLsbD 3 then false else s.status.dropped
              errCode := if v.getLsbD 2 then .none else s.status.errCode }
          errInfo := if v.getLsbD 2 then 0 else s.errInfo }) ∧
    (s.status.errCode = .internal →
      hostWriteState hw Csr.status.offset 4 v s =
        { s with
          status :=
            { s.status with
              done := if v.getLsbD 1 then false else s.status.done
              dropped := if v.getLsbD 3 then false else s.status.dropped } })

/-- R220, R221, R1021: exactly the accesses R220 does not accept are bus errors. A bus error is recorded as the fault
of the host's transaction (log 17) and changes nothing else: it returns no value, no state of CORE changes, and a
running command goes on. -/
def Obligations.BusErrorsFaultTheHost : Prop :=
  ∀ (s : State) (a : Word) (n : Nat) (v : Word),
    (LegalAccess a.toNat n →
      (hostStep chip (.read a n) s).host.faults = s.host.faults ∧
        (hostStep chip (.read a n) s).host.reads ≠ s.host.reads ∧
        (hostStep chip (.write a n v) s).host.faults = s.host.faults) ∧
    (¬ LegalAccess a.toNat n → ∃ p, ∀ op, op = HostOp.read a n ∨ op = .write a n v →
      hostStep chip op s = { s with host := { s.host with faults := .busError p a n :: s.host.faults } })

/-- R115, R130, R1001, R1030: the numbers of the error codes and phases; what a host read of STATUS returns, busy or
idle; its fields, and the interrupt level: raised by the end of a command while
IRQ_EN is 1, lowered by the acknowledgement, low after reset. -/
def Obligations.StatusWordAndInterruptLevel : Prop :=
  ([ErrCode.none, .illegalCmd, .badArg, .huffError, .badSymbol, .writeError, .readError, .internal].map
      (fun c => c.code.toNat) = [0, 1, 2, 3, 4, 5, 6, 15]) ∧
  ([Phase.idle, .decode, .greedy, .split, .sqBoot, .sqPath, .sqTrace, .sqEval, .sqUpdate, .write, .flush, .unit].map
      (fun x => x.code.toNat) = List.range 12) ∧
  ∀ s : State,
    s.csrValue chip .status = s.statusWord ∧
    (hostReadValue chip Csr.status.offset 4 s).1 = (hostReadValue chip Csr.status.offset 4 s).2.statusWord ∧
    (s.status.busy = false → (hostReadValue chip Csr.status.offset 4 s).1 = s.statusWord) ∧
    s.statusWord.getLsbD 0 = s.status.busy ∧ s.statusWord.getLsbD 1 = s.status.done ∧
    s.statusWord.getLsbD 2 = s.status.err ∧ s.statusWord.getLsbD 3 = s.status.dropped ∧
    s.statusWord.getLsbD 4 = (s.opt.ctrl.getLsbD 4 && (s.status.done || s.status.err)) ∧
    s.statusWord.extractLsb' 5 3 = 0 ∧ s.statusWord.extractLsb' 8 4 = s.status.errCode.code ∧
    s.statusWord.extractLsb' 12 4 = 0 ∧ s.statusWord.extractLsb' 16 8 = s.status.phase.code ∧
    s.statusWord.extractLsb' 24 8 = 0 ∧
    s.irq = s.statusWord.getLsbD 4 ∧
    s.complete.irq = s.opt.irqEn ∧ (∀ e, (s.raiseError e).irq = s.opt.irqEn) ∧
    (s.status.busy = false → s.status.errCode ≠ .internal →
      (hostWriteState hw Csr.status.offset 4 0x0000000E s).irq = false) ∧
    State.reset.irq = false

/-- R223, first sentence, with R232 and R1141: an idle machine's read changes nothing but the record of the host's
own reads and draws (logs 1 and 5); a read while BUSY changes, beyond that, only the observation of the running
command (PHASE and the model's account of it, logs 12 and 13), and PHASE goes along the command's
sequence of phases, never back. -/
def Obligations.HostReadsHaveNoSideEffects : Prop :=
  ∀ (s : State) (a n : Nat),
    (s.status.busy = false →
      (hostReadValue chip a n s).2 =
        { s with
          host := { s.host with reads := (hostReadValue chip a n s).1 :: s.host.reads }
          draws := s.draws + 1 }) ∧
    (s.status.busy = true →
      let t := (hostReadValue chip a n s).2
      t.status = { s.status with phase := t.status.phase } ∧
      t.issue.word = s.issue.word ∧ t.issue.busyLeft = s.issue.busyLeft ∧
      t.errInfo = s.errInfo ∧ t.opt = s.opt ∧ t.arg = s.arg ∧ t.res = s.res ∧ t.packer = s.packer ∧
      t.lens = s.lens ∧ t.obs = s.obs ∧ t.mem = s.mem ∧ t.cache = s.cache ∧ t.epoch = s.epoch ∧
      t.host.pending = s.host.pending ∧
      ∀ w, s.issue.word = some w → s.issue.phaseAt < (commandPhases hw w s).length →
        s.issue.phaseAt ≤ t.issue.phaseAt ∧ (commandPhases hw w s)[t.issue.phaseAt]? = some t.status.phase)

/-- R211, R222, R223, R145: what a legal write to a writable memory region stores while CORE is not BUSY, byte by
byte in little-endian order, that it stores nothing else, and what a read of the same access then returns. -/
def Obligations.HostWritesStoreTheirValue : Prop :=
  ∀ (s : State) (a n : Nat) (v d : Word), s.status.busy = false → LegalAccess a n →
    (∀ r ∈ [Region.freq, .dfreq, .len, .code, .plan, .storeG, .storeS], r.covers hw a = true →
      let t := hostWriteState hw a n v s
      t.readWord a = v ∧ t = { s with mem := t.mem } ∧ SameMemOutside [(a, 4)] s t ∧
        (t.aboveLength r a = false → t.readValue chip d a n = v)) ∧
    (∀ r ∈ [Region.llcost, .dcost], r.covers hw a = true →
      let t := hostWriteState hw a n v s
      t.readValue chip d a n = v &&& 0x0000FFFF ∧ t = { s with mem := t.mem } ∧ SameMemOutside [(a, 4)] s t) ∧
    (Region.input.covers hw a = true →
      let t := hostWriteState hw a n v s
      (∀ k, k < n → t.readByte (a + k) = v.extractLsb' (8 * k) 8) ∧
        t = { s with mem := t.mem, cache := [] } ∧ SameMemOutside [(a, n)] s t ∧
        t.readValue chip d a n = word (v.toNat % 2 ^ (8 * n)))

/-- R110, R113, R119, R124, R126, R223, R232: what a host read of a CSR returns, idle (every CSR) and BUSY (those R232
lists as reading their current value); what it reads after a write of v while CORE is not BUSY: reserved bits stay 0,
OUT_LIMIT is clamped to OUT_CAP; that such a write changes this register only (with STATUS.IRQ, which follows CTRL's
IRQ_EN, and the cache for IN_LEN and MAXCHAIN); and that read-only registers, unlisted offsets, OUT and SUBLEN ignore
the write. -/
def Obligations.RegisterWritesFollowTheMap : Prop :=
  (∀ (s : State) (c : Csr), s.status.busy = false → (hostReadValue chip c.offset 4 s).1 = s.csrValue chip c) ∧
  (∀ s : State, s.status.busy = true →
    (∀ c ∈ [Csr.id, .version, .ctrl, .errInfo, .inLen, .inErr, .numIter, .splitMax, .maxChain, .stagnation,
        .absentCost, .splitMargin, .outLimit], (hostReadValue chip c.offset 4 s).1 = s.csrValue chip c) ∧
    (hostReadValue chip Csr.outLen.offset 4 s).1 = (s.coreProgress hw).csrValue chip .outLen) ∧
  ∀ (s : State) (v : Word), s.status.busy = false →
    (∀ c ∈ [Csr.inLen, .numIter, .splitMax, .maxChain, .stagnation, .splitMargin, .arg0, .arg1, .arg2, .arg3,
        .gLen, .gA, .gB, .sLen, .planLen], (hostWriteState hw c.offset 4 v s).csrValue chip c = v) ∧
    (hostWriteState hw Csr.ctrl.offset 4 v s).csrValue chip .ctrl = v &&& 0x0000003F ∧
    (hostWriteState hw Csr.inErr.offset 4 v s).csrValue chip .inErr = v &&& 0x0000FF01 ∧
    (hostWriteState hw Csr.absentCost.offset 4 v s).csrValue chip .absentCost = v &&& 0x0000FFFF ∧
    ((hostWriteState hw Csr.outLimit.offset 4 v s).csrValue chip .outLimit).toNat = min v.toNat hw.outCap ∧
    (∀ c ∈ [Csr.ctrl, .inLen, .inErr, .numIter, .splitMax, .maxChain, .stagnation, .absentCost, .splitMargin,
        .outLimit, .arg0, .arg1, .arg2, .arg3, .gLen, .gA, .gB, .sLen, .planLen],
      let t := hostWriteState hw c.offset 4 v s
      t = { s with opt := t.opt, arg := t.arg, lens := t.lens, cache := t.cache } ∧
      (∀ d, d ≠ c → (d = .status → c ≠ .ctrl) → t.csrValue chip d = s.csrValue chip d) ∧
      (c ≠ .inLen → c ≠ .maxChain → t.cache = s.cache)) ∧
    (∀ c ∈ [Csr.id, .version, .errInfo, .res0, .res1, .res2, .res3, .outLen, .bitState, .curBlock, .iterCount,
        .bestBits, .blocksOut, .lastBlock], hostWriteState hw c.offset 4 v s = s) ∧
    (∀ off, Region.csr.covers hw off = true → csrAt off = none →
      hostWriteState hw off 4 v s = s ∧ ∀ d, s.readValue chip d off 4 = 0) ∧
    (∀ a n, Region.output.covers hw a = true ∨ Region.sublen.covers hw a = true → hostWriteState hw a n v s = s)

/-- R532: every valid bit becomes 0 on a write to IN, IN_LEN or MAXCHAIN, on CACHECLR, at the start of COMPRESS, on
SRESET and on hardware reset, and on nothing else: no other host access and no other command loses a record. -/
def Obligations.CacheInvalidation : Prop :=
  (∀ (s : State) (a n : Nat) (v : Word), s.status.busy = false →
    Region.input.covers hw a = true ∨ a = Csr.inLen.offset ∨ a = Csr.maxChain.offset →
      (hostWriteState hw a n v s).cache = []) ∧
  (∀ (s : State) (a n : Nat) (v : Word),
    s.status.busy = true ∨
      (Region.input.covers hw a = false ∧ a ≠ Csr.inLen.offset ∧ a ≠ Csr.maxChain.offset) →
        (hostWriteState hw a n v s).cache = s.cache) ∧
  (∀ (s : State) (a n : Nat), (hostReadValue chip a n s).2.cache = s.cache) ∧
  (∀ s t : State, exec .cacheclr s = .next t ∨ exec .sreset s = .next t → t.cache = []) ∧
  (∀ s : State, s.compressStart.cache = [] ∧ (s.hardReset hw).cache = []) ∧
  (∀ (i : Instr) (s t : State), i ≠ .cacheclr → i ≠ .sreset → i ≠ .compress → exec i s = .next t →
    KeepsCache s t)

/-- R110 to R132, R1100 to R1102: what every CSR holds after reset and a host read of it returns, that no command is
executing and the cache is empty, and that the hardware reset gives this state at any time, abandoning a running
command; the host's own account and the draws go on, and the memories' contents are unspecified anew (logs 1, 4
and 5). -/
def Obligations.ResetValues : Prop :=
  (∀ c ∈ [Csr.cmd, .status, .errInfo, .inLen, .inErr, .splitMargin, .arg0, .arg1, .arg2, .arg3, .res0, .res1,
      .res2, .res3, .outLen, .bitState, .gLen, .gA, .gB, .sLen, .planLen, .curBlock, .iterCount, .bestBits,
      .blocksOut, .lastBlock], State.reset.csrValue chip c = 0) ∧
  (∀ c : Csr, (hostReadValue chip c.offset 4 State.reset).1 = State.reset.csrValue chip c) ∧
  (∀ s : State, s.csrValue chip .id = 0x5A4F5046 ∧ s.csrValue chip .version = 0x00010007) ∧
  State.reset.csrValue chip .ctrl = 0x00000022 ∧ State.reset.csrValue chip .numIter = 15 ∧
  State.reset.csrValue chip .splitMax = 15 ∧ State.reset.csrValue chip .maxChain = 8192 ∧
  State.reset.csrValue chip .stagnation = 5 ∧ State.reset.csrValue chip .absentCost = 15 ∧
  State.reset.csrValue chip .outLimit = 0x01010000 ∧
  State.reset.issue.word = none ∧ State.reset.cache = [] ∧
  (∀ s : State, hostStep chip .hardReset s =
    { State.reset with host := s.host, draws := s.draws, epoch := s.epoch + 1 })

/-- R231, R1123, R141: a command that does not restart the stream never lowers OUT_LEN nor changes a byte of OUT
below it; and once the running command's output has begun to show, the OUT bytes a host sees below the OUT_LEN it
sees are the bytes the command leaves (the progressive view is the model's over-approximation, log 13). -/
def Obligations.OutputBelowOutLenIsFinal : Prop :=
  (∀ (i : Instr) (s t : State), i ≠ .sreset → i ≠ .compress → i ≠ .wreset →
    s.packer.outLen.toNat ≤ hw.outCap → exec i s = .next t →
      s.packer.outLen.toNat ≤ t.packer.outLen.toNat ∧
      ∀ k, k < s.packer.outLen.toNat →
        t.readByte (Region.output.entry k) = s.readByte (Region.output.entry k)) ∧
  (∀ (s t : State) (w : Word), s.issue.word = some w → s.status.busy = true → s.issue.progress ≠ 0 →
    runCommand chip w s = .next t →
      s.visibleOutLen chip ≤ t.packer.outLen.toNat ∧
      ∀ k, k < s.visibleOutLen chip →
        s.visibleOutByte chip (Region.output.entry k) = t.readByte (Region.output.entry k))

/-! ## The whole machine -/

/-- The invariant and the coherence of the cache hold after reset. -/
def Obligations.InvariantAtReset : Prop := Inv State.reset ∧ CacheCoherent State.reset

/-- Every step of the machine, from any state that meets the invariant, keeps it: the byte list stays canonical,
BUSY tells whether a command runs, PHASE is IDLE while idle, an error code goes with ERR, reserved bits stay 0,
OUT_LIMIT and OUT_LEN stay within OUT_CAP. -/
def Obligations.InvariantKept : Prop := ∀ s t : State, Inv s → step s = .next t → Inv t

/-- R531: every record in the cache stays what a miss would compute for the current window, N and MAXCHAIN. -/
def Obligations.CacheCoherenceKept : Prop :=
  ∀ s t : State, Inv s → CacheCoherent s → step s = .next t → CacheCoherent t

/-- R140, R229, R405: no command writes IN; none but SRESET writes an option CSR, IN_LEN, IN_ERR or an ARG
register. -/
def Obligations.CommandsKeepWhatTheHostOwns : Prop :=
  ∀ (i : Instr) (s t : State), exec i s = .next t →
    (i ≠ .sreset → t.opt = s.opt ∧ t.arg = s.arg) ∧ t.host = s.host ∧ t.epoch = s.epoch ∧
      ∀ x, Region.input.covers hw x = true → t.readByte x = s.readByte x

/-- R1011: ILLEGAL_CMD, BAD_ARG, BAD_SYMBOL and HUFF_ERROR are precise: the state is the one before the command but
for STATUS and ERRINFO, the cache included. -/
def Obligations.PreciseErrorsChangeNothing : Prop :=
  ∀ (w : Word) (s t : State), s.status.errCode = .none → runCommand chip w s = .next t →
    t.status.errCode ∈ [ErrCode.illegalCmd, .badArg, .badSymbol, .huffError] →
      t = { s with status := t.status, errInfo := t.errInfo, issue := .none }

/-- R1001, R1002: a command ends without error or with one of its own errors; NOP, SRESET, CACHECLR, COSTFIXED and
WRESET raise none, FINDMATCH and GREEDY only BAD_ARG, WRITE_ERROR comes only from the writers and COMPRESS,
READ_ERROR only from COMPRESS, HUFF_ERROR only from HUFFLEN and CANON. -/
def Obligations.ErrorsEachCommandCanRaise : Prop :=
  ∀ (i : Instr) (s t : State), s.status.errCode = .none → exec i s = .next t →
    t.status.errCode = .none ∨ t.status.errCode ∈ errorsOf i

/-- R1010, R1007, R1012, R1008, R901: error entry. The code and ERRINFO are recorded with ERR and DONE, BUSY and PHASE
are cleared; no RES register is written but by READ_ERROR; WRITE_ERROR reports the OUT_LEN it could not write at. Bits
that fit are appended; bits that do not all fit end the command with WRITE_ERROR, OUT_LEN is then the index of the
byte that could not be written, and OUT below it holds as many of the bits as fit. (What each writer and COMPRESS
leave then is in their own statements.) -/
def Obligations.ErrorEntryRecordsAndStops : Prop :=
  (∀ (w : Word) (s t : State), s.status.err = false → s.status.errCode = .none → runCommand chip w s = .next t →
    t.status.err = true →
      t.status = { busy := false, done := true, err := true, dropped := s.status.dropped,
                   errCode := t.status.errCode, phase := .idle } ∧
      t.status.errCode ≠ .none ∧ t.issue = Issue.none ∧ t.opt = s.opt ∧ t.arg = s.arg ∧
      (t.status.errCode ≠ .readError → t.res = s.res) ∧
      (t.status.errCode = .writeError →
        t.errInfo = t.packer.outLen ∧ s.opt.outLimit.toNat ≤ t.packer.outLen.toNat) ∧
      (t.status.errCode = .readError →
        s.opt.readFailed = true ∧ t.errInfo = word (s.opt.readKind.toNat <<< 24))) ∧
  (∀ (bits : List Bool) (s : State),
    (s.HasRoom bits.length → ∃ t, putAll bits s = .ok t ∧ t.streamBits = s.streamBits ++ bits ∧
      SameMemOutside [writtenRun s t] s t) ∧
    (¬ s.HasRoom bits.length → ∃ t, putAll bits s = .stop { code := .writeError, info := t.packer.outLen } t ∧
      StreamCut s t bits [] ∧ SameMemOutside [writtenRun s t] s t))

/-- R420 to R423, R1004, R1006, R1020 and every command's own list (R430, R510, R520, R640, R650, R710, R811, R820,
R840, R911, R951, R982, R990): the first BAD_ARG check that fails ends the command with its ERRINFO and no other
effect, and without a failing one there is no BAD_ARG; then the lowest malformed entry of the symbol range; then the
first entry off the tiling, or the end index. -/
def Obligations.OperandErrorsComeInOrder : Prop :=
  (∀ (i : Instr) (s : State) (before after : List (Bool × Nat)) (info : Nat),
    argChecks s i = before ++ (true, info) :: after → (∀ c ∈ before, c.1 = false) →
      exec i s = .next (s.raiseError { code := .badArg, info := word info })) ∧
  (∀ (i : Instr) (s t : State), ArgsPass i s → s.status.errCode = .none → exec i s = .next t →
    t.status.errCode ≠ .badArg) ∧
  (∀ (i : Instr) (s : State) (x : StoreSel) (m n k : Nat),
    ArgsPass i s → symbolCheck s i = some (x, m, n) → m ≤ k → k < n →
    (∀ l, m ≤ l → l < k → s.entryAt hw x l ≠ none) → s.entryAt hw x k = none →
      exec i s = .next (s.raiseError { code := .badSymbol, info := word k })) ∧
  (∀ (i : Instr) (s : State) (x : StoreSel) (m n a b e : Nat) (es : List Entry),
    ArgsPass i s → symbolCheck s i = some (x, m, n) → tilingCheck s i = some (a, b) →
    es.length = n - m → HoldsEntries s x m es →
    (∀ k y, Tiles (es.take k) a e → es[k]? = some y → y.pos ≠ e →
      exec i s = .next (s.raiseError { code := .badSymbol, info := word (m + k) })) ∧
    (Tiles es a e → e ≠ b → exec i s = .next (s.raiseError { code := .badSymbol, info := word n })))

/-! ## The control commands -/

/-- R410: NOP changes nothing but STATUS: it ends, and that is all; from reset it leaves STATUS = 2. -/
def Obligations.NopChangesOnlyStatus : Prop :=
  (∀ s : State, exec .nop s = .next
    { s with status := { s.status with busy := false, done := true, phase := .idle }, issue := .none }) ∧
  (∃ t, exec .nop (State.reset.accept 0x00000000 0) = .next t ∧ t.statusWord = 0x00000002)

/-- R411, R1103: SRESET gives every CSR its reset value but for DONE, empties the cache and keeps the memories. -/
def Obligations.SresetRestoresTheRegisters : Prop :=
  ∀ s : State, ∃ t, exec .sreset s = .next t ∧
    (∀ c, c ≠ .status → t.csrValue chip c = State.reset.csrValue chip c) ∧ t.statusWord = 0x00000002 ∧
    t.opt = .reset hw ∧ t.arg = .reset ∧ t.res = .reset ∧ t.packer = .reset ∧ t.lens = .reset ∧ t.obs = .reset ∧
    t.errInfo = 0 ∧ t.cache = [] ∧ t.issue = Issue.none ∧ SameMem s t ∧ t.host = s.host ∧ t.draws = s.draws ∧
    t.epoch = s.epoch

/-- R412, R910: CACHECLR empties the cache, WRESET restarts the stream at bit 0 of OUT[0]; each changes nothing else
but STATUS, and no byte of memory. -/
def Obligations.CacheclrAndWresetClearTheirUnit : Prop :=
  ∀ s : State,
    exec .cacheclr s = .next
      { s with status := { s.status with busy := false, done := true, phase := .idle }, issue := .none,
               cache := [] } ∧
    exec .wreset s = .next
      { s with status := { s.status with busy := false, done := true, phase := .idle }, issue := .none,
               packer := { outLen := 0, bitCnt := 0, bitBuf := 0, blocksOut := 0, lastBlock := 0 } }

/-- R431, R432, R434, R435, R437: COMPRESS under the STORED hint writes the window as stored blocks, BFINAL on the
last chunk only, from bit 0 of OUT[0], when they fit below OUT_LIMIT; its results; its frame. When they do not fit it
ends with WRITE_ERROR, the stream cut at OUT_LIMIT. -/
def Obligations.CompressStoredWritesTheWindow : Prop :=
  ∀ s : State, s.opt.btype = 0 → s.inputLen ≤ hw.inCap → s.opt.readFailed = false →
    let bits := storedStream true 0 (storedChunks hw s.inputLen) s.window
    let lens : Lens := { gLen := 0, gA := 0, gB := word s.inputLen, sLen := 0, planLen := 0 }
    bits.length = storedBits hw 0 s.inputLen ∧
    (storedBits hw 0 s.inputLen / 8 ≤ s.opt.outLimit.toNat →
      ∃ t, exec .compress s = .next t ∧ EndsWell s t ∧ t.streamBits = bits ∧
        t.packer = { outLen := word (storedBits hw 0 s.inputLen / 8), bitCnt := 0, bitBuf := 0,
                     blocksOut := word (storedChunks hw s.inputLen).length, lastBlock := 0x4 } ∧
        t.res = { r0 := t.packer.outLen, r1 := 0, r2 := t.packer.blocksOut,
                  r3 := word (storedBits hw 0 s.inputLen) } ∧
        t.lens = lens ∧ t.obs = { curBlock := 0, iterCount := 0, bestBits := 0 } ∧ t.cache = [] ∧
        SameMemOutside [(Region.output.base, storedBits hw 0 s.inputLen / 8)] s t) ∧
    (s.opt.outLimit.toNat < storedBits hw 0 s.inputLen / 8 →
      ∃ t, exec .compress s = .next t ∧ EndsFull s t ∧
        StreamCut s.compressStart t bits (storedHeaders true 0 (storedChunks hw s.inputLen)) ∧
        t.lens = lens ∧ t.cache = [] ∧
        SameMemOutside [(Region.output.base, t.packer.outLen.toNat)] s t)

/-- R431, R433, R435, R437, R440 (its LZ77 half), R521, R654, R711, R712, R980: COMPRESS under the FIXED or DYNAMIC
hint. G holds the greedy parse of the window, PLAN the plan the splitter makes of it, S the parses the squeeze keeps,
block after block; the output is the concatenation of the blocks, each a fixed block of its parse (FIXED) or the
cheapest encoding of it (DYNAMIC), BFINAL on the last, then zero bits up to the byte boundary; the results; the
frame. When they do not fit below OUT_LIMIT, it ends with WRITE_ERROR and the stream is cut there. -/
def Obligations.CompressParsesTheWholeWindow : Prop :=
  ∀ s : State, s.opt.btype = 1 ∨ s.opt.btype = 2 → s.inputLen ≤ hw.inCap → s.opt.readFailed = false →
    ∃ (gs : List Entry) (blocks : List PlanBlock) (parts : List (List Entry)) (iters : List Nat),
      IsParse s.window gs 0 s.inputLen ∧
      (∀ e ∈ gs, e.sym = greedySym s.searchCtx s.opt.lazy s.inputLen e.pos) ∧
      IsPlan s.opt.btype s.opt.splitMax.toNat s.opt.splitMargin.toNat gs 0 s.inputLen blocks ∧
      parts.length = blocks.length ∧ iters.length = blocks.length ∧
      (∀ (j : Nat) (p : PlanBlock) (best : List Entry) (n : Nat),
        blocks[j]? = some p → parts[j]? = some best → iters[j]? = some n →
        IsSqueezed s p.a p.b (slice gs p.gs p.ge) best n ∧ IsParse s.window best p.a p.b) ∧
      let done : List DoneBlock := blocks.zip (parts.map (fun es => es.map Entry.sym))
      let bits := planStream s.opt.btype s.window 0 done
      let headers := planHeaders s.opt.btype s.window 0 done
      ((bits.length + 7) / 8 ≤ s.opt.outLimit.toNat →
        ∃ t, exec .compress s = .next t ∧ EndsWell s t ∧
          t.streamBits = bits ++ List.replicate ((8 - bits.length % 8) % 8) false ∧
          t.packer.bitCnt = 0 ∧ t.packer.bitBuf = 0 ∧ t.packer.outLen = word ((bits.length + 7) / 8) ∧
          t.packer.blocksOut = word blocks.length ∧
          (headers.getLast?.map (·.2)) = some t.packer.lastBlock ∧ t.packer.lastBlock.getLsbD 2 = true ∧
          HoldsEntries t .g 0 gs ∧ HoldsEntries t .s 0 parts.flatten ∧
          (∀ j x y, done[j]? = some x → headers[j]? = some y →
            HoldsWords t (planAddr j 0) (doneWords s.opt.btype y.2 (parts.take j).flatten.length x)) ∧
          t.lens = { gLen := word gs.length, gA := 0, gB := word s.inputLen,
                     sLen := word parts.flatten.length, planLen := word blocks.length } ∧
          t.res = { r0 := t.packer.outLen, r1 := t.lens.planLen, r2 := t.packer.blocksOut,
                    r3 := word bits.length } ∧
          (∀ n x, iters.getLast? = some n → done.getLast? = some x →
            t.obs = { curBlock := word (blocks.length - 1), iterCount := word n,
                      bestBits := word (est hw s.opt.btype x.2) }) ∧
          SameMemOutside
            [(Region.output.base, t.packer.outLen.toNat), (Region.storeG.base, 8 * gs.length),
             (Region.storeS.base, 8 * parts.flatten.length), (Region.plan.base, 32 * blocks.length)] s t) ∧
      (s.opt.outLimit.toNat < (bits.length + 7) / 8 →
        ∃ t, exec .compress s = .next t ∧ EndsFull s t ∧ StreamCut s.compressStart t bits headers ∧
          SameMemOutside
            [(Region.output.base, t.packer.outLen.toNat), (Region.storeG.base, 8 * gs.length),
             (Region.storeS.base, 8 * parts.flatten.length), (Region.plan.base, 32 * blocks.length)] s t)

/-- R436, R1008, R1013: with IN_ERR.FAIL set, COMPRESS does exactly what it does without it, and then ends with
READ_ERROR and the kind in ERRINFO[31:24]. -/
def Obligations.CompressReportsAReadFailure : Prop :=
  ∀ s u : State, s.opt.readFailed = true → s.status.err = false →
    exec .compress { s with opt := { s.opt with inErr := 0 } } = .next u → u.status.err = false →
      exec .compress s = .next
        { u with
          opt := s.opt
          status := { u.status with err := true, errCode := .readError }
          errInfo := word (s.opt.readKind.toNat <<< 24) }

/-- R441: for a fixed input and fixed other options, RES0 after COMPRESS does not increase when NUMITER increases
(where the output fits: the room asked for is the model's own bound). -/
def Obligations.MoreIterationsNeverGrowTheOutput : Prop :=
  ∀ (s t u : State) (n : Word), s.opt.btype ≠ 3 → s.inputLen ≤ hw.inCap →
    4 * (s.inputLen + 2) ≤ s.opt.outLimit.toNat → s.opt.numIter.toNat ≤ n.toNat →
    exec .compress s = .next t →
    exec .compress { s with opt := { s.opt with numIter := n } } = .next u →
      u.res.r0.toNat ≤ t.res.r0.toNat

/-- R442: under the FIXED and DYNAMIC hints COMPRESS writes exactly PLAN_LEN block headers, at most SPLITMAX of them
when SPLITMAX is not 0; under the STORED hint ceil(N/65535) of them, at least 1. -/
def Obligations.SplitCapBoundsTheBlocks : Prop :=
  ∀ s t : State, s.status.err = false → s.status.errCode = .none → s.inputLen ≤ hw.inCap →
    exec .compress s = .next t → t.status.errCode = .none ∨ t.status.errCode = .readError →
      (s.opt.btype = 1 ∨ s.opt.btype = 2 →
        t.packer.blocksOut = t.lens.planLen ∧
        (s.opt.splitMax ≠ 0 → t.lens.planLen.toNat ≤ s.opt.splitMax.toNat)) ∧
      (s.opt.btype = 0 →
        t.packer.blocksOut.toNat = max 1 ((s.inputLen + 65534) / 65535))

/-- R443: COMPRESS is deterministic in the IN bytes, IN_LEN, IN_ERR, the option CSRs and OUT_LIMIT: two states that
agree on these (and on STATUS, ERRINFO and the count of draws, log 5) give the same STATUS and ERRINFO, and every
other CSR, the cache and every byte of memory end equal or are left as they were in both. -/
def Obligations.CompressDependsOnItsInputsOnly : Prop :=
  ∀ s₁ s₂ t₁ t₂ : State, s₁.opt = s₂.opt → s₁.status = s₂.status → s₁.errInfo = s₂.errInfo →
    s₁.draws = s₂.draws →
    (∀ x, Region.input.covers hw x = true → s₁.readByte x = s₂.readByte x) →
    exec .compress s₁ = .next t₁ → exec .compress s₂ = .next t₂ →
      t₁.status = t₂.status ∧ t₁.errInfo = t₂.errInfo ∧
      (t₁.res = t₂.res ∨ (t₁.res = s₁.res ∧ t₂.res = s₂.res)) ∧
      (t₁.packer = t₂.packer ∨ (t₁.packer = s₁.packer ∧ t₂.packer = s₂.packer)) ∧
      (t₁.lens = t₂.lens ∨ (t₁.lens = s₁.lens ∧ t₂.lens = s₂.lens)) ∧
      (t₁.obs.curBlock = t₂.obs.curBlock ∨
        (t₁.obs.curBlock = s₁.obs.curBlock ∧ t₂.obs.curBlock = s₂.obs.curBlock)) ∧
      (t₁.obs.iterCount = t₂.obs.iterCount ∨
        (t₁.obs.iterCount = s₁.obs.iterCount ∧ t₂.obs.iterCount = s₂.obs.iterCount)) ∧
      (t₁.obs.bestBits = t₂.obs.bestBits ∨
        (t₁.obs.bestBits = s₁.obs.bestBits ∧ t₂.obs.bestBits = s₂.obs.bestBits)) ∧
      (t₁.cache = t₂.cache ∨ (t₁.cache = s₁.cache ∧ t₂.cache = s₂.cache)) ∧
      (∀ x, t₁.readByte x = t₂.readByte x ∨
        (t₁.readByte x = s₁.readByte x ∧ t₂.readByte x = s₂.readByte x))

/-! ## The parser and the splitter -/

/-- R510, R508: FINDMATCH reports the match record of its position, clipped at its limit, in RES0 to RES3 and
SUBLEN, and fills the position's cache entry; nothing else changes. -/
def Obligations.FindmatchReportsTheRecord : Prop :=
  ∀ s : State, s.inputLen ≤ hw.inCap → s.argOf .x0 < s.inputLen → CacheCoherent s →
    let r := matchRec hw s.window s.opt.maxChain.toNat (s.argOf .x0)
    let m := min r.best (s.argOf .x1)
    ∃ t, exec .findmatch s = .next t ∧ EndsWell s t ∧
      t.res = { r0 := word (if m < 3 then 0 else m), r1 := word (if m < 3 then 0 else r.subAt hw m),
                r2 := word r.best, r3 := word (r.subAt hw r.best) } ∧
      HoldsTable t .sublen ((List.range 259).map (r.subAt hw)) ∧
      SameMemOutside [(Region.sublen.base, 4 * 259)] s t ∧
      t.packer = s.packer ∧ t.lens = s.lens ∧ t.obs = s.obs ∧
      t.cache.get? (s.argOf .x0) = some r ∧
      ∀ q, q ≠ s.argOf .x0 → t.cache.get? q = s.cache.get? q

/-- R520, R521, R522, R531: GREEDY leaves in G a parse of [a, b) that tiles it, holds only valid symbols and
reconstructs the window; at each position it emits the clipped match there, or a literal when there is none or when
the lazy step finds a strictly longer one at the next position; it is the same parse whatever records the cache holds;
G_LEN, G_A, G_B and RES0 say its length and range; nothing else changes. -/
def Obligations.GreedyWritesAParse : Prop :=
  ∀ s : State, ByteRange s .x0 .x1 → CacheCoherent s →
    ∃ t es, exec .greedy s = .next t ∧ EndsWell s t ∧
      IsParse s.window es (s.argOf .x0) (s.argOf .x1) ∧
      (∀ e ∈ es, e.sym = greedySym s.searchCtx s.opt.lazy (s.argOf .x1) e.pos) ∧
      HoldsEntries t .g 0 es ∧
      t.lens = { s.lens with gLen := word es.length, gA := s.arg.a0, gB := s.arg.a1 } ∧
      t.res = { s.res with r0 := word es.length } ∧
      SameMemOutside [(Region.storeG.entry 0, 8 * es.length)] s t ∧
      t.packer = s.packer ∧ t.obs = s.obs ∧ KeepsCache s t

/-- R710 to R712: SPLIT cuts the greedy store by the bisection of R711 (the largest range that has a cut saving more
than SPLITMARGIN bits is cut at its best cut, until none has one or a cap stops it) into blocks that follow one
another from G_A to G_B and from symbol 0 to G_LEN, at least one and at most PLAN_CAP, at most SPLITMAX when that is
not 0, whose estimates together do not exceed the whole store's; PLAN, PLAN_LEN and RES0 hold them; nothing else
changes. -/
def Obligations.SplitPlansTheStore : Prop :=
  ∀ (s : State) (es : List Entry), s.opt.btype ≠ 3 → s.storeLen .g ≤ hw.storeCap →
    es.length = s.storeLen .g → HoldsEntries s .g 0 es → Tiles es s.lens.gA.toNat s.lens.gB.toNat →
    ∃ t blocks, exec .split s = .next t ∧ EndsWell s t ∧
      IsPlan s.opt.btype s.opt.splitMax.toNat s.opt.splitMargin.toNat es s.lens.gA.toNat s.lens.gB.toNat blocks ∧
      (blocks.map (fun p => est hw s.opt.btype ((slice es p.gs p.ge).map Entry.sym))).sum ≤
        est hw s.opt.btype (es.map Entry.sym) ∧
      HoldsWords t (planAddr 0 0)
        (blocks.flatMap (fun p => [word p.a, word p.b, word p.gs, word p.ge, 0, 0, 0, 0])) ∧
      t.lens = { s.lens with planLen := word blocks.length } ∧
      t.res = { s.res with r0 := word blocks.length } ∧
      SameMemOutside [(planAddr 0 0, 32 * blocks.length)] s t ∧
      t.packer = s.packer ∧ t.obs = s.obs ∧ t.cache = s.cache

/-- R502 to R504: the candidates of a position are the first MAXCHAIN earlier positions within 32768 bytes with the
same three bytes, and the first MAXCHAIN of those with the same run length, by increasing distance; a position
without a key has none; and what the run length of a position is. -/
def Obligations.CandidatesAreTheTwoChains : Prop :=
  ∀ (w : List Byte) (m p : Nat),
    (w.length < p + 3 → chain1 hw w p = [] ∧ candidates hw w m p = []) ∧
    (p + 3 ≤ w.length → ∀ c : Nat × List Byte, c ∈ chain1 hw w p ↔
      1 ≤ c.1 ∧ c.1 ≤ p ∧ c.1 ≤ 32768 ∧ c.2 = w.drop (p - c.1) ∧
        w[p - c.1]? = w[p]? ∧ w[p - c.1 + 1]? = w[p + 1]? ∧ w[p - c.1 + 2]? = w[p + 2]?) ∧
    (chain1 hw w p).Pairwise (fun c e => c.1 < e.1) ∧ (candidates hw w m p).Pairwise (fun c e => c.1 < e.1) ∧
    (∀ c : Nat × List Byte, c ∈ candidates hw w m p ↔
      c ∈ (chain1 hw w p).take m ∨
        c ∈ ((chain1 hw w p).filter (fun e => runOf hw e.2 == runOf hw (w.drop p))).take m) ∧
    (p < w.length →
      1 ≤ runOf hw (w.drop p) ∧ runOf hw (w.drop p) ≤ 258 ∧ p + runOf hw (w.drop p) ≤ w.length ∧
      (∀ k, k < runOf hw (w.drop p) → w[p + k]? = w[p]?) ∧
      (runOf hw (w.drop p) = 258 ∨ w[p + runOf hw (w.drop p)]? ≠ w[p]?))

/-- R505, R506: the match record. `best` is the longest common prefix of a candidate, 0 without candidates;
`sub[L]` is the least distance of a candidate whose common prefix reaches L, non-decreasing in L, 0 above `best`;
every candidate's common prefix is at least 3. -/
def Obligations.MatchRecordIsTheBestOfTheCandidates : Prop :=
  ∀ (w : List Byte) (m p : Nat),
    let prefixOf := fun c : Nat × List Byte => lcp (min 258 (w.length - p)) c.2 (w.drop p)
    let r := matchRec hw w m p
    (∀ c ∈ candidates hw w m p, 3 ≤ prefixOf c ∧ prefixOf c ≤ min 258 (w.length - p) ∧
      (∀ k, k < prefixOf c → w[p - c.1 + k]? = w[p + k]?) ∧
      (prefixOf c < min 258 (w.length - p) → w[p - c.1 + prefixOf c]? ≠ w[p + prefixOf c]?)) ∧
    (candidates hw w m p = [] → r.best = 0) ∧
    (candidates hw w m p ≠ [] → ∃ c ∈ candidates hw w m p, prefixOf c = r.best) ∧
    (∀ c ∈ candidates hw w m p, prefixOf c ≤ r.best) ∧
    (∀ l, 3 ≤ l → l ≤ r.best →
      (∃ c ∈ candidates hw w m p, l ≤ prefixOf c ∧ r.subAt hw l = c.1) ∧
      (∀ c ∈ candidates hw w m p, l ≤ prefixOf c → r.subAt hw l ≤ c.1)) ∧
    (∀ l, r.best < l → r.subAt hw l = 0) ∧
    (∀ l, 3 ≤ l → l < r.best → r.subAt hw l ≤ r.subAt hw (l + 1))

/-- R643, R440 (its LZ77 half): a parse of the window from its start, expanded symbol by symbol, gives the window
bytes back exactly. -/
def Obligations.ParsesReconstructTheWindow : Prop :=
  ∀ (w : List Byte) (es : List Entry) (b : Nat), b ≤ w.length → IsParse w es 0 b →
    expandSyms [] (es.map Entry.sym) = w.take b

/-! ## The squeeze -/

/-- R611, R613, R620, R630: COSTFIXED loads the fixed code's lengths, COSTSTAT the code lengths of its symbol range
with ABSENTCOST for an absent symbol; nothing else changes, no RES register included. -/
def Obligations.CostCommandsLoadTheTables : Prop :=
  (∀ s : State, ∃ t, exec .costfixed s = .next t ∧ EndsWell s t ∧
    HoldsTable t .llcost ((List.range 286).map (fun k => fixedLitLens.getD k 0)) ∧
    HoldsTable t .dcost (List.replicate 30 5) ∧
    SameMemOutside [(Region.llcost.base, 4 * 286), (Region.dcost.base, 4 * 30)] s t ∧
    t.res = s.res ∧ t.packer = s.packer ∧ t.lens = s.lens ∧ t.obs = s.obs ∧ t.cache = s.cache) ∧
  (∀ (s : State) (x : StoreSel) (es : List Entry), SymbolRange s x es →
    let f := countSyms hw (es.map Entry.sym)
    let cost := fun l : Nat => if 0 < l then l else s.opt.absentCost.toNat % 2 ^ 16
    ∃ t, exec (.coststat x) s = .next t ∧ EndsWell s t ∧
      HoldsTable t .llcost ((katajainen (f.1.take 286) 15).map cost) ∧
      HoldsTable t .dcost ((katajainen f.2 15).map cost) ∧
      (katajainen (f.1.take 286) 15).length = 286 ∧ (katajainen f.2 15).length = 30 ∧
      SameMemOutside [(Region.llcost.base, 4 * 286), (Region.dcost.base, 4 * 30)] s t ∧
      t.res = s.res ∧ t.packer = s.packer ∧ t.lens = s.lens ∧ t.obs = s.obs ∧ t.cache = s.cache)

/-- R640, R643: SPPASS appends to S the path of one pass under LLCOST and DCOST, a parse of [a, b), the same whatever
records the cache holds; S_LEN, RES0 to RES2 say its length and cost; nothing else changes. -/
def Obligations.SppassAppendsThePath : Prop :=
  ∀ s : State, ByteRange s .x0 .x1 → CacheCoherent s →
    s.storeLen .s + (s.argOf .x1 - s.argOf .x0) ≤ hw.storeCap →
    let r := shortestPath hw s.searchCtx (s.loadCosts hw) (s.argOf .x0) (s.argOf .x1) []
    IsParse s.window r.path (s.argOf .x0) (s.argOf .x1) ∧
    ∃ t, exec .sppass s = .next t ∧ EndsWell s t ∧ HoldsEntries t .s (s.storeLen .s) r.path ∧
      t.lens = { s.lens with sLen := word (s.storeLen .s + r.path.length) } ∧
      t.res = { s.res with r0 := word r.path.length, r1 := word (r.cost % 2 ^ 32),
                           r2 := word (r.cost / 2 ^ 32) } ∧
      SameMemOutside [(Region.storeS.entry (s.storeLen .s), 8 * r.path.length)] s t ∧
      t.packer = s.packer ∧ t.obs = s.obs ∧ KeepsCache s t

/-- R641, R642: the pass finds a path of least cost from a to b along the literal edges and the match edges of the
records, its cost is the path's, and no path of the same cost ends in a shorter edge. -/
def Obligations.ShortestPathIsOptimal : Prop :=
  ∀ (x : SearchCtx) (c : CostModel) (a b : Nat), a ≤ b → b ≤ x.window.length →
    let r := shortestPath hw x c a b []
    IsEdgePath x r.path a b ∧ pathCost c r.path = r.cost ∧
    ∀ es, IsEdgePath x es a b →
      r.cost ≤ pathCost c es ∧ (pathCost c es = r.cost → lastSpan r.path ≤ lastSpan es)

/-- R650 to R656: SQUEEZE keeps, of the block's greedy store and the parses of the passes it runs, the first of least
estimate; it runs passes up to NUMITER, or up to the first that is the STAGNATION-th in a row without a new minimum
(none with NUMITER = 0); what it keeps is the greedy store or a parse of the block with a strictly smaller estimate;
it appends it to S and reports it in PLAN[j], S_LEN, ITER_COUNT, BEST_BITS and RES0 to RES2; nothing else changes. -/
def Obligations.SqueezeKeepsTheBestParse : Prop :=
  ∀ (s : State) (es : List Entry), SqueezeOperands s es → CacheCoherent s →
    let j := s.argOf .x0
    ∃ t best iters, exec .squeeze s = .next t ∧ EndsWell s t ∧
      IsSqueezed s (s.planWord j 0) (s.planWord j 1) es best iters ∧
      (best = es ∨ IsParse s.window best (s.planWord j 0) (s.planWord j 1)) ∧
      est hw s.opt.btype (best.map Entry.sym) ≤ est hw s.opt.btype (es.map Entry.sym) ∧
      (best ≠ es → est hw s.opt.btype (best.map Entry.sym) < est hw s.opt.btype (es.map Entry.sym)) ∧
      HoldsEntries t .s (s.storeLen .s) best ∧
      HoldsWords t (planAddr j 4) [word (s.storeLen .s), word (s.storeLen .s + best.length)] ∧
      HoldsWords t (planAddr j 7) [word (est hw s.opt.btype (best.map Entry.sym))] ∧
      t.lens = { s.lens with sLen := word (s.storeLen .s + best.length) } ∧
      t.obs = { s.obs with iterCount := word iters,
                           bestBits := word (est hw s.opt.btype (best.map Entry.sym)) } ∧
      t.res = { s.res with r0 := word best.length,
                           r1 := word (est hw s.opt.btype (best.map Entry.sym)), r2 := word iters } ∧
      SameMemOutside [(Region.storeS.entry (s.storeLen .s), 8 * best.length), (planAddr j 4, 8),
        (planAddr j 7, 4)] s t ∧
      t.packer = s.packer ∧ KeepsCache s t

/-! ## Huffman codes -/

/-- R810, R811, R331, R332: COUNT writes to FREQ how often each literal/length symbol occurs in the range, the
end-of-block symbol once more, and to DFREQ how often each distance symbol occurs; RES0 is the number of symbols;
nothing else changes. And the length and distance symbols are those of the two tables: each value lies in the row of
its symbol, the rows follow one another with the extra bits of RFC 1951, and 258 is symbol 285 with none. -/
def Obligations.CountWritesTheFrequencies : Prop :=
  (∀ (s : State) (x : StoreSel) (es : List Entry), SymbolRange s x es →
    ∃ t, exec (.count x) s = .next t ∧ EndsWell s t ∧
      (∀ k, k < 288 → t.readWord (Region.freq.entry k) =
        word ((es.filter (fun e => e.sym.litCode == k)).length + if k = 256 then 1 else 0)) ∧
      (∀ k, k < 30 → t.readWord (Region.dfreq.entry k) =
        word (es.filter (fun e => e.sym.distCode == some k)).length) ∧
      t.res = { s.res with r0 := word es.length } ∧
      SameMemOutside [(Region.freq.base, 4 * 288), (Region.dfreq.base, 4 * 30)] s t ∧
      t.packer = s.packer ∧ t.lens = s.lens ∧ t.obs = s.obs ∧ t.cache = s.cache) ∧
  (let extra := fun c : Nat => if c < 265 then 0 else (c - 261) / 4
   lengthRow 258 = { code := 285, extra := 0, base := 258 } ∧
   ∀ len, 3 ≤ len → len ≤ 257 →
    let r := lengthRow len
    257 ≤ r.code ∧ r.code ≤ 284 ∧ r.extra = extra r.code ∧
      r.base = 3 + ((List.range (r.code - 257)).map (fun k => 2 ^ extra (257 + k))).sum ∧
      r.base ≤ len ∧ len - r.base < 2 ^ r.extra) ∧
  (let extra := fun c : Nat => c / 2 - 1
   ∀ dist, 1 ≤ dist → dist ≤ 32768 →
    let r := distanceRow dist
    r.code ≤ 29 ∧ r.extra = extra r.code ∧
      r.base = 1 + ((List.range r.code).map (fun k => 2 ^ extra k)).sum ∧
      r.base ≤ dist ∧ dist - r.base < 2 ^ r.extra)

/-- R820, R822: HUFFLEN writes the L-limited code lengths of FREQ[0..n) to LEN[0..n) and the number m of nonzero
frequencies to RES0, and changes nothing else; when m > 2^L it ends with HUFF_ERROR and m, having written
nothing. -/
def Obligations.HufflenWritesTheLengths : Prop :=
  ∀ s : State, 1 ≤ s.argOf .x0 → s.argOf .x0 ≤ 288 → 1 ≤ s.argOf .x1 → s.argOf .x1 ≤ 15 →
    let f := s.readTable .freq (s.argOf .x0)
    let m := (f.filter (fun v => decide (0 < v))).length
    (m ≤ 2 ^ s.argOf .x1 → ∃ t, exec .hufflen s = .next t ∧ EndsWell s t ∧
      HoldsTable t .len (katajainen f (s.argOf .x1)) ∧
      (katajainen f (s.argOf .x1)).length = s.argOf .x0 ∧
      t.res = { s.res with r0 := word m } ∧
      SameMemOutside [(Region.len.base, 4 * s.argOf .x0)] s t ∧
      t.packer = s.packer ∧ t.lens = s.lens ∧ t.obs = s.obs ∧ t.cache = s.cache) ∧
    (2 ^ s.argOf .x1 < m →
      exec .hufflen s = .next (s.raiseError { code := .huffError, info := word m }))

/-- R840, R841: CANON writes the canonical codes of LEN[0..n) to CODE[0..n), the number of coded symbols to RES0 and
the Kraft sum to RES1, and changes nothing else; a length above 15 is BAD_ARG with its address, a Kraft sum above
2^15 is HUFF_ERROR with the sum. -/
def Obligations.CanonWritesTheCodes : Prop :=
  ∀ s : State, 1 ≤ s.argOf .x0 → s.argOf .x0 ≤ 288 →
    let lens := s.readTable .len (s.argOf .x0)
    ((∀ l ∈ lens, l ≤ 15) → kraftSum hw lens ≤ 2 ^ 15 → ∃ t, exec .canon s = .next t ∧ EndsWell s t ∧
      HoldsTable t .code (canonical hw lens) ∧ (canonical hw lens).length = s.argOf .x0 ∧
      t.res = { s.res with r0 := word (lens.filter (fun v => decide (0 < v))).length,
                           r1 := word (kraftSum hw lens) } ∧
      SameMemOutside [(Region.code.base, 4 * s.argOf .x0)] s t ∧
      t.packer = s.packer ∧ t.lens = s.lens ∧ t.obs = s.obs ∧ t.cache = s.cache) ∧
    ((∀ l ∈ lens, l ≤ 15) → 2 ^ 15 < kraftSum hw lens →
      exec .canon s = .next (s.raiseError { code := .huffError, info := word (kraftSum hw lens) })) ∧
    (∀ k, k < s.argOf .x0 → (∀ j, j < k → lens.getD j 0 ≤ 15) → 15 < lens.getD k 0 →
      exec .canon s = .next (s.raiseError { code := .badArg, info := word (0x00012000 + 4 * k) }))

/-- R821, R822: of the package-merge lengths, each is at most the limit, and a symbol has one exactly when its
frequency is not 0. -/
def Obligations.CodeLengthsRespectTheLimit : Prop :=
  ∀ (f : List Nat) (limit : Nat), 1 ≤ limit →
    (katajainen f limit).length = f.length ∧
    ∀ k, k < f.length →
      (katajainen f limit).getD k 0 ≤ limit ∧
      (0 < (katajainen f limit).getD k 0 ↔ 0 < f.getD k 0)

/-- R821: "the code is complete: the sum of 2^-len[s] over nonzero lengths is exactly 1" (it is this sentence that
log 8 rests its reading of the rule's count on); and "Among codes limited to L bits the result minimises the sum of
f[s]*len[s]": no lengths of at most L, one for every symbol that occurs, that satisfy the Kraft inequality cost
less. -/
def Obligations.PackageMergeCodesAreCompleteAndOptimal : Prop :=
  ∀ (f : List Nat) (limit : Nat), limit ≤ 15 →
    2 ≤ (f.filter (fun v => decide (0 < v))).length →
    (f.filter (fun v => decide (0 < v))).length ≤ 2 ^ limit →
      kraftSum hw (katajainen f limit) = 2 ^ 15 ∧
      ∀ lens : List Nat, lens.length = f.length → (∀ l ∈ lens, l ≤ limit) →
        (∀ k, 0 < f.getD k 0 → 0 < lens.getD k 0) → kraftSum hw lens ≤ 2 ^ 15 →
        (List.zipWith (· * ·) f (katajainen f limit)).sum ≤ (List.zipWith (· * ·) f lens).sum

/-- R841, R333: under the Kraft inequality the canonical codes fit their lengths, increase along equal lengths, and
none, as it is sent, begins another; an absent symbol's code is 0; the fixed codes are those R333 lists. -/
def Obligations.CanonicalCodesArePrefixFree : Prop :=
  (∀ lens : List Nat, (∀ l ∈ lens, l ≤ 15) → kraftSum hw lens ≤ 2 ^ 15 →
    let code := fun k => (canonical hw lens).getD k 0
    let len := fun k => lens.getD k 0
    (canonical hw lens).length = lens.length ∧
    (∀ k, len k = 0 → code k = 0) ∧
    (∀ k, 0 < len k → code k < 2 ^ len k) ∧
    (∀ j k, 0 < len j → len j = len k → j < k → code j < code k) ∧
    (∀ j k, 0 < len j → 0 < len k → j ≠ k →
      (huffBits (code j) (len j)).isPrefixOf (huffBits (code k) (len k)) = false)) ∧
  (canonical hw fixedLitLens = (List.range 144).map (· + 0x30) ++ (List.range 112).map (· + 0x190) ++
    List.range 24 ++ (List.range 8).map (· + 0xC0) ∧ canonical hw fixedDistLens = List.range 32)

/-- R930, R337: the run-length coding of a sequence of code lengths stands for that sequence; each of its items is a
code-length symbol with an extra value that fits its extra bits; a 16 never comes first. -/
def Obligations.RunLengthCodingIsExact : Prop :=
  ∀ v : List Nat, (∀ x ∈ v, x ≤ 15) →
    expandItems [] (rle v) = v ∧
    (∀ item ∈ rle v, item.1 ≤ 18 ∧ item.2 < 2 ^ clExtra item.1) ∧
    (rle v).head?.map (·.1) ≠ some 16

/-! ## The block writer -/

/-- R901, R902, R904, R911, R912, R1012: WBITS appends the low n bits of v, least significant first; WFLUSH appends
zero bits up to the next byte boundary and reports their number; where they fit below OUT_LIMIT. Nothing else changes
but the bytes of OUT they complete. Where they do not fit, WRITE_ERROR cuts the stream. -/
def Obligations.WbitsAndWflushAppendBits : Prop :=
  (∀ s : State, s.argOf .x1 ≤ 32 →
    (s.HasRoom (s.argOf .x1) →
      ∃ t, exec .wbits s = .next t ∧ EndsWell s t ∧
        t.streamBits = s.streamBits ++ bitsOf (s.argOf .x0) (s.argOf .x1) ∧
        t.streamPos = s.streamPos + s.argOf .x1 ∧
        t.packer.blocksOut = s.packer.blocksOut ∧ t.packer.lastBlock = s.packer.lastBlock ∧
        t.res = s.res ∧ t.lens = s.lens ∧ t.obs = s.obs ∧ t.cache = s.cache ∧
        SameMemOutside [writtenRun s t] s t) ∧
    (¬ s.HasRoom (s.argOf .x1) →
      ∃ t, exec .wbits s = .next t ∧ WriterStops s t (bitsOf (s.argOf .x0) (s.argOf .x1)) [])) ∧
  (∀ s : State, s.flushCount < 8 ∧
    (s.HasRoom s.flushCount →
      ∃ t, exec .wflush s = .next t ∧ EndsWell s t ∧
        t.streamBits = s.streamBits ++ List.replicate s.flushCount false ∧
        t.packer.bitCnt = 0 ∧ t.streamPos = s.streamPos + s.flushCount ∧
        t.packer.blocksOut = s.packer.blocksOut ∧ t.packer.lastBlock = s.packer.lastBlock ∧
        t.res = { s.res with r0 := word s.flushCount } ∧ t.lens = s.lens ∧ t.obs = s.obs ∧ t.cache = s.cache ∧
        SameMemOutside [writtenRun s t] s t) ∧
    (¬ s.HasRoom s.flushCount →
      ∃ t, exec .wflush s = .next t ∧ WriterStops s t (List.replicate s.flushCount false) []))

/-- R934, R950, R951, R1012: WSTORED appends the window bytes [a, b) as stored chunks, exactly StoredBits(pos, b - a)
bits, reports their number, and counts one header per chunk, where they fit; nothing else changes but the bytes of
OUT they complete. Where they do not fit, WRITE_ERROR cuts the stream. -/
def Obligations.WstoredAppendsStoredBlocks : Prop :=
  ∀ (s : State) (final : Bool), ByteRange s .x0 .x1 →
    let n := s.argOf .x1 - s.argOf .x0
    let bits := storedStream final s.streamPos (storedChunks hw n) (slice s.window (s.argOf .x0) (s.argOf .x1))
    bits.length = storedBits hw s.streamPos n ∧
    (s.HasRoom (storedBits hw s.streamPos n) →
      ∃ t, exec (.wstored final) s = .next t ∧ EndsWell s t ∧
        t.streamBits = s.streamBits ++ bits ∧
        t.streamPos = s.streamPos + storedBits hw s.streamPos n ∧
        t.res = { s.res with r0 := word (storedBits hw s.streamPos n) } ∧
        t.packer.blocksOut = s.packer.blocksOut + word (storedChunks hw n).length ∧
        t.packer.lastBlock = BitVec.ofBool final ++ (0 : BitVec 2) ∧
        t.lens = s.lens ∧ t.obs = s.obs ∧ t.cache = s.cache ∧
        SameMemOutside [writtenRun s t] s t) ∧
    (¬ s.HasRoom (storedBits hw s.streamPos n) →
      ∃ t, exec (.wstored final) s = .next t ∧
        WriterStops s t bits (storedHeaders final s.streamPos (storedChunks hw n)))

/-- R933, R960, R961, R1012: WFIXED appends the fixed block of the symbol range, exactly FixedBits bits, reports their
number, and counts one header of type 1, where they fit; nothing else changes but the bytes of OUT they
complete. Where they do not fit, WRITE_ERROR cuts the stream. -/
def Obligations.WfixedAppendsAFixedBlock : Prop :=
  ∀ (s : State) (final : Bool) (x : StoreSel) (es : List Entry), SymbolRange s x es →
    let y := es.map Entry.sym
    (fixedStream final y).length = fixedBits y ∧
    (s.HasRoom (fixedBits y) →
      ∃ t, exec (.wfixed final x) s = .next t ∧ EndsWell s t ∧
        t.streamBits = s.streamBits ++ fixedStream final y ∧ t.streamPos = s.streamPos + fixedBits y ∧
        t.res = { s.res with r0 := word (fixedBits y) } ∧ HeaderCounted s t final 1 ∧
        t.lens = s.lens ∧ t.obs = s.obs ∧ t.cache = s.cache ∧
        SameMemOutside [writtenRun s t] s t) ∧
    (¬ s.HasRoom (fixedBits y) →
      ∃ t, exec (.wfixed final x) s = .next t ∧
        WriterStops s t (fixedStream final y) [(s.streamPos, BitVec.ofBool final ++ BitVec.ofNat 2 1)])

/-- R932, R970, R971, R1012: WDYNAMIC appends the dynamic block of the symbol range, exactly DynBits bits, reports their
number, and counts one header of type 2, where they fit; nothing else changes but the bytes of OUT they complete:
FREQ, DFREQ, LEN and CODE are not written. Where they do not fit, WRITE_ERROR cuts the stream. -/
def Obligations.WdynamicAppendsADynamicBlock : Prop :=
  ∀ (s : State) (final : Bool) (x : StoreSel) (es : List Entry), SymbolRange s x es →
    let y := es.map Entry.sym
    (dynamicStream final y).length = dynBits hw y ∧
    (s.HasRoom (dynBits hw y) →
      ∃ t, exec (.wdynamic final x) s = .next t ∧ EndsWell s t ∧
        t.streamBits = s.streamBits ++ dynamicStream final y ∧ t.streamPos = s.streamPos + dynBits hw y ∧
        t.res = { s.res with r0 := word (dynBits hw y) } ∧ HeaderCounted s t final 2 ∧
        t.lens = s.lens ∧ t.obs = s.obs ∧ t.cache = s.cache ∧
        SameMemOutside [writtenRun s t] s t) ∧
    (¬ s.HasRoom (dynBits hw y) →
      ∃ t, exec (.wdynamic final x) s = .next t ∧
        WriterStops s t (dynamicStream final y) [(s.streamPos, BitVec.ofBool final ++ BitVec.ofNat 2 2)])

/-- R980, R981, R982, R1012: WAUTO appends the cheapest of the three encodings of the block, preferring dynamic to
fixed to stored on a tie and considering a stored one only when it fits one chunk, and reports its length and type,
where it fits; nothing else changes but the bytes of OUT it completes. Where it does not fit, WRITE_ERROR cuts the
stream. -/
def Obligations.WautoAppendsTheCheapestBlock : Prop :=
  ∀ (s : State) (final : Bool) (x : StoreSel) (es : List Entry), TiledSymbolRange s x es →
    let y := es.map Entry.sym
    let n := s.argOf .x3 - s.argOf .x2
    let stored := storedBits hw s.streamPos n
    let size :=
      if n ≤ 65535 then min stored (min (fixedBits y) (dynBits hw y)) else min (fixedBits y) (dynBits hw y)
    ∃ kind bits, bits.length = size ∧
      ((kind = 0 ∧ n ≤ 65535 ∧ stored < dynBits hw y ∧ stored < fixedBits y ∧
          bits = storedStream final s.streamPos [n] (slice s.window (s.argOf .x2) (s.argOf .x3))) ∨
        (kind = 1 ∧ fixedBits y < dynBits hw y ∧ (n ≤ 65535 → fixedBits y ≤ stored) ∧ bits = fixedStream final y) ∨
        (kind = 2 ∧ dynBits hw y ≤ fixedBits y ∧ (n ≤ 65535 → dynBits hw y ≤ stored) ∧
          bits = dynamicStream final y)) ∧
      (s.HasRoom size →
        ∃ t, exec (.wauto final x) s = .next t ∧ EndsWell s t ∧
          t.streamBits = s.streamBits ++ bits ∧ t.streamPos = s.streamPos + size ∧
          t.res = { s.res with r0 := word size, r1 := word kind } ∧ HeaderCounted s t final kind ∧
          t.lens = s.lens ∧ t.obs = s.obs ∧ t.cache = s.cache ∧
          SameMemOutside [writtenRun s t] s t) ∧
      (¬ s.HasRoom size →
        ∃ t, exec (.wauto final x) s = .next t ∧
          WriterStops s t bits [(s.streamPos, BitVec.ofBool final ++ BitVec.ofNat 2 kind)])

/-- R990: BLKCOST reports the three exact lengths and the type the choice would fall on, and writes nothing but RES0
to RES3. -/
def Obligations.BlkcostReportsTheLengths : Prop :=
  ∀ (s : State) (x : StoreSel) (es : List Entry), TiledSymbolRange s x es →
    let y := es.map Entry.sym
    let n := s.argOf .x3 - s.argOf .x2
    let stored := storedBits hw s.streamPos n
    let kind := if n ≤ 65535 ∧ stored < dynBits hw y ∧ stored < fixedBits y then 0
      else if fixedBits y < dynBits hw y then 1 else 2
    exec (.blkcost x) s = .next
      { s with
        status := { s.status with busy := false, done := true, phase := .idle }
        issue := .none
        res := { r0 := word stored, r1 := word (fixedBits y), r2 := word (dynBits hw y), r3 := word kind } }

end Statements
end

