-- ==== Sys2Proof/Laws/State.lean ====
section
/-! SUPPORT. Laws/State.lean: what each named update of the state does to each field, so that no proof unfolds a
record update. -/

namespace Sys2Proof.Machine

section

variable (s : State)

@[simp] theorem State.complete_status :
    s.complete.status = { s.status with busy := false, done := true, phase := .idle } := rfl
@[simp] theorem State.complete_errInfo : s.complete.errInfo = s.errInfo := rfl
@[simp] theorem State.complete_opt : s.complete.opt = s.opt := rfl
@[simp] theorem State.complete_arg : s.complete.arg = s.arg := rfl
@[simp] theorem State.complete_res : s.complete.res = s.res := rfl
@[simp] theorem State.complete_packer : s.complete.packer = s.packer := rfl
@[simp] theorem State.complete_lens : s.complete.lens = s.lens := rfl
@[simp] theorem State.complete_obs : s.complete.obs = s.obs := rfl
@[simp] theorem State.complete_mem : s.complete.mem = s.mem := rfl
@[simp] theorem State.complete_cache : s.complete.cache = s.cache := rfl
@[simp] theorem State.complete_issue : s.complete.issue = .none := rfl
@[simp] theorem State.complete_host : s.complete.host = s.host := rfl
@[simp] theorem State.complete_draws : s.complete.draws = s.draws := rfl
@[simp] theorem State.complete_epoch : s.complete.epoch = s.epoch := rfl

end

section

variable (s : State) (e : CmdError)

@[simp] theorem State.raiseError_status :
    (s.raiseError e).status = { s.status with busy := false, done := true, err := true, errCode := e.code, phase := .idle } := rfl
@[simp] theorem State.raiseError_errInfo : (s.raiseError e).errInfo = e.info := rfl
@[simp] theorem State.raiseError_opt : (s.raiseError e).opt = s.opt := rfl
@[simp] theorem State.raiseError_arg : (s.raiseError e).arg = s.arg := rfl
@[simp] theorem State.raiseError_res : (s.raiseError e).res = s.res := rfl
@[simp] theorem State.raiseError_packer : (s.raiseError e).packer = s.packer := rfl
@[simp] theorem State.raiseError_lens : (s.raiseError e).lens = s.lens := rfl
@[simp] theorem State.raiseError_obs : (s.raiseError e).obs = s.obs := rfl
@[simp] theorem State.raiseError_mem : (s.raiseError e).mem = s.mem := rfl
@[simp] theorem State.raiseError_cache : (s.raiseError e).cache = s.cache := rfl
@[simp] theorem State.raiseError_issue : (s.raiseError e).issue = .none := rfl
@[simp] theorem State.raiseError_host : (s.raiseError e).host = s.host := rfl
@[simp] theorem State.raiseError_draws : (s.raiseError e).draws = s.draws := rfl
@[simp] theorem State.raiseError_epoch : (s.raiseError e).epoch = s.epoch := rfl

end

section

variable (s : State) (v : Word)

@[simp] theorem State.ackStatus_opt : (s.ackStatus v).opt = s.opt := rfl
@[simp] theorem State.ackStatus_arg : (s.ackStatus v).arg = s.arg := rfl
@[simp] theorem State.ackStatus_res : (s.ackStatus v).res = s.res := rfl
@[simp] theorem State.ackStatus_packer : (s.ackStatus v).packer = s.packer := rfl
@[simp] theorem State.ackStatus_lens : (s.ackStatus v).lens = s.lens := rfl
@[simp] theorem State.ackStatus_obs : (s.ackStatus v).obs = s.obs := rfl
@[simp] theorem State.ackStatus_mem : (s.ackStatus v).mem = s.mem := rfl
@[simp] theorem State.ackStatus_cache : (s.ackStatus v).cache = s.cache := rfl
@[simp] theorem State.ackStatus_issue : (s.ackStatus v).issue = s.issue := rfl
@[simp] theorem State.ackStatus_host : (s.ackStatus v).host = s.host := rfl
@[simp] theorem State.ackStatus_draws : (s.ackStatus v).draws = s.draws := rfl
@[simp] theorem State.ackStatus_epoch : (s.ackStatus v).epoch = s.epoch := rfl

end

section

variable (s : State) (n : Nat)

@[simp] theorem State.setRes0_status : (s.setRes0 n).status = s.status := rfl
@[simp] theorem State.setRes0_errInfo : (s.setRes0 n).errInfo = s.errInfo := rfl
@[simp] theorem State.setRes0_opt : (s.setRes0 n).opt = s.opt := rfl
@[simp] theorem State.setRes0_arg : (s.setRes0 n).arg = s.arg := rfl
@[simp] theorem State.setRes0_res : (s.setRes0 n).res = { s.res with r0 := word n } := rfl
@[simp] theorem State.setRes0_packer : (s.setRes0 n).packer = s.packer := rfl
@[simp] theorem State.setRes0_lens : (s.setRes0 n).lens = s.lens := rfl
@[simp] theorem State.setRes0_obs : (s.setRes0 n).obs = s.obs := rfl
@[simp] theorem State.setRes0_mem : (s.setRes0 n).mem = s.mem := rfl
@[simp] theorem State.setRes0_cache : (s.setRes0 n).cache = s.cache := rfl
@[simp] theorem State.setRes0_issue : (s.setRes0 n).issue = s.issue := rfl
@[simp] theorem State.setRes0_host : (s.setRes0 n).host = s.host := rfl
@[simp] theorem State.setRes0_draws : (s.setRes0 n).draws = s.draws := rfl
@[simp] theorem State.setRes0_epoch : (s.setRes0 n).epoch = s.epoch := rfl

end

section

variable (s : State) (n : Nat)

@[simp] theorem State.setRes1_status : (s.setRes1 n).status = s.status := rfl
@[simp] theorem State.setRes1_errInfo : (s.setRes1 n).errInfo = s.errInfo := rfl
@[simp] theorem State.setRes1_opt : (s.setRes1 n).opt = s.opt := rfl
@[simp] theorem State.setRes1_arg : (s.setRes1 n).arg = s.arg := rfl
@[simp] theorem State.setRes1_res : (s.setRes1 n).res = { s.res with r1 := word n } := rfl
@[simp] theorem State.setRes1_packer : (s.setRes1 n).packer = s.packer := rfl
@[simp] theorem State.setRes1_lens : (s.setRes1 n).lens = s.lens := rfl
@[simp] theorem State.setRes1_obs : (s.setRes1 n).obs = s.obs := rfl
@[simp] theorem State.setRes1_mem : (s.setRes1 n).mem = s.mem := rfl
@[simp] theorem State.setRes1_cache : (s.setRes1 n).cache = s.cache := rfl
@[simp] theorem State.setRes1_issue : (s.setRes1 n).issue = s.issue := rfl
@[simp] theorem State.setRes1_host : (s.setRes1 n).host = s.host := rfl
@[simp] theorem State.setRes1_draws : (s.setRes1 n).draws = s.draws := rfl
@[simp] theorem State.setRes1_epoch : (s.setRes1 n).epoch = s.epoch := rfl

end

section

variable (s : State) (n : Nat)

@[simp] theorem State.setRes2_status : (s.setRes2 n).status = s.status := rfl
@[simp] theorem State.setRes2_errInfo : (s.setRes2 n).errInfo = s.errInfo := rfl
@[simp] theorem State.setRes2_opt : (s.setRes2 n).opt = s.opt := rfl
@[simp] theorem State.setRes2_arg : (s.setRes2 n).arg = s.arg := rfl
@[simp] theorem State.setRes2_res : (s.setRes2 n).res = { s.res with r2 := word n } := rfl
@[simp] theorem State.setRes2_packer : (s.setRes2 n).packer = s.packer := rfl
@[simp] theorem State.setRes2_lens : (s.setRes2 n).lens = s.lens := rfl
@[simp] theorem State.setRes2_obs : (s.setRes2 n).obs = s.obs := rfl
@[simp] theorem State.setRes2_mem : (s.setRes2 n).mem = s.mem := rfl
@[simp] theorem State.setRes2_cache : (s.setRes2 n).cache = s.cache := rfl
@[simp] theorem State.setRes2_issue : (s.setRes2 n).issue = s.issue := rfl
@[simp] theorem State.setRes2_host : (s.setRes2 n).host = s.host := rfl
@[simp] theorem State.setRes2_draws : (s.setRes2 n).draws = s.draws := rfl
@[simp] theorem State.setRes2_epoch : (s.setRes2 n).epoch = s.epoch := rfl

end

section

variable (s : State) (n : Nat)

@[simp] theorem State.setRes3_status : (s.setRes3 n).status = s.status := rfl
@[simp] theorem State.setRes3_errInfo : (s.setRes3 n).errInfo = s.errInfo := rfl
@[simp] theorem State.setRes3_opt : (s.setRes3 n).opt = s.opt := rfl
@[simp] theorem State.setRes3_arg : (s.setRes3 n).arg = s.arg := rfl
@[simp] theorem State.setRes3_res : (s.setRes3 n).res = { s.res with r3 := word n } := rfl
@[simp] theorem State.setRes3_packer : (s.setRes3 n).packer = s.packer := rfl
@[simp] theorem State.setRes3_lens : (s.setRes3 n).lens = s.lens := rfl
@[simp] theorem State.setRes3_obs : (s.setRes3 n).obs = s.obs := rfl
@[simp] theorem State.setRes3_mem : (s.setRes3 n).mem = s.mem := rfl
@[simp] theorem State.setRes3_cache : (s.setRes3 n).cache = s.cache := rfl
@[simp] theorem State.setRes3_issue : (s.setRes3 n).issue = s.issue := rfl
@[simp] theorem State.setRes3_host : (s.setRes3 n).host = s.host := rfl
@[simp] theorem State.setRes3_draws : (s.setRes3 n).draws = s.draws := rfl
@[simp] theorem State.setRes3_epoch : (s.setRes3 n).epoch = s.epoch := rfl

end

section

variable (p : Nat) (s : State)

@[simp] theorem State.setWritten_status : (s.setWritten p).status = s.status := rfl
@[simp] theorem State.setWritten_errInfo : (s.setWritten p).errInfo = s.errInfo := rfl
@[simp] theorem State.setWritten_opt : (s.setWritten p).opt = s.opt := rfl
@[simp] theorem State.setWritten_arg : (s.setWritten p).arg = s.arg := rfl
@[simp] theorem State.setWritten_res : (s.setWritten p).res = { s.res with r0 := word (s.streamPos - p) } := rfl
@[simp] theorem State.setWritten_packer : (s.setWritten p).packer = s.packer := rfl
@[simp] theorem State.setWritten_lens : (s.setWritten p).lens = s.lens := rfl
@[simp] theorem State.setWritten_obs : (s.setWritten p).obs = s.obs := rfl
@[simp] theorem State.setWritten_mem : (s.setWritten p).mem = s.mem := rfl
@[simp] theorem State.setWritten_cache : (s.setWritten p).cache = s.cache := rfl
@[simp] theorem State.setWritten_issue : (s.setWritten p).issue = s.issue := rfl
@[simp] theorem State.setWritten_host : (s.setWritten p).host = s.host := rfl
@[simp] theorem State.setWritten_draws : (s.setWritten p).draws = s.draws := rfl
@[simp] theorem State.setWritten_epoch : (s.setWritten p).epoch = s.epoch := rfl

end

section

variable (s : State)

@[simp] theorem State.clearCache_status : s.clearCache.status = s.status := rfl
@[simp] theorem State.clearCache_errInfo : s.clearCache.errInfo = s.errInfo := rfl
@[simp] theorem State.clearCache_opt : s.clearCache.opt = s.opt := rfl
@[simp] theorem State.clearCache_arg : s.clearCache.arg = s.arg := rfl
@[simp] theorem State.clearCache_res : s.clearCache.res = s.res := rfl
@[simp] theorem State.clearCache_packer : s.clearCache.packer = s.packer := rfl
@[simp] theorem State.clearCache_lens : s.clearCache.lens = s.lens := rfl
@[simp] theorem State.clearCache_obs : s.clearCache.obs = s.obs := rfl
@[simp] theorem State.clearCache_mem : s.clearCache.mem = s.mem := rfl
@[simp] theorem State.clearCache_cache : s.clearCache.cache = [] := rfl
@[simp] theorem State.clearCache_issue : s.clearCache.issue = s.issue := rfl
@[simp] theorem State.clearCache_host : s.clearCache.host = s.host := rfl
@[simp] theorem State.clearCache_draws : s.clearCache.draws = s.draws := rfl
@[simp] theorem State.clearCache_epoch : s.clearCache.epoch = s.epoch := rfl

end

section

variable (s : State)

@[simp] theorem State.draw_snd_status : s.draw.2.status = s.status := rfl
@[simp] theorem State.draw_snd_errInfo : s.draw.2.errInfo = s.errInfo := rfl
@[simp] theorem State.draw_snd_opt : s.draw.2.opt = s.opt := rfl
@[simp] theorem State.draw_snd_arg : s.draw.2.arg = s.arg := rfl
@[simp] theorem State.draw_snd_res : s.draw.2.res = s.res := rfl
@[simp] theorem State.draw_snd_packer : s.draw.2.packer = s.packer := rfl
@[simp] theorem State.draw_snd_lens : s.draw.2.lens = s.lens := rfl
@[simp] theorem State.draw_snd_obs : s.draw.2.obs = s.obs := rfl
@[simp] theorem State.draw_snd_mem : s.draw.2.mem = s.mem := rfl
@[simp] theorem State.draw_snd_cache : s.draw.2.cache = s.cache := rfl
@[simp] theorem State.draw_snd_issue : s.draw.2.issue = s.issue := rfl
@[simp] theorem State.draw_snd_host : s.draw.2.host = s.host := rfl
@[simp] theorem State.draw_snd_draws : s.draw.2.draws = s.draws + 1 := rfl
@[simp] theorem State.draw_snd_epoch : s.draw.2.epoch = s.epoch := rfl

end

section

variable (s : State)

@[simp] theorem State.drawCount_snd_status : s.drawCount.2.status = s.status := rfl
@[simp] theorem State.drawCount_snd_errInfo : s.drawCount.2.errInfo = s.errInfo := rfl
@[simp] theorem State.drawCount_snd_opt : s.drawCount.2.opt = s.opt := rfl
@[simp] theorem State.drawCount_snd_arg : s.drawCount.2.arg = s.arg := rfl
@[simp] theorem State.drawCount_snd_res : s.drawCount.2.res = s.res := rfl
@[simp] theorem State.drawCount_snd_packer : s.drawCount.2.packer = s.packer := rfl
@[simp] theorem State.drawCount_snd_lens : s.drawCount.2.lens = s.lens := rfl
@[simp] theorem State.drawCount_snd_obs : s.drawCount.2.obs = s.obs := rfl
@[simp] theorem State.drawCount_snd_mem : s.drawCount.2.mem = s.mem := rfl
@[simp] theorem State.drawCount_snd_cache : s.drawCount.2.cache = s.cache := rfl
@[simp] theorem State.drawCount_snd_issue : s.drawCount.2.issue = s.issue := rfl
@[simp] theorem State.drawCount_snd_host : s.drawCount.2.host = s.host := rfl
@[simp] theorem State.drawCount_snd_draws : s.drawCount.2.draws = s.draws + 1 := rfl
@[simp] theorem State.drawCount_snd_epoch : s.drawCount.2.epoch = s.epoch := rfl

end

section

variable (s : State) (a : Nat) (bs : List Byte)

@[simp] theorem State.storeBytes_status : (s.storeBytes a bs).status = s.status := rfl
@[simp] theorem State.storeBytes_errInfo : (s.storeBytes a bs).errInfo = s.errInfo := rfl
@[simp] theorem State.storeBytes_opt : (s.storeBytes a bs).opt = s.opt := rfl
@[simp] theorem State.storeBytes_arg : (s.storeBytes a bs).arg = s.arg := rfl
@[simp] theorem State.storeBytes_res : (s.storeBytes a bs).res = s.res := rfl
@[simp] theorem State.storeBytes_packer : (s.storeBytes a bs).packer = s.packer := rfl
@[simp] theorem State.storeBytes_lens : (s.storeBytes a bs).lens = s.lens := rfl
@[simp] theorem State.storeBytes_obs : (s.storeBytes a bs).obs = s.obs := rfl
@[simp] theorem State.storeBytes_mem : (s.storeBytes a bs).mem = Memory.store s.mem a bs := rfl
@[simp] theorem State.storeBytes_cache : (s.storeBytes a bs).cache = s.cache := rfl
@[simp] theorem State.storeBytes_issue : (s.storeBytes a bs).issue = s.issue := rfl
@[simp] theorem State.storeBytes_host : (s.storeBytes a bs).host = s.host := rfl
@[simp] theorem State.storeBytes_draws : (s.storeBytes a bs).draws = s.draws := rfl
@[simp] theorem State.storeBytes_epoch : (s.storeBytes a bs).epoch = s.epoch := rfl

end

section

variable (s : State) (a : Nat) (ws : List Word)

@[simp] theorem State.storeWords_status : (s.storeWords a ws).status = s.status := rfl
@[simp] theorem State.storeWords_errInfo : (s.storeWords a ws).errInfo = s.errInfo := rfl
@[simp] theorem State.storeWords_opt : (s.storeWords a ws).opt = s.opt := rfl
@[simp] theorem State.storeWords_arg : (s.storeWords a ws).arg = s.arg := rfl
@[simp] theorem State.storeWords_res : (s.storeWords a ws).res = s.res := rfl
@[simp] theorem State.storeWords_packer : (s.storeWords a ws).packer = s.packer := rfl
@[simp] theorem State.storeWords_lens : (s.storeWords a ws).lens = s.lens := rfl
@[simp] theorem State.storeWords_obs : (s.storeWords a ws).obs = s.obs := rfl
@[simp] theorem State.storeWords_mem : (s.storeWords a ws).mem = Memory.store s.mem a (ws.flatMap wordBytes) := rfl
@[simp] theorem State.storeWords_cache : (s.storeWords a ws).cache = s.cache := rfl
@[simp] theorem State.storeWords_issue : (s.storeWords a ws).issue = s.issue := rfl
@[simp] theorem State.storeWords_host : (s.storeWords a ws).host = s.host := rfl
@[simp] theorem State.storeWords_draws : (s.storeWords a ws).draws = s.draws := rfl
@[simp] theorem State.storeWords_epoch : (s.storeWords a ws).epoch = s.epoch := rfl

end

section

variable (s : State) (r : Region) (ns : List Nat)

@[simp] theorem State.storeTable_status : (s.storeTable r ns).status = s.status := rfl
@[simp] theorem State.storeTable_errInfo : (s.storeTable r ns).errInfo = s.errInfo := rfl
@[simp] theorem State.storeTable_opt : (s.storeTable r ns).opt = s.opt := rfl
@[simp] theorem State.storeTable_arg : (s.storeTable r ns).arg = s.arg := rfl
@[simp] theorem State.storeTable_res : (s.storeTable r ns).res = s.res := rfl
@[simp] theorem State.storeTable_packer : (s.storeTable r ns).packer = s.packer := rfl
@[simp] theorem State.storeTable_lens : (s.storeTable r ns).lens = s.lens := rfl
@[simp] theorem State.storeTable_obs : (s.storeTable r ns).obs = s.obs := rfl
@[simp] theorem State.storeTable_cache : (s.storeTable r ns).cache = s.cache := rfl
@[simp] theorem State.storeTable_issue : (s.storeTable r ns).issue = s.issue := rfl
@[simp] theorem State.storeTable_host : (s.storeTable r ns).host = s.host := rfl
@[simp] theorem State.storeTable_draws : (s.storeTable r ns).draws = s.draws := rfl
@[simp] theorem State.storeTable_epoch : (s.storeTable r ns).epoch = s.epoch := rfl

end

section

variable (s : State) (x : StoreSel) (k : Nat) (es : List Entry)

@[simp] theorem State.storeEntries_status : (s.storeEntries x k es).status = s.status := rfl
@[simp] theorem State.storeEntries_errInfo : (s.storeEntries x k es).errInfo = s.errInfo := rfl
@[simp] theorem State.storeEntries_opt : (s.storeEntries x k es).opt = s.opt := rfl
@[simp] theorem State.storeEntries_arg : (s.storeEntries x k es).arg = s.arg := rfl
@[simp] theorem State.storeEntries_res : (s.storeEntries x k es).res = s.res := rfl
@[simp] theorem State.storeEntries_packer : (s.storeEntries x k es).packer = s.packer := rfl
@[simp] theorem State.storeEntries_lens : (s.storeEntries x k es).lens = s.lens := rfl
@[simp] theorem State.storeEntries_obs : (s.storeEntries x k es).obs = s.obs := rfl
@[simp] theorem State.storeEntries_cache : (s.storeEntries x k es).cache = s.cache := rfl
@[simp] theorem State.storeEntries_issue : (s.storeEntries x k es).issue = s.issue := rfl
@[simp] theorem State.storeEntries_host : (s.storeEntries x k es).host = s.host := rfl
@[simp] theorem State.storeEntries_draws : (s.storeEntries x k es).draws = s.draws := rfl
@[simp] theorem State.storeEntries_epoch : (s.storeEntries x k es).epoch = s.epoch := rfl

end

section

variable (s : State) (c : CostModel)

@[simp] theorem State.storeCosts_status : (s.storeCosts c).status = s.status := rfl
@[simp] theorem State.storeCosts_errInfo : (s.storeCosts c).errInfo = s.errInfo := rfl
@[simp] theorem State.storeCosts_opt : (s.storeCosts c).opt = s.opt := rfl
@[simp] theorem State.storeCosts_arg : (s.storeCosts c).arg = s.arg := rfl
@[simp] theorem State.storeCosts_res : (s.storeCosts c).res = s.res := rfl
@[simp] theorem State.storeCosts_packer : (s.storeCosts c).packer = s.packer := rfl
@[simp] theorem State.storeCosts_lens : (s.storeCosts c).lens = s.lens := rfl
@[simp] theorem State.storeCosts_obs : (s.storeCosts c).obs = s.obs := rfl
@[simp] theorem State.storeCosts_cache : (s.storeCosts c).cache = s.cache := rfl
@[simp] theorem State.storeCosts_issue : (s.storeCosts c).issue = s.issue := rfl
@[simp] theorem State.storeCosts_host : (s.storeCosts c).host = s.host := rfl
@[simp] theorem State.storeCosts_draws : (s.storeCosts c).draws = s.draws := rfl
@[simp] theorem State.storeCosts_epoch : (s.storeCosts c).epoch = s.epoch := rfl

end

section

variable (s : State)

@[simp] theorem State.resetStream_status : s.resetStream.status = s.status := rfl
@[simp] theorem State.resetStream_errInfo : s.resetStream.errInfo = s.errInfo := rfl
@[simp] theorem State.resetStream_opt : s.resetStream.opt = s.opt := rfl
@[simp] theorem State.resetStream_arg : s.resetStream.arg = s.arg := rfl
@[simp] theorem State.resetStream_res : s.resetStream.res = s.res := rfl
@[simp] theorem State.resetStream_packer : s.resetStream.packer = .reset := rfl
@[simp] theorem State.resetStream_lens : s.resetStream.lens = s.lens := rfl
@[simp] theorem State.resetStream_obs : s.resetStream.obs = s.obs := rfl
@[simp] theorem State.resetStream_mem : s.resetStream.mem = s.mem := rfl
@[simp] theorem State.resetStream_cache : s.resetStream.cache = s.cache := rfl
@[simp] theorem State.resetStream_issue : s.resetStream.issue = s.issue := rfl
@[simp] theorem State.resetStream_host : s.resetStream.host = s.host := rfl
@[simp] theorem State.resetStream_draws : s.resetStream.draws = s.draws := rfl
@[simp] theorem State.resetStream_epoch : s.resetStream.epoch = s.epoch := rfl

end

section

variable (s : State)

@[simp] theorem State.loseBitState_status : s.loseBitState.status = s.status := rfl
@[simp] theorem State.loseBitState_errInfo : s.loseBitState.errInfo = s.errInfo := rfl
@[simp] theorem State.loseBitState_opt : s.loseBitState.opt = s.opt := rfl
@[simp] theorem State.loseBitState_arg : s.loseBitState.arg = s.arg := rfl
@[simp] theorem State.loseBitState_res : s.loseBitState.res = s.res := rfl
@[simp] theorem State.loseBitState_packer :
    s.loseBitState.packer = { s.packer with bitCnt := s.draw.1.extractLsb' 0 3, bitBuf := s.draw.1.extractLsb' 8 8 } := rfl
@[simp] theorem State.loseBitState_lens : s.loseBitState.lens = s.lens := rfl
@[simp] theorem State.loseBitState_obs : s.loseBitState.obs = s.obs := rfl
@[simp] theorem State.loseBitState_mem : s.loseBitState.mem = s.mem := rfl
@[simp] theorem State.loseBitState_cache : s.loseBitState.cache = s.cache := rfl
@[simp] theorem State.loseBitState_issue : s.loseBitState.issue = s.issue := rfl
@[simp] theorem State.loseBitState_host : s.loseBitState.host = s.host := rfl
@[simp] theorem State.loseBitState_draws : s.loseBitState.draws = s.draws + 1 := rfl
@[simp] theorem State.loseBitState_epoch : s.loseBitState.epoch = s.epoch := rfl

end

section

variable (s : State)

@[simp] theorem State.compressStart_status : s.compressStart.status = s.status := rfl
@[simp] theorem State.compressStart_errInfo : s.compressStart.errInfo = s.errInfo := rfl
@[simp] theorem State.compressStart_opt : s.compressStart.opt = s.opt := rfl
@[simp] theorem State.compressStart_arg : s.compressStart.arg = s.arg := rfl
@[simp] theorem State.compressStart_res : s.compressStart.res = s.res := rfl
@[simp] theorem State.compressStart_packer : s.compressStart.packer = .reset := rfl
@[simp] theorem State.compressStart_lens :
    s.compressStart.lens = { gLen := 0, gA := 0, gB := word s.inputLen, sLen := 0, planLen := 0 } := rfl
@[simp] theorem State.compressStart_obs : s.compressStart.obs = { s.obs with curBlock := 0 } := rfl
@[simp] theorem State.compressStart_mem : s.compressStart.mem = s.mem := rfl
@[simp] theorem State.compressStart_cache : s.compressStart.cache = [] := rfl
@[simp] theorem State.compressStart_issue : s.compressStart.issue = s.issue := rfl
@[simp] theorem State.compressStart_host : s.compressStart.host = s.host := rfl
@[simp] theorem State.compressStart_draws : s.compressStart.draws = s.draws := rfl
@[simp] theorem State.compressStart_epoch : s.compressStart.epoch = s.epoch := rfl

end

section

variable (s : State)

@[simp] theorem State.drop_status : s.drop.status = { s.status with dropped := true } := rfl
@[simp] theorem State.drop_errInfo : s.drop.errInfo = s.errInfo := rfl
@[simp] theorem State.drop_opt : s.drop.opt = s.opt := rfl
@[simp] theorem State.drop_arg : s.drop.arg = s.arg := rfl
@[simp] theorem State.drop_res : s.drop.res = s.res := rfl
@[simp] theorem State.drop_packer : s.drop.packer = s.packer := rfl
@[simp] theorem State.drop_lens : s.drop.lens = s.lens := rfl
@[simp] theorem State.drop_obs : s.drop.obs = s.obs := rfl
@[simp] theorem State.drop_mem : s.drop.mem = s.mem := rfl
@[simp] theorem State.drop_cache : s.drop.cache = s.cache := rfl
@[simp] theorem State.drop_issue : s.drop.issue = s.issue := rfl
@[simp] theorem State.drop_host : s.drop.host = s.host := rfl
@[simp] theorem State.drop_draws : s.drop.draws = s.draws := rfl
@[simp] theorem State.drop_epoch : s.drop.epoch = s.epoch := rfl

end

section

variable (s : State) (w : Word) (n : Nat)

@[simp] theorem State.accept_status :
    (s.accept w n).status = { s.status with done := false, busy := true, phase := .decode } := rfl
@[simp] theorem State.accept_errInfo : (s.accept w n).errInfo = s.errInfo := rfl
@[simp] theorem State.accept_opt : (s.accept w n).opt = s.opt := rfl
@[simp] theorem State.accept_arg : (s.accept w n).arg = s.arg := rfl
@[simp] theorem State.accept_res : (s.accept w n).res = s.res := rfl
@[simp] theorem State.accept_packer : (s.accept w n).packer = s.packer := rfl
@[simp] theorem State.accept_lens : (s.accept w n).lens = s.lens := rfl
@[simp] theorem State.accept_obs : (s.accept w n).obs = s.obs := rfl
@[simp] theorem State.accept_mem : (s.accept w n).mem = s.mem := rfl
@[simp] theorem State.accept_cache : (s.accept w n).cache = s.cache := rfl
@[simp] theorem State.accept_issue :
    (s.accept w n).issue = { word := some w, busyLeft := n, progress := 0, blockSeen := 0, phaseAt := 0 } := rfl
@[simp] theorem State.accept_host : (s.accept w n).host = s.host := rfl
@[simp] theorem State.accept_draws : (s.accept w n).draws = s.draws := rfl
@[simp] theorem State.accept_epoch : (s.accept w n).epoch = s.epoch := rfl

end

section

variable (s : State) (ops : List HostOp)

@[simp] theorem State.takeOp_status : (s.takeOp ops).status = s.status := rfl
@[simp] theorem State.takeOp_errInfo : (s.takeOp ops).errInfo = s.errInfo := rfl
@[simp] theorem State.takeOp_opt : (s.takeOp ops).opt = s.opt := rfl
@[simp] theorem State.takeOp_arg : (s.takeOp ops).arg = s.arg := rfl
@[simp] theorem State.takeOp_res : (s.takeOp ops).res = s.res := rfl
@[simp] theorem State.takeOp_packer : (s.takeOp ops).packer = s.packer := rfl
@[simp] theorem State.takeOp_lens : (s.takeOp ops).lens = s.lens := rfl
@[simp] theorem State.takeOp_obs : (s.takeOp ops).obs = s.obs := rfl
@[simp] theorem State.takeOp_mem : (s.takeOp ops).mem = s.mem := rfl
@[simp] theorem State.takeOp_cache : (s.takeOp ops).cache = s.cache := rfl
@[simp] theorem State.takeOp_issue : (s.takeOp ops).issue = { s.issue with busyLeft := s.issue.busyLeft - 1 } := rfl
@[simp] theorem State.takeOp_host : (s.takeOp ops).host = { s.host with pending := ops } := rfl
@[simp] theorem State.takeOp_draws : (s.takeOp ops).draws = s.draws := rfl
@[simp] theorem State.takeOp_epoch : (s.takeOp ops).epoch = s.epoch := rfl

end

section

variable (s : State) (a : Nat) (v : Word)

@[simp] theorem State.noteRead_status : (s.noteRead a v).status = s.status := rfl
@[simp] theorem State.noteRead_errInfo : (s.noteRead a v).errInfo = s.errInfo := rfl
@[simp] theorem State.noteRead_opt : (s.noteRead a v).opt = s.opt := rfl
@[simp] theorem State.noteRead_arg : (s.noteRead a v).arg = s.arg := rfl
@[simp] theorem State.noteRead_res : (s.noteRead a v).res = s.res := rfl
@[simp] theorem State.noteRead_packer : (s.noteRead a v).packer = s.packer := rfl
@[simp] theorem State.noteRead_lens : (s.noteRead a v).lens = s.lens := rfl
@[simp] theorem State.noteRead_obs : (s.noteRead a v).obs = s.obs := rfl
@[simp] theorem State.noteRead_mem : (s.noteRead a v).mem = s.mem := rfl
@[simp] theorem State.noteRead_cache : (s.noteRead a v).cache = s.cache := rfl
@[simp] theorem State.noteRead_host : (s.noteRead a v).host = { s.host with reads := v :: s.host.reads } := rfl
@[simp] theorem State.noteRead_draws : (s.noteRead a v).draws = s.draws := rfl
@[simp] theorem State.noteRead_epoch : (s.noteRead a v).epoch = s.epoch := rfl

end

section

variable (s : State) (f : Fault)

@[simp] theorem State.busFault_status : (s.busFault f).status = s.status := rfl
@[simp] theorem State.busFault_errInfo : (s.busFault f).errInfo = s.errInfo := rfl
@[simp] theorem State.busFault_opt : (s.busFault f).opt = s.opt := rfl
@[simp] theorem State.busFault_arg : (s.busFault f).arg = s.arg := rfl
@[simp] theorem State.busFault_res : (s.busFault f).res = s.res := rfl
@[simp] theorem State.busFault_packer : (s.busFault f).packer = s.packer := rfl
@[simp] theorem State.busFault_lens : (s.busFault f).lens = s.lens := rfl
@[simp] theorem State.busFault_obs : (s.busFault f).obs = s.obs := rfl
@[simp] theorem State.busFault_mem : (s.busFault f).mem = s.mem := rfl
@[simp] theorem State.busFault_cache : (s.busFault f).cache = s.cache := rfl
@[simp] theorem State.busFault_issue : (s.busFault f).issue = s.issue := rfl
@[simp] theorem State.busFault_host : (s.busFault f).host = { s.host with faults := f :: s.host.faults } := rfl
@[simp] theorem State.busFault_draws : (s.busFault f).draws = s.draws := rfl
@[simp] theorem State.busFault_epoch : (s.busFault f).epoch = s.epoch := rfl

end

section

variable (P : Config.Params) (s : State)

@[simp] theorem State.hardReset_status : (s.hardReset P).status = .reset := rfl
@[simp] theorem State.hardReset_errInfo : (s.hardReset P).errInfo = 0 := rfl
@[simp] theorem State.hardReset_opt : (s.hardReset P).opt = .reset P := rfl
@[simp] theorem State.hardReset_arg : (s.hardReset P).arg = .reset := rfl
@[simp] theorem State.hardReset_res : (s.hardReset P).res = .reset := rfl
@[simp] theorem State.hardReset_packer : (s.hardReset P).packer = .reset := rfl
@[simp] theorem State.hardReset_lens : (s.hardReset P).lens = .reset := rfl
@[simp] theorem State.hardReset_obs : (s.hardReset P).obs = .reset := rfl
@[simp] theorem State.hardReset_mem : (s.hardReset P).mem = [] := rfl
@[simp] theorem State.hardReset_cache : (s.hardReset P).cache = [] := rfl
@[simp] theorem State.hardReset_issue : (s.hardReset P).issue = .none := rfl
@[simp] theorem State.hardReset_host : (s.hardReset P).host = s.host := rfl
@[simp] theorem State.hardReset_draws : (s.hardReset P).draws = s.draws := rfl
@[simp] theorem State.hardReset_epoch : (s.hardReset P).epoch = s.epoch + 1 := rfl

end

/-- This hardware's reset reads its parameters, and its chip is these parameters with `exec`. -/
@[simp] theorem State.reset_opt : State.reset.opt = .reset Config.hw := rfl

@[simp] theorem chip_params : chip.params = Config.hw := rfl

@[simp] theorem chip_meaning : chip.meaning = exec := rfl

end Sys2Proof.Machine
end

