-- ==== Sys2Proof/Laws/Memory.lean ====
section
/-! SUPPORT. Laws/Memory.lean: what a store does to the byte list, that every memory operation keeps its canonical
form, and reads after writes. -/

namespace Sys2Proof.Machine

open Config (hw)

/-! ## The byte list -/

theorem Memory.mem_run {a : Nat} {bs : List Byte} {c : Host.Cell} (h : c ∈ Memory.run a bs) :
    a ≤ c.1 ∧ c.1 < a + bs.length := by
  induction bs generalizing a with
  | nil => simp [Memory.run] at h
  | cons b bs ih =>
    rcases List.mem_cons.1 h with rfl | h
    · simp
    · have := ih h
      simp only [List.length_cons]
      omega

theorem Memory.run_wf (a : Nat) (bs : List Byte) : Memory.wf (Memory.run a bs) := by
  induction bs generalizing a with
  | nil => exact List.Pairwise.nil
  | cons b bs ih => exact List.Pairwise.cons (fun c hc => (Memory.mem_run hc).1) (ih (a + 1))

/-- A store keeps the canonical form. -/
theorem Memory.store_wf {m : Memory} (h : Memory.wf m) (a : Nat) (bs : List Byte) :
    Memory.wf (Memory.store m a bs) := by
  unfold Memory.store
  refine List.pairwise_append.2 ⟨List.pairwise_append.2 ⟨h.filter _, Memory.run_wf a bs, ?_⟩, h.filter _, ?_⟩
  · intro x hx y hy
    have h₁ := (List.mem_filter.1 hx).2
    have h₂ := Memory.mem_run hy
    simp only [decide_eq_true_eq] at h₁
    omega
  · intro x hx y hy
    have h₂ := (List.mem_filter.1 hy).2
    simp only [decide_eq_true_eq] at h₂
    rcases List.mem_append.1 hx with hx | hx
    · have h₁ := (List.mem_filter.1 hx).2
      simp only [decide_eq_true_eq] at h₁
      omega
    · have h₁ := Memory.mem_run hx
      omega

theorem Memory.find?_run (a : Nat) (bs : List Byte) (x : Nat) :
    ((Memory.run a bs).find? (fun c => c.1 == x)).map (·.2) = if a ≤ x then bs[x - a]? else none := by
  induction bs generalizing a with
  | nil => simp [Memory.run]
  | cons b bs ih =>
    by_cases hx : a = x
    · subst hx
      simp [Memory.run]
    · have hne : (a == x) = false := by simpa using hx
      rw [Memory.run, List.find?_cons, hne, ih]
      by_cases hle : a ≤ x
      · have h₁ : a + 1 ≤ x := by omega
        have h₂ : x - a = x - (a + 1) + 1 := by omega
        simp [hle, h₁, h₂]
      · have h₁ : ¬ a + 1 ≤ x := by omega
        simp [hle, h₁]

theorem Memory.find?_filter (m : Memory) (p : Nat → Bool) (x : Nat) :
    (m.filter (fun c => p c.1)).find? (fun c => c.1 == x) =
      if p x then m.find? (fun c => c.1 == x) else none := by
  induction m with
  | nil => simp
  | cons c m ih =>
    by_cases hx : c.1 = x
    · subst hx
      cases hp : p c.1 with
      | true => simp [hp]
      | false =>
        rw [List.filter_cons_of_neg (by simp [hp]), ih, hp]
        rfl
    · have hne : (c.1 == x) = false := by simpa using hx
      cases hp : p c.1 with
      | true => rw [List.filter_cons_of_pos (by simpa using hp), List.find?_cons, List.find?_cons, hne, ih]
      | false => rw [List.filter_cons_of_neg (by simp [hp]), List.find?_cons, hne, ih]

/-- The byte at an address after a store: the stored byte inside the stored run, what was there outside it. -/
theorem Memory.get?_store (m : Memory) (a : Nat) (bs : List Byte) (x : Nat) :
    Memory.get? (Memory.store m a bs) x =
      if a ≤ x ∧ x < a + bs.length then bs[x - a]? else Memory.get? m x := by
  have hrun := Memory.find?_run a bs x
  unfold Memory.get? Memory.store
  rw [List.find?_append, List.find?_append,
    Memory.find?_filter m (fun k => decide (k < a)), Memory.find?_filter m (fun k => decide (a + bs.length ≤ k))]
  by_cases h₁ : x < a
  · have h₂ : ¬ a ≤ x := by omega
    have h₃ : ¬ a + bs.length ≤ x := by omega
    simp only [h₂, if_false, Option.map_eq_none_iff] at hrun
    simp [h₁, h₂, h₃, hrun]
  · by_cases h₂ : x < a + bs.length
    · have h₃ : a ≤ x := by omega
      have h₄ : ¬ a + bs.length ≤ x := by omega
      have h₅ : ¬ x < a := by omega
      simp only [h₃, if_true] at hrun
      simp [h₂, h₃, h₄, h₅, hrun]
    · have h₃ : a ≤ x := by omega
      have h₄ : a + bs.length ≤ x := by omega
      have h₅ : ¬ x < a := by omega
      have h₆ : bs[x - a]? = none := List.getElem?_eq_none (by omega)
      simp only [h₃, if_true, h₆, Option.map_eq_none_iff] at hrun
      simp [h₂, h₃, h₄, h₅, hrun]

/-! ## Bytes of a state -/

/-- A byte read after a store of bytes. -/
theorem State.readByte_storeBytes (s : State) (a : Nat) (bs : List Byte) (x : Nat) :
    (s.storeBytes a bs).readByte x =
      if h : a ≤ x ∧ x < a + bs.length then bs[x - a] else s.readByte x := by
  unfold State.readByte
  rw [State.storeBytes_mem, State.storeBytes_epoch, Memory.get?_store]
  split
  · next h =>
    have : x - a < bs.length := by omega
    simp [List.getElem?_eq_getElem this]
  · rfl

theorem State.readByte_storeBytes_of_outside (s : State) (a : Nat) (bs : List Byte) {x : Nat}
    (h : x < a ∨ a + bs.length ≤ x) : (s.storeBytes a bs).readByte x = s.readByte x := by
  rw [State.readByte_storeBytes, dif_neg (by omega)]

theorem State.readByte_storeBytes_of_inside (s : State) (a : Nat) (bs : List Byte) {k : Nat} (h : k < bs.length) :
    (s.storeBytes a bs).readByte (a + k) = bs[k] := by
  rw [State.readByte_storeBytes, dif_pos (by omega)]
  congr 1
  omega

/-- A store of bytes changes nothing outside them. -/
theorem State.sameMemBut_storeBytes (s : State) (a : Nat) (bs : List Byte) :
    SameMemBut a bs.length s (s.storeBytes a bs) :=
  fun _ h => State.readByte_storeBytes_of_outside s a bs h

/-! ## Words -/

@[simp] theorem wordBytes_length (w : Word) : (wordBytes w).length = 4 := rfl

theorem length_flatMap_wordBytes (ws : List Word) : (ws.flatMap wordBytes).length = 4 * ws.length := by
  induction ws with
  | nil => rfl
  | cons w ws ih => simp only [List.flatMap_cons, List.length_append, wordBytes_length, ih, List.length_cons]; omega

theorem getElem?_flatMap_wordBytes (ws : List Word) (k j : Nat) (hj : j < 4) :
    (ws.flatMap wordBytes)[4 * k + j]? = (ws[k]?).bind (fun w => (wordBytes w)[j]?) := by
  induction ws generalizing k with
  | nil => simp
  | cons w ws ih =>
    cases k with
    | zero => simp [List.getElem?_append, hj]
    | succ k =>
      have h : 4 * (k + 1) + j - 4 = 4 * k + j := by omega
      have h' : ¬ 4 * (k + 1) + j < 4 := by omega
      simp [List.getElem?_append, h, h', ih]

theorem word_of_bytes (w : Word) :
    w.extractLsb' 24 8 ++ w.extractLsb' 16 8 ++ w.extractLsb' 8 8 ++ w.extractLsb' 0 8 = w := by
  ext i hi
  simp only [BitVec.getElem_append, BitVec.getElem_extractLsb']
  split
  · simp [BitVec.getLsbD_eq_getElem hi]
  · split
    · rw [show 8 + (i - 8) = i by omega, BitVec.getLsbD_eq_getElem hi]
    · split
      · rw [show 16 + (i - 8 - 8) = i by omega, BitVec.getLsbD_eq_getElem hi]
      · rw [show 24 + (i - 8 - 8 - 8) = i by omega, BitVec.getLsbD_eq_getElem hi]

/-- A store of words changes nothing outside them. -/
theorem State.sameMemBut_storeWords (s : State) (a : Nat) (ws : List Word) :
    SameMemBut a (4 * ws.length) s (s.storeWords a ws) := by
  have h := State.sameMemBut_storeBytes s a (ws.flatMap wordBytes)
  rwa [length_flatMap_wordBytes] at h

/-- A word read after a store of words, inside it: the word stored there. -/
theorem State.readWord_storeWords (s : State) (a : Nat) (ws : List Word) {k : Nat} (h : k < ws.length) :
    (s.storeWords a ws).readWord (a + 4 * k) = ws[k] := by
  have hlen : (ws.flatMap wordBytes).length = 4 * ws.length := length_flatMap_wordBytes ws
  have hb : ∀ (j : Nat) (hj : j < 4),
      (s.storeWords a ws).readByte (a + 4 * k + j) = (wordBytes ws[k])[j]'(by simpa using hj) := by
    intro j hj
    have h₁ := State.readByte_storeBytes_of_inside s a (ws.flatMap wordBytes) (k := 4 * k + j) (by omega)
    rw [← Nat.add_assoc] at h₁
    refine h₁.trans ?_
    have h₂ := getElem?_flatMap_wordBytes ws k j hj
    rw [List.getElem?_eq_getElem h, List.getElem?_eq_getElem (by omega)] at h₂
    simp only [Option.bind_some] at h₂
    rw [List.getElem?_eq_getElem (by simpa using hj)] at h₂
    exact Option.some.inj h₂
  unfold State.readWord
  rw [hb 3 (by omega), hb 2 (by omega), hb 1 (by omega)]
  have h0 := hb 0 (by omega)
  rw [Nat.add_zero] at h0
  rw [h0]
  exact word_of_bytes ws[k]

/-- A word read after a store of words elsewhere: what was there. -/
theorem State.readWord_storeWords_of_outside (s : State) (a : Nat) (ws : List Word) {x : Nat}
    (h : x + 4 ≤ a ∨ a + 4 * ws.length ≤ x) : (s.storeWords a ws).readWord x = s.readWord x := by
  have hs := State.sameMemBut_storeWords s a ws
  unfold State.readWord
  rw [hs (x + 3) (by omega), hs (x + 2) (by omega), hs (x + 1) (by omega), hs x (by omega)]

/-! ## Every memory operation keeps the canonical form -/

theorem State.storeBytes_wf {s : State} (h : Memory.wf s.mem) (a : Nat) (bs : List Byte) :
    Memory.wf (s.storeBytes a bs).mem := Memory.store_wf h a bs

theorem State.storeWords_wf {s : State} (h : Memory.wf s.mem) (a : Nat) (ws : List Word) :
    Memory.wf (s.storeWords a ws).mem := State.storeBytes_wf h a _

theorem State.storeTable_wf {s : State} (h : Memory.wf s.mem) (r : Region) (ns : List Nat) :
    Memory.wf (s.storeTable r ns).mem := State.storeWords_wf h _ _

theorem State.storeEntries_wf {s : State} (h : Memory.wf s.mem) (x : StoreSel) (k : Nat) (es : List Entry) :
    Memory.wf (s.storeEntries x k es).mem := State.storeWords_wf h _ _

theorem State.storeCosts_wf {s : State} (h : Memory.wf s.mem) (c : CostModel) :
    Memory.wf (s.storeCosts c).mem := State.storeTable_wf (State.storeTable_wf h _ _) _ _

theorem State.writeRegion_wf {s : State} (h : Memory.wf s.mem) (r : Region) (a n : Nat) (v : Word) :
    Memory.wf (s.writeRegion r a n v).mem := by
  cases r <;> first | exact h | exact State.storeWords_wf h _ _ | exact State.storeBytes_wf h _ _

/-- The memory after reset is in its canonical form. -/
theorem State.reset_wf : Memory.wf State.reset.mem := List.Pairwise.nil

end Sys2Proof.Machine
end

