-- ==== Sys2Proof/Laws/Ops.lean ====
section
/-! SUPPORT. Laws/Ops.lean: for each shared operation, once, everything it can do: the end of a command, the operand
checks, the reads of a store, the bit packer. Later proofs cite these lemmas instead of unfolding the operations. -/

namespace Sys2Proof.Machine

open Config (hw)

/-! ## The end of a command -/

@[simp] theorem Run.finish_ok (s : State) : (Run.ok s).finish = .next s.complete := rfl

@[simp] theorem Run.finish_stop (e : CmdError) (s : State) : (Run.stop e s).finish = .next (s.raiseError e) := rfl

@[simp] theorem Run.ok_andThen (s : State) (k : State → Run) : (Run.ok s).andThen k = k s := rfl

@[simp] theorem Run.stop_andThen (e : CmdError) (s : State) (k : State → Run) :
    (Run.stop e s).andThen k = .stop e s := rfl

@[simp] theorem afterChecks_ok {α : Type} (s : State) (a : α) (k : α → Run) : afterChecks s (.ok a) k = k a := rfl

@[simp] theorem afterChecks_error {α : Type} (s : State) (e : CmdError) (k : α → Run) :
    afterChecks s (.error e) k = .stop e s := rfl

/-- A command ends in one of two ways. -/
theorem Run.finish_cases (r : Run) :
    (∃ s, r = .ok s ∧ r.finish = .next s.complete) ∨ (∃ e s, r = .stop e s ∧ r.finish = .next (s.raiseError e)) := by
  cases r with
  | ok s => exact .inl ⟨s, rfl, rfl⟩
  | stop e s => exact .inr ⟨e, s, rfl, rfl⟩

/-- A sequence goes on only where its first part did. -/
theorem Run.andThen_eq_ok {r : Run} {k : State → Run} {t : State} :
    r.andThen k = .ok t ↔ ∃ s, r = .ok s ∧ k s = .ok t := by
  cases r <;> simp

/-- A sequence stops where its first part or its second part does. -/
theorem Run.andThen_eq_stop {r : Run} {k : State → Run} {e : CmdError} {t : State} :
    r.andThen k = .stop e t ↔ r = .stop e t ∨ ∃ s, r = .ok s ∧ k s = .stop e t := by
  cases r <;> simp

/-- A command with checks either fails one, with no effect at all, or goes on to its effects. -/
theorem finish_afterChecks_cases {α : Type} (s : State) (checks : Except CmdError α) (k : α → Run) :
    (∃ e, checks = .error e ∧ (afterChecks s checks k).finish = .next (s.raiseError e)) ∨
      (∃ a, checks = .ok a ∧ (afterChecks s checks k).finish = (k a).finish) := by
  cases checks with
  | error e => exact .inl ⟨e, rfl, rfl⟩
  | ok a => exact .inr ⟨a, rfl, rfl⟩

/-! ## Operand checks -/

@[simp] theorem require_eq_ok {c : Bool} {e : CmdError} {u : Unit} : require c e = .ok u ↔ c = true := by
  cases c <;> simp [require]

@[simp] theorem require_eq_error {c : Bool} {e e' : CmdError} : require c e = .error e' ↔ c = false ∧ e = e' := by
  cases c <;> simp [require]

theorem except_bind_eq_ok {α β : Type} {x : Except CmdError α} {f : α → Except CmdError β} {b : β} :
    (x >>= f) = .ok b ↔ ∃ a, x = .ok a ∧ f a = .ok b := by
  cases x <;> simp [bind, Except.bind]

theorem except_bind_eq_error {α β : Type} {x : Except CmdError α} {f : α → Except CmdError β} {e : CmdError} :
    (x >>= f) = .error e ↔ x = .error e ∨ ∃ a, x = .ok a ∧ f a = .error e := by
  cases x <;> simp [bind, Except.bind]

theorem checkWindow_eq_ok {s : State} {u : Unit} : checkWindow hw s = .ok u ↔ s.inputLen ≤ hw.inCap := by
  simp [checkWindow]

theorem checkBytes_eq_ok {s : State} {x y : ArgReg} {u : Unit} : checkBytes hw s x y = .ok u ↔ ByteRange s x y := by
  simp only [checkBytes, ByteRange, except_bind_eq_ok, checkWindow_eq_ok, require_eq_ok, Bool.and_eq_true,
    decide_eq_true_eq]
  constructor
  · rintro ⟨-, h₁, -, h₂, h₃⟩
    exact ⟨h₁, h₃⟩
  · rintro ⟨h₁, h₂, h₃⟩
    exact ⟨(), h₁, (), h₂.trans h₃, h₂, h₃⟩

theorem checkStoreArgs_eq_ok {s : State} {t : StoreSel} {x y : ArgReg} {u : Unit} :
    checkStoreArgs hw s t x y = .ok u ↔
      s.storeLen t ≤ hw.storeCap ∧ s.argOf x ≤ s.argOf y ∧ s.argOf y ≤ s.storeLen t := by
  simp only [checkStoreArgs, except_bind_eq_ok, require_eq_ok, Bool.and_eq_true, decide_eq_true_eq]
  constructor
  · rintro ⟨-, h₁, -, h₂, h₃⟩
    exact ⟨h₁, h₃⟩
  · rintro ⟨h₁, h₂, h₃⟩
    exact ⟨(), h₁, (), h₂.trans h₃, h₂, h₃⟩

/-- The symbol check passes exactly when every entry of the range is readable, and answers the entries. -/
theorem readEntries_eq_ok {s : State} {t : StoreSel} {n k : Nat} {es : List Entry} :
    readEntries hw s t n k = .ok es ↔ es.length = n ∧ HoldsEntries s t k es := by
  induction n generalizing k es with
  | zero =>
    simp only [readEntries, Except.ok.injEq]
    constructor
    · rintro rfl
      exact ⟨rfl, fun n h => absurd h (Nat.not_lt_zero n)⟩
    · rintro ⟨h, -⟩
      exact (List.length_eq_zero_iff.1 h).symm
  | succ n ih =>
    rw [readEntries]
    cases he : s.entryAt hw t k with
    | none =>
      simp only [reduceCtorEq, false_iff, not_and]
      intro hl hh
      have h0 := hh 0 (by omega)
      rw [Nat.add_zero, he, List.getElem?_eq_getElem (by omega)] at h0
      cases h0
    | some e =>
      have hmap : ∀ (r : Except CmdError (List Entry)),
          (r.map (e :: ·) = .ok es ↔ ∃ es', r = .ok es' ∧ es = e :: es') := by
        intro r
        cases r with
        | error e' => simp [Except.map]
        | ok a => simp [Except.map, eq_comm]
      simp only [hmap, ih]
      constructor
      · rintro ⟨es', ⟨hl, hh⟩, rfl⟩
        refine ⟨by simp [hl], fun m hm => ?_⟩
        cases m with
        | zero => simpa using he
        | succ m =>
          have := hh m (by simpa using hm)
          rw [show k + (m + 1) = k + 1 + m by omega]
          simpa using this
      · rintro ⟨hl, hh⟩
        cases es with
        | nil => simp at hl
        | cons e' es' =>
          have h0 := hh 0 (by simp)
          rw [Nat.add_zero, he] at h0
          have hee : e = e' := by simpa using h0
          subst hee
          refine ⟨es', ⟨by simpa using hl, fun m hm => ?_⟩, rfl⟩
          have := hh (m + 1) (by simpa using hm)
          rw [show k + 1 + m = k + (m + 1) by omega]
          simpa using this

/-- The symbol check fails at the lowest malformed entry. -/
theorem readEntries_eq_error {s : State} {t : StoreSel} {n k : Nat} {e : CmdError} :
    readEntries hw s t n k = .error e ↔
      ∃ m, k ≤ m ∧ m < k + n ∧ e = badSymbol m ∧ s.entryAt hw t m = none ∧
        ∀ j, k ≤ j → j < m → s.entryAt hw t j ≠ none := by
  induction n generalizing k with
  | zero =>
    simp only [readEntries, reduceCtorEq, Nat.add_zero, false_iff, not_exists]
    rintro m ⟨h₁, h₂, -⟩
    omega
  | succ n ih =>
    rw [readEntries]
    cases he : s.entryAt hw t k with
    | none =>
      simp only [Except.error.injEq]
      constructor
      · rintro rfl
        exact ⟨k, le_rfl, by omega, rfl, he, fun j h₁ h₂ => by omega⟩
      · rintro ⟨m, h₁, -, rfl, -, hj⟩
        rcases Nat.eq_or_lt_of_le h₁ with rfl | h
        · rfl
        · exact absurd he (hj k le_rfl h)
    | some y =>
      have hmap : ∀ (r : Except CmdError (List Entry)), (r.map (y :: ·) = .error e ↔ r = .error e) := by
        intro r
        cases r <;> simp [Except.map]
      simp only [hmap, ih]
      constructor
      · rintro ⟨m, h₁, h₂, rfl, hm, hj⟩
        refine ⟨m, by omega, by omega, rfl, hm, fun j h₃ h₄ => ?_⟩
        rcases Nat.eq_or_lt_of_le h₃ with rfl | h
        · simp [he]
        · exact hj j h h₄
      · rintro ⟨m, h₁, h₂, rfl, hm, hj⟩
        have hne : k ≠ m := by
          rintro rfl
          simp [he] at hm
        exact ⟨m, by omega, by omega, rfl, hm, fun j h₃ h₄ => hj j (by omega) h₄⟩

theorem tilingFailure_eq_none {es : List Entry} {i a b : Nat} : tilingFailure es i a b = none ↔ Tiles es a b := by
  induction es generalizing i a with
  | nil => simp [tilingFailure, Tiles]
  | cons e es ih =>
    rw [tilingFailure, Tiles]
    by_cases h : e.pos = a <;> simp [h, ih]

theorem checkTiling_eq_ok {es : List Entry} {i a b : Nat} {u : Unit} :
    checkTiling es i a b = .ok u ↔ Tiles es a b := by
  rw [← tilingFailure_eq_none (i := i), checkTiling]
  cases tilingFailure es i a b <;> simp

/-- CheckStore passes exactly on a symbol range, and answers its entries. -/
theorem loadRange_eq_ok {s : State} {x : StoreSel} {es : List Entry} :
    loadRange hw s x .x0 .x1 = .ok es ↔ SymbolRange s x es := by
  simp only [loadRange, SymbolRange, except_bind_eq_ok, checkStoreArgs_eq_ok, readEntries_eq_ok]
  constructor
  · rintro ⟨-, ⟨h₁, h₂, h₃⟩, h₄, h₅⟩
    exact ⟨h₁, h₂, h₃, h₄, h₅⟩
  · rintro ⟨h₁, h₂, h₃, h₄, h₅⟩
    exact ⟨(), ⟨h₁, h₂, h₃⟩, h₄, h₅⟩

/-- The checks of WAUTO and BLKCOST pass exactly on a tiled symbol range, and answer its entries. -/
theorem loadTiledRange_eq_ok {s : State} {x : StoreSel} {es : List Entry} :
    loadTiledRange hw s x = .ok es ↔ TiledSymbolRange s x es := by
  simp only [loadTiledRange, TiledSymbolRange, SymbolRange, except_bind_eq_ok, checkStoreArgs_eq_ok,
    checkBytes_eq_ok, readEntries_eq_ok, checkTiling_eq_ok, pure, Except.pure, Except.ok.injEq]
  constructor
  · rintro ⟨-, ⟨h₁, h₂, h₃⟩, -, h₄, es', ⟨h₅, h₆⟩, -, h₇, rfl⟩
    exact ⟨⟨h₁, h₂, h₃, h₅, h₆⟩, h₄, h₇⟩
  · rintro ⟨⟨h₁, h₂, h₃, h₅, h₆⟩, h₄, h₇⟩
    exact ⟨(), ⟨h₁, h₂, h₃⟩, (), h₄, es, ⟨h₅, h₆⟩, (), h₇, rfl⟩

/-! ## The bit packer -/

/-- Everything one bit can do: wait in the partial byte, complete a byte of OUT, or fail at OUT_LIMIT
(45_block_writer.md R901). -/
theorem putBit_cases (x : Bool) (s : State) :
    (s.packer.bitCnt.toNat < 7 ∧
      putBit x s = .ok { s with packer := { s.packer with
        bitCnt := s.packer.bitCnt + 1, bitBuf := putInBuf s.packer.bitBuf s.packer.bitCnt.toNat x } }) ∨
    (s.packer.bitCnt.toNat = 7 ∧ s.packer.outLen.toNat < s.opt.outLimit.toNat ∧
      putBit x s = .ok
        { s.storeBytes (Region.output.entry s.packer.outLen.toNat) [putInBuf s.packer.bitBuf 7 x] with
          packer := { s.packer with outLen := s.packer.outLen + 1, bitCnt := 0, bitBuf := 0 } }) ∨
    (s.packer.bitCnt.toNat = 7 ∧ s.opt.outLimit.toNat ≤ s.packer.outLen.toNat ∧
      putBit x s = .stop { code := .writeError, info := s.packer.outLen } s.loseBitState) := by
  have hlt : s.packer.bitCnt.toNat < 8 := s.packer.bitCnt.isLt
  unfold putBit
  by_cases h : s.packer.bitCnt.toNat = 7
  · by_cases hl : s.opt.outLimit.toNat ≤ s.packer.outLen.toNat
    · exact .inr (.inr ⟨h, hl, by simp [h, hl]⟩)
    · exact .inr (.inl ⟨h, by omega, by simp [h, hl]⟩)
  · have h₁ : ¬ s.packer.bitCnt.toNat + 1 = 8 := by omega
    exact .inl ⟨by omega, by simp [h₁]⟩

/-- Bits put one after another. -/
theorem putAll_append (xs ys : List Bool) (s : State) :
    putAll (xs ++ ys) s = (putAll xs s).andThen (putAll ys) := by
  induction xs generalizing s with
  | nil => rfl
  | cons x xs ih =>
    simp only [List.cons_append, putAll]
    cases putBit x s with
    | ok t => simp [ih]
    | stop e t => rfl

@[simp] theorem bitsOf_length (v n : Nat) : (bitsOf v n).length = n := by simp [bitsOf]

@[simp] theorem huffBits_length (c n : Nat) : (huffBits c n).length = n := by simp [huffBits]

/-! ## Acceptance and the run of a command -/

/-- The run of an accepted command, once: its meaning, or ILLEGAL_CMD. -/
theorem runCommand_cases (w : Word) (s : State) :
    (∃ i, decode w = .ok i ∧ runCommand chip w s = exec i s) ∨
      (∃ e, decode w = .error e ∧ runCommand chip w s = .next (s.raiseError { code := .illegalCmd, info := w })) := by
  unfold runCommand
  cases decode w with
  | ok i => exact .inl ⟨i, rfl, rfl⟩
  | error e => exact .inr ⟨e, rfl, rfl⟩

/-! ## A step, and the host's accesses -/

/-- Everything a step can be: the run of the accepted command, the next host access, or nothing to do. -/
theorem stepOf_cases (C : Chip) (s : State) :
    (∃ w, s.issue.word = some w ∧ (s.host.pending = [] ∨ s.issue.busyLeft = 0) ∧ stepOf C s = runCommand C w s) ∨
      (∃ op rest, s.host.pending = op :: rest ∧ (s.issue.word = none ∨ 0 < s.issue.busyLeft) ∧
        stepOf C s = .next (hostStep C op (s.takeOp rest))) ∨
      (s.issue.word = none ∧ s.host.pending = [] ∧ stepOf C s = .next s) := by
  unfold stepOf
  cases hw : s.issue.word with
  | none =>
    cases hp : s.host.pending with
    | nil => exact .inr (.inr ⟨rfl, rfl, rfl⟩)
    | cons op rest => exact .inr (.inl ⟨op, rest, rfl, .inl rfl, rfl⟩)
  | some w =>
    cases hp : s.host.pending with
    | nil => exact .inl ⟨w, rfl, .inl rfl, rfl⟩
    | cons op rest =>
      by_cases hb : 0 < s.issue.busyLeft
      · exact .inr (.inl ⟨op, rest, rfl, .inr hb, by simp [hb]⟩)
      · exact .inl ⟨w, rfl, .inr (by omega), by simp [hb]⟩

/-- Everything a host access can do: fault, read, write, wait, reset. -/
theorem hostStep_cases (C : Chip) (op : HostOp) (s : State) :
    (∃ a n p, (op = .read a n ∨ ∃ v, op = .write a n v) ∧ busProblem C.params a.toNat n = some p ∧
      hostStep C op s = s.busFault (.busError p a n)) ∨
    (∃ a n, op = .read a n ∧ busProblem C.params a.toNat n = none ∧
      hostStep C op s = (hostReadValue C a.toNat n s).2) ∨
    (∃ a n v, op = .write a n v ∧ busProblem C.params a.toNat n = none ∧
      hostStep C op s = hostWriteState C.params a.toNat n v s) ∨
    (op = .waitDone ∧ ∃ q, hostStep C op s =
      { (hostReadValue C Csr.status.offset 4 s).2 with
        host := { (hostReadValue C Csr.status.offset 4 s).2.host with pending := q } }) ∨
    (op = .hardReset ∧ hostStep C op s = s.hardReset C.params) := by
  cases op with
  | read a n =>
    cases h : busProblem C.params a.toNat n with
    | some p => exact .inl ⟨a, n, p, .inl rfl, h, by rw [hostStep, h]⟩
    | none => exact .inr (.inl ⟨a, n, rfl, h, by rw [hostStep, h]⟩)
  | write a n v =>
    cases h : busProblem C.params a.toNat n with
    | some p => exact .inl ⟨a, n, p, .inr ⟨v, rfl⟩, h, by rw [hostStep, h]⟩
    | none => exact .inr (.inr (.inl ⟨a, n, v, rfl, h, by rw [hostStep, h]⟩))
  | waitDone =>
    refine .inr (.inr (.inr (.inl ⟨rfl, ?_⟩)))
    rw [hostStep]
    split
    · exact ⟨_, rfl⟩
    · exact ⟨_, rfl⟩
  | hardReset => exact .inr (.inr (.inr (.inr ⟨rfl, rfl⟩)))

/-- What the core's progress may change before a host access: PHASE, the account of the command, the draws. -/
theorem coreProgress_frame (P : Config.Params) (s : State) :
    ∃ phase progress place draws, s.coreProgress P =
      { s with
        status := { s.status with phase := phase }
        issue := { s.issue with progress := progress, phaseAt := place }
        draws := draws } := by
  unfold State.coreProgress
  cases s.issue.word with
  | none => exact ⟨_, _, _, _, rfl⟩
  | some w => exact ⟨_, _, _, _, rfl⟩

/-- The place never goes back, and stays inside the sequence. -/
theorem placeAfter_bounds {now len : Nat} (n : Nat) (h : now < len) :
    now ≤ placeAfter now len n ∧ placeAfter now len n < len := by
  have := Nat.mod_lt n (show 0 < len - now by omega)
  unfold placeAfter
  omega

/-- Every place from the present one to the end of the sequence is the next one for some count. -/
theorem exists_placeAfter_eq {now len place : Nat} (h : now ≤ place) (h' : place < len) :
    ∃ n, placeAfter now len n = place := by
  refine ⟨place - now, ?_⟩
  rw [placeAfter, Nat.mod_eq_of_lt (by omega)]
  omega

/-- A command's phases begin with DECODE, so its sequence is never empty. -/
theorem commandPhases_eq_cons (P : Config.Params) (w : Word) (s : State) :
    ∃ rest, commandPhases P w s = .decode :: rest := ⟨_, rfl⟩

end Sys2Proof.Machine
end

