-- ==== Sys2Proof/Laws/PerInstr.lean ====
section
/-! SUPPORT. Laws/PerInstr.lean: what holds of every instruction as syntax, one lemma per constructor. -/

namespace Sys2Proof.Laws

/-- The word of a command matches its row of the opcode map under the row's mask, has no reserved bit, carries its
flags in bits 8 and 9, and decodes to the command (30_encoding.md R310 to R313). -/
def CommandWord.Statement (i : Instr) : Prop :=
  (fieldsOf i).wellFormed ∧ CmdFields.ofWord (encode i) = fieldsOf i ∧ decode (encode i) = .ok i

theorem CommandWord.nop : CommandWord.Statement (.nop) := by
  exact ⟨by decide, by decide, by decide⟩

theorem CommandWord.sreset : CommandWord.Statement (.sreset) := by
  exact ⟨by decide, by decide, by decide⟩

theorem CommandWord.cacheclr : CommandWord.Statement (.cacheclr) := by
  exact ⟨by decide, by decide, by decide⟩

theorem CommandWord.compress : CommandWord.Statement (.compress) := by
  exact ⟨by decide, by decide, by decide⟩

theorem CommandWord.findmatch : CommandWord.Statement (.findmatch) := by
  exact ⟨by decide, by decide, by decide⟩

theorem CommandWord.greedy : CommandWord.Statement (.greedy) := by
  exact ⟨by decide, by decide, by decide⟩

theorem CommandWord.split : CommandWord.Statement (.split) := by
  exact ⟨by decide, by decide, by decide⟩

theorem CommandWord.coststat (store : StoreSel) : CommandWord.Statement (.coststat store) := by
  cases store <;> exact ⟨by decide, by decide, by decide⟩

theorem CommandWord.costfixed : CommandWord.Statement (.costfixed) := by
  exact ⟨by decide, by decide, by decide⟩

theorem CommandWord.sppass : CommandWord.Statement (.sppass) := by
  exact ⟨by decide, by decide, by decide⟩

theorem CommandWord.squeeze : CommandWord.Statement (.squeeze) := by
  exact ⟨by decide, by decide, by decide⟩

theorem CommandWord.count (store : StoreSel) : CommandWord.Statement (.count store) := by
  cases store <;> exact ⟨by decide, by decide, by decide⟩

theorem CommandWord.hufflen : CommandWord.Statement (.hufflen) := by
  exact ⟨by decide, by decide, by decide⟩

theorem CommandWord.canon : CommandWord.Statement (.canon) := by
  exact ⟨by decide, by decide, by decide⟩

theorem CommandWord.wreset : CommandWord.Statement (.wreset) := by
  exact ⟨by decide, by decide, by decide⟩

theorem CommandWord.wbits : CommandWord.Statement (.wbits) := by
  exact ⟨by decide, by decide, by decide⟩

theorem CommandWord.wflush : CommandWord.Statement (.wflush) := by
  exact ⟨by decide, by decide, by decide⟩

theorem CommandWord.wstored (final : Bool) : CommandWord.Statement (.wstored final) := by
  cases final <;> exact ⟨by decide, by decide, by decide⟩

theorem CommandWord.wfixed (final : Bool) (store : StoreSel) : CommandWord.Statement (.wfixed final store) := by
  cases final <;> cases store <;> exact ⟨by decide, by decide, by decide⟩

theorem CommandWord.wdynamic (final : Bool) (store : StoreSel) : CommandWord.Statement (.wdynamic final store) := by
  cases final <;> cases store <;> exact ⟨by decide, by decide, by decide⟩

theorem CommandWord.wauto (final : Bool) (store : StoreSel) : CommandWord.Statement (.wauto final store) := by
  cases final <;> cases store <;> exact ⟨by decide, by decide, by decide⟩

theorem CommandWord.blkcost (store : StoreSel) : CommandWord.Statement (.blkcost store) := by
  cases store <;> exact ⟨by decide, by decide, by decide⟩

end Sys2Proof.Laws
end

