-- ==== Sys2Proof/Machine/HostProgram.lean ====
section
/-! DEFINITION. Machine/HostProgram.lean: the host-program notation of 30_encoding.md R350 and R351. Every operation
is a list of host accesses; a program is their concatenation, given to `host.pending`. -/

namespace Sys2Proof.Machine

/-- `csrw NAME, v` (30_encoding.md R350). -/
def csrw (c : Csr) (v : Word) : List HostOp := [.write (word c.offset) 4 v]

/-- `csrr NAME` (30_encoding.md R350). -/
def csrr (c : Csr) : List HostOp := [.read (word c.offset) 4]

/-- `memw REGION[k], v` of a table region (30_encoding.md R350). -/
def memwTable (r : Region) (k : Nat) (v : Word) : List HostOp := [.write (word (r.entry k)) 4 v]

/-- `memr REGION[k]` of a table region (30_encoding.md R350). -/
def memrTable (r : Region) (k : Nat) : List HostOp := [.read (word (r.entry k)) 4]

/-- `memw IN[k], v`: one byte (30_encoding.md R350). -/
def memwIn (k : Nat) (v : Byte) : List HostOp := [.write (word (Region.input.entry k)) 1 (v.setWidth 32)]

/-- `memr IN[k]`: one byte (30_encoding.md R350). -/
def memrIn (k : Nat) : List HostOp := [.read (word (Region.input.entry k)) 1]

/-- `memr OUT[k]`: one byte (30_encoding.md R350). -/
def memrOut (k : Nat) : List HostOp := [.read (word (Region.output.entry k)) 1]

/-- `memw X[k].SYM, v` (30_encoding.md R350, 20_memory.md R211). -/
def memwSym (t : StoreSel) (k : Nat) (v : Word) : List HostOp := [.write (word ((storeRegion t).entry k)) 4 v]

/-- `memw X[k].POS, v` (30_encoding.md R350, 20_memory.md R211). -/
def memwPos (t : StoreSel) (k : Nat) (v : Word) : List HostOp := [.write (word ((storeRegion t).entry k + 4)) 4 v]

/-- `memr X[k].SYM` (30_encoding.md R350). -/
def memrSym (t : StoreSel) (k : Nat) : List HostOp := [.read (word ((storeRegion t).entry k)) 4]

/-- `memr X[k].POS` (30_encoding.md R350). -/
def memrPos (t : StoreSel) (k : Nat) : List HostOp := [.read (word ((storeRegion t).entry k + 4)) 4]

/-- `memw PLAN[j].<word k>, v` (30_encoding.md R350, R325). -/
def memwPlan (j k : Nat) (v : Word) : List HostOp := [.write (word (planAddr j k)) 4 v]

/-- `memr PLAN[j].<word k>` (30_encoding.md R350, R325). -/
def memrPlan (j k : Nat) : List HostOp := [.read (word (planAddr j k)) 4]

/-- `cmd MNEMONIC[.F][.S]` (30_encoding.md R350). -/
def cmd (i : Instr) : List HostOp := csrw .cmd (encode i)

/-- `inb k, bytes` (30_encoding.md R351). -/
def inb : Nat → List Byte → List HostOp
  | _, [] => []
  | k, b :: bs => memwIn k b ++ inb (k + 1) bs

/-- `wait` (30_encoding.md R351). -/
def waitEnd : List HostOp := [.waitDone]

/-- The writes of the operands a `run` gives, from ARG0 on (30_encoding.md R351). -/
def writeArgs (vs : List Word) : List HostOp :=
  (List.zipWith csrw [.arg0, .arg1, .arg2, .arg3] vs).flatten

/-- `run MNEMONIC[.F][.S] v0, v1, v2, v3` (30_encoding.md R351). -/
def runCmd (i : Instr) (vs : List Word) : List HostOp := writeArgs vs ++ cmd i ++ waitEnd

/-- `ack` (30_encoding.md R351). -/
def ack : List HostOp := csrw .status 0x0000000E

/-- `setin bytes` (30_encoding.md R351). -/
def setin (bs : List Byte) : List HostOp := inb 0 bs ++ csrw .inLen (word bs.length)

/-- A host program about to run on a machine. -/
def State.withProgram (s : State) (p : List HostOp) : State := { s with host := { s.host with pending := p } }

end Sys2Proof.Machine
end

