-- ==== Sys2Proof/Tests/Slice0.lean ====
section
/-! SUPPORT. Tests/Slice0.lean: words written out from the spec's encodings, one-step checks against the vectors of
95_test_vectors.md (named in the comments), and for each statement with hypotheses a state that meets them. -/

namespace Sys2Proof.Machine.Tests

open Config (hw)

set_option Elab.async false

/-! ## Command words, written out from 30_encoding.md R310 and R312 -/

/-! Ill-formed words, one for each check of WellFormed.lean (vectors E9 to E14). -/

theorem test_illformed_reserved_bit : decode 0b00000000000000000000010000001000 = .error .reservedBits := by decide
theorem test_illformed_reserved_top : decode 0x800000FF = .error .reservedBits := by decide
theorem test_illformed_opcode : decode 0b00000000000000000000000000000011 = .error .unknownOpcode := by decide
theorem test_illformed_final : decode 0b00000000000000000000000100000000 = .error .finalNotTaken := by decide
theorem test_illformed_final_on_count : decode 0x00000130 = .error .finalNotTaken := by decide
theorem test_illformed_store : decode 0b00000000000000000000001001000011 = .error .storeNotTaken := by decide
theorem test_wellFormed_refuses :
    (CmdFields.mk 0x08 false false 1).problem = some .reservedBits ∧
    (CmdFields.mk 0x03 false false 0).problem = some .unknownOpcode ∧
    (CmdFields.mk 0x00 true false 0).problem = some .finalNotTaken ∧
    (CmdFields.mk 0x43 false true 0).problem = some .storeNotTaken := by decide

/-! Every constructor's word, bits [31:10], T, F, OP. -/

theorem test_decode_nop : decode 0b0000000000000000000000_0_0_00000000 = .ok .nop := by decide
theorem test_decode_sreset : decode 0b0000000000000000000000_0_0_00000001 = .ok .sreset := by decide
theorem test_decode_cacheclr : decode 0b0000000000000000000000_0_0_00000010 = .ok .cacheclr := by decide
theorem test_decode_compress : decode 0b0000000000000000000000_0_0_00001000 = .ok .compress := by decide
theorem test_decode_findmatch : decode 0b0000000000000000000000_0_0_00010000 = .ok .findmatch := by decide
theorem test_decode_greedy : decode 0b0000000000000000000000_0_0_00010001 = .ok .greedy := by decide
theorem test_decode_split : decode 0b0000000000000000000000_0_0_00011000 = .ok .split := by decide
theorem test_decode_coststat : decode 0b0000000000000000000000_1_0_00100000 = .ok (.coststat .s) := by decide
theorem test_decode_costfixed : decode 0b0000000000000000000000_0_0_00100001 = .ok .costfixed := by decide
theorem test_decode_sppass : decode 0b0000000000000000000000_0_0_00100010 = .ok .sppass := by decide
theorem test_decode_squeeze : decode 0b0000000000000000000000_0_0_00100011 = .ok .squeeze := by decide
theorem test_decode_count : decode 0b0000000000000000000000_1_0_00110000 = .ok (.count .s) := by decide
theorem test_decode_hufflen : decode 0b0000000000000000000000_0_0_00110001 = .ok .hufflen := by decide
theorem test_decode_canon : decode 0b0000000000000000000000_0_0_00110010 = .ok .canon := by decide
theorem test_decode_wreset : decode 0b0000000000000000000000_0_0_01000000 = .ok .wreset := by decide
theorem test_decode_wbits : decode 0b0000000000000000000000_0_0_01000001 = .ok .wbits := by decide
theorem test_decode_wflush : decode 0b0000000000000000000000_0_0_01000010 = .ok .wflush := by decide
theorem test_decode_wstored : decode 0b0000000000000000000000_0_1_01000011 = .ok (.wstored true) := by decide
theorem test_decode_wfixed : decode 0b0000000000000000000000_1_1_01000100 = .ok (.wfixed true .s) := by decide
theorem test_decode_wdynamic : decode 0b0000000000000000000000_1_0_01000101 = .ok (.wdynamic false .s) := by decide
theorem test_decode_wauto : decode 0b0000000000000000000000_0_1_01000110 = .ok (.wauto true .g) := by decide
theorem test_decode_blkcost : decode 0b0000000000000000000000_1_0_01000111 = .ok (.blkcost .s) := by decide
theorem test_table_word : decodeTableWord 32 0x00000344 = some (.wfixed true .s) := by decide
theorem test_table_word_illegal : decodeTableWord 32 0x00000100 = none := by decide

/-! Symbol words (vectors E15 to E23). -/

theorem test_symbol_words :
    symOfWord hw 0x00410000 = some (.lit 0x41) ∧ symOfWord hw 0x000A0002 = some (.ref 10 2) ∧
    symOfWord hw 0x01028000 = some (.ref 258 32768) ∧ symOfWord hw 0x00000000 = some (.lit 0) := by decide
theorem test_symbol_words_malformed :
    symOfWord hw 0x00020001 = none ∧ symOfWord hw 0x01030001 = none ∧ symOfWord hw 0x00038001 = none ∧
    symOfWord hw 0x01000000 = none ∧ symOfWord hw 0x02410000 = none := by decide

/-! ## Small states -/

/-- The state a command ends in. -/
def after (i : Instr) (s : State) : State :=
  match exec i s with
  | .next t => t
  | .fault _ => s
  | .refused _ => s

/-- From reset, with IN holding the bytes and IN_LEN their number. -/
def withIn (bs : List Byte) : State :=
  { State.reset.storeBytes Region.input.base bs with opt := { Options.reset hw with inLen := word bs.length } }

/-- The state with operands. -/
def withArgs (s : State) (a b : Nat) (c : Nat := 0) (d : Nat := 0) : State :=
  { s with arg := { a0 := word a, a1 := word b, a2 := word c, a3 := word d } }

/-- "ABABABABABAB". -/
def abText : List Byte := [0x41, 0x42, 0x41, 0x42, 0x41, 0x42, 0x41, 0x42, 0x41, 0x42, 0x41, 0x42]

/-- The greedy store of "ABABABABABAB" (vector P10). -/
def abStore : List Entry := [⟨.lit 0x41, 0⟩, ⟨.lit 0x42, 1⟩, ⟨.ref 10 2, 2⟩]

/-- IN = "ABABABABABAB" with its greedy store in G. -/
def abState : State :=
  { (withIn abText).storeEntries .g 0 abStore with lens := { gLen := 3, gA := 0, gB := 12, sLen := 0, planLen := 0 } }

/-- abState with a plan of one block (vector B1). -/
def abPlanned : State :=
  { abState.storeWords (planAddr 0 0) [0, 12, 0, 3, 0, 0, 0, 0] with lens := { abState.lens with planLen := 1 } }

/-- abState with CTRL.BTYPE replaced. -/
def withHint (h : Word) (s : State) : State := { s with opt := { s.opt with ctrl := 0x20 ||| h } }

/-- NOP accepted, with two host accesses to come and room for one of them. -/
def busyState : State :=
  { State.reset.accept 0x00000000 1 with host := { pending := [.read 0x010 4, .waitDone], reads := [], faults := [] } }

/-- OUT from its first byte on. -/
def outBytes (s : State) : List Byte := s.readBytes Region.output.base s.packer.outLen.toNat

/-! ## One-step checks -/

theorem test_nop_status : (after .nop (State.reset.accept 0 0)).statusWord = 0x00000002 := by decide -- K2
theorem test_nop_irq :
    (after .nop (withHint 0x10 (State.reset.accept 0 0))).statusWord = 0x00000012 := by decide -- K5
theorem test_sreset_registers :
    (after .sreset { State.reset with opt := { Options.reset hw with numIter := 3, ctrl := 0x31 } }).opt.numIter = 15 ∧
    (after .sreset { State.reset with opt := { Options.reset hw with ctrl := 0x31 } }).statusWord = 0x2 := by
  decide -- K3
theorem test_sreset_keeps_memory :
    (after .sreset (withIn [0x41])).readByte 0x10000000 = 0x41 := by decide +kernel -- K3
theorem test_cacheclr :
    (after .cacheclr (after .findmatch (withArgs (withIn abText) 2 258))).cache = [] := by decide +kernel -- K4

theorem test_findmatch_record :
    (after .findmatch (withArgs (withIn abText) 2 258)).res = ⟨10, 2, 10, 2⟩ ∧
    (after .findmatch (withArgs (withIn abText) 2 258)).readWord 0x00016028 = 2 ∧
    (after .findmatch (withArgs (withIn abText) 2 258)).readWord 0x0001602C = 0 := by decide +kernel -- P1
/-- "ABCDxABCyABCD" -/
def p6Text : List Byte := [0x41, 0x42, 0x43, 0x44, 0x78, 0x41, 0x42, 0x43, 0x79, 0x41, 0x42, 0x43, 0x44]
theorem test_findmatch_clipped :
    (after .findmatch (withArgs (withIn p6Text) 9 3)).res = ⟨3, 4, 4, 9⟩ := by decide +kernel -- P7

/-- "XabcYbcdeZabcde" -/
def p15Text : List Byte :=
  [0x58, 0x61, 0x62, 0x63, 0x59, 0x62, 0x63, 0x64, 0x65, 0x5A, 0x61, 0x62, 0x63, 0x64, 0x65]
theorem test_greedy_lazy :
    (after .greedy (withArgs (withIn p15Text) 0 15)).lens.gLen = 12 ∧
    (after .greedy (withArgs (withIn p15Text) 0 15)).entryAt hw .g 11 = some ⟨.ref 4 6, 11⟩ := by decide +kernel -- P15
theorem test_greedy_reaches_back :
    (after .greedy (withArgs (withIn abText) 4 12)).entryAt hw .g 0 = some ⟨.ref 8 2, 4⟩ ∧
    (after .greedy (withArgs (withIn abText) 4 12)).lens = ⟨1, 4, 12, 0, 0⟩ := by decide +kernel -- P11

theorem test_split_one_block :
    ((List.range 8).map (fun k => (after .split abState).planWord 0 k)) = [0, 12, 0, 3, 0, 0, 0, 0] ∧
    (after .split abState).res.r0 = 1 := by decide +kernel -- B1
theorem test_split_tiling_error :
    (after .split { abState with lens := { abState.lens with gB := 11 } }).errInfo = 3 := by decide +kernel -- B6

theorem test_coststat :
    [65, 66, 256, 264, 0].map (fun k => (after (.coststat .g) (withArgs abState 0 3)).readWord
      (Region.llcost.entry k)) = [2, 2, 2, 2, 15] ∧
    [1, 0].map (fun k => (after (.coststat .g) (withArgs abState 0 3)).readWord
      (Region.dcost.entry k)) = [1, 15] := by decide +kernel -- Q1
theorem test_costfixed :
    [0, 143, 144, 255, 256, 279, 280, 285].map (fun k => (after .costfixed State.reset).readWord
      (Region.llcost.entry k)) = [8, 8, 9, 9, 7, 7, 8, 8] ∧
    (after .costfixed State.reset).readWord (Region.dcost.entry 29) = 5 := by decide +kernel -- Q3
theorem test_sppass :
    (after .sppass (withArgs (after .costfixed (withIn abText)) 0 12)).res = ⟨3, 28, 0, 0⟩ ∧
    (after .sppass (withArgs (after .costfixed (withIn abText)) 0 12)).entryAt hw .s 2 = some ⟨.ref 10 2, 2⟩ := by
  decide +kernel -- Q5
theorem test_squeeze :
    (after .squeeze abPlanned).res = ⟨3, 38, 5, 0⟩ ∧
    [4, 5, 7].map (fun k => (after .squeeze abPlanned).planWord 0 k) = [0, 3, 38] := by decide +kernel -- Q10
theorem test_squeeze_plan_error :
    (after .squeeze (withArgs abPlanned 1 0)).errInfo = 0x040 := by decide +kernel -- Q14

theorem test_count :
    [65, 66, 256, 264, 0].map (fun k => (after (.count .g) (withArgs abState 0 3)).readWord
      (Region.freq.entry k)) = [1, 1, 1, 1, 0] ∧
    (after (.count .g) (withArgs abState 0 3)).readWord (Region.dfreq.entry 1) = 1 := by decide +kernel -- H14
theorem test_hufflen :
    (after .hufflen (withArgs (State.reset.storeTable .freq [2, 1, 1, 2]) 4 15)).readTable .len 4
      = [2, 3, 3, 1] := by decide +kernel -- H1
theorem test_hufflen_no_code :
    (after .hufflen (withArgs (State.reset.storeTable .freq [1, 1, 1]) 3 1)).statusWord = 0x00000306 ∧
    (after .hufflen (withArgs (State.reset.storeTable .freq [1, 1, 1]) 3 1)).errInfo = 3 := by decide +kernel -- X7
theorem test_package_before_leaf : katajainen [1, 1, 2, 2] 15 = [3, 3, 2, 1] := by decide +kernel -- H12
theorem test_limited_lengths :
    katajainen [1, 1, 2, 4, 8, 16, 32, 64, 128] 4 = [4, 4, 4, 4, 4, 4, 3, 2, 2] := by decide +kernel -- H10
theorem test_canon :
    (after .canon (withArgs (State.reset.storeTable .len [2, 3, 3, 1]) 4 0)).readTable .code 4
      = [0b10, 0b110, 0b111, 0b0] := by decide +kernel -- H1
theorem test_canon_kraft :
    (after .canon (withArgs (State.reset.storeTable .len [1, 1, 1]) 3 0)).errInfo = 0x0000C000 := by
  decide +kernel -- X6
theorem test_patch :
    patchLens [0, 0, 0, 0, 0] = [1, 1, 0, 0, 0] ∧ patchLens [0, 0, 3, 0] = [1, 0, 3, 0] ∧
    patchLens [4, 0, 0] = [4, 1, 0] ∧ patchLens [1, 1, 0] = [1, 1, 0] := by decide -- R830
theorem test_run_lengths :
    rle (List.replicate 139 0) = [(18, 127), (0, 0)] ∧ rle (List.replicate 10 5) = [(5, 0), (16, 3), (16, 0)] ∧
    rle [0, 0] = [(0, 0), (0, 0)] ∧ rle (List.replicate 7 4) = [(4, 0), (16, 3)] := by decide +kernel -- R930
theorem test_length_and_distance_codes :
    [3, 257, 258].map (fun l => (lengthRow l).code) = [257, 284, 285] ∧
    [1, 4, 5, 24577, 32768].map (fun d => (distanceRow d).code) = [0, 3, 4, 29, 29] ∧
    (lengthRow 258).extra = 0 ∧ (distanceRow 32768).extra = 13 := by decide +kernel -- R331, R332

theorem test_wreset : (after .wreset { State.reset with packer := ⟨3, 5, 7, 1, 5⟩ }).packer = ⟨0, 0, 0, 0, 0⟩ := by
  decide -- R910
theorem test_wbits_waits :
    (after .wbits (withArgs State.reset 0x5 3)).csrValue chip .bitState = 0x00000503 := by decide +kernel -- W1
theorem test_wbits_completes :
    outBytes (after .wbits (withArgs (after .wbits (withArgs State.reset 0x5 3)) 0x1F 5)) = [0xFD] := by
  decide +kernel -- W2
theorem test_wflush :
    outBytes (after .wflush (after .wbits (withArgs State.reset 0x5 3))) = [0x05] ∧
    (after .wflush (after .wbits (withArgs State.reset 0x5 3))).res.r0 = 5 := by decide +kernel -- W3
theorem test_wstored :
    outBytes (after (.wstored true) (withArgs (withIn [0x41]) 0 1)) = [0x01, 0x01, 0x00, 0xFE, 0xFF, 0x41] ∧
    (after (.wstored true) (withArgs (withIn [0x41]) 0 1)).res.r0 = 48 := by decide +kernel -- W5
theorem test_wstored_output_full :
    (after (.wstored true) (withArgs { withIn [0x41] with opt := { (withIn [0x41]).opt with outLimit := 3 } } 0 1)).errInfo
      = 3 := by decide +kernel -- W20
theorem test_wfixed :
    outBytes (after .wflush (after (.wfixed true .g) (withArgs abState 0 3))) = [0x73, 0x74, 0x42, 0x40, 0x00] ∧
    (after (.wfixed true .g) (withArgs abState 0 3)).res.r0 = 38 := by decide +kernel -- W8
theorem test_wdynamic :
    outBytes (after .wflush (after (.wdynamic true .g) (withArgs abState 0 3))) =
      [0x45, 0xC1, 0x31, 0x01, 0x00, 0x00, 0x00, 0x40, 0xB0, 0x6C, 0xF4, 0x0F, 0xE5, 0xB4, 0xE1, 0x03] := by
  decide +kernel -- W10
theorem test_wauto : (after (.wauto true .g) (withArgs abState 0 3 0 12)).res = ⟨38, 1, 0, 0⟩ := by
  decide +kernel -- W11
theorem test_wauto_tiling_error : (after (.wauto false .g) (withArgs abState 0 3 1 12)).statusWord = 0x00000406 := by
  decide +kernel -- W18
theorem test_blkcost : (after (.blkcost .g) (withArgs abState 0 3 0 12)).res = ⟨136, 38, 123, 1⟩ := by
  decide +kernel -- W12
theorem test_compress :
    outBytes (after .compress (withIn [0x41])) = [0x73, 0x04, 0x00] ∧
    (after .compress (withIn [0x41])).res = ⟨3, 1, 1, 18⟩ := by decide +kernel -- C3
theorem test_compress_stored_empty :
    outBytes (after .compress (withHint 0 (withIn []))) = [0x01, 0x00, 0x00, 0xFF, 0xFF] ∧
    (after .compress (withHint 0 (withIn []))).res = ⟨5, 0, 1, 40⟩ := by decide +kernel -- C2

theorem test_illegal_command :
    (match runCommand chip 0x000000FF (State.reset.accept 0x000000FF 0) with
      | .next t => (t.statusWord, t.errInfo)
      | .fault _ => (0, 0)
      | .refused _ => (0, 0)) = (0x00000106, 0x000000FF) := by decide +kernel -- X1
theorem test_bus_errors :
    busProblem hw 0x00000010 2 = some .badWidth ∧ busProblem hw 0x00000012 4 = some .misaligned ∧
    busProblem hw 0x10FFFFFF 1 = none ∧ busProblem hw 0x10FFFFFE 4 = some .misaligned ∧
    busProblem hw 0x11000000 1 = some .unmapped ∧ busProblem hw 0x00010480 4 = some .unmapped := by
  decide +kernel -- R220
theorem test_bus_error_while_busy :
    (match steps 2 { busyState with host := { busyState.host with pending := [.read 0x00000002 4] } } with
      | .next t => (t.host.faults, t.statusWord)
      | .fault _ => ([], 0)
      | .refused _ => ([], 0)) = ([.busError .misaligned 0x00000002 4], 0x00000002) := by decide +kernel -- R1021
theorem test_phases_in_sequence :
    commandPhases hw 0x00000023 { abPlanned with opt := { abPlanned.opt with numIter := 1 } } =
      [.decode, .sqBoot, .sqPath, .sqTrace, .sqEval, .sqUpdate] := by decide +kernel -- R652, R653
theorem test_little_endian :
    (abState.readValue chip 0 0x40000010 4, (hostWriteState hw 0x10000002 2 0xBEEF State.reset).readByte 0x10000003)
      = (0x000A0002, 0xBE) := by decide +kernel -- E, R222

/-! ## Witnesses: for each statement with hypotheses, a state (and operands) that meets them -/

theorem witness_DecodingSelectsOneRow :
    (opRows.filter (fun r => (0x00000344 : Word) &&& r.mask == r.pattern)).length = 1 := by decide

theorem witness_IllegalWordsAreNamed :
    (∃ e, decode 0x00000400 = .error e) ∧ (∃ e, decode 0x00000048 = .error e) ∧
    (∃ e, decode 0x00000147 = .error e) ∧ (∃ e, decode 0x00000231 = .error e) :=
  ⟨⟨.reservedBits, by decide⟩, ⟨.unknownOpcode, by decide⟩, ⟨.finalNotTaken, by decide⟩,
    ⟨.storeNotTaken, by decide⟩⟩

/-- One clause after another: no access left to land, one access left, idle with an access, idle without. -/
theorem witness_StepRunsTheAcceptedCommand :
    (decode 0x00000000 = .ok .nop ∧ (State.reset.accept 0 0).issue.word = some 0x00000000 ∧
      ((State.reset.accept 0 0).host.pending = [] ∨ (State.reset.accept 0 0).issue.busyLeft = 0)) ∧
    (busyState.issue.word = some 0x00000000 ∧ busyState.host.pending = .read 0x010 4 :: [.waitDone] ∧
      0 < busyState.issue.busyLeft) ∧
    ((State.reset.withProgram (cmd .nop)).issue.word = none ∧
      (State.reset.withProgram (cmd .nop)).host.pending = .write 0x00C 4 0 :: []) ∧
    (State.reset.issue.word = none ∧ State.reset.host.pending = []) := by
  refine ⟨⟨by decide, rfl, .inl rfl⟩, ⟨rfl, rfl, by decide⟩, ⟨rfl, rfl⟩, rfl, rfl⟩

theorem witness_IllegalCommandEndsAtDecode : decode 0x000000FF = .error .unknownOpcode := by decide

theorem witness_StepNeverStops :
    (match step (State.reset.withProgram [.read 0x00000002 4]) with
      | .next t => t.host.faults
      | .fault _ => []
      | .refused _ => []) = [.busError .misaligned 0x00000002 4] := by decide +kernel

theorem inv_busy : Inv (State.reset.accept 0x00000000 0) := by constructor <;> decide

theorem witness_EveryAcceptedCommandEnds :
    Inv (State.reset.accept 0x00000000 0) ∧ (State.reset.accept 0x00000000 0).issue.word = some 0x00000000 :=
  ⟨inv_busy, rfl⟩

theorem witness_CmdWriteIsAcceptedOrDropped :
    (State.reset.status.busy = false ∧ State.reset.status.err = false) ∧
    (State.reset.accept 0 0).status.busy = true ∧
    (State.reset.raiseError (badArg 0x040)).status.err = true := by decide

/-- The first and the last word of a word region, the last bytes of IN. -/
theorem legal_freq : LegalAccess 0x00010000 4 ∧ LegalAccess 0x0001047C 4 :=
  ⟨.inl ⟨.freq, by decide⟩, .inl ⟨.freq, by decide⟩⟩
theorem legal_status : LegalAccess 0x010 4 := .inl ⟨.csr, by decide⟩
theorem legal_input : LegalAccess 0x10FFFFFF 1 ∧ LegalAccess 0x10FFFFFE 2 ∧ LegalAccess 0x10FFFFFC 4 :=
  ⟨.inr ⟨.input, by decide⟩, .inr ⟨.input, by decide⟩, .inr ⟨.input, by decide⟩⟩

theorem witness_BusyWritesAreDropped :
    (State.reset.accept 0 0).status.busy = true ∧ (LegalAccess 0x10FFFFFF 1 ∧ 0x10FFFFFF ≠ Csr.status.offset) ∧
      (LegalAccess 0x010 4 ∧ 0x010 = Csr.status.offset) :=
  ⟨rfl, ⟨legal_input.1, by decide⟩, legal_status, rfl⟩

theorem witness_StatusWritesAcknowledge :
    ((State.reset.raiseError (badArg 0x040)).status.busy = false ∧
      (State.reset.raiseError (badArg 0x040)).status.errCode ≠ .internal) ∧
    ((State.reset.raiseError ⟨.internal, 0⟩).status.busy = false ∧
      (State.reset.raiseError ⟨.internal, 0⟩).status.errCode = .internal) := by decide

theorem not_legal_half_word_csr : ¬ LegalAccess (0x010 : Word).toNat 2 := by
  rintro (⟨r, -, -, -, -, h, -⟩ | ⟨r, h | h, -, -, hc, -⟩)
  · cases h
  · subst h
    cases hc
  · subst h
    cases hc

theorem witness_BusErrorsFaultTheHost :
    LegalAccess (0x10FFFFFC : Word).toNat 4 ∧ ¬ LegalAccess (0x010 : Word).toNat 2 :=
  ⟨legal_input.2.2, not_legal_half_word_csr⟩

theorem witness_StatusWordAndInterruptLevel :
    State.reset.status.busy = false ∧ State.reset.status.errCode ≠ .internal := by decide

theorem witness_HostReadsHaveNoSideEffects :
    State.reset.status.busy = false ∧ busyState.status.busy = true ∧ busyState.issue.word = some 0x00000000 ∧
      busyState.issue.phaseAt < (commandPhases hw 0x00000000 busyState).length := by decide

/-- A last word of each kind of writable region, and the last bytes of IN. -/
theorem witness_HostWritesStoreTheirValue :
    State.reset.status.busy = false ∧
    (LegalAccess 0x0001047C 4 ∧ Region.freq.covers hw 0x0001047C = true) ∧
    (LegalAccess 0x00014474 4 ∧ Region.llcost.covers hw 0x00014474 = true) ∧
    (LegalAccess 0x10FFFFFC 4 ∧ Region.input.covers hw 0x10FFFFFC = true) ∧
    (LegalAccess 0x57FFFFFC 4 ∧ Region.storeS.covers hw 0x57FFFFFC = true) :=
  ⟨rfl, ⟨legal_freq.2, by decide⟩, ⟨.inl ⟨.llcost, by decide⟩, by decide⟩, ⟨legal_input.2.2, by decide⟩,
    .inl ⟨.storeS, by decide⟩, by decide⟩

theorem witness_RegisterWritesFollowTheMap :
    State.reset.status.busy = false ∧ busyState.status.busy = true ∧
    (Region.csr.covers hw 0x090 = true ∧ csrAt 0x090 = none) ∧
    (Region.csr.covers hw 0xFFC = true ∧ csrAt 0xFFC = none) ∧ Region.output.covers hw 0x2100FFFF = true ∧
    Region.sublen.covers hw 0x00016408 = true := by decide

theorem witness_CacheInvalidation :
    (State.reset.status.busy = false ∧ Region.input.covers hw 0x10FFFFFF = true) ∧
    (State.reset.status.busy = false ∧ Region.input.covers hw 0x010 = false ∧ 0x010 ≠ Csr.inLen.offset ∧
      0x010 ≠ Csr.maxChain.offset) ∧
    (State.reset.accept 0 0).status.busy = true ∧
    (exec .cacheclr State.reset = .next (after .cacheclr State.reset)) ∧
    (exec .nop abState = .next (after .nop abState)) := ⟨by decide, by decide, rfl, rfl, rfl⟩

/-- A running NOP whose output has begun to show. -/
def progressing : State := { busyState with issue := { busyState.issue with progress := 1 } }

theorem witness_OutputBelowOutLenIsFinal :
    (State.reset.packer.outLen.toNat ≤ hw.outCap ∧ exec .nop State.reset = .next (after .nop State.reset)) ∧
    (progressing.issue.word = some 0x00000000 ∧ progressing.status.busy = true ∧ progressing.issue.progress ≠ 0 ∧
      runCommand chip 0x00000000 progressing = .next progressing.complete) :=
  ⟨⟨by decide, rfl⟩, rfl, rfl, by decide, rfl⟩

theorem witness_InvariantKept :
    Inv (State.reset.accept 0x00000000 0) ∧
      step (State.reset.accept 0x00000000 0) = .next (State.reset.accept 0x00000000 0).complete :=
  ⟨inv_busy, rfl⟩

theorem witness_CacheCoherenceKept :
    Inv (State.reset.accept 0x00000000 0) ∧ CacheCoherent (State.reset.accept 0x00000000 0) ∧
      step (State.reset.accept 0x00000000 0) = .next (State.reset.accept 0x00000000 0).complete := by
  refine ⟨inv_busy, fun e he => ?_, rfl⟩
  cases he

theorem witness_CommandsKeepWhatTheHostOwns : exec .costfixed State.reset = .next (after .costfixed State.reset) :=
  rfl

theorem witness_PreciseErrorsChangeNothing :
    (State.reset.accept 0xFF 0).status.errCode = .none ∧
      runCommand chip 0xFF (State.reset.accept 0xFF 0) =
        .next ((State.reset.accept 0xFF 0).raiseError ⟨.illegalCmd, 0xFF⟩) ∧
      ((State.reset.accept 0xFF 0).raiseError ⟨.illegalCmd, 0xFF⟩).status.errCode ∈
        [ErrCode.illegalCmd, .badArg, .badSymbol, .huffError] := ⟨rfl, rfl, by decide⟩

theorem witness_ErrorsEachCommandCanRaise :
    State.reset.status.errCode = .none ∧
      exec .wbits (withArgs State.reset 0 33) = .next ((withArgs State.reset 0 33).raiseError (badArg 0x044)) :=
  ⟨rfl, rfl⟩

/-- WBITS of eight bits with OUT_LIMIT = 0 (vector W21). -/
def noRoom : State := { withArgs State.reset 0xFF 8 with opt := { Options.reset hw with outLimit := 0 } }

/-- A BAD_ARG, a WRITE_ERROR (vector W21) and a READ_ERROR (vector X10) meet the hypotheses; eight bits do not fit. -/
theorem witness_ErrorEntryRecordsAndStops :
    (State.reset.status.err = false ∧ State.reset.status.errCode = .none) ∧
    (after .wbits (withArgs State.reset 0 33)).status.errCode = .badArg ∧
    ((after .wbits noRoom).status.err = true ∧ (after .wbits noRoom).status.errCode = .writeError) ∧
    (after .compress { withIn [0x41] with opt := { (withIn [0x41]).opt with inErr := 0x701 } }).status.errCode
      = .readError ∧
    noRoom.HasRoom (bitsOf 0x7F 7).length ∧ ¬ noRoom.HasRoom (bitsOf 0xFF 8).length := by decide +kernel

/-- The first failing check of a command has k checks before it. -/
abbrev FailsFirstAt (s : State) (i : Instr) (k info : Nat) : Prop :=
  (argChecks s i)[k]? = some (true, info) ∧ ∀ c ∈ (argChecks s i).take k, c.1 = false

/-- Such a command meets the hypotheses of the first clause. -/
theorem FailsFirstAt.split {s : State} {i : Instr} {k info : Nat} (h : FailsFirstAt s i k info) :
    argChecks s i = (argChecks s i).take k ++ (true, info) :: (argChecks s i).drop (k + 1) ∧
      ∀ c ∈ (argChecks s i).take k, c.1 = false := by
  obtain ⟨hk, he⟩ := List.getElem?_eq_some_iff.1 h.1
  refine ⟨?_, h.2⟩
  rw [← he, List.getElem_cons_drop, List.take_append_drop]

/-- abPlanned with other lengths of the stores and of the plan. -/
def planLens (g s p : Nat) : State :=
  { abPlanned with lens := { abPlanned.lens with gLen := word g, sLen := word s, planLen := word p } }

/-- abPlanned with another range in its plan. -/
def planRange (a b i j : Nat) : State := abPlanned.storeWords (planAddr 0 0) [word a, word b, word i, word j]

/-- IN_LEN one above IN_CAP. -/
def tooLong (s : State) : State := { s with opt := { s.opt with inLen := 0x01000001 } }

/-- Every row of the table of R650, at the first value that fails it. -/
theorem witness_OperandErrorsComeInOrder_squeeze :
    FailsFirstAt (withHint 3 abPlanned) .squeeze 0 0x008 ∧ FailsFirstAt (tooLong abPlanned) .squeeze 1 0x018 ∧
    FailsFirstAt (planLens 3 0 65537) .squeeze 2 0x078 ∧ FailsFirstAt (withArgs abPlanned 1 0) .squeeze 3 0x040 ∧
    FailsFirstAt (planLens 0x01000001 0 1) .squeeze 4 0x068 ∧
    FailsFirstAt (planRange 13 13 0 3) .squeeze 5 0x01000000 ∧
    FailsFirstAt (planRange 1 0 0 3) .squeeze 6 0x01000004 ∧ FailsFirstAt (planRange 0 13 0 3) .squeeze 6 0x01000004 ∧
    FailsFirstAt (planRange 0 12 4 4) .squeeze 7 0x01000008 ∧
    FailsFirstAt (planRange 0 12 0 4) .squeeze 8 0x0100000C ∧
    FailsFirstAt (planLens 3 0x00FFFFF5 1) .squeeze 9 0x074 := by decide +kernel

/-- Those of WAUTO, BLKCOST and SPLIT. -/
theorem witness_OperandErrorsComeInOrder_wauto_split :
    FailsFirstAt (planLens 0x01000001 0 1) (.wauto true .g) 0 0x068 ∧
    FailsFirstAt (withArgs abState 4 4) (.wauto true .g) 1 0x040 ∧
    FailsFirstAt (withArgs abState 0 4) (.wauto true .g) 2 0x044 ∧
    FailsFirstAt (tooLong (withArgs abState 0 3)) (.wauto true .g) 3 0x018 ∧
    FailsFirstAt (withArgs abState 0 3 13 13) (.wauto true .g) 4 0x048 ∧
    FailsFirstAt (withArgs abState 0 3 0 13) (.blkcost .g) 5 0x04C ∧
    FailsFirstAt (planLens 0x01000001 0 1) .split 1 0x068 := by decide +kernel

theorem witness_OperandErrorsComeInOrder :
    FailsFirstAt (withHint 3 State.reset) .compress 0 0x008 ∧
    FailsFirstAt (withArgs (withIn [0x41]) 1 0) .findmatch 1 0x040 ∧
    FailsFirstAt (withArgs (withIn [0x41]) 1 0) .greedy 2 0x044 ∧
    FailsFirstAt (withArgs (planLens 3 0x00FFFFF5 1) 0 12) .sppass 3 0x074 ∧
    FailsFirstAt (withArgs State.reset 289 1) .hufflen 0 0x040 ∧
    FailsFirstAt (withArgs State.reset 288 16) .hufflen 1 0x044 ∧
    FailsFirstAt (withArgs (State.reset.storeTable .len [15, 16]) 2 0) .canon 2 0x00012004 ∧
    FailsFirstAt (withArgs State.reset 0 33) .wbits 0 0x044 := by decide +kernel

/-- The second of the three entries is malformed. -/
theorem witness_OperandErrorsComeInOrder_symbols :
    let s := abPlanned.storeWords 0x40000008 [0x00020001]
    (ArgsPass .squeeze s ∧ symbolCheck s .squeeze = some (.g, 0, 3)) ∧
    (ArgsPass .split s ∧ symbolCheck s .split = some (.g, 0, 3)) ∧
    (ArgsPass (.wauto true .g) (withArgs s 0 3 0 12) ∧
      symbolCheck (withArgs s 0 3 0 12) (.wauto true .g) = some (.g, 0, 3)) ∧
    s.entryAt hw .g 0 ≠ none ∧ s.entryAt hw .g 1 = none := by
  unfold ArgsPass
  decide +kernel

theorem cacheCoherent_of_empty {s : State} (h : s.cache = []) : CacheCoherent s := by
  intro e he
  rw [h] at he
  cases he

theorem abState_holds : HoldsEntries abState .g 0 abStore := by
  unfold HoldsEntries
  decide +kernel

theorem abStore_tiles : Tiles abStore 0 12 := ⟨rfl, rfl, rfl, rfl⟩

theorem abState_range : SymbolRange (withArgs abState 0 3 0 12) .g abStore :=
  ⟨by decide, by decide, by decide, by decide, abState_holds⟩

theorem abState_byteRange (x y : ArgReg) (h : (withArgs abState 0 3 0 12).argOf x ≤ (withArgs abState 0 3 0 12).argOf y)
    (h' : (withArgs abState 0 3 0 12).argOf y ≤ 12) : ByteRange (withArgs abState 0 3 0 12) x y :=
  ⟨by decide, h, h'⟩

theorem abState_tiled : TiledSymbolRange (withArgs abState 0 3 0 12) .g abStore :=
  ⟨abState_range, abState_byteRange _ _ (by decide) (by decide), abStore_tiles⟩

/-- The tiling check fails at the end and at its first entry (vectors W17, W18), and in a plan entry. -/
theorem witness_OperandErrorsComeInOrder_tiling :
    (ArgsPass (.wauto true .g) (withArgs abState 0 3 0 11) ∧ ArgsPass (.wauto true .g) (withArgs abState 0 3 1 12) ∧
      ArgsPass .squeeze (planRange 0 11 0 3)) ∧
    (symbolCheck (withArgs abState 0 3 0 11) (.wauto true .g) = some (.g, 0, 3) ∧
      tilingCheck (withArgs abState 0 3 0 11) (.wauto true .g) = some (0, 11) ∧
      tilingCheck (withArgs abState 0 3 1 12) (.wauto true .g) = some (1, 12) ∧
      tilingCheck (planRange 0 11 0 3) .squeeze = some (0, 11)) ∧
    HoldsEntries (withArgs abState 0 3 0 11) .g 0 abStore ∧ Tiles abStore 0 12 ∧
    Tiles (abStore.take 0) 1 1 ∧ abStore[0]? = some ⟨.lit 0x41, 0⟩ := by
  refine ⟨?_, ?_, abState_holds, abStore_tiles, rfl, rfl⟩
  · unfold ArgsPass
    decide +kernel
  · decide +kernel

/-- The state with another OUT_LIMIT. -/
def withLimit (n : Nat) (s : State) : State := { s with opt := { s.opt with outLimit := word n } }

/-- Six bytes of OUT are exactly enough, five are one too few. -/
theorem witness_CompressStoredWritesTheWindow :
    (withHint 0 (withIn [0x41])).opt.btype = 0 ∧ (withHint 0 (withIn [0x41])).inputLen ≤ hw.inCap ∧
    (withHint 0 (withIn [0x41])).opt.readFailed = false ∧ storedBits hw 0 1 / 8 = 6 ∧
    (withLimit 5 (withHint 0 (withIn [0x41]))).opt.outLimit.toNat < 6 ∧
    (after .compress (withLimit 5 (withHint 0 (withIn [0x41])))).errInfo = 5 := by
  decide +kernel

/-- Both hints, with exactly enough room and with one byte too few. -/
theorem witness_CompressParsesTheWholeWindow :
    ((withIn [0x41]).opt.btype = 2 ∧ (withHint 1 (withIn [0x41])).opt.btype = 1) ∧
    (withIn [0x41]).inputLen ≤ hw.inCap ∧ (withIn [0x41]).opt.readFailed = false ∧
    outBytes (after .compress (withLimit 3 (withHint 1 (withIn [0x41])))) = [0x73, 0x04, 0x00] ∧
    outBytes (after .compress (withLimit 2 (withHint 1 (withIn [0x41])))) = [0x73, 0x04] ∧
    (after .compress (withLimit 2 (withIn [0x41]))).status.errCode = .writeError := by decide +kernel

theorem exec_compress_after (s : State) : exec .compress s = .next (after .compress s) := by
  have h : exec .compress s = (compressCmd hw s).finish := rfl
  unfold after
  rw [h]
  rcases Run.finish_cases (compressCmd hw s) with ⟨t, -, h⟩ | ⟨e, t, -, h⟩ <;> rw [h]

/-- IN = "A" with a reported input failure of kind 7 (vector X10). -/
def failedInput : State := { withIn [0x41] with opt := { (withIn [0x41]).opt with inErr := 0x701 } }

theorem witness_CompressReportsAReadFailure :
    failedInput.opt.readFailed = true ∧ failedInput.status.err = false ∧
    exec .compress { failedInput with opt := { failedInput.opt with inErr := 0 } } =
      .next (after .compress { failedInput with opt := { failedInput.opt with inErr := 0 } }) ∧
    (after .compress { failedInput with opt := { failedInput.opt with inErr := 0 } }).status.err = false :=
  ⟨by decide, by decide, exec_compress_after _, by decide +kernel⟩

theorem witness_MoreIterationsNeverGrowTheOutput :
    (withIn [0x41]).opt.btype ≠ 3 ∧ (withIn [0x41]).inputLen ≤ hw.inCap ∧
    4 * ((withIn [0x41]).inputLen + 2) ≤ (withIn [0x41]).opt.outLimit.toNat ∧
    (withIn [0x41]).opt.numIter.toNat ≤ (16 : Word).toNat ∧
    exec .compress (withIn [0x41]) = .next (after .compress (withIn [0x41])) ∧
    exec .compress { withIn [0x41] with opt := { (withIn [0x41]).opt with numIter := 16 } } =
      .next (after .compress { withIn [0x41] with opt := { (withIn [0x41]).opt with numIter := 16 } }) :=
  ⟨by decide, by decide, by decide, by decide, exec_compress_after _, exec_compress_after _⟩

theorem witness_SplitCapBoundsTheBlocks :
    ((withIn [0x41]).status.err = false ∧ (withIn [0x41]).status.errCode = .none ∧
      (withIn [0x41]).inputLen ≤ hw.inCap ∧
      exec .compress (withIn [0x41]) = .next (after .compress (withIn [0x41]))) ∧
    (after .compress (withIn [0x41])).status.errCode = .none ∧ (withIn [0x41]).opt.btype = 2 ∧
    (withIn [0x41]).opt.splitMax ≠ 0 ∧
    (after .compress (withHint 0 (withIn [0x41]))).status.errCode = .none ∧
    (withHint 0 (withIn [0x41])).opt.btype = 0 :=
  ⟨⟨by decide, by decide, by decide, exec_compress_after _⟩, by decide +kernel, by decide, by decide,
    by decide +kernel, by decide⟩

theorem witness_CompressDependsOnItsInputsOnly :
    (withIn [0x41]).opt = (withArgs (withIn [0x41]) 7 7).opt ∧
    (withIn [0x41]).status = (withArgs (withIn [0x41]) 7 7).status ∧
    (withIn [0x41]).errInfo = (withArgs (withIn [0x41]) 7 7).errInfo ∧
    (withIn [0x41]).draws = (withArgs (withIn [0x41]) 7 7).draws ∧
    (∀ x, Region.input.covers hw x = true → (withIn [0x41]).readByte x = (withArgs (withIn [0x41]) 7 7).readByte x) ∧
    exec .compress (withIn [0x41]) = .next (after .compress (withIn [0x41])) ∧
    exec .compress (withArgs (withIn [0x41]) 7 7) = .next (after .compress (withArgs (withIn [0x41]) 7 7)) :=
  ⟨rfl, rfl, rfl, rfl, fun _ _ => rfl, exec_compress_after _, exec_compress_after _⟩

theorem witness_FindmatchReportsTheRecord :
    (withArgs (withIn abText) 11 258).inputLen ≤ hw.inCap ∧
    (withArgs (withIn abText) 11 258).argOf .x0 < (withArgs (withIn abText) 11 258).inputLen ∧
    CacheCoherent (withArgs (withIn abText) 11 258) := ⟨by decide, by decide, cacheCoherent_of_empty rfl⟩

theorem witness_GreedyWritesAParse :
    ByteRange (withArgs (withIn abText) 0 12) .x0 .x1 ∧ CacheCoherent (withArgs (withIn abText) 0 12) :=
  ⟨⟨by decide, by decide, by decide⟩, cacheCoherent_of_empty rfl⟩

theorem witness_SplitPlansTheStore :
    abState.opt.btype ≠ 3 ∧ abState.storeLen .g ≤ hw.storeCap ∧ abStore.length = abState.storeLen .g ∧
    HoldsEntries abState .g 0 abStore ∧ Tiles abStore abState.lens.gA.toNat abState.lens.gB.toNat :=
  ⟨by decide, by decide, by decide, abState_holds, abStore_tiles⟩

/-- A position without a key, and the last one with a key. -/
theorem witness_CandidatesAreTheTwoChains :
    abText.length < 10 + 3 ∧ 9 + 3 ≤ abText.length ∧ 11 < abText.length ∧
    (2, abText.drop 7) ∈ chain1 hw abText 9 := by decide

theorem witness_MatchRecordIsTheBestOfTheCandidates :
    (2, abText.drop 0) ∈ candidates hw abText 1 2 ∧ candidates hw abText 1 0 = [] ∧
    (matchRec hw abText 1 2).best = 10 := by decide +kernel

/-- The lazy parse of "ABABABABABAB" is its greedy store. -/
theorem abStore_isParse : IsParse abText abStore 0 12 := by
  refine ⟨abStore_tiles, fun e he => ?_⟩
  simp only [abStore, List.mem_cons, List.not_mem_nil, or_false] at he
  rcases he with rfl | rfl | rfl
  · exact ⟨trivial, rfl⟩
  · exact ⟨trivial, rfl⟩
  · refine ⟨⟨by decide, by decide, by decide, by decide⟩, by decide, by decide, ?_⟩
    show ∀ k, k < 10 → abText[2 + k]? = abText[2 + k - 2]?
    decide

theorem witness_ParsesReconstructTheWindow : 12 ≤ abText.length ∧ IsParse abText abStore 0 12 :=
  ⟨by decide, abStore_isParse⟩

theorem witness_CostCommandsLoadTheTables : SymbolRange (withArgs abState 0 3 0 12) .g abStore := abState_range

theorem witness_SppassAppendsThePath :
    ByteRange (withArgs (after .costfixed (withIn abText)) 0 12) .x0 .x1 ∧
    CacheCoherent (withArgs (after .costfixed (withIn abText)) 0 12) ∧
    (withArgs (after .costfixed (withIn abText)) 0 12).storeLen .s +
      ((withArgs (after .costfixed (withIn abText)) 0 12).argOf .x1 -
        (withArgs (after .costfixed (withIn abText)) 0 12).argOf .x0) ≤ hw.storeCap :=
  ⟨⟨by decide, by decide, by decide⟩, cacheCoherent_of_empty rfl, by decide⟩

theorem witness_ShortestPathIsOptimal :
    (0 ≤ 12 ∧ 12 ≤ (SearchCtx.mk abText 8192).window.length) ∧
    IsEdgePath ⟨[0x41], 8192⟩ [⟨.lit 0x41, 0⟩] 0 1 := by
  refine ⟨by decide, ⟨rfl, rfl⟩, fun e he => ?_⟩
  simp only [List.mem_singleton] at he
  subst he
  rfl

theorem witness_SqueezeKeepsTheBestParse : SqueezeOperands abPlanned abStore ∧ CacheCoherent abPlanned := by
  refine ⟨⟨by decide, by decide, by decide, by decide, by decide, by decide +kernel, by decide +kernel,
    by decide +kernel, by decide +kernel, by decide +kernel, by decide +kernel, ?_, ?_⟩, cacheCoherent_of_empty rfl⟩
  · have h : abPlanned.planWord (abPlanned.argOf .x0) 2 = 0 := by decide +kernel
    rw [h]
    unfold HoldsEntries
    decide +kernel
  · have h₀ : abPlanned.planWord (abPlanned.argOf .x0) 0 = 0 := by decide +kernel
    have h₁ : abPlanned.planWord (abPlanned.argOf .x0) 1 = 12 := by decide +kernel
    rw [h₀, h₁]
    exact abStore_tiles

theorem witness_CountWritesTheFrequencies :
    SymbolRange (withArgs abState 0 3 0 12) .g abStore ∧
    (lengthRow 3 = ⟨257, 0, 3⟩ ∧ lengthRow 257 = ⟨284, 5, 227⟩) ∧
    (distanceRow 1 = ⟨0, 0, 1⟩ ∧ distanceRow 32768 = ⟨29, 13, 24577⟩) := ⟨abState_range, by decide, by decide⟩

/-- m = 2^L, and one more. -/
theorem witness_HufflenWritesTheLengths :
    (let s := withArgs (State.reset.storeTable .freq [1, 1]) 2 1
     1 ≤ s.argOf .x0 ∧ s.argOf .x0 ≤ 288 ∧ 1 ≤ s.argOf .x1 ∧ s.argOf .x1 ≤ 15 ∧
       ((s.readTable .freq (s.argOf .x0)).filter (fun v => decide (0 < v))).length = 2 ^ s.argOf .x1) ∧
    (let s := withArgs (State.reset.storeTable .freq [1, 1, 1]) 3 1
     1 ≤ s.argOf .x0 ∧ s.argOf .x0 ≤ 288 ∧ 1 ≤ s.argOf .x1 ∧ s.argOf .x1 ≤ 15 ∧
       2 ^ s.argOf .x1 < ((s.readTable .freq (s.argOf .x0)).filter (fun v => decide (0 < v))).length) := by
  decide +kernel

/-- A complete code, one length too many, a length of 16. -/
theorem witness_CanonWritesTheCodes :
    (let s := withArgs (State.reset.storeTable .len [1, 1]) 2 0
     1 ≤ s.argOf .x0 ∧ s.argOf .x0 ≤ 288 ∧ (∀ l ∈ s.readTable .len (s.argOf .x0), l ≤ 15) ∧
       kraftSum hw (s.readTable .len (s.argOf .x0)) = 2 ^ 15) ∧
    (let s := withArgs (State.reset.storeTable .len [1, 1, 15]) 3 0
     (∀ l ∈ s.readTable .len (s.argOf .x0), l ≤ 15) ∧
       2 ^ 15 < kraftSum hw (s.readTable .len (s.argOf .x0))) ∧
    (let s := withArgs (State.reset.storeTable .len [15, 16]) 2 0
     (s.readTable .len (s.argOf .x0)).getD 0 0 ≤ 15 ∧ 15 < (s.readTable .len (s.argOf .x0)).getD 1 0) := by
  decide +kernel

theorem witness_CodeLengthsRespectTheLimit : 1 ≤ 1 ∧ 0 < [1, 0, 2].length := by decide

theorem witness_PackageMergeCodesAreCompleteAndOptimal :
    2 ≤ ([3, 0, 3].filter (fun v => decide (0 < v))).length ∧
    ([3, 0, 3].filter (fun v => decide (0 < v))).length ≤ 2 ^ 1 ∧
    ([1, 0, 1].length = [3, 0, 3].length ∧ (∀ l ∈ [1, 0, 1], l ≤ 1) ∧
      (∀ k, k < 3 → 0 < [3, 0, 3].getD k 0 → 0 < [1, 0, 1].getD k 0) ∧ kraftSum hw [1, 0, 1] ≤ 2 ^ 15) := by decide

theorem witness_CanonicalCodesArePrefixFree :
    (∀ l ∈ [1, 2, 15, 15], l ≤ 15) ∧ kraftSum hw [1, 2, 15, 15] ≤ 2 ^ 15 := by decide

theorem witness_RunLengthCodingIsExact : ∀ x ∈ [0, 15, 15, 15, 15], x ≤ 15 := by decide

/-- The bits fill OUT exactly to OUT_LIMIT, or pass it by one byte. -/
theorem witness_WbitsAndWflushAppendBits :
    (let s := withLimit 1 (withArgs State.reset 0xFF 8)
     s.argOf .x1 ≤ 32 ∧ (s.streamPos + s.argOf .x1) / 8 = s.opt.outLimit.toNat ∧
       ¬ (withLimit 0 s).HasRoom (s.argOf .x1)) ∧
    (let s := withLimit 1 { State.reset with packer := ⟨0, 7, 0x55, 0, 0⟩ }
     (s.streamPos + s.flushCount) / 8 = s.opt.outLimit.toNat ∧
       ¬ (withLimit 0 s).HasRoom s.flushCount) := by decide +kernel

theorem witness_WstoredAppendsStoredBlocks :
    ByteRange (withArgs (withIn [0x41]) 0 1) .x0 .x1 ∧ ByteRange (withLimit 5 (withArgs (withIn [0x41]) 0 1)) .x0 .x1 ∧
    (withArgs (withIn [0x41]) 0 1).HasRoom (storedBits hw 0 1) ∧
    ¬ (withLimit 5 (withArgs (withIn [0x41]) 0 1)).HasRoom (storedBits hw 0 1) :=
  ⟨⟨by decide, by decide, by decide⟩, ⟨by decide, by decide, by decide⟩, by decide +kernel, by decide +kernel⟩

/-- abState's range with no room at all in OUT. -/
def fullState : State := withLimit 0 (withArgs abState 0 3 0 12)

theorem fullState_range : SymbolRange fullState .g abStore :=
  ⟨by decide, by decide, by decide, by decide, abState_holds⟩

theorem witness_WfixedAppendsAFixedBlock :
    (SymbolRange (withArgs abState 0 3 0 12) .g abStore ∧ SymbolRange fullState .g abStore) ∧
    (withArgs abState 0 3 0 12).HasRoom (fixedBits (abStore.map Entry.sym)) ∧
    ¬ fullState.HasRoom (fixedBits (abStore.map Entry.sym)) :=
  ⟨⟨abState_range, fullState_range⟩, by decide +kernel, by decide +kernel⟩

theorem witness_WdynamicAppendsADynamicBlock :
    (SymbolRange (withArgs abState 0 3 0 12) .g abStore ∧ SymbolRange fullState .g abStore) ∧
    (withArgs abState 0 3 0 12).HasRoom (dynBits hw (abStore.map Entry.sym)) ∧
    ¬ fullState.HasRoom (dynBits hw (abStore.map Entry.sym)) :=
  ⟨⟨abState_range, fullState_range⟩, by decide +kernel, by decide +kernel⟩

theorem witness_WautoAppendsTheCheapestBlock :
    (TiledSymbolRange (withArgs abState 0 3 0 12) .g abStore ∧ TiledSymbolRange fullState .g abStore) ∧
    (let size := min (storedBits hw 0 12) (min (fixedBits (abStore.map Entry.sym)) (dynBits hw (abStore.map Entry.sym)))
     (withArgs abState 0 3 0 12).HasRoom size ∧ ¬ fullState.HasRoom size) :=
  ⟨⟨abState_tiled, fullState_range, ⟨by decide, by decide, by decide⟩, abStore_tiles⟩, by decide +kernel⟩

theorem witness_BlkcostReportsTheLengths : TiledSymbolRange (withArgs abState 0 3 0 12) .g abStore := abState_tiled

end Sys2Proof.Machine.Tests
end

section
/-! PROOFS. The address map, and what a host access does by the place it names: each branch of the host's reads and
writes as one equation. -/

namespace Sys2Proof.Machine

open Config (hw)

/-! ## Which region and which CSR an address names -/

theorem Region.covers_iff {r : Region} {a : Nat} :
    r.covers hw a = true ↔ r.base ≤ a ∧ a < r.base + r.stride * r.entries hw := by
  simp [Region.covers]

theorem Region.mem_all (r : Region) : r ∈ Region.all := by cases r <;> decide

/-- Of two regions of the map one ends where or before the other begins (20_memory.md R210). -/
theorem Region.disjoint : ∀ r ∈ Region.all, ∀ q ∈ Region.all, r = q ∨
    r.base + r.stride * r.entries hw ≤ q.base ∨ q.base + q.stride * q.entries hw ≤ r.base := by
  decide

theorem Region.eq_of_covers {r q : Region} {a : Nat} (hr : r.covers hw a = true) (hq : q.covers hw a = true) :
    r = q := by
  rw [Region.covers_iff] at hr hq
  rcases Region.disjoint r r.mem_all q q.mem_all with h | h | h
  · exact h
  all_goals omega

theorem regionAt_eq_some_iff {r : Region} {a : Nat} : regionAt hw a = some r ↔ r.covers hw a = true := by
  have hfound : ∀ {q}, regionAt hw a = some q → q.covers hw a = true := by
    intro q h
    unfold regionAt at h
    exact List.find?_some (p := fun r : Region => r.covers hw a) h
  refine ⟨hfound, fun hr => ?_⟩
  cases hq : regionAt hw a with
  | some q => rw [Region.eq_of_covers (hfound hq) hr]
  | none =>
    unfold regionAt at hq
    exact absurd hr (List.find?_eq_none.1 hq r r.mem_all)

@[simp] theorem csrAt_offset (c : Csr) : csrAt c.offset = some c := by cases c <;> rfl

theorem csrAt_eq_some_iff {a : Nat} {c : Csr} : csrAt a = some c ↔ a = c.offset := by
  refine ⟨fun h => ?_, fun h => h ▸ csrAt_offset c⟩
  have hoff : (c.offset == a) = true := List.find?_some (p := fun c : Csr => c.offset == a) h
  exact (beq_iff_eq.1 hoff).symm

@[simp] theorem regionAt_csr_offset (c : Csr) : regionAt hw c.offset = some .csr :=
  regionAt_eq_some_iff.2 (by cases c <;> decide)

theorem LegalAccess.region {a n : Nat} (h : LegalAccess a n) : ∃ r : Region, r.covers hw a = true := by
  rcases h with ⟨r, -, -, -, hr, -, -⟩ | ⟨r, -, -, -, hr, -⟩ <;> exact ⟨r, hr⟩

theorem LegalAccess.width_of_input {a n : Nat} (h : LegalAccess a n) (ha : Region.input.covers hw a = true) :
    n = 1 ∨ n = 2 ∨ n = 4 := by
  rcases h with ⟨r, -, hin, -, hr, -, -⟩ | ⟨-, -, hn, -, -, -⟩
  · exact absurd (Region.eq_of_covers hr ha) hin
  · exact hn

/-! ## What a host write does, by the place it names -/

section HostWrites

variable (s : State) {a n : Nat} (v : Word)

@[simp] theorem hostWriteState_status : hostWriteState hw Csr.status.offset n v s = s.ackStatus v := by
  unfold hostWriteState
  simp

theorem hostWriteState_csr {c : Csr} (hc : c ≠ .status) :
    hostWriteState hw c.offset n v s = if s.status.busy then s.drop else s.writeCsr hw c v := by
  unfold hostWriteState
  simp [hc]

theorem hostWriteState_unlisted (ha : Region.csr.covers hw a = true) (hc : csrAt a = none) :
    hostWriteState hw a n v s = if s.status.busy then s.drop else s := by
  unfold hostWriteState
  simp [regionAt_eq_some_iff.2 ha, hc]

theorem hostWriteState_region {r : Region} (ha : r.covers hw a = true) (hr : r ≠ .csr) :
    hostWriteState hw a n v s = if s.status.busy then s.drop else s.writeRegion r a n v := by
  unfold hostWriteState
  rw [regionAt_eq_some_iff.2 ha]
  cases r
  case csr => exact absurd rfl hr
  all_goals rfl

/-- Everything a host write can do: nothing, the acknowledgement, the drop, or while CORE is idle a write to a CSR or
to a memory (10_state.md R117, 20_memory.md R223). -/
theorem hostWriteState_cases (a n : Nat) :
    hostWriteState hw a n v s = s ∨ hostWriteState hw a n v s = s.ackStatus v ∨ hostWriteState hw a n v s = s.drop ∨
    (s.status.busy = false ∧ ((∃ c, hostWriteState hw a n v s = s.writeCsr hw c v) ∨
      ∃ r, hostWriteState hw a n v s = s.writeRegion r a n v)) := by
  by_cases hnone : regionAt hw a = none
  · exact .inl (by unfold hostWriteState; simp [hnone])
  obtain ⟨r, hr⟩ := Option.ne_none_iff_exists'.1 hnone
  rw [regionAt_eq_some_iff] at hr
  by_cases hcsr : r = .csr
  · subst hcsr
    cases hc : csrAt a with
    | none => cases hb : s.status.busy <;> simp [hostWriteState_unlisted s v hr hc, hb]
    | some c =>
      obtain rfl := csrAt_eq_some_iff.1 hc
      by_cases hst : c = .status
      · simp [hst]
      · cases hb : s.status.busy
        · exact .inr (.inr (.inr ⟨rfl, .inl ⟨c, by simp [hostWriteState_csr s v hst, hb]⟩⟩))
        · simp [hostWriteState_csr s v hst, hb]
  · cases hb : s.status.busy
    · exact .inr (.inr (.inr ⟨rfl, .inr ⟨r, by simp [hostWriteState_region s v hr hcsr, hb]⟩⟩))
    · simp [hostWriteState_region s v hr hcsr, hb]

end HostWrites

/-! ## What a host read returns -/

section HostReads

variable (s : State)

theorem readValue_csr (d : Word) (n : Nat) {c : Csr} (h : s.status.busy = false ∨ c.unspecifiedWhileBusy = false) :
    s.readValue chip d c.offset n = s.csrValue chip c := by
  have hf : (s.status.busy && c.unspecifiedWhileBusy) = false := by rcases h with h | h <;> simp [h]
  unfold State.readValue
  simp [hf]

theorem hostReadValue_of_idle (h : s.status.busy = false) (a n : Nat) :
    hostReadValue chip a n s =
      (s.readValue chip s.draw.1 a n, s.draw.2.noteRead a (s.readValue chip s.draw.1 a n)) := by
  unfold hostReadValue
  simp [h]

theorem hostReadValue_of_busy (h : s.status.busy = true) (a n : Nat) :
    hostReadValue chip a n s =
      ((s.coreProgress hw).readValue chip (s.coreProgress hw).draw.1 a n,
        (s.coreProgress hw).draw.2.noteRead a ((s.coreProgress hw).readValue chip (s.coreProgress hw).draw.1 a n)) := by
  unfold hostReadValue
  simp [h]

end HostReads

end Sys2Proof.Machine
end

section
/-! PROOFS. STATUS: writes while BUSY, the acknowledgement, the word a host reads, the interrupt; and reset. -/

namespace Sys2Proof.Machine

open Config (hw)

/-! ## Host writes while BUSY, and the acknowledgement -/

/-- While BUSY every write that does not name STATUS is dropped (10_state.md R117, log 10). -/
theorem hostWriteState_of_busy {s : State} {a n : Nat} (v : Word) (hb : s.status.busy = true)
    (hl : LegalAccess a n) (ha : a ≠ Csr.status.offset) : hostWriteState hw a n v s = s.drop := by
  obtain ⟨r, hr⟩ := hl.region
  by_cases hcsr : r = .csr
  · subst hcsr
    cases hc : csrAt a with
    | none => simp [hostWriteState_unlisted s v hr hc, hb]
    | some c =>
      obtain rfl := csrAt_eq_some_iff.1 hc
      have hst : c ≠ .status := fun h => ha (h ▸ rfl)
      simp [hostWriteState_csr s v hst, hb]
  · simp [hostWriteState_region s v hr hcsr, hb]

theorem ackStatus_of_busy {s : State} (v : Word) (hb : s.status.busy = true) :
    s.ackStatus v = { s with status := { s.status with dropped := s.status.dropped && !v.getLsbD 3 } } := by
  simp [State.ackStatus, hb]

theorem ackStatus_of_internal {s : State} (v : Word) (hb : s.status.busy = false) (he : s.status.errCode = .internal) :
    s.ackStatus v = { s with status := { s.status with
      done := if v.getLsbD 1 then false else s.status.done
      dropped := if v.getLsbD 3 then false else s.status.dropped } } := by
  unfold State.ackStatus
  cases v.getLsbD 1 <;> cases v.getLsbD 3 <;> simp [hb, he]

theorem ackStatus_of_idle {s : State} (v : Word) (hb : s.status.busy = false) (he : s.status.errCode ≠ .internal) :
    s.ackStatus v = { s with
      status :=
        { busy := false, phase := s.status.phase
          done := if v.getLsbD 1 then false else s.status.done
          err := if v.getLsbD 2 then false else s.status.err
          dropped := if v.getLsbD 3 then false else s.status.dropped
          errCode := if v.getLsbD 2 then .none else s.status.errCode }
      errInfo := if v.getLsbD 2 then 0 else s.errInfo } := by
  unfold State.ackStatus
  cases v.getLsbD 1 <;> cases v.getLsbD 2 <;> cases v.getLsbD 3 <;> simp [hb, he]

/-- Settles O11: no region but the CSR region holds STATUS, so every other legal write takes the dropping branch. -/
theorem busyWritesAreDropped : Obligations.BusyWritesAreDropped := by
  intro s a n v hb hl
  refine ⟨fun ha => hostWriteState_of_busy v hb hl ha, ?_⟩
  rintro rfl
  rw [hostWriteState_status, ackStatus_of_busy v hb]

/-- Settles O12: a write to STATUS is the acknowledgement, which is one equation for each side of INTERNAL. -/
theorem statusWritesAcknowledge : Obligations.StatusWritesAcknowledge := by
  intro s v hb
  rw [hostWriteState_status]
  exact ⟨ackStatus_of_idle v hb, ackStatus_of_internal v hb⟩

/-! ## The STATUS word and the interrupt -/

theorem statusWord_congr {s t : State} (hst : t.status = s.status) (hopt : t.opt = s.opt) :
    t.statusWord = s.statusWord := by
  unfold State.statusWord State.irq
  rw [hst, hopt]

/-- The flag bits of STATUS (10_state.md R115). -/
theorem statusWord_flags (s : State) :
    s.statusWord.getLsbD 0 = s.status.busy ∧ s.statusWord.getLsbD 1 = s.status.done ∧
    s.statusWord.getLsbD 2 = s.status.err ∧ s.statusWord.getLsbD 3 = s.status.dropped ∧
    s.statusWord.getLsbD 4 = s.irq := by
  simp only [State.statusWord, BitVec.getLsbD_append]
  simp

/-- The wide fields of STATUS, and its reserved bits (10_state.md R115). -/
theorem statusWord_fields (s : State) :
    s.statusWord.extractLsb' 5 3 = 0 ∧ s.statusWord.extractLsb' 8 4 = s.status.errCode.code ∧
    s.statusWord.extractLsb' 12 4 = 0 ∧ s.statusWord.extractLsb' 16 8 = s.status.phase.code ∧
    s.statusWord.extractLsb' 24 8 = 0 := by
  refine ⟨?_, ?_, ?_, ?_, ?_⟩
  all_goals
    refine BitVec.eq_of_getLsbD_eq fun i hi => ?_
    simp only [State.statusWord, BitVec.getLsbD_extractLsb', BitVec.getLsbD_append]
    interval_cases i <;> simp

theorem complete_irq (s : State) : s.complete.irq = s.opt.irqEn := by simp [State.irq]

theorem raiseError_irq (s : State) (e : CmdError) : (s.raiseError e).irq = s.opt.irqEn := by simp [State.irq]

/-- The acknowledgement of everything lowers the interrupt (60_exceptions.md R1025, R1030). -/
theorem ackStatus_irq {s : State} {v : Word} (hb : s.status.busy = false) (he : s.status.errCode ≠ .internal)
    (hdone : v.getLsbD 1 = true) (herr : v.getLsbD 2 = true) : (s.ackStatus v).irq = false := by
  rw [ackStatus_of_idle v hb he]
  simp [State.irq, hdone, herr]

theorem hostReadValue_status (s : State) (n : Nat) :
    (hostReadValue chip Csr.status.offset n s).1 = (hostReadValue chip Csr.status.offset n s).2.statusWord := by
  cases hb : s.status.busy
  · rw [hostReadValue_of_idle s hb, readValue_csr s _ n (.inr rfl)]
    exact (statusWord_congr rfl rfl).symm
  · rw [hostReadValue_of_busy s hb, readValue_csr _ _ n (.inr rfl)]
    exact (statusWord_congr rfl rfl).symm

/-- Settles O14: the word is read off its definition bit by bit, and a host read answers the word of the state it
leaves. -/
theorem statusWordAndInterruptLevel : Obligations.StatusWordAndInterruptLevel := by
  refine ⟨by decide, by decide, fun s => ?_⟩
  obtain ⟨hbusy, hdone, herr, hdropped, hirq⟩ := statusWord_flags s
  obtain ⟨h5, hcode, h12, hphase, h24⟩ := statusWord_fields s
  refine ⟨rfl, hostReadValue_status s 4, fun hb => ?_, hbusy, hdone, herr, hdropped, hirq, h5, hcode, h12, hphase, h24,
    hirq.symm, complete_irq s, raiseError_irq s, fun hb he => ?_, by decide⟩
  · rw [hostReadValue_of_idle s hb]
    exact readValue_csr s _ 4 (.inr rfl)
  · rw [hostWriteState_status]
    exact ackStatus_irq hb he (by decide) (by decide)

/-! ## Reset -/

/-- Settles O19: the reset state is a closed term, which every read returns as it stands because it is idle. -/
theorem resetValues : Obligations.ResetValues := by
  refine ⟨by decide, fun c => ?_, fun s => ⟨rfl, rfl⟩, rfl, rfl, rfl, rfl, rfl, rfl, rfl, rfl, rfl, fun s => rfl⟩
  rw [hostReadValue_of_idle _ rfl]
  exact readValue_csr _ _ 4 (.inl rfl)

end Sys2Proof.Machine
end

section
/-! PROOFS. The register map: what a host reads from a CSR, and what a write to one changes. -/

namespace Sys2Proof.Machine

open Config (hw)

/-! ## The register map -/

theorem hostWriteState_csr_of_idle {s : State} (hb : s.status.busy = false) {c : Csr} (hc : c ≠ .status) (n : Nat)
    (v : Word) : hostWriteState hw c.offset n v s = s.writeCsr hw c v := by
  simp [hostWriteState_csr s v hc, hb]

/-- A write to a CSR other than CMD and STATUS touches the registers the host owns and the cache. -/
theorem writeCsr_eq (s : State) {c : Csr} (v : Word) (hcmd : c ≠ .cmd) (hst : c ≠ .status) :
    s.writeCsr hw c v = { s with
      opt := (s.writeCsr hw c v).opt, arg := (s.writeCsr hw c v).arg, lens := (s.writeCsr hw c v).lens
      cache := (s.writeCsr hw c v).cache } := by
  cases c
  case cmd => exact absurd rfl hcmd
  case status => exact absurd rfl hst
  all_goals rfl

/-- Only IN_LEN and MAXCHAIN empty the cache (41_lz77_parser.md R532). -/
theorem writeCsr_cache (s : State) {c : Csr} (v : Word) (hcmd : c ≠ .cmd) (hlen : c ≠ .inLen) (hchain : c ≠ .maxChain) :
    (s.writeCsr hw c v).cache = s.cache := by
  cases c
  case cmd => exact absurd rfl hcmd
  case inLen => exact absurd rfl hlen
  case maxChain => exact absurd rfl hchain
  all_goals rfl

theorem csrValue_outLen_of_idle {s : State} (hb : s.status.busy = false) :
    s.csrValue chip .outLen = s.packer.outLen := by
  simp [State.csrValue, State.visibleOutLen, hb]

/-- A write to a CSR other than CMD and STATUS shows in no other CSR, but for STATUS.IRQ, which follows CTRL. -/
theorem csrValue_writeCsr_of_ne {s : State} (hb : s.status.busy = false) {c d : Csr} (v : Word) (hcmd : c ≠ .cmd)
    (hst : c ≠ .status) (hd : d ≠ c) (hirq : d = .status → c ≠ .ctrl) :
    (s.writeCsr hw c v).csrValue chip d = s.csrValue chip d := by
  have hstatus : (s.writeCsr hw c v).status = s.status := by rw [writeCsr_eq s v hcmd hst]
  have hpacker : (s.writeCsr hw c v).packer = s.packer := by rw [writeCsr_eq s v hcmd hst]
  cases d
  case cmd => rfl
  case outLen => rw [csrValue_outLen_of_idle hb, csrValue_outLen_of_idle (hstatus ▸ hb), hpacker]
  case status =>
    cases c
    case cmd => exact absurd rfl hcmd
    case status => exact absurd rfl hst
    case ctrl => exact absurd rfl (hirq rfl)
    all_goals rfl
  all_goals
    cases c
    case cmd => exact absurd rfl hcmd
    case status => exact absurd rfl hst
    any_goals exact absurd rfl hd
    all_goals rfl

/-- The full-width RW registers hold what was written. -/
theorem csrValue_writeCsr_self (s : State) (v : Word) :
    ∀ c ∈ [Csr.inLen, .numIter, .splitMax, .maxChain, .stagnation, .splitMargin, .arg0, .arg1, .arg2, .arg3,
      .gLen, .gA, .gB, .sLen, .planLen], (s.writeCsr hw c v).csrValue chip c = v := by
  simp only [List.forall_mem_cons]
  exact ⟨rfl, rfl, rfl, rfl, rfl, rfl, rfl, rfl, rfl, rfl, rfl, rfl, rfl, rfl, rfl, by simp⟩

/-- OUT_LIMIT is clamped to OUT_CAP (10_state.md R126). -/
theorem csrValue_writeCsr_outLimit (s : State) (v : Word) :
    ((s.writeCsr hw .outLimit v).csrValue chip .outLimit).toNat = min v.toNat hw.outCap := by
  have hval : (s.writeCsr hw .outLimit v).csrValue chip .outLimit =
      if hw.outCap < v.toNat then word hw.outCap else v := rfl
  rw [hval]
  split
  · next h => exact (Nat.min_eq_right h.le).symm
  · next h => exact (Nat.min_eq_left (not_lt.1 h)).symm

/-- While BUSY the progress of the core shows in STATUS and OUT_LEN only. -/
theorem csrValue_coreProgress (s : State) {c : Csr} (hst : c ≠ .status) (hlen : c ≠ .outLen) :
    (s.coreProgress hw).csrValue chip c = s.csrValue chip c := by
  obtain ⟨phase, progress, place, draws, heq⟩ := coreProgress_frame hw s
  rw [heq]
  cases c
  case status => exact absurd rfl hst
  case outLen => exact absurd rfl hlen
  all_goals rfl

theorem hostReadValue_csr_of_idle {s : State} (hb : s.status.busy = false) (c : Csr) (n : Nat) :
    (hostReadValue chip c.offset n s).1 = s.csrValue chip c := by
  rw [hostReadValue_of_idle s hb]
  exact readValue_csr s _ n (.inl hb)

theorem hostReadValue_csr_of_busy {s : State} (hb : s.status.busy = true) {c : Csr} (n : Nat)
    (hc : c.unspecifiedWhileBusy = false) :
    (hostReadValue chip c.offset n s).1 = (s.coreProgress hw).csrValue chip c := by
  rw [hostReadValue_of_busy s hb]
  exact readValue_csr _ _ n (.inr hc)

/-- The CSRs R232 lists as reading their current value are specified while BUSY and no part of the progress. -/
theorem hostReadValue_current {s : State} (hb : s.status.busy = true) :
    ∀ c ∈ [Csr.id, .version, .ctrl, .errInfo, .inLen, .inErr, .numIter, .splitMax, .maxChain, .stagnation,
      .absentCost, .splitMargin, .outLimit], (hostReadValue chip c.offset 4 s).1 = s.csrValue chip c := by
  have hlisted : ∀ c ∈ [Csr.id, .version, .ctrl, .errInfo, .inLen, .inErr, .numIter, .splitMax, .maxChain, .stagnation,
      .absentCost, .splitMargin, .outLimit],
      c.unspecifiedWhileBusy = false ∧ c ≠ .status ∧ c ≠ .outLen := by decide
  intro c hc
  obtain ⟨hspec, hst, hlen⟩ := hlisted c hc
  rw [hostReadValue_csr_of_busy hb 4 hspec, csrValue_coreProgress s hst hlen]

/-- What a host write does to the RW registers and what it leaves alone (10_state.md R110). -/
theorem hostWriteState_rw {s : State} (hb : s.status.busy = false) (v : Word) :
    ∀ c ∈ [Csr.ctrl, .inLen, .inErr, .numIter, .splitMax, .maxChain, .stagnation, .absentCost, .splitMargin,
        .outLimit, .arg0, .arg1, .arg2, .arg3, .gLen, .gA, .gB, .sLen, .planLen],
      let t := hostWriteState hw c.offset 4 v s
      t = { s with opt := t.opt, arg := t.arg, lens := t.lens, cache := t.cache } ∧
      (∀ d, d ≠ c → (d = .status → c ≠ .ctrl) → t.csrValue chip d = s.csrValue chip d) ∧
      (c ≠ .inLen → c ≠ .maxChain → t.cache = s.cache) := by
  have hlisted : ∀ c ∈ [Csr.ctrl, .inLen, .inErr, .numIter, .splitMax, .maxChain, .stagnation, .absentCost,
      .splitMargin, .outLimit, .arg0, .arg1, .arg2, .arg3, .gLen, .gA, .gB, .sLen, .planLen],
      c ≠ .cmd ∧ c ≠ .status := by decide
  intro c hc
  obtain ⟨hcmd, hst⟩ := hlisted c hc
  rw [hostWriteState_csr_of_idle hb hst]
  exact ⟨writeCsr_eq s v hcmd hst, fun d hd hirq => csrValue_writeCsr_of_ne hb v hcmd hst hd hirq,
    writeCsr_cache s v hcmd⟩

/-- Read-only CSRs ignore a write (10_state.md R110). -/
theorem hostWriteState_readOnly {s : State} (hb : s.status.busy = false) (v : Word) :
    ∀ c ∈ [Csr.id, .version, .errInfo, .res0, .res1, .res2, .res3, .outLen, .bitState, .curBlock, .iterCount,
      .bestBits, .blocksOut, .lastBlock], hostWriteState hw c.offset 4 v s = s := by
  simp [hostWriteState_csr, hb, State.writeCsr]

theorem readValue_unlisted (s : State) (d : Word) {off : Nat} (n : Nat) (hoff : Region.csr.covers hw off = true)
    (hc : csrAt off = none) : s.readValue chip d off n = 0 := by
  unfold State.readValue
  simp [regionAt_eq_some_iff.2 hoff, hc]

/-- OUT and SUBLEN ignore a write (20_memory.md R223). -/
theorem hostWriteState_outputs {s : State} (hb : s.status.busy = false) (v : Word) {a : Nat} (n : Nat)
    (ha : Region.output.covers hw a = true ∨ Region.sublen.covers hw a = true) : hostWriteState hw a n v s = s := by
  rcases ha with ha | ha <;> simp [hostWriteState_region s v ha, hb, State.writeRegion]

/-- Settles O17: idle writes go through `writeCsr`, whose table of updates and of values is read once above. -/
theorem registerWritesFollowTheMap : Obligations.RegisterWritesFollowTheMap := by
  refine ⟨fun s c hb => hostReadValue_csr_of_idle hb c 4,
    fun s hb => ⟨hostReadValue_current hb, hostReadValue_csr_of_busy hb 4 rfl⟩, fun s v hb => ?_⟩
  refine ⟨fun c hc => ?_, ?_, ?_, ?_, ?_, hostWriteState_rw hb v, hostWriteState_readOnly hb v,
    fun off hoff hc => ⟨?_, fun d => readValue_unlisted s d 4 hoff hc⟩, fun a n ha => hostWriteState_outputs hb v n ha⟩
  · have hst : c ≠ .status := by
      rintro rfl
      exact absurd hc (by decide)
    rw [hostWriteState_csr_of_idle hb hst]
    exact csrValue_writeCsr_self s v c hc
  · rw [hostWriteState_csr_of_idle hb (by decide)]
    rfl
  · rw [hostWriteState_csr_of_idle hb (by decide)]
    rfl
  · rw [hostWriteState_csr_of_idle hb (by decide)]
    rfl
  · rw [hostWriteState_csr_of_idle hb (by decide)]
    exact csrValue_writeCsr_outLimit s v
  · simp [hostWriteState_unlisted s v hoff hc, hb]

end Sys2Proof.Machine
end

section
/-! PROOFS. The memories: what a host write stores and what a read of the same place then returns. -/

namespace Sys2Proof.Machine

open Config (hw)

/-! ## Writes to a memory, byte by byte -/

theorem readWord_storeWords_single (s : State) (a : Nat) (w : Word) : (s.storeWords a [w]).readWord a = w :=
  State.readWord_storeWords s a [w] (k := 0) (by simp)

theorem sameMemOutside_single {a n : Nat} {s t : State} (h : SameMemBut a n s t) : SameMemOutside [(a, n)] s t :=
  fun x hx => h x (hx (a, n) (by simp))

/-- A host read of a word memory while CORE is idle, below its length CSR. -/
theorem readValue_word {s : State} (hb : s.status.busy = false) (d : Word) {r : Region} {a : Nat} (n : Nat)
    (ha : r.covers hw a = true) (hcsr : r ≠ .csr) (hin : r ≠ .input) (hout : r ≠ .output)
    (hlen : s.aboveLength r a = false) : s.readValue chip d a n = s.regionWord r a := by
  unfold State.readValue
  rw [chip_params, regionAt_eq_some_iff.2 ha]
  cases r
  case csr => exact absurd rfl hcsr
  case input => exact absurd rfl hin
  case output => exact absurd rfl hout
  all_goals simp [hb, hlen]

theorem readValue_input {s : State} (hb : s.status.busy = false) (d : Word) {a : Nat} (n : Nat)
    (ha : Region.input.covers hw a = true) :
    s.readValue chip d a n = word (packBytes ((List.range n).map (fun k => s.readByte (a + k)))) := by
  unfold State.readValue
  simp [regionAt_eq_some_iff.2 ha, hb]

/-- The bytes of a word, put together again, are its low bits (20_memory.md R222). -/
theorem packBytes_wordBytes_take (v : Word) {n : Nat} (hn : n = 1 ∨ n = 2 ∨ n = 4) :
    packBytes ((wordBytes v).take n) = v.toNat % 2 ^ (8 * n) := by
  have hv := v.isLt
  rcases hn with rfl | rfl | rfl <;>
    simp only [wordBytes, List.take, packBytes, BitVec.extractLsb'_toNat, Nat.shiftRight_eq_div_pow] <;> omega

theorem wordBytes_getElem (v : Word) {k : Nat} (h : k < (wordBytes v).length) :
    (wordBytes v)[k] = v.extractLsb' (8 * k) 8 := by
  have hk : k < 4 := h
  interval_cases k <;> rfl

theorem readByte_storeBytes_take (s : State) (a : Nat) (v : Word) {n k : Nat} (hn : n ≤ 4) (hk : k < n) :
    (s.storeBytes a ((wordBytes v).take n)).readByte (a + k) = v.extractLsb' (8 * k) 8 := by
  rw [State.readByte_storeBytes_of_inside s a _ (by simp; omega), List.getElem_take, wordBytes_getElem]

/-- A write to one of the seven memories whose words the host both writes and reads whole. -/
theorem hostWrite_word {s : State} {a : Nat} (n : Nat) (v d : Word) (hb : s.status.busy = false)
    {r : Region} (hr : r ∈ [Region.freq, .dfreq, .len, .code, .plan, .storeG, .storeS])
    (ha : r.covers hw a = true) :
    let t := hostWriteState hw a n v s
    t.readWord a = v ∧ t = { s with mem := t.mem } ∧ SameMemOutside [(a, 4)] s t ∧
      (t.aboveLength r a = false → t.readValue chip d a n = v) := by
  have hlisted : ∀ r ∈ [Region.freq, .dfreq, .len, .code, .plan, .storeG, .storeS],
      r ≠ .csr ∧ r ≠ .input ∧ r ≠ .output ∧ ∀ (s : State) (a n : Nat) (v : Word),
        s.writeRegion r a n v = s.storeWords a [v] ∧ s.regionWord r a = s.readWord a := by
    simp only [List.forall_mem_cons]
    simp [State.writeRegion, State.regionWord]
  obtain ⟨hcsr, hin, hout, hrw⟩ := hlisted r hr
  have ht : hostWriteState hw a n v s = s.storeWords a [v] := by
    simp [hostWriteState_region s v ha hcsr, hb, (hrw s a n v).1]
  rw [ht]
  refine ⟨readWord_storeWords_single s a v, rfl, sameMemOutside_single (s.sameMemBut_storeWords a [v]), fun hlen => ?_⟩
  rw [readValue_word (s := s.storeWords a [v]) hb d n ha hcsr hin hout hlen, (hrw _ a n v).2,
    readWord_storeWords_single]

/-- A write to a cost table keeps the low 16 bits (10_state.md R145). -/
theorem hostWrite_cost {s : State} {a : Nat} (n : Nat) (v d : Word) (hb : s.status.busy = false)
    {r : Region} (hr : r ∈ [Region.llcost, .dcost]) (ha : r.covers hw a = true) :
    let t := hostWriteState hw a n v s
    t.readValue chip d a n = v &&& 0x0000FFFF ∧ t = { s with mem := t.mem } ∧ SameMemOutside [(a, 4)] s t := by
  have hlisted : ∀ r ∈ [Region.llcost, .dcost],
      r ≠ .csr ∧ r ≠ .input ∧ r ≠ .output ∧ ∀ (s : State) (a n : Nat) (v : Word),
        s.writeRegion r a n v = s.storeWords a [v &&& 0x0000FFFF] ∧
        s.regionWord r a = s.readWord a &&& 0x0000FFFF ∧ s.aboveLength r a = false := by
    simp only [List.forall_mem_cons]
    simp [State.writeRegion, State.regionWord, State.aboveLength]
  obtain ⟨hcsr, hin, hout, hrw⟩ := hlisted r hr
  have ht : hostWriteState hw a n v s = s.storeWords a [v &&& 0x0000FFFF] := by
    simp [hostWriteState_region s v ha hcsr, hb, (hrw s a n v).1]
  rw [ht]
  refine ⟨?_, rfl, sameMemOutside_single (s.sameMemBut_storeWords a [_])⟩
  rw [readValue_word (s := s.storeWords a _) hb d n ha hcsr hin hout (hrw _ a n v).2.2, (hrw _ a n v).2.1,
    readWord_storeWords_single, BitVec.and_assoc, BitVec.and_self]

/-- A write to IN stores the value's bytes from bit 0 up and empties the cache (10_state.md R140, 41_lz77_parser.md
R532). -/
theorem hostWrite_input {s : State} {a n : Nat} (v d : Word) (hb : s.status.busy = false)
    (hn : n = 1 ∨ n = 2 ∨ n = 4) (ha : Region.input.covers hw a = true) :
    let t := hostWriteState hw a n v s
    (∀ k, k < n → t.readByte (a + k) = v.extractLsb' (8 * k) 8) ∧
      t = { s with mem := t.mem, cache := [] } ∧ SameMemOutside [(a, n)] s t ∧
      t.readValue chip d a n = word (v.toNat % 2 ^ (8 * n)) := by
  have hle : n ≤ 4 := by omega
  have ht : hostWriteState hw a n v s = (s.storeBytes a ((wordBytes v).take n)).clearCache := by
    simp [hostWriteState_region s v ha, hb, State.writeRegion]
  have hbytes : ∀ k, k < n →
      (s.storeBytes a ((wordBytes v).take n)).clearCache.readByte (a + k) = v.extractLsb' (8 * k) 8 :=
    fun k hk => readByte_storeBytes_take s a v hle hk
  have hframe := s.sameMemBut_storeBytes a ((wordBytes v).take n)
  rw [List.length_take_of_le (by simpa using hle)] at hframe
  rw [ht]
  refine ⟨hbytes, rfl, sameMemOutside_single hframe, ?_⟩
  rw [readValue_input (s := (s.storeBytes a _).clearCache) hb d n ha, ← packBytes_wordBytes_take v hn]
  congr 2
  refine List.ext_getElem (by simp [hle]) fun k hk _ => ?_
  have hk : k < n := by simpa using hk
  simp [hbytes k hk, wordBytes_getElem]

/-- Settles O16: each region's write is one store, read back by the rules of reads after stores. -/
theorem hostWritesStoreTheirValue : Obligations.HostWritesStoreTheirValue := by
  intro s a n v d hb hl
  exact ⟨fun r hr ha => hostWrite_word n v d hb hr ha, fun r hr ha => hostWrite_cost n v d hb hr ha,
    fun ha => hostWrite_input v d hb (hl.width_of_input ha) ha⟩

end Sys2Proof.Machine
end

section
/-! PROOFS. What a command may change between its acceptance and its end: the two relations every command's rule is
proved to meet, and the shared operations that meet them. -/

namespace Sys2Proof.Machine

open Config (hw)

/-! ## The relations -/

/-- The cache lists each position once, in rising order. -/
def Cache.Rising (c : Cache) : Prop := c.Pairwise (fun x y => x.1 < y.1)

/-- What the rule of every command but SRESET leaves alone, and what it keeps (40_control.md R405, 20_memory.md R229):
the registers the host owns and the account of the command stay, IN is not written, the byte list and the cache stay
canonical, and OUT_LEN stays in OUT. -/
structure Effect (s t : State) : Prop where
  status : t.status = s.status
  errInfo : t.errInfo = s.errInfo
  opt : t.opt = s.opt
  arg : t.arg = s.arg
  issue : t.issue = s.issue
  host : t.host = s.host
  epoch : t.epoch = s.epoch
  memory : Memory.wf s.mem → Memory.wf t.mem
  cache : Cache.Rising s.cache → Cache.Rising t.cache
  input : ∀ x, Region.input.covers hw x = true → t.readByte x = s.readByte x
  outCap : s.opt.outLimit.toNat ≤ hw.outCap → s.packer.outLen.toNat ≤ hw.outCap → t.packer.outLen.toNat ≤ hw.outCap

/-- The same without a restart of the stream: OUT_LEN goes up only, and OUT below it is final (20_memory.md R231). -/
structure Appends (s t : State) : Prop extends Effect s t where
  outLen : s.packer.outLen.toNat ≤ t.packer.outLen.toNat
  outBytes : ∀ k, k < s.packer.outLen.toNat → k < hw.outCap →
    t.readByte (Region.output.entry k) = s.readByte (Region.output.entry k)

theorem Effect.trans {s t u : State} (h : Effect s t) (h' : Effect t u) : Effect s u where
  status := h'.status.trans h.status
  errInfo := h'.errInfo.trans h.errInfo
  opt := h'.opt.trans h.opt
  arg := h'.arg.trans h.arg
  issue := h'.issue.trans h.issue
  host := h'.host.trans h.host
  epoch := h'.epoch.trans h.epoch
  memory := h'.memory ∘ h.memory
  cache := h'.cache ∘ h.cache
  input x hx := (h'.input x hx).trans (h.input x hx)
  outCap hlim hlen := h'.outCap (h.opt ▸ hlim) (h.outCap hlim hlen)

theorem Appends.trans {s t u : State} (h : Appends s t) (h' : Appends t u) : Appends s u where
  toEffect := h.toEffect.trans h'.toEffect
  outLen := h.outLen.trans h'.outLen
  outBytes k hk hcap := (h'.outBytes k (hk.trans_le h.outLen) hcap).trans (h.outBytes k hk hcap)

/-- An update of the results, the lengths, the observation registers, the draws, the cache, and the packer's fields
other than OUT_LEN. -/
theorem Appends.of_update {s t : State}
    (h : t = { s with
      res := t.res, lens := t.lens, obs := t.obs, draws := t.draws, cache := t.cache
      packer := { t.packer with outLen := s.packer.outLen } })
    (hc : Cache.Rising s.cache → Cache.Rising t.cache) : Appends s t := by
  revert hc
  rw [h]
  exact fun hc =>
    { status := rfl, errInfo := rfl, opt := rfl, arg := rfl, issue := rfl, host := rfl, epoch := rfl, memory := id,
      cache := hc, input := fun _ _ => rfl, outCap := fun _ => id, outLen := le_rfl, outBytes := fun _ _ _ => rfl }

theorem Appends.refl (s : State) : Appends s s := .of_update rfl id

/-! ## Stores and the cache -/

/-- A run of n bytes from a on that meets neither IN nor OUT: the tables and PLAN lie below IN, the stores above
OUT (20_memory.md R210). -/
def OffStream (a n : Nat) : Prop := a + n ≤ Region.input.base ∨ Region.output.base + hw.outCap ≤ a

/-- A store that leaves IN and the bytes of OUT below OUT_LEN alone. -/
theorem Appends.storeBytes {s : State} {a : Nat} {bs : List Byte}
    (hin : a + bs.length ≤ Region.input.base ∨ Region.output.base ≤ a)
    (hout : ∀ k, k < s.packer.outLen.toNat → k < hw.outCap →
      Region.output.entry k < a ∨ a + bs.length ≤ Region.output.entry k) : Appends s (s.storeBytes a bs) where
  status := rfl
  errInfo := rfl
  opt := rfl
  arg := rfl
  issue := rfl
  host := rfl
  epoch := rfl
  memory h := State.storeBytes_wf h a bs
  cache := id
  input x hx := by
    have hend : Region.input.base + Region.input.stride * Region.input.entries hw ≤ Region.output.base := by decide
    rw [Region.covers_iff] at hx
    exact State.readByte_storeBytes_of_outside s a bs (by omega)
  outCap _ := id
  outLen := le_rfl
  outBytes k hk hcap := State.readByte_storeBytes_of_outside s a bs (hout k hk hcap)

theorem Appends.storeWords (s : State) {a : Nat} {ws : List Word} (h : OffStream a (4 * ws.length)) :
    Appends s (s.storeWords a ws) := by
  have hbase : Region.input.base ≤ Region.output.base := by decide
  have hlen := length_flatMap_wordBytes ws
  refine Appends.storeBytes ?_ fun k _ hcap => ?_
  · rcases h with h | h
    · exact .inl (by omega)
    · exact .inr ((Nat.le_add_right _ _).trans h)
  · have hentry : Region.output.entry k = Region.output.base + k := by simp [Region.entry, Region.stride]
    rcases h with h | h
    · exact .inr (by omega)
    · exact .inl (by omega)

theorem Appends.storeTable (s : State) {r : Region} {ns : List Nat} (h : OffStream r.base (4 * ns.length)) :
    Appends s (s.storeTable r ns) :=
  .storeWords s (by simpa using h)

theorem Appends.storeEntries (s : State) (x : StoreSel) (k : Nat) (es : List Entry) :
    Appends s (s.storeEntries x k es) := by
  refine .storeWords s (.inr ?_)
  have hbase : Region.output.base + hw.outCap ≤ (storeRegion x).base := by cases x <;> decide
  unfold Region.entry
  omega

/-! ## The rule of a command, on both its ways out -/

/-- An error with a name that a rule raises: neither "no error" nor INTERNAL (60_exceptions.md R1001, R1009). -/
def CmdError.Raised (e : CmdError) : Prop := e.code ≠ .none ∧ e.code ≠ .internal

/-- Where a rule has got to, going on or stopped by an error, meets R, and the error is one that rules raise. -/
def Run.Ends (R : State → Prop) : Run → Prop
  | .ok t => R t
  | .stop e t => e.Raised ∧ R t

theorem Run.Ends.imp {R R' : State → Prop} {r : Run} (h : r.Ends R) (hR : ∀ t, R t → R' t) : r.Ends R' := by
  cases r with
  | ok t => exact hR t h
  | stop e t => exact ⟨h.1, hR t h.2⟩

theorem Run.Ends.andThen {R R' : State → Prop} {r : Run} {k : State → Run} (h : r.Ends R)
    (hk : ∀ t, R t → (k t).Ends R') (hR : ∀ t, R t → R' t) : (r.andThen k).Ends R' := by
  cases r with
  | ok t => exact hk t h
  | stop e t => exact ⟨h.1, hR t h.2⟩

/-- Two parts of a rule, each of which only appends. -/
theorem Run.Ends.andThen_appends {s : State} {r : Run} {k : State → Run} (h : r.Ends (Appends s))
    (hk : ∀ t, Appends s t → (k t).Ends (Appends t)) : (r.andThen k).Ends (Appends s) :=
  h.andThen (fun t ht => (hk t ht).imp fun _ => ht.trans) fun _ => id

/-! ## The checks raise named errors only -/

/-- Every error a check answers is one that rules raise. -/
def ChecksRaise {α : Type} (x : Except CmdError α) : Prop := ∀ e, x = .error e → e.Raised

theorem badArg_raised (addr : Nat) : (badArg addr).Raised := ⟨nofun, nofun⟩

theorem badSymbol_raised (k : Nat) : (badSymbol k).Raised := ⟨nofun, nofun⟩

theorem huffError_raised (n : Nat) : (huffError n).Raised := ⟨nofun, nofun⟩

theorem ChecksRaise.ok {α : Type} (a : α) : ChecksRaise (.ok a) := nofun

theorem ChecksRaise.bind {α β : Type} {x : Except CmdError α} {f : α → Except CmdError β} (hx : ChecksRaise x)
    (hf : ∀ a, ChecksRaise (f a)) : ChecksRaise (x >>= f) := by
  intro e he
  rcases except_bind_eq_error.1 he with he | ⟨a, -, he⟩
  · exact hx e he
  · exact hf a e he

theorem ChecksRaise.require {c : Bool} {e : CmdError} (h : e.Raised) : ChecksRaise (require c e) := by
  intro e' he
  obtain ⟨-, rfl⟩ := require_eq_error.1 he
  exact h

theorem ChecksRaise.requireArg (c : Bool) (addr : Nat) : ChecksRaise (Machine.require c (badArg addr)) :=
  .require (badArg_raised addr)

theorem checkWindow_raises (s : State) : ChecksRaise (checkWindow hw s) := .requireArg _ _

theorem checkHint_raises (s : State) : ChecksRaise (checkHint s) := .requireArg _ _

theorem checkAlphabet_raises (s : State) : ChecksRaise (checkAlphabet s) := .requireArg _ _

theorem checkStoreRoom_raises (s : State) (n : Nat) : ChecksRaise (checkStoreRoom hw s n) := .requireArg _ _

theorem checkBytes_raises (s : State) (x y : ArgReg) : ChecksRaise (checkBytes hw s x y) :=
  (checkWindow_raises s).bind fun _ => (ChecksRaise.requireArg _ _).bind fun _ => .requireArg _ _

theorem checkStoreArgs_raises (s : State) (t : StoreSel) (x y : ArgReg) : ChecksRaise (checkStoreArgs hw s t x y) :=
  (ChecksRaise.requireArg _ _).bind fun _ => (ChecksRaise.requireArg _ _).bind fun _ => .requireArg _ _

theorem readEntries_raises (s : State) (t : StoreSel) (n k : Nat) : ChecksRaise (readEntries hw s t n k) := by
  intro e he
  obtain ⟨m, -, -, rfl, -⟩ := readEntries_eq_error.1 he
  exact badSymbol_raised m

theorem checkTiling_raises (es : List Entry) (i a b : Nat) : ChecksRaise (checkTiling es i a b) := by
  intro e he
  unfold checkTiling at he
  cases hk : tilingFailure es i a b with
  | none => simp [hk] at he
  | some k =>
    simp only [hk, Except.error.injEq] at he
    exact he ▸ badSymbol_raised k

theorem loadRange_raises (s : State) (t : StoreSel) (x y : ArgReg) : ChecksRaise (loadRange hw s t x y) :=
  (checkStoreArgs_raises s t x y).bind fun _ => readEntries_raises s t _ _

theorem loadTiledRange_raises (s : State) (t : StoreSel) : ChecksRaise (loadTiledRange hw s t) :=
  (checkStoreArgs_raises s t _ _).bind fun _ => (checkBytes_raises s _ _).bind fun _ =>
    (readEntries_raises s t _ _).bind fun _ => (checkTiling_raises _ _ _ _).bind fun _ => .ok _

theorem checkFindmatch_raises (s : State) : ChecksRaise (checkFindmatch hw s) :=
  (checkWindow_raises s).bind fun _ => .requireArg _ _

theorem checkSplit_raises (s : State) : ChecksRaise (checkSplit hw s) :=
  (checkHint_raises s).bind fun _ => (ChecksRaise.requireArg _ _).bind fun _ =>
    (readEntries_raises s _ _ _).bind fun _ => (checkTiling_raises _ _ _ _).bind fun _ => .ok _

theorem checkSppass_raises (s : State) : ChecksRaise (checkSppass hw s) :=
  (checkBytes_raises s _ _).bind fun _ => checkStoreRoom_raises s _

theorem checkSqueeze_raises (s : State) : ChecksRaise (checkSqueeze hw s) :=
  (checkHint_raises s).bind fun _ => (checkWindow_raises s).bind fun _ =>
    (ChecksRaise.requireArg _ _).bind fun _ => (ChecksRaise.requireArg _ _).bind fun _ =>
    (ChecksRaise.requireArg _ _).bind fun _ => (ChecksRaise.requireArg _ _).bind fun _ =>
    (ChecksRaise.requireArg _ _).bind fun _ => (ChecksRaise.requireArg _ _).bind fun _ =>
    (ChecksRaise.requireArg _ _).bind fun _ => (checkStoreRoom_raises s _).bind fun _ =>
    (readEntries_raises s _ _ _).bind fun _ => (checkTiling_raises _ _ _ _).bind fun _ => .ok _

theorem checkCompress_raises (s : State) : ChecksRaise (checkCompress hw s) :=
  (checkHint_raises s).bind fun _ => checkWindow_raises s

theorem checkHufflen_raises (s : State) : ChecksRaise (checkHufflen hw s) :=
  (checkAlphabet_raises s).bind fun _ => (ChecksRaise.requireArg _ _).bind fun _ =>
    (ChecksRaise.require (huffError_raised _)).bind fun _ => .ok _

theorem checkLens_raises (k : Nat) (ls : List Nat) : ChecksRaise (checkLens hw k ls) := by
  induction ls generalizing k with
  | nil => exact .ok ()
  | cons l ls ih =>
    unfold checkLens
    split
    · rintro e ⟨⟩
      exact badArg_raised _
    · exact ih (k + 1)

theorem checkCanon_raises (s : State) : ChecksRaise (checkCanon hw s) :=
  (checkAlphabet_raises s).bind fun _ => (checkLens_raises 0 _).bind fun _ =>
    (ChecksRaise.require (huffError_raised _)).bind fun _ => .ok _

theorem checkWbits_raises (s : State) : ChecksRaise (checkWbits s) := .requireArg _ _

/-- A rule with checks: a failed check stops it where it was accepted. -/
theorem afterChecks_ends {α : Type} {R : State → Prop} {s : State} {checks : Except CmdError α} {k : α → Run}
    (hc : ChecksRaise checks) (hs : R s) (hk : ∀ a, checks = .ok a → (k a).Ends R) :
    (afterChecks s checks k).Ends R := by
  cases h : checks with
  | error e => exact ⟨hc e h, hs⟩
  | ok a => exact hk a h

end Sys2Proof.Machine
end

section
/-! PROOFS. The bit packer, the searches and the table builders, as far as the relations of the commands need them:
what they write, how many words, and that the cache stays in rising order. -/

namespace Sys2Proof.Machine

open Config (hw)

/-! ## The bit packer -/

/-- The next byte of OUT, at OUT_LEN, with OUT_LEN one more. -/
theorem Appends.nextByte {s : State} (b : Byte) {p : Packer} (hlt : s.packer.outLen.toNat < s.opt.outLimit.toNat)
    (hp : p.outLen = s.packer.outLen + 1) :
    Appends s { s.storeBytes (Region.output.entry s.packer.outLen.toNat) [b] with packer := p } := by
  have hbase : ∀ k, Region.output.entry k = Region.output.base + k := fun k => by simp [Region.entry, Region.stride]
  have hstore : Appends s (s.storeBytes (Region.output.entry s.packer.outLen.toNat) [b]) :=
    .storeBytes (.inr (by rw [hbase]; exact Nat.le_add_right _ _)) fun k hk _ => .inl (by rw [hbase, hbase]; omega)
  have hnext : p.outLen.toNat = s.packer.outLen.toNat + 1 := by
    have := s.opt.outLimit.isLt
    rw [hp, BitVec.toNat_add]
    exact Nat.mod_eq_of_lt (show s.packer.outLen.toNat + 1 < 2 ^ 32 by omega)
  exact
    { status := rfl, errInfo := rfl, opt := rfl, arg := rfl, issue := rfl, host := rfl, epoch := rfl
      memory := hstore.memory, cache := id, input := hstore.input, outBytes := hstore.outBytes
      outLen := hnext ▸ Nat.le_succ _
      outCap := fun hlim _ => hnext ▸ (Nat.succ_le_of_lt hlt).trans hlim }

theorem putBit_appends (x : Bool) (s : State) : (putBit x s).Ends (Appends s) := by
  rcases putBit_cases x s with ⟨-, h⟩ | ⟨-, hlt, h⟩ | ⟨-, -, h⟩ <;> rw [h]
  · exact .of_update rfl id
  · exact .nextByte _ hlt rfl
  · exact ⟨⟨nofun, nofun⟩, .of_update rfl id⟩

theorem putAll_appends (bits : List Bool) (s : State) : (putAll bits s).Ends (Appends s) := by
  induction bits generalizing s with
  | nil => exact .refl s
  | cons x xs ih => exact (putBit_appends x s).andThen_appends fun t _ => ih t

theorem flush_appends (s : State) : (flush s).Ends (Appends s) := putAll_appends _ s

theorem putHeader_appends (final : Bool) (n : Nat) (s : State) : (putHeader final n s).Ends (Appends s) :=
  (putAll_appends _ s).andThen_appends fun _ _ => .of_update rfl id

theorem fixedBlock_appends (t : List Sym) (final : Bool) (s : State) : (fixedBlock hw t final s).Ends (Appends s) :=
  (putHeader_appends final 1 s).andThen_appends fun _ _ => putAll_appends _ _

theorem dynamicBlock_appends (t : List Sym) (final : Bool) (s : State) :
    (dynamicBlock hw t final s).Ends (Appends s) :=
  (putHeader_appends final 2 s).andThen_appends fun _ _ => putAll_appends _ _

theorem storedChunksFrom_appends (final : Bool) (chunks : List Nat) (p : Nat) (s : State) :
    (storedChunksFrom final chunks p s).Ends (Appends s) := by
  induction chunks generalizing p s with
  | nil => exact .refl s
  | cons len rest ih =>
    exact (putHeader_appends _ 0 s).andThen_appends fun s₁ _ => (flush_appends s₁).andThen_appends fun s₂ _ =>
      (putAll_appends _ s₂).andThen_appends fun s₃ _ => ih _ s₃

theorem storedBlocks_appends (a b : Nat) (final : Bool) (s : State) : (storedBlocks hw a b final s).Ends (Appends s) :=
  storedChunksFrom_appends final _ a s

theorem autoBlock_appends (t : List Sym) (a b : Nat) (final : Bool) (s : State) :
    (autoBlock hw t a b final s).Ends (Appends s) := by
  unfold autoBlock
  split
  · exact storedBlocks_appends a b final s
  · exact fixedBlock_appends t final s
  · exact dynamicBlock_appends t final s

/-! ## The match cache -/

theorem Cache.put_rising {c : Cache} (h : Cache.Rising c) (p : Nat) (r : MatchRec) : Cache.Rising (c.put p r) := by
  refine List.pairwise_append.2 ⟨h.filter _, List.pairwise_cons.2 ⟨fun e he => ?_, h.filter _⟩, fun e he f hf => ?_⟩
  · simpa using (List.mem_filter.1 he).2
  · have hep : e.1 < p := by simpa using (List.mem_filter.1 he).2
    rcases List.mem_cons.1 hf with rfl | hf
    · exact hep
    · have hpf : p < f.1 := by simpa using (List.mem_filter.1 hf).2
      exact hep.trans hpf

theorem cachedRec_rising (x : SearchCtx) {c : Cache} (h : Cache.Rising c) (p : Nat) :
    Cache.Rising (cachedRec hw x c p).2 := by
  unfold cachedRec
  split
  · exact h
  · exact Cache.put_rising h p _

section CacheProperty

/-! A property of the cache that every search of a position below the end of the range keeps is kept by the parse, the
pass and the squeeze, which reach the cache through `cachedRec` alone. -/

variable {R : Cache → Prop} {x : SearchCtx} {b : Nat}

theorem lazyStep_keeps (hR : ∀ c p, p < b → R c → R (cachedRec hw x c p).2) (lazy : Bool) (p len : Nat) {c : Cache}
    (hc : R c) : R (lazyStep hw x lazy b p len c).2 := by
  unfold lazyStep
  split
  · next h =>
    have hp : p + 1 < b := by simp at h; exact h.2
    exact hR c (p + 1) hp hc
  · exact hc

theorem greedyFrom_keeps (hR : ∀ c p, p < b → R c → R (cachedRec hw x c p).2) (lazy : Bool) (k p : Nat) {c : Cache}
    (hc : R c) : R (greedyFrom hw x lazy b k p c).2 := by
  induction k generalizing p c with
  | zero => exact hc
  | succ k ih =>
    unfold greedyFrom
    by_cases hp : b ≤ p
    · simpa [hp] using hc
    · have hrec := hR c p (not_le.1 hp) hc
      simp only [hp, if_false]
      split
      · split
        · exact ih _ (lazyStep_keeps hR lazy _ _ hrec)
        · exact ih _ (lazyStep_keeps hR lazy _ _ hrec)
      · exact ih _ hrec

theorem greedyParse_keeps (hR : ∀ c p, p < b → R c → R (cachedRec hw x c p).2) (lazy : Bool) (a : Nat) {c : Cache}
    (hc : R c) : R (greedyParse hw x lazy a b c).2 := greedyFrom_keeps hR lazy _ a hc

theorem passFrom_keeps (hR : ∀ c p, p < b → R c → R (cachedRec hw x c p).2) (m : CostModel) {k p : Nat}
    (hk : k ≤ b - p) (dp done : List (Option Slot)) {c : Cache} (hc : R c) :
    R (passFrom hw x m b k p dp done c).2 := by
  induction k generalizing p dp done c with
  | zero => exact hc
  | succ k ih =>
    cases dp with
    | nil => exact hc
    | cons slot rest => exact ih (by omega) _ _ (hR c p (by omega) hc)

theorem shortestPath_keeps (hR : ∀ c p, p < b → R c → R (cachedRec hw x c p).2) (m : CostModel) (a : Nat) {c : Cache}
    (hc : R c) : R (shortestPath hw x m a b c).cache :=
  passFrom_keeps hR m le_rfl _ _ hc

theorem squeezeLoop_keeps (hR : ∀ c p, p < b → R c → R (cachedRec hw x c p).2) (h absent stagnation a n : Nat)
    {q : SqueezeState} (hq : R q.cache) : R (squeezeLoop hw x h absent stagnation a b n q).cache := by
  induction n generalizing q with
  | zero => exact hq
  | succ n ih =>
    have hstep : R (squeezeStep hw x h absent a b q).cache := shortestPath_keeps hR q.costs a hq
    unfold squeezeLoop
    simp only []
    split
    · exact hstep
    · exact ih hstep

end CacheProperty

theorem squeezeBlock_rising (s : State) (a b : Nat) (block : List Entry) (h : Cache.Rising s.cache) :
    Cache.Rising (s.squeezeBlock hw a b block).cache :=
  squeezeLoop_keeps (R := Cache.Rising) (fun _ p _ hc => cachedRec_rising _ hc p) _ _ _ a _ h

/-! ## How many words the table builders answer -/

@[simp] theorem katajainen_length (f : List Nat) (limit : Nat) : (katajainen f limit).length = f.length := by
  unfold katajainen
  simp only []
  split <;> simp

@[simp] theorem canonical_length (lens : List Nat) : (canonical hw lens).length = lens.length := by
  simp [canonical]

@[simp] theorem countSyms_fst_length (t : List Sym) : (countSyms hw t).1.length = 288 := by
  simp [countSyms, tally]

@[simp] theorem countSyms_snd_length (t : List Sym) : (countSyms hw t).2.length = hw.dCodes := by
  simp [countSyms, tally]

@[simp] theorem sublenWords_length (r : MatchRec) : (sublenWords hw r).length = hw.maxMatch + 1 := by
  simp [sublenWords]

theorem readTable_length (s : State) (r : Region) (n : Nat) : (s.readTable r n).length = n := by
  simp [State.readTable]

theorem costStat_length (absent : Nat) (t : List Sym) :
    (costStat hw absent t).ll.length = hw.llCodes ∧ (costStat hw absent t).dd.length = hw.dCodes := by
  simp [costStat, costFromLens]

theorem costFixed_length : (costFixed hw).ll.length = hw.llCodes ∧ (costFixed hw).dd.length = hw.dCodes := by
  simp only [costFixed, fixedLitLens, fixedDistLens, List.length_take, List.length_append, List.length_replicate]
  exact ⟨rfl, rfl⟩

theorem replaceRange_length_le (r : SymRange) (new ranges : List SymRange) (hnew : new ≠ []) :
    (replaceRange r new ranges).length + 1 ≤ ranges.length + new.length := by
  induction ranges with
  | nil => simpa [replaceRange] using Nat.succ_le_of_lt (List.length_pos_iff.2 hnew)
  | cons q qs ih =>
    unfold replaceRange
    split
    · simp; omega
    · simp; omega

/-- A round of the bisection adds at most one range, and only below PLAN_CAP (43_block_splitter.md R711). -/
theorem bisectLoop_length_le (h splitMax margin : Nat) (t : List Sym) (n : Nat) {ranges : List SymRange}
    (hr : ranges.length ≤ hw.planCap) : (bisectLoop hw h splitMax margin t n ranges).length ≤ hw.planCap := by
  induction n generalizing ranges with
  | zero => exact hr
  | succ n ih =>
    unfold bisectLoop
    split
    · exact hr
    · split
      · exact hr
      · next hcap =>
        have hlt : ranges.length < hw.planCap := not_le.1 hcap
        split
        · exact hr
        · next r _ =>
          have hreplaced : ∀ new, new ≠ [] → new.length ≤ 2 → (replaceRange r new ranges).length ≤ hw.planCap := by
            intro new hne hlen
            have := replaceRange_length_le r new ranges hne
            omega
          simp only []
          split
          · exact ih (hreplaced _ (by simp) (by simp))
          · exact ih (hreplaced _ (by simp) (by simp))

theorem bisect_length_le (h splitMax margin : Nat) (t : List Sym) :
    (bisect hw h splitMax margin t).length ≤ hw.planCap :=
  bisectLoop_length_le h splitMax margin t _ (by simp)

@[simp] theorem length_flatMap_planWords (blocks : List PlanBlock) :
    (blocks.flatMap PlanBlock.words).length = 8 * blocks.length := by
  induction blocks with
  | nil => rfl
  | cons p ps ih => simp [List.flatMap_cons, PlanBlock.words, ih]; omega

end Sys2Proof.Machine
end

section
/-! PROOFS. The rule of every command meets the relations: SRESET resets, COMPRESS and WRESET restart the stream, and
every other command only appends to it. -/

namespace Sys2Proof.Machine

open Config (hw)

/-! ## The shared parts of the rules -/

/-- A store into one entry of PLAN, which lies below IN (20_memory.md R210). -/
theorem storePlan_appends (s : State) {j k : Nat} (hj : j ≤ hw.planCap) {ws : List Word} (hk : k + ws.length ≤ 8) :
    Appends s (s.storeWords (planAddr j k) ws) := by
  have hplan : Region.plan.base + 32 * (hw.planCap + 1) ≤ Region.input.base := by decide
  refine .storeWords s (.inl (le_trans ?_ hplan))
  unfold planAddr
  omega

theorem setRes0_appends (s : State) (n : Nat) : Appends s (s.setRes0 n) := .of_update rfl id

theorem setRes1_appends (s : State) (n : Nat) : Appends s (s.setRes1 n) := .of_update rfl id

theorem setRes2_appends (s : State) (n : Nat) : Appends s (s.setRes2 n) := .of_update rfl id

theorem withCache_appends {s : State} {c : Cache} (h : Cache.Rising s.cache → Cache.Rising c) :
    Appends s { s with cache := c } := .of_update rfl h

theorem storeCosts_appends (s : State) {c : CostModel} (h : c.ll.length = hw.llCodes ∧ c.dd.length = hw.dCodes) :
    Appends s (s.storeCosts c) :=
  (Appends.storeTable s (.inl (by rw [h.1]; decide))).trans (Appends.storeTable _ (.inl (by rw [h.2]; decide)))

theorem runGreedy_appends (s : State) (a b : Nat) : Appends s (s.runGreedy hw a b).2 := by
  have hcache : Cache.Rising s.cache → Cache.Rising (greedyParse hw s.searchCtx s.opt.lazy a b s.cache).2 :=
    greedyParse_keeps (R := Cache.Rising) (fun _ p _ hc => cachedRec_rising _ hc p) _ a
  exact ((withCache_appends hcache).trans (.storeEntries _ .g 0 _)).trans (.of_update rfl id)

theorem runSplit_length_le (s : State) (entries : List Entry) : (s.runSplit hw entries).1.length ≤ hw.planCap := by
  simpa [State.runSplit] using bisect_length_le _ _ _ _

theorem runSplit_appends (s : State) (entries : List Entry) : Appends s (s.runSplit hw entries).2 := by
  have hplan : Region.plan.base + 32 * hw.planCap ≤ Region.input.base := by decide
  have hlen := runSplit_length_le s entries
  have hwords : Appends s (s.storeWords (planAddr 0 0) ((s.runSplit hw entries).1.flatMap PlanBlock.words)) := by
    refine .storeWords s (.inl (le_trans ?_ hplan))
    rw [length_flatMap_planWords]
    unfold planAddr
    omega
  exact hwords.trans (.of_update rfl id)

theorem runSqueeze_appends (s : State) {j : Nat} (hj : j ≤ hw.planCap) (a b : Nat) (block : List Entry) :
    Appends s (s.runSqueeze hw j a b block).2 :=
  ((((withCache_appends (squeezeBlock_rising s a b block)).trans (.storeEntries _ .s _ _)).trans
    (storePlan_appends _ hj (by simp))).trans (storePlan_appends _ hj (by simp))).trans
    (.of_update rfl id)

/-! ## COMPRESS -/

theorem compressStart_effect (s : State) : Effect s s.compressStart :=
  { status := rfl, errInfo := rfl, opt := rfl, arg := rfl, issue := rfl, host := rfl, epoch := rfl, memory := id
    cache := fun _ => List.Pairwise.nil, input := fun _ _ => rfl, outCap := fun _ _ => Nat.zero_le _ }

theorem compressBlock_appends (s : State) {j : Nat} (hj : j ≤ hw.planCap) (final : Bool) (p : PlanBlock)
    (entries : List Entry) : (s.compressBlock hw j final p entries).Ends (Appends s) := by
  have hstart : Appends s { s with obs := { s.obs with curBlock := word j } } := .of_update rfl id
  have hsqueeze := hstart.trans (runSqueeze_appends _ hj p.a p.b (slice entries p.gs p.ge))
  unfold State.compressBlock
  refine Run.Ends.andThen_appends (Run.Ends.imp ?_ fun _ => hsqueeze.trans) fun t _ => storePlan_appends t hj (by simp)
  split
  · exact fixedBlock_appends _ final _
  · exact autoBlock_appends _ _ _ final _

theorem compressBlocks_appends (entries : List Entry) (blocks : List PlanBlock) {j : Nat} (s : State)
    (hj : j + blocks.length ≤ hw.planCap) : (compressBlocks hw entries blocks j s).Ends (Appends s) := by
  induction blocks generalizing j s with
  | nil => exact .refl s
  | cons p ps ih =>
    rw [List.length_cons] at hj
    exact (compressBlock_appends s (by omega) _ p entries).andThen_appends fun t _ => ih t (by omega)

theorem compressBody_appends (s : State) : (compressBody hw s).Ends (Appends s) := by
  unfold compressBody
  split
  · exact storedBlocks_appends _ _ true s
  · refine (compressBlocks_appends _ _ _ ?_).imp fun _ =>
      ((runGreedy_appends s 0 s.inputLen).trans (runSplit_appends _ _)).trans
    have := runSplit_length_le (s.runGreedy hw 0 s.inputLen).2 (s.runGreedy hw 0 s.inputLen).1
    omega

theorem compressResults_appends (bits : Nat) (s : State) : Appends s (s.compressResults bits) := by
  unfold State.compressResults
  split <;> exact .of_update rfl id

theorem compressEnd_appends (s : State) : (compressEnd s).Ends (Appends s) := by
  unfold compressEnd
  split
  · exact ⟨⟨nofun, nofun⟩, .refl s⟩
  · exact .refl s

theorem compressCmd_effect (s : State) : (compressCmd hw s).Ends (Effect s) := by
  have hrun : ((compressBody hw s.compressStart).andThen fun s₁ =>
      (flush s₁).andThen fun s₂ => compressEnd (s₂.compressResults s₁.streamPos)).Ends (Appends s.compressStart) :=
    (compressBody_appends _).andThen_appends fun s₁ _ => (flush_appends s₁).andThen_appends fun s₂ _ =>
      (compressEnd_appends _).imp fun _ => (compressResults_appends s₁.streamPos s₂).trans
  exact afterChecks_ends (checkCompress_raises s) (Appends.refl s).toEffect fun _ _ =>
    hrun.imp fun _ ht => (compressStart_effect s).trans ht.toEffect

/-! ## The other commands -/

section

variable (s : State) (final : Bool) (store : StoreSel)

theorem findmatchCmd_appends : (findmatchCmd hw s).Ends (Appends s) := by
  refine afterChecks_ends (checkFindmatch_raises s) (.refl s) fun _ _ => ?_
  have hcache := withCache_appends (s := s) fun h => cachedRec_rising s.searchCtx h (s.argOf .x0)
  exact (hcache.trans (.storeTable _ (.inl (by rw [sublenWords_length]; decide)))).trans (.of_update rfl id)

theorem greedyCmd_appends : (greedyCmd hw s).Ends (Appends s) :=
  afterChecks_ends (checkBytes_raises s _ _) (.refl s) fun _ _ => (runGreedy_appends s _ _).trans (setRes0_appends _ _)

theorem splitCmd_appends : (splitCmd hw s).Ends (Appends s) :=
  afterChecks_ends (checkSplit_raises s) (.refl s) fun entries _ =>
    (runSplit_appends s entries).trans (setRes0_appends _ _)

theorem coststatCmd_appends : (coststatCmd hw store s).Ends (Appends s) :=
  afterChecks_ends (loadRange_raises s store _ _) (.refl s) fun _ _ => storeCosts_appends s (costStat_length _ _)

theorem costfixedCmd_appends : (costfixedCmd hw s).Ends (Appends s) := storeCosts_appends s costFixed_length

theorem sppassCmd_appends : (sppassCmd hw s).Ends (Appends s) := by
  refine afterChecks_ends (checkSppass_raises s) (.refl s) fun _ _ => ?_
  have hcache := withCache_appends (s := s) (shortestPath_keeps (R := Cache.Rising)
    (fun _ p _ hc => cachedRec_rising s.searchCtx hc p) (s.loadCosts hw) (s.argOf .x0) (b := s.argOf .x1))
  exact (hcache.trans (.storeEntries _ .s _ _)).trans (.of_update rfl id)

/-- SQUEEZE checks that its plan entry lies in PLAN. -/
theorem argOf_le_of_checkSqueeze {es : List Entry} (h : checkSqueeze hw s = .ok es) : s.argOf .x0 ≤ hw.planCap := by
  simp only [checkSqueeze, except_bind_eq_ok, require_eq_ok, decide_eq_true_eq] at h
  obtain ⟨_, _, _, _, _, hcap, _, hj, _⟩ := h
  exact hj.le.trans hcap

theorem squeezeCmd_appends : (squeezeCmd hw s).Ends (Appends s) :=
  afterChecks_ends (checkSqueeze_raises s) (.refl s) fun _ h =>
    (((runSqueeze_appends s (argOf_le_of_checkSqueeze s h) _ _ _).trans (setRes0_appends _ _)).trans
      (setRes1_appends _ _)).trans (setRes2_appends _ _)

theorem countCmd_appends : (countCmd hw store s).Ends (Appends s) :=
  afterChecks_ends (loadRange_raises s store _ _) (.refl s) fun _ _ =>
    ((Appends.storeTable s (.inl (by rw [countSyms_fst_length]; decide))).trans
      (.storeTable _ (.inl (by rw [countSyms_snd_length]; decide)))).trans (setRes0_appends _ _)

/-- HUFFLEN and CANON check that their alphabet has at most 288 symbols. -/
theorem argOf_le_of_checkAlphabet {u : Unit} (h : checkAlphabet s = .ok u) : s.argOf .x0 ≤ 288 := by
  simp only [checkAlphabet, require_eq_ok, Bool.and_eq_true, decide_eq_true_eq] at h
  exact h.2

theorem hufflenCmd_appends : (hufflenCmd hw s).Ends (Appends s) := by
  refine afterChecks_ends (checkHufflen_raises s) (.refl s) fun r h => ?_
  have hlen : r.1.length ≤ 288 := by
    simp only [checkHufflen, except_bind_eq_ok, pure, Except.pure, Except.ok.injEq] at h
    obtain ⟨_, hn, _, _, _, _, rfl⟩ := h
    simpa [readTable_length] using argOf_le_of_checkAlphabet s hn
  have hoff : OffStream Region.len.base (4 * (katajainen r.1 (s.argOf .x1)).length) := by
    have hbase : Region.len.base + 4 * 288 ≤ Region.input.base := by decide
    rw [katajainen_length]
    exact .inl (by omega)
  exact (Appends.storeTable s hoff).trans (setRes0_appends _ _)

theorem canonCmd_appends : (canonCmd hw s).Ends (Appends s) := by
  refine afterChecks_ends (checkCanon_raises s) (.refl s) fun lens h => ?_
  have hlen : lens.length ≤ 288 := by
    simp only [checkCanon, except_bind_eq_ok, pure, Except.pure, Except.ok.injEq] at h
    obtain ⟨_, hn, _, _, _, _, rfl⟩ := h
    simpa [readTable_length] using argOf_le_of_checkAlphabet s hn
  have hoff : OffStream Region.code.base (4 * (canonical hw lens).length) := by
    have hbase : Region.code.base + 4 * 288 ≤ Region.input.base := by decide
    rw [canonical_length]
    exact .inl (by omega)
  exact (Appends.storeTable s hoff).trans (.of_update rfl id)

theorem wbits_appends :
    (afterChecks s (checkWbits s) fun _ => putAll (bitsOf (s.argOf .x0) (s.argOf .x1)) s).Ends (Appends s) :=
  afterChecks_ends (checkWbits_raises s) (.refl s) fun _ _ => putAll_appends _ s

theorem wflush_appends : ((flush s).andThen fun s' => .ok (s'.setRes0 s.flushCount)).Ends (Appends s) :=
  (flush_appends s).andThen_appends fun t _ => setRes0_appends t _

theorem wstoredCmd_appends : (wstoredCmd hw final s).Ends (Appends s) :=
  afterChecks_ends (checkBytes_raises s _ _) (.refl s) fun _ _ =>
    (storedBlocks_appends _ _ final s).andThen_appends fun t _ => setRes0_appends t _

theorem wfixedCmd_appends : (wfixedCmd hw final store s).Ends (Appends s) :=
  afterChecks_ends (loadRange_raises s store _ _) (.refl s) fun _ _ =>
    (fixedBlock_appends _ final s).andThen_appends fun t _ => setRes0_appends t _

theorem wdynamicCmd_appends : (wdynamicCmd hw final store s).Ends (Appends s) :=
  afterChecks_ends (loadRange_raises s store _ _) (.refl s) fun _ _ =>
    (dynamicBlock_appends _ final s).andThen_appends fun t _ => setRes0_appends t _

theorem wautoCmd_appends : (wautoCmd hw final store s).Ends (Appends s) :=
  afterChecks_ends (loadTiledRange_raises s store) (.refl s) fun _ _ =>
    (autoBlock_appends _ _ _ final s).andThen_appends fun _ _ => .of_update rfl id

theorem blkcostCmd_appends : (blkcostCmd hw store s).Ends (Appends s) :=
  afterChecks_ends (loadTiledRange_raises s store) (.refl s) fun _ _ => .of_update rfl id

end

/-! ## Every command, once -/

/-- A command other than SRESET, COMPRESS and WRESET ends a rule that only appends to the stream. -/
theorem exec_appends (i : Instr) (s : State) (hsreset : i ≠ .sreset) (hcompress : i ≠ .compress)
    (hwreset : i ≠ .wreset) : ∃ r : Run, r.Ends (Appends s) ∧ exec i s = r.finish := by
  cases i with
  | sreset => exact absurd rfl hsreset
  | compress => exact absurd rfl hcompress
  | wreset => exact absurd rfl hwreset
  | nop => exact ⟨.ok s, .refl s, rfl⟩
  | cacheclr => exact ⟨.ok s.clearCache, .of_update rfl fun _ => List.Pairwise.nil, rfl⟩
  | findmatch => exact ⟨_, findmatchCmd_appends s, rfl⟩
  | greedy => exact ⟨_, greedyCmd_appends s, rfl⟩
  | split => exact ⟨_, splitCmd_appends s, rfl⟩
  | coststat store => exact ⟨_, coststatCmd_appends s store, rfl⟩
  | costfixed => exact ⟨_, costfixedCmd_appends s, rfl⟩
  | sppass => exact ⟨_, sppassCmd_appends s, rfl⟩
  | squeeze => exact ⟨_, squeezeCmd_appends s, rfl⟩
  | count store => exact ⟨_, countCmd_appends s store, rfl⟩
  | hufflen => exact ⟨_, hufflenCmd_appends s, rfl⟩
  | canon => exact ⟨_, canonCmd_appends s, rfl⟩
  | wbits => exact ⟨_, wbits_appends s, rfl⟩
  | wflush => exact ⟨_, wflush_appends s, rfl⟩
  | wstored final => exact ⟨_, wstoredCmd_appends s final, rfl⟩
  | wfixed final store => exact ⟨_, wfixedCmd_appends s final store, rfl⟩
  | wdynamic final store => exact ⟨_, wdynamicCmd_appends s final store, rfl⟩
  | wauto final store => exact ⟨_, wautoCmd_appends s final store, rfl⟩
  | blkcost store => exact ⟨_, blkcostCmd_appends s store, rfl⟩

/-- A command other than SRESET ends a rule that keeps what the host owns. -/
theorem exec_effect (i : Instr) (s : State) (hsreset : i ≠ .sreset) :
    ∃ r : Run, r.Ends (Effect s) ∧ exec i s = r.finish := by
  by_cases hcompress : i = .compress
  · subst hcompress
    exact ⟨_, compressCmd_effect s, rfl⟩
  by_cases hwreset : i = .wreset
  · subst hwreset
    exact ⟨.ok s.resetStream, { Appends.refl s with outCap := fun _ _ => Nat.zero_le _ }, rfl⟩
  obtain ⟨r, hr, hexec⟩ := exec_appends i s hsreset hcompress hwreset
  exact ⟨r, hr.imp fun _ => Appends.toEffect, hexec⟩

/-- How a rule that meets R comes to its end: completion, or the entry of an error that rules raise. -/
theorem Run.Ends.finish_eq_next {R : State → Prop} {r : Run} (h : r.Ends R) {t : State} (ht : r.finish = .next t) :
    ∃ u, R u ∧ (t = u.complete ∨ ∃ e : CmdError, e.Raised ∧ t = u.raiseError e) := by
  cases r with
  | ok u =>
    cases ht
    exact ⟨u, h, .inl rfl⟩
  | stop e u =>
    cases ht
    exact ⟨u, h.2, .inr ⟨e, h.1, rfl⟩⟩

end Sys2Proof.Machine
end

section
/-! PROOFS. What no command writes, and what it leaves of the stream. -/

namespace Sys2Proof.Machine

open Config (hw)

/-! ## What the host owns -/

/-- The end of a rule, well or in error, changes STATUS, ERRINFO and the account of the command only. -/
theorem Run.Ends.finish_frame {R : State → Prop} {r : Run} (h : r.Ends R) {t : State} (ht : r.finish = .next t) :
    ∃ u, R u ∧ t = { u with status := t.status, errInfo := t.errInfo, issue := t.issue } := by
  obtain ⟨u, hu, rfl | ⟨e, -, rfl⟩⟩ := h.finish_eq_next ht <;> exact ⟨u, hu, rfl⟩

/-- Settles O24: SRESET keeps the memories and the host as they are, and the rule of every other command is an
`Effect`. -/
theorem commandsKeepWhatTheHostOwns : Obligations.CommandsKeepWhatTheHostOwns := by
  intro i s t ht
  by_cases hi : i = .sreset
  · subst hi
    cases ht
    exact ⟨fun h => absurd rfl h, rfl, rfl, fun _ _ => rfl⟩
  · obtain ⟨r, hr, hexec⟩ := exec_effect i s hi
    obtain ⟨u, hu, heq⟩ := hr.finish_frame (hexec ▸ ht)
    rw [heq]
    exact ⟨fun _ => ⟨hu.opt, hu.arg⟩, hu.host, hu.epoch, hu.input⟩

/-! ## The output of a running command -/

theorem final_eq {s t : State} {w : Word} (hword : s.issue.word = some w) (ht : runCommand chip w s = .next t) :
    s.final chip = t := by
  unfold State.final
  simp [hword, ht]

/-- Once the output has begun to show, it shows no more than the command leaves (log 13). -/
theorem busyOutLen_le_final {s : State} (hp : s.issue.progress ≠ 0) :
    s.busyOutLen chip ≤ (s.final chip).packer.outLen.toNat := by
  unfold State.busyOutLen
  rw [if_neg hp]
  split <;> exact Nat.min_le_right _ _

/-- Settles O20: an appending rule keeps the bytes below OUT_LEN, and what a host sees of a running command is by
definition a part of what it leaves. -/
theorem outputBelowOutLenIsFinal : Obligations.OutputBelowOutLenIsFinal := by
  refine ⟨fun i s t hsreset hcompress hwreset hcap ht => ?_, fun s t w hword hb hp ht => ?_⟩
  · obtain ⟨r, hr, hexec⟩ := exec_appends i s hsreset hcompress hwreset
    obtain ⟨u, hu, heq⟩ := hr.finish_frame (hexec ▸ ht)
    rw [heq]
    exact ⟨hu.outLen, fun k hk => hu.outBytes k hk (hk.trans_le hcap)⟩
  · have hlen := busyOutLen_le_final hp
    rw [final_eq hword ht] at hlen
    refine ⟨by simpa [State.visibleOutLen, hb] using hlen, fun k _ => ?_⟩
    simp [State.visibleOutByte, hb, hp, final_eq hword ht]

end Sys2Proof.Machine
end

section
/-! PROOFS. The invariant of the machine: every host access and every command keeps it. -/

namespace Sys2Proof.Machine

open Config (hw)

/-! ## Commands -/

theorem Inv.busy_eq_true {s : State} (h : Inv s) {w : Word} (hword : s.issue.word = some w) : s.status.busy = true := by
  rw [h.busy, hword]
  rfl

theorem Inv.busy_eq_false {s : State} (h : Inv s) (hword : s.issue.word = none) : s.status.busy = false := by
  rw [h.busy, hword]
  rfl

/-- A command that ends without error leaves the flags of a clean machine with DONE set. -/
theorem Inv.complete {s u : State} (h : Inv s) (hb : s.status.busy = true) (hu : Effect s u) : Inv u.complete := by
  have herr : u.status.err = false := hu.status ▸ (h.busyClean hb).2
  have hcode : u.status.errCode = .none := hu.status ▸ h.errCode.1 (h.busyClean hb).2
  exact
    { memory := hu.memory h.memory
      positions := hu.cache h.positions
      busy := rfl
      idleIssue := fun _ => rfl
      idlePhase := fun _ => rfl
      busyClean := nofun
      errCode := by simp [herr, hcode]
      errInfo := fun _ => hu.errInfo.trans (h.errInfo (h.busyClean hb).2)
      notInternal := by simp [hcode]
      ctrlReserved := hu.opt ▸ h.ctrlReserved
      inErrReserved := hu.opt ▸ h.inErrReserved
      absentReserved := hu.opt ▸ h.absentReserved
      outLimit := hu.opt ▸ h.outLimit
      outLen := hu.outCap h.outLimit h.outLen }

/-- A command that ends in error leaves ERR with a code that rules raise. -/
theorem Inv.raiseError {s u : State} (h : Inv s) (hu : Effect s u) {e : CmdError} (he : e.Raised) :
    Inv (u.raiseError e) :=
  { memory := hu.memory h.memory
    positions := hu.cache h.positions
    busy := rfl
    idleIssue := fun _ => rfl
    idlePhase := fun _ => rfl
    busyClean := nofun
    errCode := by simp [he.1]
    errInfo := nofun
    notInternal := he.2
    ctrlReserved := hu.opt ▸ h.ctrlReserved
    inErrReserved := hu.opt ▸ h.inErrReserved
    absentReserved := hu.opt ▸ h.absentReserved
    outLimit := hu.opt ▸ h.outLimit
    outLen := hu.outCap h.outLimit h.outLen }

/-- A state with the registers at their reset values, up to DONE and the memories. -/
theorem Inv.of_resetRegisters {s : State} (hmem : Memory.wf s.mem) (hcache : s.cache = [])
    (hstatus : s.status = { Status.reset with done := s.status.done }) (hinfo : s.errInfo = 0)
    (hopt : s.opt = .reset hw) (hpacker : s.packer = .reset) (hissue : s.issue = .none) : Inv s where
  memory := hmem
  positions := hcache ▸ List.Pairwise.nil
  busy := by rw [hstatus, hissue]; rfl
  idleIssue _ := hissue
  idlePhase _ := by rw [hstatus]; rfl
  busyClean hb := by rw [hstatus] at hb; exact nomatch hb
  errCode := by rw [hstatus]; simp [Status.reset]
  errInfo _ := hinfo
  notInternal := by rw [hstatus]; exact nofun
  ctrlReserved := by rw [hopt]; rfl
  inErrReserved := by rw [hopt]; rfl
  absentReserved := by rw [hopt]; rfl
  outLimit := by rw [hopt]; exact le_rfl
  outLen := by rw [hpacker]; exact Nat.zero_le _

theorem Inv.exec {s t : State} (h : Inv s) (hb : s.status.busy = true) {i : Instr} (ht : exec i s = .next t) :
    Inv t := by
  by_cases hi : i = .sreset
  · subst hi
    cases ht
    exact .of_resetRegisters h.memory rfl rfl rfl rfl rfl rfl
  · obtain ⟨r, hr, hexec⟩ := exec_effect i s hi
    obtain ⟨u, hu, rfl | ⟨e, he, rfl⟩⟩ := hr.finish_eq_next (hexec ▸ ht)
    · exact h.complete hb hu
    · exact h.raiseError hu he

theorem Inv.runCommand {s t : State} (h : Inv s) (hb : s.status.busy = true) {w : Word}
    (ht : runCommand chip w s = .next t) : Inv t := by
  rcases runCommand_cases w s with ⟨i, -, hrun⟩ | ⟨-, -, hrun⟩
  · exact h.exec hb (hrun ▸ ht)
  · rw [hrun] at ht
    cases ht
    exact h.raiseError (Appends.refl s).toEffect ⟨nofun, nofun⟩

/-! ## Host accesses -/

/-- An update of the fields the invariant does not speak of. -/
theorem Inv.of_update {s t : State} (h : Inv s)
    (ht : t = { s with
      status := { s.status with dropped := t.status.dropped }
      arg := t.arg, res := t.res, lens := t.lens, obs := t.obs, host := t.host, draws := t.draws }) : Inv t := by
  rw [ht]
  exact { h with }

theorem Inv.takeOp {s : State} (h : Inv s) (rest : List HostOp) : Inv (s.takeOp rest) :=
  { h with
    idleIssue := fun hword => by
      have hissue := h.idleIssue hword
      simp [hissue, Issue.none] }

theorem Inv.coreProgress {s : State} (h : Inv s) (hb : s.status.busy = true) : Inv (s.coreProgress hw) := by
  obtain ⟨phase, progress, place, draws, heq⟩ := coreProgress_frame hw s
  rw [heq]
  have hbusy : s.status.busy ≠ false := by simp [hb]
  exact { h with
    idleIssue := fun hword => absurd (h.busy_eq_false hword) hbusy
    idlePhase := fun hidle => absurd hidle hbusy }

theorem noteRead_issue_of_idle {s : State} (hb : s.status.busy = false) (a : Nat) (v : Word) :
    (s.noteRead a v).issue = s.issue := by
  simp [State.noteRead, hb]

theorem Inv.noteRead {s : State} (h : Inv s) (a : Nat) (v : Word) : Inv (s.noteRead a v) :=
  { h with
    idleIssue := fun hword => (noteRead_issue_of_idle (h.busy_eq_false hword) a v).trans (h.idleIssue hword) }

theorem Inv.hostRead {s : State} (h : Inv s) (a n : Nat) : Inv (hostReadValue chip a n s).2 := by
  cases hb : s.status.busy
  · rw [hostReadValue_of_idle s hb]
    exact (h.of_update (t := s.draw.2) rfl).noteRead a _
  · rw [hostReadValue_of_busy s hb]
    exact ((h.coreProgress hb).of_update (t := (s.coreProgress hw).draw.2) rfl).noteRead a _

theorem Inv.ackStatus {s : State} (h : Inv s) (v : Word) : Inv (s.ackStatus v) := by
  cases hb : s.status.busy
  · rw [ackStatus_of_idle v hb h.notInternal]
    have hbusy : false = s.issue.word.isSome := hb ▸ h.busy
    cases v.getLsbD 2
    · exact { h with busy := hbusy, idlePhase := fun _ => h.idlePhase hb, busyClean := nofun }
    · exact { h with
        busy := hbusy
        idlePhase := fun _ => h.idlePhase hb
        busyClean := nofun
        errCode := ⟨fun _ => rfl, fun _ => rfl⟩
        errInfo := fun _ => rfl
        notInternal := nofun }
  · rw [ackStatus_of_busy v hb]
    exact h.of_update rfl

/-- An accepted command word: idle with ERR 0 before, BUSY with DONE and ERR 0 after (40_control.md R401). -/
theorem Inv.accept {s : State} (h : Inv s) (herr : s.status.err = false) (w : Word) (left : Nat) :
    Inv (s.accept w left) :=
  { h with
    busy := rfl
    idleIssue := nofun
    idlePhase := nofun
    busyClean := fun _ => ⟨rfl, herr⟩ }

theorem writeCsr_cmd (s : State) (v : Word) :
    s.writeCsr hw .cmd v =
      if s.status.err then s.drop else { s with draws := s.draws + 1 }.accept v (Config.busyAccesses s.draws) := rfl

theorem Inv.writeCsr {s : State} (h : Inv s) (c : Csr) (v : Word) : Inv (s.writeCsr hw c v) := by
  cases c
  case cmd =>
    rw [writeCsr_cmd]
    split
    · exact h.of_update rfl
    · next herr => exact (h.of_update (t := { s with draws := s.draws + 1 }) rfl).accept (by simpa using herr) v _
  case status => exact h.ackStatus v
  case ctrl => exact { h with ctrlReserved := by simp [State.writeCsr, BitVec.and_assoc] }
  case inErr => exact { h with inErrReserved := by simp [State.writeCsr, BitVec.and_assoc] }
  case absentCost => exact { h with absentReserved := by simp [State.writeCsr, BitVec.and_assoc] }
  case outLimit =>
    exact { h with outLimit := (csrValue_writeCsr_outLimit s v).le.trans (Nat.min_le_right _ _) }
  case inLen => exact { h with positions := List.Pairwise.nil }
  case maxChain => exact { h with positions := List.Pairwise.nil }
  all_goals exact { h with }

theorem Inv.writeRegion {s : State} (h : Inv s) (r : Region) (a n : Nat) (v : Word) : Inv (s.writeRegion r a n v) := by
  have hmem := State.writeRegion_wf h.memory r a n v
  cases r
  case input => exact { h with memory := hmem, positions := List.Pairwise.nil }
  all_goals exact { h with memory := hmem }

theorem Inv.hostWrite {s : State} (h : Inv s) (a n : Nat) (v : Word) : Inv (hostWriteState hw a n v s) := by
  rcases hostWriteState_cases s v a n with heq | heq | heq | ⟨-, ⟨c, heq⟩ | ⟨r, heq⟩⟩ <;> rw [heq]
  · exact h
  · exact h.ackStatus v
  · exact h.of_update rfl
  · exact h.writeCsr c v
  · exact h.writeRegion r a n v

theorem Inv.hostStep {s : State} (h : Inv s) (op : HostOp) : Inv (hostStep chip op s) := by
  rcases hostStep_cases chip op s with ⟨a, n, p, -, -, heq⟩ | ⟨a, n, -, -, heq⟩ | ⟨a, n, v, -, -, heq⟩ |
    ⟨-, q, heq⟩ | ⟨-, heq⟩ <;> rw [heq]
  · exact h.of_update rfl
  · exact h.hostRead _ n
  · exact h.hostWrite _ n v
  · exact (h.hostRead Csr.status.offset 4).of_update rfl
  · exact .of_resetRegisters List.Pairwise.nil rfl rfl rfl rfl rfl rfl

/-- Settles O22: a step is the end of the command, one host access, or nothing. -/
theorem invariantKept : Obligations.InvariantKept := by
  intro s t h ht
  unfold step at ht
  rcases stepOf_cases chip s with ⟨w, hword, -, heq⟩ | ⟨op, rest, -, -, heq⟩ | ⟨-, -, heq⟩ <;> rw [heq] at ht
  · exact h.runCommand (h.busy_eq_true hword) ht
  · cases ht
    exact (h.takeOp rest).hostStep op
  · cases ht
    exact h

end Sys2Proof.Machine
end

section
/-! PROOFS. Host accesses: which are bus errors, what a read may change, and that every step answers a next state. -/

namespace Sys2Proof.Machine

open Config (hw)

/-! ## Bus errors -/

section BusProblems

variable {r : Region} {a n : Nat}

/-- What 20_memory.md R220 asks of an access to IN or OUT. -/
theorem legalAccess_bytes_iff (ha : r.covers hw a = true) (hr : r = .input ∨ r = .output) :
    LegalAccess a n ↔ (n = 1 ∨ n = 2 ∨ n = 4) ∧ a % n = 0 ∧ r.covers hw (a + n - 1) = true := by
  constructor
  · rintro (⟨q, -, hin, hout, hq, -, -⟩ | ⟨q, -, hn, hal, hq, hend⟩)
    · obtain rfl := Region.eq_of_covers hq ha
      exact (hr.elim hin hout).elim
    · obtain rfl := Region.eq_of_covers hq ha
      exact ⟨hn, hal, hend⟩
  · rintro ⟨hn, hal, hend⟩
    exact .inr ⟨r, hr, hn, hal, ha, hend⟩

/-- What 20_memory.md R220 asks of an access to the CSRs or a word memory. -/
theorem legalAccess_word_iff (ha : r.covers hw a = true) (hr : ¬ (r = .input ∨ r = .output)) :
    LegalAccess a n ↔ n = 4 ∧ a % 4 = 0 := by
  constructor
  · rintro (⟨-, -, -, -, -, hn, hal⟩ | ⟨q, hq, -, -, hqa, -⟩)
    · exact ⟨hn, hal⟩
    · exact absurd (Region.eq_of_covers hqa ha ▸ hq) hr
  · rintro ⟨hn, hal⟩
    exact .inl ⟨r, r.mem_all, fun h => hr (.inl h), fun h => hr (.inr h), ha, hn, hal⟩

/-- The bus accepts exactly the accesses of 20_memory.md R220. -/
theorem busProblem_eq_none_iff : busProblem hw a n = none ↔ LegalAccess a n := by
  unfold busProblem
  cases hreg : regionAt hw a with
  | none =>
    refine ⟨nofun, fun h => ?_⟩
    obtain ⟨r, hr⟩ := h.region
    rw [regionAt_eq_some_iff.2 hr] at hreg
    cases hreg
  | some r =>
    have ha := regionAt_eq_some_iff.1 hreg
    by_cases hr : r = .input ∨ r = .output
    · rw [legalAccess_bytes_iff ha hr]
      simp only [hr, if_true]
      split
      · next hn => exact ⟨nofun, fun h => by omega⟩
      · split
        · next hal => exact ⟨nofun, fun h => absurd h.2.1 hal⟩
        · next hn hal =>
          have hwidth : n = 1 ∨ n = 2 ∨ n = 4 := by omega
          simp [hwidth, not_not.1 hal]
    · rw [legalAccess_word_iff ha hr]
      simp only [hr, if_false]
      split
      · next hn => exact ⟨nofun, fun h => absurd h.1 hn⟩
      · split
        · next hal => exact ⟨nofun, fun h => absurd h.2 hal⟩
        · next hn hal => exact ⟨fun _ => ⟨not_not.1 hn, not_not.1 hal⟩, fun _ => rfl⟩

end BusProblems

/-! ## What an access leaves of the host's record -/

/-- Everything a host read may change, idle or BUSY: the record of the host's reads, the draws, and of a running
command PHASE and the model's account of what the host has seen (logs 5, 12 and 13). -/
theorem hostReadValue_frame (s : State) (a n : Nat) :
    ∃ phase progress seen place draws, (hostReadValue chip a n s).2 =
      { s with
        status := { s.status with phase := phase }
        issue := { s.issue with progress := progress, blockSeen := seen, phaseAt := place }
        host := { s.host with reads := (hostReadValue chip a n s).1 :: s.host.reads }
        draws := draws } := by
  cases hb : s.status.busy
  · rw [hostReadValue_of_idle s hb]
    exact ⟨_, _, _, _, _, rfl⟩
  · rw [hostReadValue_of_busy s hb]
    obtain ⟨phase, progress, place, draws, heq⟩ := coreProgress_frame hw s
    rw [heq]
    exact ⟨_, _, _, _, _, rfl⟩

theorem hostReadValue_host (s : State) (a n : Nat) :
    (hostReadValue chip a n s).2.host =
      { s.host with reads := (hostReadValue chip a n s).1 :: s.host.reads } := by
  obtain ⟨_, _, _, _, _, heq⟩ := hostReadValue_frame s a n
  rw [heq]

theorem hostReadValue_faults (s : State) (a n : Nat) : (hostReadValue chip a n s).2.host.faults = s.host.faults := by
  rw [hostReadValue_host]

theorem writeCsr_host (s : State) (c : Csr) (v : Word) : (s.writeCsr hw c v).host = s.host := by
  cases c
  case cmd => rw [writeCsr_cmd]; split <;> rfl
  all_goals rfl

theorem writeRegion_host (s : State) (r : Region) (a n : Nat) (v : Word) :
    (s.writeRegion r a n v).host = s.host := by
  cases r <;> rfl

theorem hostWriteState_host (s : State) (a n : Nat) (v : Word) : (hostWriteState hw a n v s).host = s.host := by
  rcases hostWriteState_cases s v a n with heq | heq | heq | ⟨-, ⟨c, heq⟩ | ⟨r, heq⟩⟩ <;> rw [heq]
  · rfl
  · rfl
  · exact writeCsr_host s c v
  · exact writeRegion_host s r a n v

section Accesses

variable (s : State) {a : Word} {n : Nat}

theorem hostStep_read_of_legal (h : LegalAccess a.toNat n) :
    hostStep chip (.read a n) s = (hostReadValue chip a.toNat n s).2 := by
  simp [hostStep, busProblem_eq_none_iff.2 h]

theorem hostStep_write_of_legal (v : Word) (h : LegalAccess a.toNat n) :
    hostStep chip (.write a n v) s = hostWriteState hw a.toNat n v s := by
  simp [hostStep, busProblem_eq_none_iff.2 h]

/-- An access that R220 does not accept is a fault of the host, for one reason whichever way it goes. -/
theorem exists_hostStep_eq_busFault (h : ¬ LegalAccess a.toNat n) :
    ∃ p, ∀ op, op = HostOp.read a n ∨ (∃ v, op = .write a n v) → hostStep chip op s = s.busFault (.busError p a n) := by
  obtain ⟨p, hp⟩ := Option.ne_none_iff_exists'.1 (mt busProblem_eq_none_iff.1 h)
  refine ⟨p, ?_⟩
  rintro _ (rfl | ⟨v, rfl⟩) <;> simp [hostStep, hp]

end Accesses

/-- Settles O13: the bus accepts exactly R220's accesses; those leave the record of the faults, any other is a fault of
the host and nothing else. -/
theorem busErrorsFaultTheHost : Obligations.BusErrorsFaultTheHost := by
  intro s a n v
  refine ⟨fun h => ?_, fun h => ?_⟩
  · rw [hostStep_read_of_legal s h, hostStep_write_of_legal s v h, hostReadValue_host, hostWriteState_host]
    exact ⟨rfl, List.cons_ne_self _ _, rfl⟩
  · obtain ⟨p, hp⟩ := exists_hostStep_eq_busFault s h
    exact ⟨p, fun op hop => hp op (hop.imp_right fun hwrite => ⟨v, hwrite⟩)⟩

/-! ## What a read changes -/

/-- The core's progress moves PHASE along the command's sequence (70_reset_and_hazards.md R1141). -/
theorem coreProgress_phase {s : State} {w : Word} (hword : s.issue.word = some w)
    (hplace : s.issue.phaseAt < (commandPhases hw w s).length) :
    s.issue.phaseAt ≤ (s.coreProgress hw).issue.phaseAt ∧
      (commandPhases hw w s)[(s.coreProgress hw).issue.phaseAt]? = some (s.coreProgress hw).status.phase := by
  obtain ⟨n, hat, hphase⟩ : ∃ n,
      (s.coreProgress hw).issue.phaseAt = placeAfter s.issue.phaseAt (commandPhases hw w s).length n ∧
      (s.coreProgress hw).status.phase = ((commandPhases hw w s)[placeAfter s.issue.phaseAt
        (commandPhases hw w s).length n]?).getD s.status.phase := by
    unfold State.coreProgress
    rw [hword]
    exact ⟨_, rfl, rfl⟩
  obtain ⟨hge, hlt⟩ := placeAfter_bounds n hplace
  rw [hat, hphase, List.getElem?_eq_getElem hlt]
  exact ⟨hge, rfl⟩

theorem hostReadValue_state_of_idle {s : State} (hb : s.status.busy = false) (a n : Nat) :
    (hostReadValue chip a n s).2 =
      { s with
        host := { s.host with reads := (hostReadValue chip a n s).1 :: s.host.reads }
        draws := s.draws + 1 } := by
  rw [hostReadValue_of_idle s hb]
  simp [State.noteRead, State.draw, hb]

/-- Settles O15: an idle read notes its value and one draw; a read while BUSY moves the core's progress before. -/
theorem hostReadsHaveNoSideEffects : Obligations.HostReadsHaveNoSideEffects := by
  refine fun s a n => ⟨fun hb => hostReadValue_state_of_idle hb a n, fun hb => ?_⟩
  have hphase : ∀ w, s.issue.word = some w → s.issue.phaseAt < (commandPhases hw w s).length →
      s.issue.phaseAt ≤ (hostReadValue chip a n s).2.issue.phaseAt ∧
        (commandPhases hw w s)[(hostReadValue chip a n s).2.issue.phaseAt]? =
          some (hostReadValue chip a n s).2.status.phase := by
    rw [hostReadValue_of_busy s hb]
    exact fun w hword hplace => coreProgress_phase hword hplace
  obtain ⟨_, _, _, _, _, heq⟩ := hostReadValue_frame s a n
  rw [heq] at hphase ⊢
  exact ⟨rfl, rfl, rfl, rfl, rfl, rfl, rfl, rfl, rfl, rfl, rfl, rfl, rfl, rfl, hphase⟩

/-! ## Every step answers a next state -/

theorem exists_exec_eq_next (i : Instr) (s : State) : ∃ t, exec i s = .next t := by
  by_cases hi : i = .sreset
  · subst hi
    exact ⟨_, rfl⟩
  · obtain ⟨r, -, hexec⟩ := exec_effect i s hi
    rcases r.finish_cases with ⟨t, -, h⟩ | ⟨e, t, -, h⟩ <;> exact ⟨_, hexec.trans h⟩

/-- The run of an accepted word, legal or not, ends and leaves the host's record. -/
theorem exists_runCommand_eq_next (w : Word) (s : State) :
    ∃ t, runCommand chip w s = .next t ∧ t.host = s.host := by
  rcases runCommand_cases w s with ⟨i, -, hrun⟩ | ⟨e, -, hrun⟩
  · obtain ⟨t, ht⟩ := exists_exec_eq_next i s
    exact ⟨t, hrun.trans ht, (commandsKeepWhatTheHostOwns i s t ht).2.1⟩
  · exact ⟨_, hrun, rfl⟩

/-- One operation of the host leaves the record of the faults, or adds the fault of an access R220 does not accept. -/
theorem hostStep_faults (op : HostOp) (s : State) :
    (hostStep chip op s).host.faults = s.host.faults ∨
      ∃ a n p, (op = .read a n ∨ ∃ v, op = .write a n v) ∧ ¬ LegalAccess a.toNat n ∧
        (hostStep chip op s).host.faults = .busError p a n :: s.host.faults := by
  rcases hostStep_cases chip op s with ⟨a, n, p, hop, hp, heq⟩ | ⟨a, n, -, -, heq⟩ | ⟨a, n, v, -, -, heq⟩ |
    ⟨-, q, heq⟩ | ⟨-, heq⟩ <;> rw [heq]
  · refine .inr ⟨a, n, p, hop, fun hl => ?_, rfl⟩
    rw [chip_params, busProblem_eq_none_iff.2 hl] at hp
    cases hp
  · exact .inl (hostReadValue_faults s a.toNat n)
  · exact .inl (congrArg HostSide.faults (hostWriteState_host s a.toNat n v))
  · exact .inl (hostReadValue_faults s Csr.status.offset 4)
  · exact .inl rfl

/-- Settles O8: every rule ends in one of two ways, both next states, and a step that is no command is one operation of
the host or nothing. -/
theorem stepNeverStops : Obligations.StepNeverStops := by
  refine ⟨exists_exec_eq_next, fun s => ?_⟩
  unfold step
  rcases stepOf_cases chip s with ⟨w, -, -, heq⟩ | ⟨op, rest, hpending, -, heq⟩ | ⟨-, -, heq⟩
  · obtain ⟨t, ht, hhost⟩ := exists_runCommand_eq_next w s
    exact ⟨t, heq.trans ht, .inl (congrArg HostSide.faults hhost)⟩
  · refine ⟨_, heq, (hostStep_faults op (s.takeOp rest)).imp id ?_⟩
    rintro ⟨a, n, p, hop, hl, hfaults⟩
    exact ⟨op, rest, a, n, p, hpending, hop, hl, hfaults⟩
  · exact ⟨s, heq, .inl rfl⟩

end Sys2Proof.Machine
end

section
/-! PROOFS. What a command leaves in the match cache: it reaches the cache through searches of positions of a legal
window alone, or empties it. -/

namespace Sys2Proof.Machine

open Config (hw)

/-! ## The cache along a rule -/

/-- The match cache where a rule has got to. -/
def Run.cache : Run → Cache
  | .ok t => t.cache
  | .stop _ t => t.cache

theorem Run.cache_of_finish {r : Run} {t : State} (ht : r.finish = .next t) : t.cache = r.cache := by
  cases r <;> cases ht <;> rfl

/-- The rest of a rule that leaves the cache as it finds it. -/
theorem Run.andThen_cache (r : Run) {k : State → Run} (hk : ∀ t, (k t).cache = t.cache) :
    (r.andThen k).cache = r.cache := by
  cases r with
  | ok t => exact hk t
  | stop e t => rfl

theorem afterChecks_cache {α : Type} {R : Cache → Prop} {s : State} {checks : Except CmdError α} {k : α → Run}
    (hs : R s.cache) (hk : ∀ a, checks = .ok a → R (k a).cache) : R (afterChecks s checks k).cache := by
  cases h : checks with
  | error e => exact hs
  | ok a => exact hk a h

/-! ## The bit packer and the block encoders leave the cache alone -/

@[simp] theorem putBit_cache (x : Bool) (s : State) : (putBit x s).cache = s.cache := by
  rcases putBit_cases x s with ⟨-, h⟩ | ⟨-, -, h⟩ | ⟨-, -, h⟩ <;> rw [h] <;> rfl

@[simp] theorem putAll_cache (bits : List Bool) (s : State) : (putAll bits s).cache = s.cache := by
  induction bits generalizing s with
  | nil => rfl
  | cons x xs ih => exact (Run.andThen_cache _ ih).trans (putBit_cache x s)

@[simp] theorem flush_cache (s : State) : (flush s).cache = s.cache := putAll_cache _ s

@[simp] theorem putHeader_cache (final : Bool) (n : Nat) (s : State) : (putHeader final n s).cache = s.cache :=
  (Run.andThen_cache _ fun _ => rfl).trans (putAll_cache _ s)

@[simp] theorem fixedBlock_cache (t : List Sym) (final : Bool) (s : State) :
    (fixedBlock hw t final s).cache = s.cache :=
  (Run.andThen_cache _ (putAll_cache _)).trans (putHeader_cache final 1 s)

@[simp] theorem dynamicBlock_cache (t : List Sym) (final : Bool) (s : State) :
    (dynamicBlock hw t final s).cache = s.cache :=
  (Run.andThen_cache _ (putAll_cache _)).trans (putHeader_cache final 2 s)

theorem storedChunksFrom_cache (final : Bool) (chunks : List Nat) (p : Nat) (s : State) :
    (storedChunksFrom final chunks p s).cache = s.cache := by
  induction chunks generalizing p s with
  | nil => rfl
  | cons len rest ih =>
    refine (Run.andThen_cache _ fun s₁ => ?_).trans (putHeader_cache _ 0 s)
    refine (Run.andThen_cache _ fun s₂ => ?_).trans (flush_cache s₁)
    exact (Run.andThen_cache _ (ih _)).trans (putAll_cache _ s₂)

@[simp] theorem storedBlocks_cache (a b : Nat) (final : Bool) (s : State) :
    (storedBlocks hw a b final s).cache = s.cache := storedChunksFrom_cache final _ a s

@[simp] theorem autoBlock_cache (t : List Sym) (a b : Nat) (final : Bool) (s : State) :
    (autoBlock hw t a b final s).cache = s.cache := by
  unfold autoBlock
  split
  · exact storedBlocks_cache a b final s
  · exact fixedBlock_cache t final s
  · exact dynamicBlock_cache t final s

/-! ## Commands that neither search nor empty the cache -/

/-- The commands that search for matches or empty the cache (41_lz77_parser.md R530, R532). -/
def usesCache : Instr → Bool
  | .sreset | .cacheclr | .compress | .findmatch | .greedy | .sppass | .squeeze => true
  | _ => false

/-- A rule with checks whose effects leave the cache alone. -/
theorem afterChecks_cache_eq {α : Type} {s : State} {checks : Except CmdError α} {k : α → Run}
    (hk : ∀ a, (k a).cache = s.cache) : (afterChecks s checks k).cache = s.cache :=
  afterChecks_cache (R := (· = s.cache)) rfl fun a _ => hk a

theorem exec_cache_of_not_usesCache {i : Instr} (hi : usesCache i = false) (s : State) :
    ∃ r : Run, exec i s = r.finish ∧ r.cache = s.cache := by
  cases i with
  | sreset => cases hi
  | cacheclr => cases hi
  | compress => cases hi
  | findmatch => cases hi
  | greedy => cases hi
  | sppass => cases hi
  | squeeze => cases hi
  | nop => exact ⟨.ok s, rfl, rfl⟩
  | split => exact ⟨_, rfl, afterChecks_cache_eq fun _ => rfl⟩
  | coststat store => exact ⟨_, rfl, afterChecks_cache_eq fun _ => rfl⟩
  | costfixed => exact ⟨costfixedCmd hw s, rfl, rfl⟩
  | count store => exact ⟨_, rfl, afterChecks_cache_eq fun _ => rfl⟩
  | hufflen => exact ⟨_, rfl, afterChecks_cache_eq fun _ => rfl⟩
  | canon => exact ⟨_, rfl, afterChecks_cache_eq fun _ => rfl⟩
  | wreset => exact ⟨.ok s.resetStream, rfl, rfl⟩
  | wbits => exact ⟨_, rfl, afterChecks_cache_eq fun _ => putAll_cache _ s⟩
  | wflush => exact ⟨_, rfl, (Run.andThen_cache _ fun _ => rfl).trans (flush_cache s)⟩
  | wstored final =>
    exact ⟨_, rfl, afterChecks_cache_eq fun _ => (Run.andThen_cache _ fun _ => rfl).trans (storedBlocks_cache _ _ _ s)⟩
  | wfixed final store =>
    exact ⟨_, rfl, afterChecks_cache_eq fun _ => (Run.andThen_cache _ fun _ => rfl).trans (fixedBlock_cache _ _ s)⟩
  | wdynamic final store =>
    exact ⟨_, rfl, afterChecks_cache_eq fun _ => (Run.andThen_cache _ fun _ => rfl).trans (dynamicBlock_cache _ _ s)⟩
  | wauto final store =>
    exact ⟨_, rfl, afterChecks_cache_eq fun _ => (Run.andThen_cache _ fun _ => rfl).trans (autoBlock_cache _ _ _ _ s)⟩
  | blkcost store => exact ⟨_, rfl, afterChecks_cache_eq fun _ => rfl⟩

/-! ## The window and what a search reads -/

@[simp] theorem searchCtx_window_length (s : State) : s.searchCtx.window.length = s.inputLen := by
  simp [State.searchCtx, State.window, State.readBytes, State.inputLen]

/-- Two states of the same legal window and MAXCHAIN: IN, IN_LEN and MAXCHAIN are all a search reads. -/
theorem searchCtx_congr {s t : State} (hN : s.inputLen ≤ hw.inCap) (hlen : t.opt.inLen = s.opt.inLen)
    (hchain : t.opt.maxChain = s.opt.maxChain)
    (hin : ∀ x, Region.input.covers hw x = true → t.readByte x = s.readByte x) : t.searchCtx = s.searchCtx := by
  have hwindow : t.window = s.window := by
    unfold State.window State.readBytes
    rw [hlen]
    refine List.map_congr_left fun k hk => hin _ (Region.covers_iff.2 ⟨Nat.le_add_right _ _, ?_⟩)
    have hk : k < s.inputLen := List.mem_range.1 hk
    exact Nat.add_lt_add_left ((hk.trans_le hN).trans_eq (one_mul _).symm) _
  unfold State.searchCtx
  rw [hwindow, hchain]

theorem Effect.searchCtx_eq {s t : State} (h : Effect s t) (hN : s.inputLen ≤ hw.inCap) :
    t.searchCtx = s.searchCtx :=
  searchCtx_congr hN (congrArg Options.inLen h.opt) (congrArg Options.maxChain h.opt) h.input

/-! ## Commands that search -/

/-- A property of the cache that the search of any position of the window keeps. -/
def KeptBySearch (R : Cache → Prop) (x : SearchCtx) : Prop :=
  ∀ c p, p < x.window.length → R c → R (cachedRec hw x c p).2

section Searches

variable {R : Cache → Prop} {s : State}

/-- The positions below b, as the parse, the pass and the squeeze of a range up to b search them. -/
theorem KeptBySearch.below (hR : KeptBySearch R s.searchCtx) {b : Nat} (hb : b ≤ s.inputLen) :
    ∀ c p, p < b → R c → R (cachedRec hw s.searchCtx c p).2 :=
  fun c p hp => hR c p (by rw [searchCtx_window_length]; omega)

theorem runGreedy_keeps (hR : KeptBySearch R s.searchCtx) (a : Nat) {b : Nat} (hb : b ≤ s.inputLen)
    (hs : R s.cache) : R (s.runGreedy hw a b).2.cache :=
  greedyParse_keeps (hR.below hb) s.opt.lazy a hs

theorem squeezeBlock_keeps (hR : KeptBySearch R s.searchCtx) (a : Nat) {b : Nat} (hb : b ≤ s.inputLen)
    (block : List Entry) (hs : R s.cache) : R (s.squeezeBlock hw a b block).cache :=
  squeezeLoop_keeps (hR.below hb) _ _ _ a _ hs

theorem findmatchCmd_keeps (hR : s.inputLen ≤ hw.inCap → KeptBySearch R s.searchCtx) (hs : R s.cache) :
    R (findmatchCmd hw s).cache := by
  refine afterChecks_cache hs fun _ h => ?_
  simp only [checkFindmatch, except_bind_eq_ok, checkWindow_eq_ok, require_eq_ok, decide_eq_true_eq] at h
  obtain ⟨-, hN, hp⟩ := h
  exact hR hN _ _ (by rwa [searchCtx_window_length]) hs

theorem greedyCmd_keeps (hR : s.inputLen ≤ hw.inCap → KeptBySearch R s.searchCtx) (hs : R s.cache) :
    R (greedyCmd hw s).cache := by
  refine afterChecks_cache hs fun _ h => ?_
  obtain ⟨hN, -, hb⟩ := checkBytes_eq_ok.1 h
  exact runGreedy_keeps (hR hN) _ hb hs

theorem sppassCmd_keeps (hR : s.inputLen ≤ hw.inCap → KeptBySearch R s.searchCtx) (hs : R s.cache) :
    R (sppassCmd hw s).cache := by
  refine afterChecks_cache hs fun _ h => ?_
  simp only [checkSppass, except_bind_eq_ok, checkBytes_eq_ok] at h
  obtain ⟨-, ⟨hN, -, hb⟩, -⟩ := h
  exact shortestPath_keeps ((hR hN).below hb) _ _ hs

theorem squeezeCmd_keeps (hR : s.inputLen ≤ hw.inCap → KeptBySearch R s.searchCtx) (hs : R s.cache) :
    R (squeezeCmd hw s).cache := by
  refine afterChecks_cache hs fun block h => ?_
  simp only [checkSqueeze, except_bind_eq_ok, checkWindow_eq_ok, require_eq_ok, Bool.and_eq_true,
    decide_eq_true_eq] at h
  obtain ⟨-, -, -, hN, -, -, -, -, -, -, -, -, -, ⟨-, hb⟩, -⟩ := h
  exact squeezeBlock_keeps (hR hN) _ hb block hs

end Searches

/-! ## COMPRESS -/

/-- A greedy parse emits no symbol at or above the end of its range. -/
theorem greedyFrom_pos_lt (x : SearchCtx) (lazy : Bool) (b k p : Nat) (c : Cache) :
    ∀ e ∈ (greedyFrom hw x lazy b k p c).1, e.pos < b := by
  induction k generalizing p c with
  | zero => exact nofun
  | succ k ih =>
    unfold greedyFrom
    by_cases hp : b ≤ p
    · simp [hp]
    · have hlt : p < b := not_le.1 hp
      simp only [hp, if_false]
      split
      · split
        · exact List.forall_mem_cons.2 ⟨hlt, ih _ _⟩
        · exact List.forall_mem_cons.2 ⟨hlt, ih _ _⟩
      · exact List.forall_mem_cons.2 ⟨hlt, ih _ _⟩

/-- A plan block ends at the end of the parse or where one of its symbols begins (43_block_splitter.md R712). -/
theorem planBlock_end_le {entries : List Entry} {gb : Nat} (he : ∀ e ∈ entries, e.pos < gb) (ga : Nat)
    (r : SymRange) : (planBlock entries ga gb r).b ≤ gb := by
  unfold planBlock
  simp only []
  split
  · exact le_rfl
  · cases hj : entries[r.j]? with
    | none => exact le_rfl
    | some e => exact (he e (List.mem_of_getElem? hj)).le

/-- Every block of the plan of COMPRESS ends inside the window. -/
theorem compress_block_end_le (s : State) {p : PlanBlock}
    (hp : p ∈ ((s.runGreedy hw 0 s.inputLen).2.runSplit hw (s.runGreedy hw 0 s.inputLen).1).1) :
    p.b ≤ s.inputLen := by
  obtain ⟨r, -, rfl⟩ := List.mem_map.1 hp
  have hgb : (s.runGreedy hw 0 s.inputLen).2.lens.gB.toNat = s.inputLen := by
    simp [State.runGreedy, State.inputLen]
  rw [hgb]
  exact planBlock_end_le (greedyFrom_pos_lt _ _ _ _ _ _) _ r

section Compress

variable {R : Cache → Prop} {s : State}

theorem compressBlock_keeps (hR : KeptBySearch R s.searchCtx) (j : Nat) (final : Bool) {p : PlanBlock}
    (hb : p.b ≤ s.inputLen) (entries : List Entry) (hs : R s.cache) : R (s.compressBlock hw j final p entries).cache := by
  unfold State.compressBlock
  simp only []
  rw [Run.andThen_cache _ fun _ => rfl]
  split
  · rw [fixedBlock_cache]
    exact squeezeBlock_keeps hR p.a hb _ hs
  · rw [autoBlock_cache]
    exact squeezeBlock_keeps hR p.a hb _ hs

theorem compressBlocks_keeps (hR : KeptBySearch R s.searchCtx) (hN : s.inputLen ≤ hw.inCap) (entries : List Entry)
    (blocks : List PlanBlock) {j : Nat} (hj : j + blocks.length ≤ hw.planCap) (hb : ∀ p ∈ blocks, p.b ≤ s.inputLen)
    (hs : R s.cache) : R (compressBlocks hw entries blocks j s).cache := by
  induction blocks generalizing j s with
  | nil => exact hs
  | cons p ps ih =>
    rw [List.length_cons] at hj
    obtain ⟨hp, hps⟩ := List.forall_mem_cons.1 hb
    have hcache := compressBlock_keeps hR j ps.isEmpty hp entries hs
    have happends := compressBlock_appends s (j := j) (by omega) ps.isEmpty p entries
    unfold compressBlocks
    cases hrun : s.compressBlock hw j ps.isEmpty p entries with
    | stop e t => rwa [hrun] at hcache
    | ok t =>
      rw [hrun] at hcache happends
      have ht : Appends s t := happends
      have hlen : t.inputLen = s.inputLen := congrArg (fun o : Options => o.inLen.toNat) ht.opt
      refine ih ?_ (hlen ▸ hN) (by omega) (hlen ▸ hps) hcache
      rwa [ht.toEffect.searchCtx_eq hN]

theorem compressBody_keeps (hR : KeptBySearch R s.searchCtx) (hN : s.inputLen ≤ hw.inCap) (hs : R s.cache) :
    R (compressBody hw s).cache := by
  unfold compressBody
  split
  · rwa [storedBlocks_cache]
  · have hstart := (runGreedy_appends s 0 s.inputLen).trans (runSplit_appends _ (s.runGreedy hw 0 s.inputLen).1)
    have hplan := runSplit_length_le (s.runGreedy hw 0 s.inputLen).2 (s.runGreedy hw 0 s.inputLen).1
    have hkept := hstart.toEffect.searchCtx_eq hN ▸ hR
    exact compressBlocks_keeps hkept hN _ _ (by omega) (fun p hp => compress_block_end_le s hp)
      (runGreedy_keeps hR 0 le_rfl hs)

theorem compressEnd_cache (t : State) : (compressEnd t).cache = t.cache := by
  unfold compressEnd
  split <;> rfl

theorem compressResults_cache (bits : Nat) (t : State) : (t.compressResults bits).cache = t.cache := by
  unfold State.compressResults
  split <;> rfl

theorem compressCmd_keeps (hR : s.inputLen ≤ hw.inCap → KeptBySearch R s.searchCtx) (hempty : R [])
    (hs : R s.cache) : R (compressCmd hw s).cache := by
  refine afterChecks_cache hs fun _ h => ?_
  simp only [checkCompress, except_bind_eq_ok, checkWindow_eq_ok] at h
  obtain ⟨-, -, hN⟩ := h
  have hend : ∀ s₁ : State,
      ((flush s₁).andThen fun s₂ => compressEnd (s₂.compressResults s₁.streamPos)).cache = s₁.cache := fun s₁ =>
    (Run.andThen_cache _ fun s₂ => (compressEnd_cache _).trans (compressResults_cache _ s₂)).trans (flush_cache s₁)
  rw [Run.andThen_cache _ hend]
  exact compressBody_keeps (s := s.compressStart) (hR hN) hN hempty

end Compress

/-! ## Every command, once -/

/-- A property of the cache that every search of the window keeps, and the empty cache has, is kept by every
command. -/
theorem exec_keeps_cache {R : Cache → Prop} {s t : State} (hR : s.inputLen ≤ hw.inCap → KeptBySearch R s.searchCtx)
    (hempty : R []) (hs : R s.cache) {i : Instr} (ht : exec i s = .next t) : R t.cache := by
  have hkeeps : ∀ r : Run, R r.cache → r.finish = .next t → R t.cache :=
    fun r hr hfin => by rwa [Run.cache_of_finish hfin]
  by_cases hi : usesCache i = false
  · obtain ⟨r, hexec, hcache⟩ := exec_cache_of_not_usesCache hi s
    exact hkeeps r (by rwa [hcache]) (hexec ▸ ht)
  cases i with
  | sreset => cases ht; exact hempty
  | cacheclr => cases ht; exact hempty
  | compress => exact hkeeps _ (compressCmd_keeps hR hempty hs) ht
  | findmatch => exact hkeeps _ (findmatchCmd_keeps hR hs) ht
  | greedy => exact hkeeps _ (greedyCmd_keeps hR hs) ht
  | sppass => exact hkeeps _ (sppassCmd_keeps hR hs) ht
  | squeeze => exact hkeeps _ (squeezeCmd_keeps hR hs) ht
  | _ => exact absurd rfl hi

end Sys2Proof.Machine
end

section
/-! PROOFS. The coherence of the match cache: every step keeps it. -/

namespace Sys2Proof.Machine

open Config (hw)

/-! ## Coherence with a window -/

/-- Every record of the cache is what a search of the given window computes, of a position of it. -/
def Cache.CoherentWith (x : SearchCtx) (c : Cache) : Prop :=
  ∀ e ∈ c, x.window.length ≤ hw.inCap ∧ e.1 < x.window.length ∧ e.2 = matchRec hw x.window x.maxChain e.1

theorem cacheCoherent_iff {s : State} : CacheCoherent s ↔ s.cache.CoherentWith s.searchCtx := by
  unfold CacheCoherent Cache.CoherentWith
  rw [searchCtx_window_length]
  rfl

theorem coherentWith_nil (x : SearchCtx) : Cache.CoherentWith x [] := nofun

/-- A hit changes nothing, and a miss stores what the search computes (41_lz77_parser.md R530). -/
theorem coherentWith_keptBySearch {x : SearchCtx} (hN : x.window.length ≤ hw.inCap) :
    KeptBySearch (Cache.CoherentWith x) x := by
  intro c p hp hc
  unfold cachedRec
  split
  · exact hc
  · intro e he
    rcases List.mem_append.1 he with he | he
    · exact hc e (List.mem_of_mem_filter he)
    · rcases List.mem_cons.1 he with rfl | he
      · exact ⟨hN, hp, rfl⟩
      · exact hc e (List.mem_of_mem_filter he)

/-- A cache coherent with the window of s is coherent in a state of the same IN, IN_LEN and MAXCHAIN. -/
theorem CacheCoherent.of_coherentWith {s t : State} (hc : t.cache.CoherentWith s.searchCtx)
    (hlen : t.opt.inLen = s.opt.inLen) (hchain : t.opt.maxChain = s.opt.maxChain)
    (hin : ∀ x, Region.input.covers hw x = true → t.readByte x = s.readByte x) : CacheCoherent t := by
  refine cacheCoherent_iff.2 fun e he => ?_
  have hN : s.inputLen ≤ hw.inCap := searchCtx_window_length s ▸ (hc e he).1
  rw [searchCtx_congr hN hlen hchain hin]
  exact hc e he

theorem CacheCoherent.of_cache_eq_nil {s : State} (h : s.cache = []) : CacheCoherent s :=
  cacheCoherent_iff.2 (h ▸ coherentWith_nil _)

/-- A change of neither the cache nor what a search reads. -/
theorem CacheCoherent.of_searchCtx_eq {s t : State} (h : CacheCoherent s) (hctx : t.searchCtx = s.searchCtx)
    (hcache : t.cache = s.cache) : CacheCoherent t := by
  rw [cacheCoherent_iff] at h ⊢
  rwa [hctx, hcache]

/-! ## Commands -/

/-- SRESET empties the cache; every other command keeps what the host owns, IN, IN_LEN and MAXCHAIN among it. -/
theorem CacheCoherent.exec {s t : State} (h : CacheCoherent s) {i : Instr} (ht : exec i s = .next t) :
    CacheCoherent t := by
  by_cases hi : i = .sreset
  · subst hi
    cases ht
    exact .of_cache_eq_nil rfl
  · obtain ⟨hown, -, -, hin⟩ := commandsKeepWhatTheHostOwns i s t ht
    have hopt := (hown hi).1
    have hkept : s.inputLen ≤ hw.inCap → KeptBySearch (Cache.CoherentWith s.searchCtx) s.searchCtx :=
      fun hN => coherentWith_keptBySearch (by rwa [searchCtx_window_length])
    exact .of_coherentWith (exec_keeps_cache hkept (coherentWith_nil _) (cacheCoherent_iff.1 h) ht)
      (congrArg Options.inLen hopt) (congrArg Options.maxChain hopt) hin

theorem CacheCoherent.runCommand {s t : State} (h : CacheCoherent s) {w : Word}
    (ht : runCommand chip w s = .next t) : CacheCoherent t := by
  rcases runCommand_cases w s with ⟨i, -, hrun⟩ | ⟨-, -, hrun⟩
  · exact h.exec (hrun ▸ ht)
  · rw [hrun] at ht
    cases ht
    exact h.of_searchCtx_eq rfl rfl

/-! ## Host accesses -/

theorem CacheCoherent.hostRead {s : State} (h : CacheCoherent s) (a n : Nat) :
    CacheCoherent (hostReadValue chip a n s).2 := by
  obtain ⟨_, _, _, _, _, heq⟩ := hostReadValue_frame s a n
  rw [heq]
  exact h.of_searchCtx_eq rfl rfl

/-- IN_LEN and MAXCHAIN empty the cache; no other CSR is read by a search. -/
theorem CacheCoherent.writeCsr {s : State} (h : CacheCoherent s) (c : Csr) (v : Word) :
    CacheCoherent (s.writeCsr hw c v) := by
  cases c
  case inLen => exact .of_cache_eq_nil rfl
  case maxChain => exact .of_cache_eq_nil rfl
  case cmd =>
    rw [writeCsr_cmd]
    split
    · exact h.of_searchCtx_eq rfl rfl
    · exact h.of_searchCtx_eq rfl rfl
  all_goals exact h.of_searchCtx_eq rfl rfl

/-- A word at an address of any region but IN and OUT meets neither (20_memory.md R210). -/
theorem offStream_of_covers {r : Region} {a : Nat} (ha : r.covers hw a = true) (hin : r ≠ .input)
    (hout : r ≠ .output) : OffStream a 4 := by
  have hmap : ∀ r ∈ Region.all, r = .input ∨ r = .output ∨
      r.base + r.stride * r.entries hw + 3 ≤ Region.input.base ∨ Region.output.base + hw.outCap ≤ r.base := by decide
  rw [Region.covers_iff] at ha
  rcases hmap r r.mem_all with h | h | h | h
  · exact absurd h hin
  · exact absurd h hout
  · exact .inl (by omega)
  · exact .inr (by omega)

theorem CacheCoherent.storeWord {s : State} (h : CacheCoherent s) {a : Nat} (ha : OffStream a 4) (w : Word) :
    CacheCoherent (s.storeWords a [w]) :=
  .of_coherentWith (s := s) (cacheCoherent_iff.1 h) rfl rfl (Appends.storeWords s (ws := [w]) ha).input

/-- A write to IN empties the cache; a write to any other memory stays off IN. -/
theorem CacheCoherent.writeRegion {s : State} (h : CacheCoherent s) {r : Region} {a : Nat}
    (ha : r.covers hw a = true) (n : Nat) (v : Word) : CacheCoherent (s.writeRegion r a n v) := by
  cases r
  case input => exact .of_cache_eq_nil rfl
  case csr | output | sublen => exact h
  all_goals exact h.storeWord (offStream_of_covers ha nofun nofun) _

theorem CacheCoherent.hostWrite {s : State} (h : CacheCoherent s) (a n : Nat) (v : Word) :
    CacheCoherent (hostWriteState hw a n v s) := by
  have hdrop : CacheCoherent s.drop := h.of_searchCtx_eq rfl rfl
  unfold hostWriteState
  split
  · exact h
  · split
    · exact h.of_searchCtx_eq rfl rfl
    · split
      · exact hdrop
      · split
        · exact h.writeCsr _ v
        · exact h
  · next hr =>
    split
    · exact hdrop
    · exact h.writeRegion (regionAt_eq_some_iff.1 hr) n v

theorem CacheCoherent.hostStep {s : State} (h : CacheCoherent s) (op : HostOp) :
    CacheCoherent (hostStep chip op s) := by
  rcases hostStep_cases chip op s with ⟨a, n, p, -, -, heq⟩ | ⟨a, n, -, -, heq⟩ | ⟨a, n, v, -, -, heq⟩ |
    ⟨-, q, heq⟩ | ⟨-, heq⟩ <;> rw [heq]
  · exact h.of_searchCtx_eq rfl rfl
  · exact h.hostRead _ n
  · exact h.hostWrite _ n v
  · exact (h.hostRead Csr.status.offset 4).of_searchCtx_eq rfl rfl
  · exact .of_cache_eq_nil rfl

/-- Settles O23: what a search reads is written by the host alone, and those writes empty the cache; a command fills
it by searches of the window it was accepted with. -/
theorem cacheCoherenceKept : Obligations.CacheCoherenceKept := by
  intro s t _ h ht
  unfold step at ht
  rcases stepOf_cases chip s with ⟨w, -, -, heq⟩ | ⟨op, rest, -, -, heq⟩ | ⟨-, -, heq⟩ <;> rw [heq] at ht
  · exact h.runCommand ht
  · cases ht
    exact CacheCoherent.hostStep (s := s.takeOp rest) (h.of_searchCtx_eq rfl rfl) op
  · cases ht
    exact h

end Sys2Proof.Machine
end

section
/-! PROOFS. Command words: a word is its fields, a row of the opcode map matches by fields, and so decoding is the
inverse of encoding and its refusals are those of the fields (30_encoding.md R310 to R315). -/

namespace Sys2Proof

/-! ## Words and fields -/

/-- Every bit of a word is in one of its fields. -/
@[simp] theorem CmdFields.toWord_ofWord (w : Word) : (CmdFields.ofWord w).toWord = w := by
  have hbit (i : Nat) (hi : i < 32) : (CmdFields.ofWord w).toWord.getLsbD i = w.getLsbD i := by
    simp only [toWord, ofWord, BitVec.getLsbD_append, BitVec.getLsbD_extractLsb', BitVec.getLsbD_ofBool]
    split
    · simp [*]
    · split
      · rw [show i = 8 by omega]
        simp
      · split
        · rw [show i = 9 by omega]
          simp
        · rw [show 10 + (i - 8 - 1 - 1) = i by omega]
          simp only [Bool.and_eq_right_iff_imp, decide_eq_true_eq]
          omega
  exact BitVec.eq_of_getLsbD_eq hbit

theorem CmdFields.ofWord_inj {w v : Word} : CmdFields.ofWord w = CmdFields.ofWord v ↔ w = v :=
  (Function.LeftInverse.injective CmdFields.toWord_ofWord).eq_iff

/-- A mask that covers OP and the reserved bits clears at most the two flags. -/
theorem CmdFields.ofWord_and {w m : Word} (hop : m.extractLsb' 0 8 = BitVec.allOnes 8)
    (hres : m.extractLsb' 10 22 = BitVec.allOnes 22) :
    CmdFields.ofWord (w &&& m) =
      { CmdFields.ofWord w with final := w.getLsbD 8 && m.getLsbD 8, store := w.getLsbD 9 && m.getLsbD 9 } := by
  simp only [ofWord, BitVec.extractLsb'_and, BitVec.getLsbD_and, hop, hres, BitVec.and_allOnes]

/-! ## The rows of the opcode map -/

/-- The OP value of a row (30_encoding.md R312). -/
def OpRow.op (r : OpRow) : BitVec 8 := r.pattern.extractLsb' 0 8

theorem OpRow.mask_mem : ∀ r ∈ opRows, r.mask ∈ [0xFFFFFFFF#32, 0xFFFFFEFF#32, 0xFFFFFDFF#32, 0xFFFFFCFF#32] := by
  decide

/-- A row's mask covers OP and the reserved bits, and its pattern is an OP alone (30_encoding.md R313). -/
theorem OpRow.mask_pattern : ∀ r ∈ opRows, r.mask.extractLsb' 0 8 = BitVec.allOnes 8 ∧
    r.mask.extractLsb' 10 22 = BitVec.allOnes 22 ∧ CmdFields.ofWord r.pattern = ⟨r.op, false, false, 0⟩ := by
  decide

/-- The flags a row's mask leaves free are those its command carries (30_encoding.md R310). -/
theorem OpRow.fieldsOf_build : ∀ r ∈ opRows, ∀ f t : Bool,
    fieldsOf (r.build f t) = ⟨r.op, f && !r.mask.getLsbD 8, t && !r.mask.getLsbD 9, 0⟩ := by
  decide

theorem map_op_opRows : opRows.map OpRow.op = knownOps := by decide

theorem OpRow.mem_finalOps_iff : ∀ r ∈ opRows, (r.op ∈ finalOps ↔ r.mask.getLsbD 8 = false) := by decide

theorem OpRow.mem_storeOps_iff : ∀ r ∈ opRows, (r.op ∈ storeOps ↔ r.mask.getLsbD 9 = false) := by decide

/-- The match-and-mask form of a row, by fields (30_encoding.md R313). -/
theorem OpRow.matches_iff {r : OpRow} (hr : r ∈ opRows) (w : Word) :
    w &&& r.mask = r.pattern ↔ w.extractLsb' 0 8 = r.op ∧ w.extractLsb' 10 22 = 0 ∧
      (w.getLsbD 8 = false ∨ r.mask.getLsbD 8 = false) ∧ (w.getLsbD 9 = false ∨ r.mask.getLsbD 9 = false) := by
  obtain ⟨hop, hres, hpattern⟩ := r.mask_pattern hr
  rw [← CmdFields.ofWord_inj, CmdFields.ofWord_and hop hres, hpattern]
  simp only [CmdFields.ofWord, CmdFields.mk.injEq, Bool.and_eq_false_iff]
  tauto

/-- No OP value stands twice in the map, so a word matches one row at most. -/
theorem OpRow.eq_of_matches {r q : OpRow} (hr : r ∈ opRows) (hq : q ∈ opRows) {w : Word}
    (hwr : w &&& r.mask = r.pattern) (hwq : w &&& q.mask = q.pattern) : r = q := by
  have hnodup : (opRows.map OpRow.op).Nodup := by decide
  obtain ⟨hopr, -⟩ := (r.matches_iff hr w).1 hwr
  obtain ⟨hopq, -⟩ := (q.matches_iff hq w).1 hwq
  exact List.inj_on_of_nodup_map hnodup hr hq (hopr.symm.trans hopq)

/-! ## The decoder -/

theorem decode_of_matches {r : OpRow} (hr : r ∈ opRows) {w : Word} (hw : w &&& r.mask = r.pattern) :
    decode w = .ok (r.build (w.getLsbD 8) (w.getLsbD 9)) := by
  unfold decode
  cases hfind : opRows.find? (fun q => w &&& q.mask == q.pattern) with
  | none => exact absurd hw (by simpa using List.find?_eq_none.1 hfind r hr)
  | some q =>
    have hwq : w &&& q.mask = q.pattern := by simpa using List.find?_some hfind
    rw [OpRow.eq_of_matches hr (List.mem_of_find?_eq_some hfind) hw hwq]

theorem decode_of_no_match {w : Word} (h : ∀ r ∈ opRows, w &&& r.mask ≠ r.pattern) :
    decode w = .error (((CmdFields.ofWord w).problem).getD .unknownOpcode) := by
  have hfind : opRows.find? (fun r => w &&& r.mask == r.pattern) = none := by simpa using h
  rw [decode, hfind]

/-- The word of the row a word matches, with its own flags, is the word itself. -/
theorem encode_build {r : OpRow} (hr : r ∈ opRows) {w : Word} (hw : w &&& r.mask = r.pattern) :
    encode (r.build (w.getLsbD 8) (w.getLsbD 9)) = w := by
  obtain ⟨hop, hres, hF, hT⟩ := (r.matches_iff hr w).1 hw
  have hfields : fieldsOf (r.build (w.getLsbD 8) (w.getLsbD 9)) = CmdFields.ofWord w := by
    rw [r.fieldsOf_build hr, CmdFields.ofWord, hop, hres]
    congr 1
    · rcases hF with h | h <;> simp only [h, Bool.false_and, Bool.not_false, Bool.and_true]
    · rcases hT with h | h <;> simp only [h, Bool.false_and, Bool.not_false, Bool.and_true]
  rw [encode, hfields, CmdFields.toWord_ofWord]

theorem encode_of_decode {w : Word} {i : Instr} (h : decode w = .ok i) : encode i = w := by
  by_cases hmatch : ∃ r ∈ opRows, w &&& r.mask = r.pattern
  · obtain ⟨r, hr, hw⟩ := hmatch
    rw [decode_of_matches hr hw] at h
    cases h
    exact encode_build hr hw
  · rw [decode_of_no_match (by simpa using hmatch)] at h
    cases h

/-- Every command has its word, by its line of the opcode map. -/
theorem commandWord (i : Instr) : Laws.CommandWord.Statement i := by
  cases i with
  | nop => exact Laws.CommandWord.nop
  | sreset => exact Laws.CommandWord.sreset
  | cacheclr => exact Laws.CommandWord.cacheclr
  | compress => exact Laws.CommandWord.compress
  | findmatch => exact Laws.CommandWord.findmatch
  | greedy => exact Laws.CommandWord.greedy
  | split => exact Laws.CommandWord.split
  | coststat t => exact Laws.CommandWord.coststat t
  | costfixed => exact Laws.CommandWord.costfixed
  | sppass => exact Laws.CommandWord.sppass
  | squeeze => exact Laws.CommandWord.squeeze
  | count t => exact Laws.CommandWord.count t
  | hufflen => exact Laws.CommandWord.hufflen
  | canon => exact Laws.CommandWord.canon
  | wreset => exact Laws.CommandWord.wreset
  | wbits => exact Laws.CommandWord.wbits
  | wflush => exact Laws.CommandWord.wflush
  | wstored f => exact Laws.CommandWord.wstored f
  | wfixed f t => exact Laws.CommandWord.wfixed f t
  | wdynamic f t => exact Laws.CommandWord.wdynamic f t
  | wauto f t => exact Laws.CommandWord.wauto f t
  | blkcost t => exact Laws.CommandWord.blkcost t

@[simp] theorem decode_encode (i : Instr) : decode (encode i) = .ok i := by
  obtain ⟨-, -, hdecode⟩ := commandWord i
  exact hdecode

/-- Settles O1: a command's word decodes to it, and the row a word matches keeps each of its bits. -/
theorem decodeAndEncodeAgree : Obligations.DecodeAndEncodeAgree := by
  intro w i
  exact ⟨encode_of_decode, fun h => h ▸ decode_encode i⟩

/-- Settles O4: the six words are `encode` of their commands, and decode by O1. -/
theorem workedEncodingsDecode : Obligations.WorkedEncodingsDecode := by
  have hencode : encode .nop = 0x00000000 ∧ encode .compress = 0x00000008 ∧ encode .findmatch = 0x00000010 ∧
      encode (.wfixed true .s) = 0x00000344 ∧ encode (.wauto true .g) = 0x00000146 ∧
      encode (.count .s) = 0x00000230 := by decide
  obtain ⟨hnop, hcompress, hfindmatch, hwfixed, hwauto, hcount⟩ := hencode
  exact ⟨(decodeAndEncodeAgree _ _).2 hnop, (decodeAndEncodeAgree _ _).2 hcompress,
    (decodeAndEncodeAgree _ _).2 hfindmatch, (decodeAndEncodeAgree _ _).2 hwfixed,
    (decodeAndEncodeAgree _ _).2 hwauto, (decodeAndEncodeAgree _ _).2 hcount,
    hnop, hcompress, hfindmatch, hwfixed, hwauto, hcount⟩

/-- Settles O2: the rows' masks and patterns are read off the map, and two rows that match one word have its OP. -/
theorem decodingSelectsOneRow : Obligations.DecodingSelectsOneRow := by
  intro w
  have hpairwise : opRows.Pairwise (fun r q => r.op ≠ q.op) := by decide
  refine ⟨fun r hr => ⟨r.mask_mem hr, r.matches_iff hr w⟩, ?_, fun r hr => decode_of_matches hr⟩
  refine hpairwise.imp_of_mem fun hr hq hne ⟨hwr, hwq⟩ => hne ?_
  rw [OpRow.eq_of_matches hr hq hwr hwq]

/-! ## Illegal words -/

theorem CmdFields.problem_eq_none_iff (c : CmdFields) : c.problem = none ↔
    c.reserved = 0 ∧ c.op ∈ knownOps ∧ (c.final = true → c.op ∈ finalOps) ∧ (c.store = true → c.op ∈ storeOps) := by
  unfold problem
  split_ifs <;> simp_all

/-- The legal words are the words some row matches (30_encoding.md R315). -/
theorem exists_matches_iff (w : Word) :
    (∃ r ∈ opRows, w &&& r.mask = r.pattern) ↔ (CmdFields.ofWord w).wellFormed := by
  rw [CmdFields.wellFormed, CmdFields.problem_eq_none_iff]
  constructor
  · rintro ⟨r, hr, hw⟩
    obtain ⟨hop, hres, hF, hT⟩ := (r.matches_iff hr w).1 hw
    simp only [CmdFields.ofWord, hop, hres, ← map_op_opRows, r.mem_finalOps_iff hr, r.mem_storeOps_iff hr]
    refine ⟨trivial, List.mem_map_of_mem hr, fun h => ?_, fun h => ?_⟩
    · exact hF.resolve_left (ne_false_of_eq_true h)
    · exact hT.resolve_left (ne_false_of_eq_true h)
  · rintro ⟨hres, hop, hF, hT⟩
    rw [← map_op_opRows] at hop
    obtain ⟨r, hr, hop⟩ := List.mem_map.1 hop
    rw [← hop] at hF hT
    rw [r.mem_finalOps_iff hr] at hF
    rw [r.mem_storeOps_iff hr] at hT
    refine ⟨r, hr, (r.matches_iff hr w).2 ⟨hop.symm, hres, ?_, ?_⟩⟩
    · exact or_iff_not_imp_left.2 fun h => hF (Bool.eq_true_of_not_eq_false h)
    · exact or_iff_not_imp_left.2 fun h => hT (Bool.eq_true_of_not_eq_false h)

theorem decode_eq_error_iff (w : Word) (e : DecodeError) :
    decode w = .error e ↔ (CmdFields.ofWord w).problem = some e := by
  by_cases hmatch : ∃ r ∈ opRows, w &&& r.mask = r.pattern
  · rw [(exists_matches_iff w).1 hmatch]
    obtain ⟨r, hr, hw⟩ := hmatch
    simp [decode_of_matches hr hw]
  · have hproblem := mt (exists_matches_iff w).2 hmatch
    obtain ⟨e', he'⟩ := Option.ne_none_iff_exists'.1 hproblem
    rw [decode_of_no_match (by simpa using hmatch), he']
    simp

/-- Settles O3: the decoder refuses exactly the words whose fields have a problem, and names that problem. -/
theorem illegalWordsAreNamed : Obligations.IllegalWordsAreNamed := by
  intro w
  refine ⟨?_, decode_eq_error_iff w⟩
  simp only [decode_eq_error_iff, ← Option.ne_none_iff_exists', ne_eq, CmdFields.problem_eq_none_iff]
  simp only [CmdFields.ofWord]
  tauto

end Sys2Proof
end

section
/-! PROOFS. Symbol words: the fields of a symbol word as numbers, and reading as the inverse of writing
(30_encoding.md R320, R321). -/

namespace Sys2Proof.Machine

open Config (hw)

/-- A word as the number its three fields make: the reserved bits, LITLEN and DIST. -/
theorem word_toNat_eq_fields (w : Word) : w.toNat =
    2 ^ 25 * (w.extractLsb' 25 7).toNat + 2 ^ 16 * (w.extractLsb' 16 9).toNat + (w.extractLsb' 0 16).toNat := by
  simp only [BitVec.extractLsb'_toNat, Nat.shiftRight_eq_div_pow]
  have := w.isLt
  omega

/-- The word of a symbol as a number: DIST below LITLEN. -/
theorem Sym.toWord_lit (b : Byte) : (Sym.lit b).toWord = word (2 ^ 16 * b.toNat) := by
  rw [toWord, Nat.shiftLeft_eq, Nat.mul_comm]

theorem Sym.toWord_ref (len : Nat) {dist : Nat} (h : dist < 2 ^ 16) :
    (Sym.ref len dist).toWord = word (2 ^ 16 * len + dist) := by
  rw [toWord, ← Nat.shiftLeft_add_eq_or_of_lt h, Nat.shiftLeft_eq, Nat.mul_comm]

/-- The fields of a word made of a LITLEN and a DIST. -/
theorem fields_word {litlen dist : Nat} (hl : litlen < 2 ^ 9) (hd : dist < 2 ^ 16) :
    (word (2 ^ 16 * litlen + dist)).extractLsb' 25 7 = 0 ∧
      ((word (2 ^ 16 * litlen + dist)).extractLsb' 16 9).toNat = litlen ∧
      ((word (2 ^ 16 * litlen + dist)).extractLsb' 0 16).toNat = dist := by
  rw [← BitVec.toNat_inj]
  simp only [BitVec.extractLsb'_toNat, Nat.shiftRight_eq_div_pow, BitVec.toNat_ofNat, BitVec.ofNat_eq_ofNat]
  omega

/-- The word with no reserved bit is made of its LITLEN and its DIST. -/
theorem word_fields {w : Word} (h : w.extractLsb' 25 7 = 0) :
    word (2 ^ 16 * (w.extractLsb' 16 9).toNat + (w.extractLsb' 0 16).toNat) = w := by
  have hw := word_toNat_eq_fields w
  rw [h, BitVec.ofNat_eq_ofNat, BitVec.toNat_ofNat, Nat.zero_mod, Nat.mul_zero, Nat.zero_add] at hw
  rw [← hw, word, BitVec.ofNat_toNat, BitVec.setWidth_eq]

theorem symOfWord_toWord {y : Sym} (h : y.Valid) : symOfWord hw y.toWord = some y := by
  cases y with
  | lit b =>
    have hb := b.isLt
    obtain ⟨hres, hlit, hdist⟩ := fields_word (litlen := b.toNat) (dist := 0) (by omega) (by omega)
    rw [Nat.add_zero, ← Sym.toWord_lit] at hres hlit hdist
    simp [symOfWord, hres, hlit, hdist, show b.toNat ≤ 255 by omega]
  | ref len dist =>
    obtain ⟨hlo, hhi, hpos, hwin⟩ := h
    have hd : dist < 2 ^ 16 := hwin.trans_lt (by decide)
    obtain ⟨hres, hlit, hdist⟩ := fields_word (litlen := len) (dist := dist) (hhi.trans_lt (by decide)) hd
    rw [← Sym.toWord_ref len hd] at hres hlit hdist
    simp [symOfWord, hres, hlit, hdist, hlo, hhi, hwin, show dist ≠ 0 by omega]

theorem valid_and_toWord_of_symOfWord {w : Word} {y : Sym} (h : symOfWord hw w = some y) :
    y.Valid ∧ y.toWord = w := by
  unfold symOfWord at h
  dsimp only at h
  split_ifs at h with hres hdist hlit href
  · cases h
    have hword := word_fields (not_not.1 hres)
    rw [hdist, Nat.add_zero] at hword
    exact ⟨trivial, by rw [Sym.toWord_lit, BitVec.toNat_ofNat, Nat.mod_eq_of_lt (by omega), hword]⟩
  · cases h
    obtain ⟨hwin, hlo, hhi⟩ := href
    exact ⟨⟨hlo, hhi, Nat.pos_of_ne_zero hdist, hwin⟩,
      by rw [Sym.toWord_ref _ (BitVec.isLt _), word_fields (not_not.1 hres)]⟩

/-- Settles O5: reading a valid symbol's word gives it back, and what is read is valid and has that word. -/
theorem symbolWordsRoundTrip : Obligations.SymbolWordsRoundTrip := by
  refine ⟨fun w y => ⟨valid_and_toWord_of_symOfWord, fun ⟨hy, hw⟩ => hw ▸ symOfWord_toWord hy⟩, fun w => ?_⟩
  have hzero : w.extractLsb' 0 16 = 0 ↔ (w.extractLsb' 0 16).toNat = 0 := by simp [← BitVec.toNat_inj]
  rw [symOfWord, hzero]
  generalize (w.extractLsb' 0 16).toNat = dist
  generalize (w.extractLsb' 16 9).toNat = litlen
  by_cases hres : w.extractLsb' 25 7 = 0
  · simp only [hres, ne_eq, not_true_eq_false, if_false, true_and]
    split_ifs <;> simp <;> omega
  · simp only [hres, ne_eq, not_false_eq_true, if_true, Option.isSome_none, Bool.false_eq_true, false_and]

end Sys2Proof.Machine
end

section
/-! PROOFS. The run-length coding of code lengths: the runs of a sequence make it up again, and the items of a run
stand for the run (45_block_writer.md R930, 30_encoding.md R337). -/

namespace Sys2Proof.Machine

/-! ## Runs -/

/-- What a run stands for. -/
def runValues (run : Nat × Nat) : List Nat := List.replicate run.2 run.1

theorem runsOf_flatMap (v : List Nat) : (runsOf v).flatMap runValues = v := by
  induction v with
  | nil => rfl
  | cons x xs ih =>
    rw [runsOf]
    cases hruns : runsOf xs with
    | nil =>
      rw [hruns] at ih
      simp [runValues, ← ih]
    | cons run rest =>
      rw [hruns] at ih
      by_cases hx : x = run.1
      · simp only [hx, if_true, List.flatMap_cons, runValues, List.replicate_succ, List.cons_append] at ih ⊢
        rw [ih]
      · simp only [hx, if_false, List.flatMap_cons, runValues] at ih ⊢
        rw [ih]
        rfl

/-- Every run is of a value of the sequence, and not empty. -/
theorem mem_runsOf {v : List Nat} {run : Nat × Nat} (h : run ∈ runsOf v) : run.1 ∈ v ∧ 0 < run.2 := by
  have hpos : 0 < run.2 := by
    induction v with
    | nil => simp [runsOf] at h
    | cons x xs ih =>
      rw [runsOf] at h
      cases hruns : runsOf xs with
      | nil =>
        simp only [hruns, List.mem_singleton] at h
        simp [h]
      | cons r rest =>
        rw [hruns] at h ih
        simp only at h
        split at h
        · rcases List.mem_cons.1 h with rfl | h
          · exact Nat.succ_pos _
          · exact ih (List.mem_cons_of_mem _ h)
        · rcases List.mem_cons.1 h with rfl | h
          · exact Nat.one_pos
          · exact ih h
  refine ⟨?_, hpos⟩
  rw [← runsOf_flatMap v]
  exact List.mem_flatMap.2 ⟨run, h, List.mem_replicate.2 ⟨hpos.ne', rfl⟩⟩

/-! ## What items stand for -/

/-- An item the format allows (30_encoding.md R337): a code-length symbol with an extra value of its extra bits. -/
def ItemAllowed (item : Nat × Nat) : Prop := item.1 ≤ 18 ∧ item.2 < 2 ^ clExtra item.1

theorem expandItems_append (out : List Nat) (xs ys : List (Nat × Nat)) :
    expandItems out (xs ++ ys) = expandItems (expandItems out xs) ys := by
  induction xs generalizing out with
  | nil => rfl
  | cons item xs ih =>
    obtain ⟨c, e⟩ := item
    simp only [List.cons_append, expandItems]
    split_ifs <;> exact ih _

theorem expandItems_literal {x : Nat} (hx : x ≤ 15) (out : List Nat) (rest : List (Nat × Nat)) :
    expandItems out ((x, 0) :: rest) = expandItems (out ++ [x]) rest := by
  rw [expandItems, if_neg (by omega), if_neg (by omega), if_neg (by omega)]

theorem expandItems_replicate {x : Nat} (hx : x ≤ 15) (r : Nat) (out : List Nat) :
    expandItems out (List.replicate r (x, 0)) = out ++ List.replicate r x := by
  induction r generalizing out with
  | zero => simp [expandItems]
  | succ r ih => rw [List.replicate_succ, expandItems_literal hx, ih, List.replicate_succ, List.append_assoc]; rfl

theorem itemAllowed_literal {x : Nat} (hx : x ≤ 15) : ItemAllowed (x, 0) :=
  ⟨hx.trans (by decide), Nat.two_pow_pos _⟩

theorem itemAllowed_of_mem_replicate {x r : Nat} (hx : x ≤ 15) {item : Nat × Nat}
    (h : item ∈ List.replicate r (x, 0)) : ItemAllowed item := by
  rw [List.eq_of_mem_replicate h]
  exact itemAllowed_literal hx

/-! ## Runs of zeros, and further repeats of a value -/

theorem expandItems_zeroItems (k r : Nat) (out : List Nat) :
    expandItems out (zeroItems k r) = out ++ List.replicate r 0 := by
  induction k generalizing r out with
  | zero => exact expandItems_replicate (Nat.zero_le _) r out
  | succ k ih =>
    rw [zeroItems]
    split_ifs with h11 h3
    · have hpiece : (min r 138 - 11 + 11) + (r - min r 138) = r := by omega
      calc expandItems out ((18, min r 138 - 11) :: zeroItems k (r - min r 138))
        _ = expandItems (out ++ List.replicate (min r 138 - 11 + 11) 0) (zeroItems k (r - min r 138)) := rfl
        _ = out ++ List.replicate r 0 := by
          rw [ih, List.append_assoc, List.replicate_append_replicate, hpiece]
    · have hpiece : r - 3 + 3 = r := by omega
      calc expandItems out [(17, r - 3)]
        _ = out ++ List.replicate (r - 3 + 3) 0 := rfl
        _ = out ++ List.replicate r 0 := by rw [hpiece]
    · exact expandItems_replicate (Nat.zero_le _) r out

theorem itemAllowed_of_mem_zeroItems {k r : Nat} {item : Nat × Nat} (h : item ∈ zeroItems k r) :
    ItemAllowed item := by
  induction k generalizing r with
  | zero => exact itemAllowed_of_mem_replicate (Nat.zero_le _) h
  | succ k ih =>
    rw [zeroItems] at h
    split_ifs at h with h11 h3
    · rcases List.mem_cons.1 h with rfl | h
      · exact ⟨le_rfl, show min r 138 - 11 < 2 ^ 7 by omega⟩
      · exact ih h
    · rw [List.mem_singleton.1 h]
      exact ⟨show 17 ≤ 18 by decide, show r - 3 < 2 ^ 3 by omega⟩
    · exact itemAllowed_of_mem_replicate (Nat.zero_le _) h

/-- Repeats of x after an x: a 16 stands for the value before it. -/
theorem expandItems_repeatItems {x : Nat} (hx : x ≤ 15) (k r : Nat) (out : List Nat) :
    expandItems (out ++ [x]) (repeatItems x k r) = out ++ [x] ++ List.replicate r x := by
  induction k generalizing r out with
  | zero => exact expandItems_replicate hx r _
  | succ k ih =>
    rw [repeatItems]
    split_ifs with h3
    · have hpiece : (min r 6 - 3 + 3) + (r - min r 6) = r := by omega
      have hsnoc : out ++ [x] ++ List.replicate (min r 6 - 3 + 3) x =
          out ++ List.replicate (min r 6 - 3 + 3) x ++ [x] := by
        rw [List.append_assoc, List.append_assoc, ← List.replicate_succ', List.replicate_succ]
        rfl
      calc expandItems (out ++ [x]) ((16, min r 6 - 3) :: repeatItems x k (r - min r 6))
        _ = expandItems (out ++ [x] ++ List.replicate (min r 6 - 3 + 3) ((out ++ [x]).getLast?.getD 0))
              (repeatItems x k (r - min r 6)) := rfl
        _ = expandItems (out ++ List.replicate (min r 6 - 3 + 3) x ++ [x]) (repeatItems x k (r - min r 6)) := by
          rw [List.getLast?_concat, Option.getD_some, hsnoc]
        _ = out ++ [x] ++ List.replicate r x := by
          rw [ih, ← hsnoc, List.append_assoc, List.replicate_append_replicate, hpiece]
    · exact expandItems_replicate hx r _

theorem itemAllowed_of_mem_repeatItems {x : Nat} (hx : x ≤ 15) {k r : Nat} {item : Nat × Nat}
    (h : item ∈ repeatItems x k r) : ItemAllowed item := by
  induction k generalizing r with
  | zero => exact itemAllowed_of_mem_replicate hx h
  | succ k ih =>
    rw [repeatItems] at h
    split_ifs at h with h3
    · rcases List.mem_cons.1 h with rfl | h
      · exact ⟨show 16 ≤ 18 by decide, show min r 6 - 3 < 2 ^ 2 by omega⟩
      · exact ih h
    · exact itemAllowed_of_mem_replicate hx h

/-! ## One run, and the whole sequence -/

theorem expandItems_runItems {run : Nat × Nat} (hx : run.1 ≤ 15) (hpos : 0 < run.2) (out : List Nat) :
    expandItems out (runItems run) = out ++ runValues run := by
  obtain ⟨x, k⟩ := run
  unfold runItems runValues
  split_ifs with hzero
  · simp only at hzero
    rw [hzero]
    exact expandItems_zeroItems k k out
  · have hk : k = k - 1 + 1 := by simp only at hpos; omega
    rw [expandItems_literal hx, expandItems_repeatItems hx, List.append_assoc]
    conv_rhs => rw [hk, List.replicate_succ]
    rfl

theorem itemAllowed_of_mem_runItems {run : Nat × Nat} (hx : run.1 ≤ 15) {item : Nat × Nat}
    (h : item ∈ runItems run) : ItemAllowed item := by
  unfold runItems at h
  split_ifs at h with hzero
  · exact itemAllowed_of_mem_zeroItems h
  · rcases List.mem_cons.1 h with rfl | h
    · exact itemAllowed_literal hx
    · exact itemAllowed_of_mem_repeatItems hx h

/-- The items of a run that is not empty begin with a literal, a 17 or an 18. -/
theorem runItems_head? {run : Nat × Nat} (hx : run.1 ≤ 15) (hpos : 0 < run.2) :
    ∃ item, (runItems run).head? = some item ∧ item.1 ≠ 16 := by
  unfold runItems
  split_ifs with hzero
  · obtain ⟨k, hk⟩ := Nat.exists_eq_succ_of_ne_zero hpos.ne'
    rw [hk, zeroItems]
    split_ifs
    · exact ⟨_, rfl, show 18 ≠ 16 by decide⟩
    · exact ⟨_, rfl, show 17 ≠ 16 by decide⟩
    · exact ⟨_, rfl, by decide⟩
  · exact ⟨_, rfl, by simp only; omega⟩

theorem expandItems_flatMap_runItems {runs : List (Nat × Nat)} (h : ∀ run ∈ runs, run.1 ≤ 15 ∧ 0 < run.2)
    (out : List Nat) : expandItems out (runs.flatMap runItems) = out ++ runs.flatMap runValues := by
  induction runs generalizing out with
  | nil => simp [expandItems]
  | cons run runs ih =>
    obtain ⟨⟨hx, hpos⟩, hruns⟩ := List.forall_mem_cons.1 h
    rw [List.flatMap_cons, List.flatMap_cons, expandItems_append, expandItems_runItems hx hpos, ih hruns,
      List.append_assoc]

/-- Settles O54: the items of each run stand for the run, after whatever came before, and the runs are the sequence. -/
theorem runLengthCodingIsExact : Obligations.RunLengthCodingIsExact := by
  intro v hv
  have hruns : ∀ run ∈ runsOf v, run.1 ≤ 15 ∧ 0 < run.2 := fun run h =>
    ⟨hv _ (mem_runsOf h).1, (mem_runsOf h).2⟩
  refine ⟨?_, fun item hitem => ?_, ?_⟩
  · rw [rle, expandItems_flatMap_runItems hruns, runsOf_flatMap, List.nil_append]
  · obtain ⟨run, hrun, hitem⟩ := List.mem_flatMap.1 hitem
    exact itemAllowed_of_mem_runItems (hruns run hrun).1 hitem
  · rw [rle]
    cases hcons : runsOf v with
    | nil => simp
    | cons run rest =>
      obtain ⟨hx, hpos⟩ := hruns run (hcons ▸ List.mem_cons_self)
      obtain ⟨item, hhead, hne⟩ := runItems_head? hx hpos
      simpa [List.head?_append, hhead] using hne

end Sys2Proof.Machine
end

section
/-! PROOFS. COUNT and the code tables: the row of a value in a table of consecutive rows, what `tally` counts, and what
COUNT leaves (30_encoding.md R331, R332, 44_huffman.md R810, R811). -/

namespace Sys2Proof.Machine

open Config (hw)

/-! ## The row of a value -/

theorem rowFor_mem (rows : List CodeRow) (d : CodeRow) (v : Nat) : rowFor rows d v ∈ d :: rows := by
  induction rows generalizing d with
  | nil => exact List.mem_cons_self
  | cons r rs ih =>
    rw [rowFor]
    split
    · exact List.mem_cons_of_mem _ (ih r)
    · exact List.mem_cons_self

theorem rowFor_mem_of_mem {rows : List CodeRow} {d : CodeRow} (hd : d ∈ rows) (v : Nat) : rowFor rows d v ∈ rows :=
  List.cons_subset.2 ⟨hd, List.Subset.refl rows⟩ (rowFor_mem rows d v)

/-- The row of a value begins at or below it, and where each row ends at or after the next one's beginning, the value
is in its row, unless it is beyond the last. -/
theorem rowFor_spec (rows : List CodeRow) {d : CodeRow} {v stop : Nat} (hd : d.base ≤ v) (hv : v < stop)
    (hchain : (d :: rows).IsChain (fun r q => q.base ≤ r.base + 2 ^ r.extra))
    (hlast : ∀ r ∈ (d :: rows).getLast?, stop ≤ r.base + 2 ^ r.extra) :
    (rowFor rows d v).base ≤ v ∧ v - (rowFor rows d v).base < 2 ^ (rowFor rows d v).extra := by
  induction rows generalizing d with
  | nil =>
    have hstop := hlast d rfl
    exact ⟨hd, by rw [rowFor]; omega⟩
  | cons r rs ih =>
    obtain ⟨hnext, hrest⟩ := List.isChain_cons_cons.1 hchain
    rw [rowFor]
    split
    · next hr => exact ih hr hrest (by simpa [List.getLast?_cons_cons] using hlast)
    · exact ⟨hd, by omega⟩

/-! ## The two tables of RFC 1951 -/

/-- The extra bits of a length code below 285 (30_encoding.md R331). -/
def lengthExtra (c : Nat) : Nat := if c < 265 then 0 else (c - 261) / 4

/-- The extra bits of a distance code (30_encoding.md R332). -/
def distanceExtra (c : Nat) : Nat := c / 2 - 1

theorem lengthRows_values : ∀ r ∈ lengthRows, r.base ≤ 257 → 257 ≤ r.code ∧ r.code ≤ 284 ∧
    r.extra = lengthExtra r.code ∧
      r.base = 3 + ((List.range (r.code - 257)).map (fun k => 2 ^ lengthExtra (257 + k))).sum := by
  decide

theorem distanceRows_values : ∀ r ∈ distanceRows, r.code ≤ 29 ∧ r.extra = distanceExtra r.code ∧
    r.base = 1 + ((List.range r.code).map (fun k => 2 ^ distanceExtra k)).sum := by
  decide

theorem lengthRow_mem (len : Nat) : lengthRow len ∈ lengthRows :=
  rowFor_mem_of_mem List.mem_cons_self len

theorem distanceRow_mem (dist : Nat) : distanceRow dist ∈ distanceRows :=
  rowFor_mem_of_mem List.mem_cons_self dist

/-- A length below 258 is in its row. -/
theorem lengthRow_spec {len : Nat} (h3 : 3 ≤ len) (h257 : len ≤ 257) :
    (lengthRow len).base ≤ len ∧ len - (lengthRow len).base < 2 ^ (lengthRow len).extra :=
  rowFor_spec lengthRows h3 (Nat.lt_succ_of_le h257) (by decide) (by decide)

/-- A distance is in its row. -/
theorem distanceRow_spec {dist : Nat} (h1 : 1 ≤ dist) (hmax : dist ≤ 32768) :
    (distanceRow dist).base ≤ dist ∧ dist - (distanceRow dist).base < 2 ^ (distanceRow dist).extra :=
  rowFor_spec distanceRows h1 (Nat.lt_succ_of_le hmax) (by decide) (by decide)

/-! ## What is counted -/

theorem getElem?_tally {n k : Nat} (hk : k < n) (codes : List Nat) :
    (tally n codes)[k]? = some (codes.filter (· == k)).length := by
  simp [tally, hk]

theorem length_filter_litCode (es : List Entry) (k : Nat) :
    ((endOfBlock :: (es.map Entry.sym).map Sym.litCode).filter (· == k)).length =
      (es.filter (fun e => e.sym.litCode == k)).length + if k = 256 then 1 else 0 := by
  have hmap : (((es.map Entry.sym).map Sym.litCode).filter (· == k)).length =
      (es.filter (fun e => e.sym.litCode == k)).length := by
    rw [List.map_map, List.filter_map, List.length_map]
    rfl
  by_cases hk : k = 256
  · rw [List.filter_cons_of_pos (by simp [hk, endOfBlock]), List.length_cons, hmap, if_pos hk]
  · rw [List.filter_cons_of_neg (by simpa [endOfBlock] using Ne.symm hk), hmap, if_neg hk, Nat.add_zero]

theorem length_filter_distCode (es : List Entry) (k : Nat) :
    (((es.map Entry.sym).filterMap Sym.distCode).filter (· == k)).length =
      (es.filter (fun e => e.sym.distCode == some k)).length := by
  rw [List.filterMap_map, Function.comp_def]
  induction es with
  | nil => rfl
  | cons e es ih =>
    rw [List.filterMap_cons, List.filter_cons]
    cases e.sym.distCode with
    | none => simpa using ih
    | some c => by_cases hc : c = k <;> simp [hc, ih]

/-! ## Tables in memory -/

theorem readWord_storeTable (s : State) {r : Region} (hr : r.stride = 4) {ns : List Nat} {k n : Nat}
    (hk : ns[k]? = some n) : (s.storeTable r ns).readWord (r.entry k) = word n := by
  obtain ⟨hlt, hn⟩ := List.getElem?_eq_some_iff.1 hk
  rw [State.storeTable, Region.entry, hr, State.readWord_storeWords s r.base (ns.map word) (by simpa using hlt)]
  simp [hn]

theorem readWord_storeTable_of_outside (s : State) {r : Region} {ns : List Nat} {x : Nat}
    (h : x + 4 ≤ r.base ∨ r.base + 4 * ns.length ≤ x) : (s.storeTable r ns).readWord x = s.readWord x :=
  State.readWord_storeWords_of_outside s r.base (ns.map word) (by simpa using h)

theorem sameMemOutside_storeTables (s : State) (r q : Region) (ns ms : List Nat) :
    SameMemOutside [(r.base, 4 * ns.length), (q.base, 4 * ms.length)] s ((s.storeTable r ns).storeTable q ms) := by
  intro x hx
  have hr := hx _ List.mem_cons_self
  have hq := hx _ (List.mem_cons_of_mem _ List.mem_cons_self)
  rw [State.storeTable, State.sameMemBut_storeWords _ _ _ x (by simpa using hq),
    State.storeTable, State.sameMemBut_storeWords _ _ _ x (by simpa using hr)]

/-! ## COUNT -/

/-- COUNT on a legal range: two tables and RES0. -/
theorem exec_count_of_symbolRange {s : State} {x : StoreSel} {es : List Entry} (h : SymbolRange s x es) :
    exec (.count x) s = .next (((s.storeTable .freq (countSyms hw (es.map Entry.sym)).1).storeTable .dfreq
      (countSyms hw (es.map Entry.sym)).2).setRes0 es.length).complete := by
  obtain ⟨-, -, -, hlen, -⟩ := id h
  show (countCmd hw x s).finish = _
  rw [countCmd, loadRange_eq_ok.2 h, afterChecks_ok, Run.finish_ok, hlen]

/-- Settles O48: COUNT stores two tallies, and the rows of the tables follow one another without a gap. -/
theorem countWritesTheFrequencies : Obligations.CountWritesTheFrequencies := by
  refine ⟨fun s x es h => ⟨_, exec_count_of_symbolRange h, ?_⟩, ⟨rfl, fun len h3 h257 => ?_⟩, fun dist h1 hmax => ?_⟩
  · have hfreq := countSyms_fst_length (es.map Entry.sym)
    have hdfreq := countSyms_snd_length (es.map Entry.sym)
    refine ⟨⟨rfl, rfl, rfl, rfl, rfl, rfl, rfl, rfl⟩, fun k hk => ?_, fun k hk => ?_, rfl, ?_, rfl, rfl, rfl, rfl⟩
    · have hbelow : Region.freq.entry k + 4 ≤ Region.dfreq.base := by
        simp only [Region.entry, Region.base, Region.stride]
        omega
      refine (readWord_storeTable_of_outside _ (.inl hbelow)).trans (readWord_storeTable s rfl ?_)
      rw [countSyms, getElem?_tally hk, length_filter_litCode]
    · refine readWord_storeTable _ rfl ?_
      rw [countSyms, getElem?_tally hk, length_filter_distCode]
    · have hmem := sameMemOutside_storeTables s .freq .dfreq (countSyms hw (es.map Entry.sym)).1
        (countSyms hw (es.map Entry.sym)).2
      rwa [hfreq, hdfreq] at hmem
  · have hspec := lengthRow_spec h3 h257
    obtain ⟨hlo, hhi, hextra, hbase⟩ := lengthRows_values _ (lengthRow_mem len) (hspec.1.trans h257)
    exact ⟨hlo, hhi, hextra, hbase, hspec⟩
  · obtain ⟨hcode, hextra, hbase⟩ := distanceRows_values _ (distanceRow_mem dist)
    exact ⟨hcode, hextra, hbase, distanceRow_spec h1 hmax⟩

end Sys2Proof.Machine
end

section
/-! PROOFS. Canonical codes: along the order of codes, each code begins where the room of the codes before it ends, in
units of 2^-15; so they fit under the Kraft inequality, and none, as it is sent, begins another (44_huffman.md R841). -/

namespace Sys2Proof.Machine

open Config (hw)

/-! ## Codes as they are sent -/

theorem getElem?_bitsOf (v n i : Nat) : (bitsOf v n)[i]? = if i < n then some (v.testBit i) else none := by
  unfold bitsOf
  split <;> simp [*]

/-- A code begins another, as sent, only where it is the other's leading bits. -/
theorem div_eq_of_huffBits_prefix {c n c' n' : Nat} (hc : c < 2 ^ n) (hc' : c' < 2 ^ n')
    (h : huffBits c n <+: huffBits c' n') : n ≤ n' ∧ c' / 2 ^ (n' - n) = c := by
  have hle : n ≤ n' := by simpa using h.length_le
  obtain ⟨front, hfront⟩ := List.reverse_prefix.1 h
  have hlen : front.length = n' - n := by
    have := congrArg List.length hfront
    simp only [List.length_append, bitsOf_length] at this
    omega
  refine ⟨hle, Nat.eq_of_testBit_eq fun i => ?_⟩
  rw [Nat.testBit_div_two_pow]
  by_cases hi : i < n
  · have hbit : (bitsOf c' n')[n' - n + i]? = (bitsOf c n)[i]? := by
      rw [← hfront, List.getElem?_append_right (by omega), hlen, Nat.add_sub_cancel_left]
    rw [getElem?_bitsOf, getElem?_bitsOf, if_pos hi, if_pos (by omega)] at hbit
    rw [Nat.add_comm]
    exact Option.some.inj hbit
  · rw [Nat.testBit_lt_two_pow (hc'.trans_le (Nat.pow_le_pow_right Nat.two_pos (by omega))),
      Nat.testBit_lt_two_pow (hc.trans_le (Nat.pow_le_pow_right Nat.two_pos (by omega)))]

/-! ## The room of codes -/

/-- The room of a code of length l, in units of 2^-15 (44_huffman.md R840). -/
def codeRoom (l : Nat) : Nat := 2 ^ (hw.maxBits - l)

/-- The room of the codes of a list of coded symbols with their lengths. -/
def totalRoom (order : List (Nat × Nat)) : Nat := (order.map (fun x => codeRoom x.2)).sum

/-- The code after the previous one, at length l (44_huffman.md R841). -/
def nextCode (prev : Option (Nat × Nat)) (l : Nat) : Nat :=
  match prev with
  | none => 0
  | some (c, l₀) => (c + 1) <<< (l - l₀)

/-- Where the room of the previous code ends. -/
def roomEnd (prev : Option (Nat × Nat)) : Nat :=
  match prev with
  | none => 0
  | some (c, l) => (c + 1) * codeRoom l

theorem codeRoom_pos (l : Nat) : 0 < codeRoom l := Nat.two_pow_pos _

theorem two_pow_mul_codeRoom {l : Nat} (h : l ≤ 15) : 2 ^ l * codeRoom l = 2 ^ 15 := by
  rw [codeRoom, ← Nat.pow_add, Nat.add_sub_cancel' h]

theorem two_pow_sub_mul_codeRoom {l₀ l : Nat} (h₀ : l₀ ≤ l) (h : l ≤ 15) : 2 ^ (l - l₀) * codeRoom l = codeRoom l₀ := by
  rw [codeRoom, codeRoom, ← Nat.pow_add]
  congr 1
  simp only
  omega

theorem totalRoom_append (xs ys : List (Nat × Nat)) : totalRoom (xs ++ ys) = totalRoom xs + totalRoom ys := by
  simp [totalRoom]

theorem totalRoom_cons (k l : Nat) (xs : List (Nat × Nat)) : totalRoom ((k, l) :: xs) = codeRoom l + totalRoom xs := by
  simp [totalRoom]

theorem assignCodes_cons (prev : Option (Nat × Nat)) (s l : Nat) (rest : List (Nat × Nat)) :
    assignCodes prev ((s, l) :: rest) = (s, nextCode prev l) :: assignCodes (some (nextCode prev l, l)) rest := by
  cases prev <;> rfl

/-- The next code begins where the room of the previous one ends. -/
theorem nextCode_mul_codeRoom {prev : Option (Nat × Nat)} {l : Nat} (hprev : ∀ p ∈ prev, p.2 ≤ l) (hl : l ≤ 15) :
    nextCode prev l * codeRoom l = roomEnd prev := by
  cases prev with
  | none => exact Nat.zero_mul _
  | some p => rw [nextCode, roomEnd, Nat.shiftLeft_eq, Nat.mul_assoc, two_pow_sub_mul_codeRoom (hprev p rfl) hl]

/-- Along an order of rising lengths, a code begins where the room of the codes before it ends. -/
theorem exists_lookup_assignCodes {front back : List (Nat × Nat)} {s l : Nat} {prev : Option (Nat × Nat)}
    (hsorted : (front ++ (s, l) :: back).Pairwise (fun x y => x.2 ≤ y.2))
    (hmax : ∀ x ∈ front ++ (s, l) :: back, x.2 ≤ 15)
    (hprev : ∀ p ∈ prev, ∀ x ∈ front ++ (s, l) :: back, p.2 ≤ x.2) (hfront : ∀ x ∈ front, x.1 ≠ s) :
    ∃ c, (assignCodes prev (front ++ (s, l) :: back)).lookup s = some c ∧
      c * codeRoom l = roomEnd prev + totalRoom front := by
  induction front generalizing prev with
  | nil =>
    refine ⟨nextCode prev l, ?_, nextCode_mul_codeRoom (fun p hp => hprev p hp _ List.mem_cons_self)
      (hmax _ List.mem_cons_self)⟩
    rw [List.nil_append, assignCodes_cons, List.lookup_cons_self]
  | cons x front ih =>
    obtain ⟨t, m⟩ := x
    obtain ⟨hx, hrest⟩ := List.pairwise_cons.1 hsorted
    have hm : nextCode prev m * codeRoom m = roomEnd prev :=
      nextCode_mul_codeRoom (fun p hp => hprev p hp _ List.mem_cons_self) (hmax _ List.mem_cons_self)
    obtain ⟨c, hc, hroom⟩ := ih (prev := some (nextCode prev m, m)) hrest
      (fun y hy => hmax y (List.mem_cons_of_mem _ hy)) (fun p hp y hy => Option.mem_some.1 hp ▸ hx y hy)
      (fun y hy => hfront y (List.mem_cons_of_mem _ hy))
    have hne : (s == t) = false := beq_false_of_ne (Ne.symm (hfront _ List.mem_cons_self))
    refine ⟨c, ?_, ?_⟩
    · rw [List.cons_append, assignCodes_cons, List.lookup_cons, hne]
      exact hc
    · rw [hroom, totalRoom_cons, ← Nat.add_assoc, ← hm, ← Nat.succ_mul]
      rfl

/-! ## The order of codes -/

/-- By (length, symbol) ascending (44_huffman.md R841). -/
def CodeBefore (x y : Nat × Nat) : Prop := x.2 < y.2 ∨ (x.2 = y.2 ∧ x.1 < y.1)

theorem mem_codeOrder_iff {lens : List Nat} {k l : Nat} :
    (k, l) ∈ codeOrder hw lens ↔ 1 ≤ l ∧ l ≤ 15 ∧ lens[k]? = some l := by
  simp only [codeOrder, List.mem_flatMap, List.mem_range'_1, List.mem_map, List.mem_filter, beq_iff_eq, Prod.mk.injEq,
    Prod.exists, List.mem_zipIdx_iff_getElem?]
  constructor
  · rintro ⟨l, hl, _, _, ⟨hk, rfl⟩, rfl, rfl⟩
    exact ⟨hl.1, by omega, hk⟩
  · rintro ⟨h1, h15, hk⟩
    exact ⟨l, ⟨h1, by omega⟩, l, k, ⟨hk, rfl⟩, rfl, rfl⟩

theorem codeOrder_pairwise (lens : List Nat) : (codeOrder hw lens).Pairwise CodeBefore := by
  have hidx : lens.zipIdx.Pairwise (fun x y => x.2 < y.2) := by
    rw [← List.pairwise_map (f := Prod.snd), List.zipIdx_map_snd]
    exact List.pairwise_lt_range'
  refine List.pairwise_flatMap.2 ⟨fun l _ => ?_, ?_⟩
  · exact List.pairwise_map.2 ((hidx.filter _).imp fun h => .inr ⟨rfl, h⟩)
  · refine List.Pairwise.imp (fun hlt x hx y hy => ?_) (List.pairwise_lt_range' (s := 1) (n := 15))
    obtain ⟨-, -, rfl⟩ := List.mem_map.1 hx
    obtain ⟨-, -, rfl⟩ := List.mem_map.1 hy
    exact .inl hlt

/-- The room of all codes, one length after the other. -/
theorem totalRoom_codeOrder_eq_sum (lens : List Nat) : totalRoom (codeOrder hw lens) =
    ((List.range' 1 15).map (fun l => lens.count l * codeRoom l)).sum := by
  have hcount (l : Nat) : (lens.zipIdx.filter (fun x => x.1 == l)).length = lens.count l := by
    conv_rhs => rw [← List.zipIdx_map_fst 0 lens]
    rw [List.count, List.countP_map, List.countP_eq_length_filter]
    rfl
  rw [totalRoom, codeOrder, List.map_flatMap, List.flatMap, List.sum_flatten, List.map_map]
  congr 1
  refine List.map_congr_left fun l _ => ?_
  simp only [Function.comp_apply, List.map_map, Function.comp_def, List.map_const', List.sum_replicate, hcount,
    smul_eq_mul]

theorem totalRoom_codeOrder {lens : List Nat} (h15 : ∀ l ∈ lens, l ≤ 15) :
    totalRoom (codeOrder hw lens) = kraftSum hw lens := by
  have hone : ∀ l ≤ 15, ((List.range' 1 15).map (fun m => if l = m then codeRoom m else 0)).sum =
      if 0 < l then codeRoom l else 0 := by decide
  rw [totalRoom_codeOrder_eq_sum]
  induction lens with
  | nil => rfl
  | cons l lens ih =>
    obtain ⟨hl, hlens⟩ := List.forall_mem_cons.1 h15
    have hcount (m : Nat) : (l :: lens).count m * codeRoom m =
        lens.count m * codeRoom m + if l = m then codeRoom m else 0 := by
      rw [List.count_cons, Nat.add_mul]
      by_cases h : l = m <;> simp [h]
    simp only [hcount, List.sum_map_add, ih hlens, hone l hl]
    rw [kraftSum, kraftSum, List.map_cons, List.sum_cons, Nat.add_comm]
    rfl

/-! ## The code of a symbol -/

theorem getElem?_canonical (lens : List Nat) (k : Nat) : (canonical hw lens)[k]? =
    lens[k]?.map (fun l => if l = 0 then 0 else ((assignCodes none (codeOrder hw lens)).lookup k).getD 0) := by
  simp [canonical, List.getElem?_zipIdx, Function.comp_def]

/-- The code of a coded symbol begins where the room of the codes before it ends. -/
theorem canonical_mul_codeRoom {lens : List Nat} {front back : List (Nat × Nat)} {k l : Nat}
    (horder : codeOrder hw lens = front ++ (k, l) :: back) :
    (canonical hw lens).getD k 0 * codeRoom l = totalRoom front := by
  have hmem : (k, l) ∈ codeOrder hw lens := by simp [horder]
  obtain ⟨h1, -, hk⟩ := mem_codeOrder_iff.1 hmem
  have hpair := codeOrder_pairwise lens
  rw [horder] at hpair
  have hfront : ∀ x ∈ front, x.1 ≠ k := by
    rintro ⟨j, m⟩ hx rfl
    obtain ⟨-, -, hacross⟩ := List.pairwise_append.1 hpair
    have hbefore : CodeBefore (j, m) (j, l) := hacross _ hx _ List.mem_cons_self
    obtain ⟨-, -, hm⟩ := mem_codeOrder_iff.1 (show (j, m) ∈ codeOrder hw lens by simp [horder, hx])
    have hlm : l = m := Option.some.inj (hk.symm.trans hm)
    simp [CodeBefore, hlm] at hbefore
  have hsorted := hpair.imp (S := fun x y => x.2 ≤ y.2) fun h => h.elim le_of_lt fun h => h.1.le
  obtain ⟨c, hc, hroom⟩ := exists_lookup_assignCodes (prev := none) hsorted
    (fun x hx => (mem_codeOrder_iff.1 (horder ▸ hx)).2.1) nofun hfront
  have hcode : (canonical hw lens).getD k 0 = c := by
    simp [List.getD_eq_getElem?_getD, getElem?_canonical, hk, horder, hc, show l ≠ 0 by omega]
  rw [hcode, hroom, roomEnd, Nat.zero_add]

/-- The room of a code ends where the code of a later symbol begins, or before it. -/
theorem canonical_room_le {lens : List Nat} {j k lj lk : Nat} (hj : (j, lj) ∈ codeOrder hw lens)
    (hk : (k, lk) ∈ codeOrder hw lens) (hjk : CodeBefore (j, lj) (k, lk)) :
    ((canonical hw lens).getD j 0 + 1) * codeRoom lj ≤ (canonical hw lens).getD k 0 * codeRoom lk := by
  obtain ⟨front, back, horder⟩ := List.append_of_mem hk
  have hpair := codeOrder_pairwise lens
  rw [horder] at hpair hj
  have hfront : (j, lj) ∈ front := by
    rcases List.mem_append.1 hj with h | h
    · exact h
    · obtain ⟨-, htail, -⟩ := List.pairwise_append.1 hpair
      obtain ⟨hafter, -⟩ := List.pairwise_cons.1 htail
      have hkj : (j, lj) = (k, lk) ∨ CodeBefore (k, lk) (j, lj) := (List.mem_cons.1 h).imp_right (hafter _)
      unfold CodeBefore at hjk hkj
      simp only [Prod.mk.injEq] at hjk hkj
      omega
  obtain ⟨before, between, rfl⟩ := List.append_of_mem hfront
  have horder' : codeOrder hw lens = before ++ (j, lj) :: (between ++ (k, lk) :: back) := by
    rw [horder, List.append_assoc, List.cons_append]
  rw [canonical_mul_codeRoom horder, totalRoom_append, totalRoom_cons, Nat.succ_mul, canonical_mul_codeRoom horder']
  omega

theorem canonical_room_le_kraftSum {lens : List Nat} (h15 : ∀ l ∈ lens, l ≤ 15) {k l : Nat}
    (hk : (k, l) ∈ codeOrder hw lens) : ((canonical hw lens).getD k 0 + 1) * codeRoom l ≤ kraftSum hw lens := by
  obtain ⟨front, back, horder⟩ := List.append_of_mem hk
  rw [← totalRoom_codeOrder h15, Nat.succ_mul, canonical_mul_codeRoom horder, horder, totalRoom_append, totalRoom_cons]
  omega

theorem canonical_of_length_zero {lens : List Nat} {k : Nat} (h : lens.getD k 0 = 0) :
    (canonical hw lens).getD k 0 = 0 := by
  rw [List.getD_eq_getElem?_getD] at h ⊢
  rw [getElem?_canonical]
  cases hk : lens[k]? with
  | none => rfl
  | some l =>
    rw [hk, Option.getD_some] at h
    simp [h]

theorem mem_codeOrder_of_pos {lens : List Nat} (h15 : ∀ l ∈ lens, l ≤ 15) {k : Nat} (h : 0 < lens.getD k 0) :
    (k, lens.getD k 0) ∈ codeOrder hw lens := by
  rw [List.getD_eq_getElem?_getD] at h ⊢
  cases hk : lens[k]? with
  | none => simp [hk] at h
  | some l =>
    rw [hk, Option.getD_some] at h
    exact mem_codeOrder_iff.2 ⟨h, h15 l (List.mem_of_getElem? hk), hk⟩

/-- Under the Kraft inequality every code fits its length. -/
theorem canonical_lt_two_pow {lens : List Nat} (h15 : ∀ l ∈ lens, l ≤ 15) (hkraft : kraftSum hw lens ≤ 2 ^ 15)
    {k : Nat} (hk : 0 < lens.getD k 0) : (canonical hw lens).getD k 0 < 2 ^ lens.getD k 0 := by
  have hmem := mem_codeOrder_of_pos h15 hk
  obtain ⟨-, hlen, -⟩ := mem_codeOrder_iff.1 hmem
  have hroom := (canonical_room_le_kraftSum h15 hmem).trans hkraft
  rw [← two_pow_mul_codeRoom hlen] at hroom
  exact Nat.le_of_mul_le_mul_right hroom (codeRoom_pos _)

/-! ## Codes as they are sent begin no other -/

/-- A code with no overlap of rooms begins no other. -/
theorem not_huffBits_prefix {c n c' n' : Nat} (hn' : n' ≤ 15) (hc : c < 2 ^ n) (hc' : c' < 2 ^ n')
    (hroom : (c + 1) * codeRoom n ≤ c' * codeRoom n' ∨ (c' + 1) * codeRoom n' ≤ c * codeRoom n) :
    ¬ huffBits c n <+: huffBits c' n' := by
  intro h
  obtain ⟨hle, hdiv⟩ := div_eq_of_huffBits_prefix hc hc' h
  have hcodeRoom : codeRoom n = 2 ^ (n' - n) * codeRoom n' := (two_pow_sub_mul_codeRoom hle hn').symm
  have hlow : c * 2 ^ (n' - n) ≤ c' := hdiv ▸ Nat.div_mul_le_self c' _
  have hhigh : c' < (c + 1) * 2 ^ (n' - n) :=
    (Nat.div_lt_iff_lt_mul (Nat.two_pow_pos _)).1 (hdiv ▸ Nat.lt_succ_self c)
  rw [hcodeRoom, ← Nat.mul_assoc, ← Nat.mul_assoc, Nat.mul_le_mul_right_iff (codeRoom_pos n'),
    Nat.mul_le_mul_right_iff (codeRoom_pos n')] at hroom
  omega

/-! ## The fixed codes -/

/-- The codes of n symbols in a row of one length. -/
def codeRun (first code n : Nat) : List (Nat × Nat) := (List.range n).map (fun k => (first + k, k + code))

theorem lookup_codeRun (first code n s : Nat) :
    (codeRun first code n).lookup s = if first ≤ s ∧ s < first + n then some (s - first + code) else none := by
  induction n with
  | zero => simp [codeRun]
  | succ n ih =>
    have hsnoc : codeRun first code (n + 1) = codeRun first code n ++ [(first + n, n + code)] := by
      simp [codeRun, List.range_succ]
    rw [hsnoc, List.lookup_append, ih]
    by_cases hs : s = first + n
    · simp [hs]
    · have hne : (s == first + n) = false := beq_false_of_ne hs
      by_cases hlt : first ≤ s ∧ s < first + n
      · simp [hlt, show s < first + (n + 1) by omega]
      · simp [hlt, hne, List.lookup_cons, show ¬ (first ≤ s ∧ s < first + (n + 1)) by omega]

/-- The fixed literal/length codes in the order they are assigned (30_encoding.md R333). -/
def fixedLitCodes : List (Nat × Nat) :=
  codeRun 256 0 24 ++ codeRun 0 0x30 144 ++ codeRun 280 0xC0 8 ++ codeRun 144 0x190 112

theorem assignCodes_fixedLitLens : assignCodes none (codeOrder hw fixedLitLens) = fixedLitCodes := by decide +kernel

theorem canonical_fixedLitLens : canonical hw fixedLitLens =
    (List.range 144).map (· + 0x30) ++ (List.range 112).map (· + 0x190) ++ List.range 24 ++
      (List.range 8).map (· + 0xC0) := by
  refine List.ext_getElem? fun k => ?_
  rw [getElem?_canonical, assignCodes_fixedLitLens, fixedLitCodes, fixedLitLens]
  simp only [List.lookup_append, lookup_codeRun, List.getElem?_append, List.getElem?_replicate, List.length_append,
    List.length_map, List.length_range, List.length_replicate, List.getElem?_map]
  have hranges : k < 144 ∨ (144 ≤ k ∧ k < 256) ∨ (256 ≤ k ∧ k < 280) ∨ (280 ≤ k ∧ k < 288) ∨ 288 ≤ k := by omega
  rcases hranges with h | h | h | h | h
  all_goals simp (disch := omega) [if_pos, if_neg, List.getElem?_range]
  omega

/-- Settles O53: the rooms of the codes lie in order between 0 and 2^15. -/
theorem canonicalCodesArePrefixFree : Obligations.CanonicalCodesArePrefixFree := by
  refine ⟨fun lens h15 hkraft => ?_, canonical_fixedLitLens, by decide +kernel⟩
  refine ⟨canonical_length lens, fun k => canonical_of_length_zero, fun k => canonical_lt_two_pow h15 hkraft,
    fun j k hj hlen hjk => ?_, fun j k hj hk hne => ?_⟩
  · have hlen : lens.getD j 0 = lens.getD k 0 := hlen
    have hroom := canonical_room_le (mem_codeOrder_of_pos h15 hj) (mem_codeOrder_of_pos h15 (hj.trans_eq hlen))
      (.inr ⟨hlen, hjk⟩)
    rw [← hlen] at hroom
    exact Nat.le_of_mul_le_mul_right hroom (codeRoom_pos _)
  · have hmemj := mem_codeOrder_of_pos h15 hj
    have hmemk := mem_codeOrder_of_pos h15 hk
    have horder : CodeBefore (j, lens.getD j 0) (k, lens.getD k 0) ∨
        CodeBefore (k, lens.getD k 0) (j, lens.getD j 0) := by
      unfold CodeBefore
      simp only
      omega
    obtain ⟨-, hlen, -⟩ := mem_codeOrder_iff.1 hmemk
    exact Bool.eq_false_iff.2 fun h => not_huffBits_prefix hlen (canonical_lt_two_pow h15 hkraft hj)
      (canonical_lt_two_pow h15 hkraft hk) (horder.imp (canonical_room_le hmemj hmemk) (canonical_room_le hmemk hmemj))
      (List.isPrefixOf_iff_prefix.1 h)

end Sys2Proof.Machine
end

section
/-! PROOFS. The control commands: a step runs the accepted command or the next host access, a CMD write is accepted or
dropped, every accepted command ends, and what NOP, SRESET, CACHECLR and WRESET do. -/

namespace Sys2Proof.Machine

open Config (hw)

/-! ## One step -/

theorem runCommand_of_decode {w : Word} {i : Instr} (h : decode w = .ok i) (s : State) :
    runCommand chip w s = exec i s := by
  unfold runCommand
  rw [h]
  rfl

theorem step_of_command {s : State} {w : Word} (hword : s.issue.word = some w)
    (hend : s.host.pending = [] ∨ s.issue.busyLeft = 0) : step s = runCommand chip w s := by
  rcases stepOf_cases chip s with ⟨w', hword', -, heq⟩ | ⟨op, rest, hpending, hland, -⟩ | ⟨hnone, -, -⟩
  · cases hword.symm.trans hword'
    exact heq
  · rcases hland with hnone | hleft
    · exact absurd (hword.symm.trans hnone) nofun
    · rcases hend with hnil | hzero
      · exact absurd (hpending.symm.trans hnil) nofun
      · omega
  · exact absurd (hword.symm.trans hnone) nofun

theorem step_of_access {s : State} {op : HostOp} {rest : List HostOp} (hpending : s.host.pending = op :: rest)
    (hland : s.issue.word = none ∨ 0 < s.issue.busyLeft) :
    step s = .next (hostStep chip op (s.takeOp rest)) := by
  rcases stepOf_cases chip s with ⟨w, hword, hend, -⟩ | ⟨op', rest', hpending', -, heq⟩ | ⟨-, hnil, -⟩
  · rcases hland with hnone | hleft
    · exact absurd (hword.symm.trans hnone) nofun
    · rcases hend with hnil | hzero
      · exact absurd (hpending.symm.trans hnil) nofun
      · omega
  · cases hpending.symm.trans hpending'
    exact heq
  · exact absurd (hpending.symm.trans hnil) nofun

theorem step_of_nothing {s : State} (hword : s.issue.word = none) (hpending : s.host.pending = []) :
    step s = .next s := by
  rcases stepOf_cases chip s with ⟨w, hword', -, -⟩ | ⟨op, rest, hpending', -, -⟩ | ⟨-, -, heq⟩
  · exact absurd (hword.symm.trans hword') nofun
  · exact absurd (hpending.symm.trans hpending') nofun
  · exact heq

theorem withFetchWord_word (s : State) (w : Word) : s.withFetchWord 32 w.toNat = s.accept w 0 := by
  rw [State.withFetchWord, Nat.mod_eq_of_lt w.isLt, BitVec.ofNat_toNat, BitVec.setWidth_eq]

/-- Settles O6: the cases of a step, and a fetched word is an accepted word with no access left to land. -/
theorem stepRunsTheAcceptedCommand : Obligations.StepRunsTheAcceptedCommand := by
  refine ⟨fun s w i hdecode hword hend => ?_, fun s w op rest _ hpending hleft => ?_,
    fun s op rest hnone hpending => ?_, fun s hnone hnil => step_of_nothing hnone hnil, fun s i => ?_⟩
  · rw [step_of_command hword hend, runCommand_of_decode hdecode]
  · exact step_of_access hpending (.inr hleft)
  · exact step_of_access hpending (.inl hnone)
  · have hdecode : decode (encode i) = .ok i := (decodeAndEncodeAgree _ _).2 rfl
    rw [withFetchWord_word, step_of_command (w := encode i) rfl (.inr rfl), runCommand_of_decode hdecode]

/-- Settles O10: CMD is a CSR, so a write to it is dropped while BUSY, and otherwise its own branch of the map. -/
theorem cmdWriteIsAcceptedOrDropped : Obligations.CmdWriteIsAcceptedOrDropped := by
  intro s w
  rw [hostWriteState_csr s w (c := .cmd) nofun, writeCsr_cmd]
  constructor
  · rintro ⟨hbusy, herr⟩
    rw [hbusy, herr]
    exact ⟨_, rfl⟩
  · intro h
    cases hbusy : s.status.busy
    · have herr : s.status.err = true := h.resolve_left (by simp [hbusy])
      rw [herr]
      simp [State.drop, hbusy]
    · simp [State.drop, hbusy]

/-! ## The end of an accepted command -/

theorem runCommand_issue {w : Word} {s t : State} (ht : runCommand chip w s = .next t) : t.issue = Issue.none := by
  rcases runCommand_cases w s with ⟨i, -, hrun⟩ | ⟨-, -, hrun⟩ <;> rw [hrun] at ht
  · by_cases hi : i = .sreset
    · subst hi
      cases ht
      rfl
    · obtain ⟨r, hr, hexec⟩ := exec_effect i s hi
      obtain ⟨u, -, rfl | ⟨e, -, rfl⟩⟩ := hr.finish_eq_next (hexec ▸ ht) <;> rfl
  · cases ht
    rfl

theorem ackStatus_issue (s : State) (v : Word) : (s.ackStatus v).issue = s.issue := rfl

/-- While a command runs a host write is dropped or acknowledges: neither touches the command. -/
theorem hostWriteState_issue_of_busy {s : State} (hb : s.status.busy = true) (a n : Nat) (v : Word) :
    (hostWriteState hw a n v s).issue = s.issue := by
  rcases hostWriteState_cases s v a n with heq | heq | heq | ⟨hidle, -⟩
  · rw [heq]
  · rw [heq, ackStatus_issue]
  · rw [heq]
    rfl
  · rw [hb] at hidle
    cases hidle

theorem hostReadValue_issue (s : State) (a n : Nat) :
    (hostReadValue chip a n s).2.issue.word = s.issue.word ∧
      (hostReadValue chip a n s).2.issue.busyLeft = s.issue.busyLeft := by
  obtain ⟨_, _, _, _, _, heq⟩ := hostReadValue_frame s a n
  rw [heq]
  exact ⟨rfl, rfl⟩

/-- A host access that lands while a command runs leaves it running for as long as before, or is the hardware reset
(60_exceptions.md R1021). -/
theorem hostStep_issue_of_busy {s : State} (hb : s.status.busy = true) (op : HostOp) :
    ((hostStep chip op s).issue.word = s.issue.word ∧ (hostStep chip op s).issue.busyLeft = s.issue.busyLeft) ∨
      (hostStep chip op s).issue.word = none := by
  rcases hostStep_cases chip op s with ⟨a, n, p, -, -, heq⟩ | ⟨a, n, -, -, heq⟩ | ⟨a, n, v, -, -, heq⟩ |
    ⟨-, q, heq⟩ | ⟨-, heq⟩ <;> rw [heq]
  · exact .inl ⟨rfl, rfl⟩
  · exact .inl (hostReadValue_issue s _ n)
  · rw [chip_params, hostWriteState_issue_of_busy hb]
    exact .inl ⟨rfl, rfl⟩
  · exact .inl (hostReadValue_issue s _ 4)
  · exact .inr rfl

theorem steps_succ_of_step {s t : State} (h : step s = .next t) (n : Nat) : steps (n + 1) s = steps n t := by
  rw [steps, h]

/-- The command is over after as many steps as host accesses land before its end, and one more. -/
theorem exists_steps_command_over (left : Nat) {s : State} {w : Word} (h : Inv s) (hword : s.issue.word = some w)
    (hleft : s.issue.busyLeft = left) : ∃ n t, n ≤ left + 1 ∧ steps n s = .next t ∧ t.issue.word = none := by
  have hone : ∀ t, step s = .next t → t.issue.word = none →
      ∃ n u, n ≤ left + 1 ∧ steps n s = .next u ∧ u.issue.word = none :=
    fun t ht hnone => ⟨1, t, by omega, by rw [steps_succ_of_step ht]; rfl, hnone⟩
  by_cases hend : s.host.pending = [] ∨ s.issue.busyLeft = 0
  · obtain ⟨t, ht, -⟩ := exists_runCommand_eq_next w s
    exact hone t ((step_of_command hword hend).trans ht) (by rw [runCommand_issue ht]; rfl)
  · obtain ⟨hpending, hpos⟩ := not_or.1 hend
    obtain ⟨op, rest, hcons⟩ := List.exists_cons_of_ne_nil hpending
    have hstep := step_of_access hcons (.inr (Nat.pos_of_ne_zero hpos))
    have hinv : Inv (hostStep chip op (s.takeOp rest)) := (h.takeOp rest).hostStep op
    rcases hostStep_issue_of_busy (s := s.takeOp rest) (h.busy_eq_true hword) op with ⟨hword', hleft'⟩ | hnone
    · obtain ⟨left, rfl⟩ : ∃ k, left = k + 1 := Nat.exists_eq_succ_of_ne_zero (hleft ▸ hpos)
      have hcount : (hostStep chip op (s.takeOp rest)).issue.busyLeft = left := by
        rw [hleft']
        simp [State.takeOp, hleft]
      obtain ⟨n, t, hn, ht, hnone⟩ := exists_steps_command_over left hinv (hword'.trans hword) hcount
      exact ⟨n + 1, t, by omega, (steps_succ_of_step hstep n).trans ht, hnone⟩
    · exact hone _ hstep hnone

/-- Settles O9: each access that lands is one fewer to come, and the invariant goes on holding. -/
theorem everyAcceptedCommandEnds : Obligations.EveryAcceptedCommandEnds :=
  fun _ _ h hword => exists_steps_command_over _ h hword rfl

/-! ## NOP, SRESET, CACHECLR, WRESET -/

/-- Settles O29: NOP is the completion of a command with no effects. -/
theorem nopChangesOnlyStatus : Obligations.NopChangesOnlyStatus :=
  ⟨fun _ => rfl, _, rfl, by decide⟩

/-- A CSR other than STATUS shows none of what SRESET keeps. -/
theorem sresetState_csrValue (s : State) {c : Csr} (hc : c ≠ .status) :
    (sresetState hw s).csrValue chip c = State.reset.csrValue chip c := by
  cases c
  case status => exact absurd rfl hc
  all_goals rfl

/-- Settles O30: SRESET is the reset state but for DONE, the memories and the model's own fields. -/
theorem sresetRestoresTheRegisters : Obligations.SresetRestoresTheRegisters :=
  fun s => ⟨sresetState hw s, rfl, fun _ hc => sresetState_csrValue s hc, (statusWord_congr rfl rfl).trans
    (show ({ State.reset with status := { Status.reset with done := true } } : State).statusWord = 0x00000002 by decide),
    rfl, rfl, rfl, rfl, rfl, rfl, rfl, rfl, rfl, fun _ => rfl, rfl, rfl, rfl⟩

/-- Settles O31: each is the completion of a command with one effect. -/
theorem cacheclrAndWresetClearTheirUnit : Obligations.CacheclrAndWresetClearTheirUnit :=
  fun _ => ⟨rfl, rfl⟩

end Sys2Proof.Machine
end

section
/-! PROOFS. What a parse stands for: its symbols, expanded one after the other, give the window back. -/

namespace Sys2Proof.Machine

open Config (hw)

/-- Copying from `dist` back goes on along the window while the window repeats itself at that distance. -/
theorem copyBack_take {w : List Byte} {dist p : Nat} (hpos : 1 ≤ dist) (hdist : dist ≤ p) (n : Nat)
    (hn : p + n ≤ w.length) (hrep : ∀ k, k < n → w[p + k]? = w[p + k - dist]?) :
    copyBack dist n (w.take p) = w.take (p + n) := by
  induction n generalizing p with
  | zero => rfl
  | succ n ih =>
    have hlt : p < w.length := by omega
    have hbyte : (w.take p).getD ((w.take p).length - dist) 0 = w[p] := by
      have h0 := hrep 0 (by omega)
      rw [Nat.add_zero, List.getElem?_eq_getElem hlt] at h0
      rw [List.length_take_of_le hlt.le, List.getD_eq_getElem?_getD, List.getElem?_take_of_lt (by omega), ← h0]
      rfl
    rw [copyBack, hbyte, List.take_append_getElem hlt, ih (by omega) (by omega), Nat.add_right_comm, Nat.add_assoc]
    intro k hk
    have hk' := hrep (k + 1) (by omega)
    rwa [← Nat.add_assoc, Nat.add_right_comm] at hk'

theorem expandSyms_take {w : List Byte} {es : List Entry} {a b : Nat} (h : IsParse w es a b) :
    expandSyms (w.take a) (es.map Entry.sym) = w.take b := by
  induction es generalizing a with
  | nil =>
    obtain rfl : a = b := h.1
    rfl
  | cons e es ih =>
    obtain ⟨⟨rfl, htiles⟩, hall⟩ := h
    obtain ⟨⟨hvalid, hrec⟩, hrest⟩ := List.forall_mem_cons.1 hall
    have hnext := ih ⟨htiles, hrest⟩
    obtain ⟨sym, pos⟩ := e
    cases sym with
    | lit v =>
      obtain ⟨hlt, rfl⟩ := List.getElem?_eq_some_iff.1 (show w[pos]? = some v from hrec)
      rw [List.map_cons, expandSyms, List.take_append_getElem hlt]
      exact hnext
    | ref len dist =>
      obtain ⟨-, -, hdpos, -⟩ := hvalid
      obtain ⟨hdist, hlen, hrep⟩ := hrec
      rw [List.map_cons, expandSyms, copyBack_take hdpos hdist len hlen hrep]
      exact hnext

/-- Settles O43: after the symbols of [0, a) the bytes so far are the window's first a. -/
theorem parsesReconstructTheWindow : Obligations.ParsesReconstructTheWindow :=
  fun _ _ _ _ h => expandSyms_take h

end Sys2Proof.Machine
end

section
/-! PROOFS. The operand checks: each command runs its BAD_ARG checks first, in the listed order, then its symbol check,
then its tiling check, and no later part of a rule raises BAD_ARG. -/

namespace Sys2Proof.Machine

open Config (hw)

/-! ## A list of checks -/

/-- The checks of a list in order: the first that fails raises BAD_ARG (60_exceptions.md R1004, R1020). -/
def checkAll : List (Bool × Nat) → Except CmdError Unit
  | [] => .ok ()
  | c :: cs => if c.1 then .error (badArg c.2) else checkAll cs

theorem checkAll_eq_ok {cs : List (Bool × Nat)} (h : ∀ c ∈ cs, c.1 = false) : checkAll cs = .ok () := by
  induction cs with
  | nil => rfl
  | cons c cs ih =>
    obtain ⟨hc, hcs⟩ := List.forall_mem_cons.1 h
    simp [checkAll, hc, ih hcs]

theorem checkAll_eq_error {before after : List (Bool × Nat)} {info : Nat} (h : ∀ c ∈ before, c.1 = false) :
    checkAll (before ++ (true, info) :: after) = .error (badArg info) := by
  induction before with
  | nil => rfl
  | cons c cs ih =>
    obtain ⟨hc, hcs⟩ := List.forall_mem_cons.1 h
    simp [checkAll, hc, ih hcs]

theorem checkAll_append (cs ds : List (Bool × Nat)) :
    checkAll (cs ++ ds) = (checkAll cs >>= fun _ => checkAll ds) := by
  induction cs with
  | nil => rfl
  | cons c cs ih =>
    rw [List.cons_append, checkAll, checkAll, ih]
    split <;> rfl

/-- A check of the model, as an entry of the list. -/
theorem require_eq_checkAll {c bad : Bool} (h : bad = !c) (a : Nat) :
    require c (badArg a) = checkAll [(bad, a)] := by
  subst h
  cases c <;> rfl

/-- A rule whose checks come in two parts. -/
theorem afterChecks_bind {α β : Type} (s : State) (x : Except CmdError α) (f : α → Except CmdError β)
    (k : β → Run) : afterChecks s (x >>= f) k = afterChecks s x fun a => afterChecks s (f a) k := by
  cases x <;> rfl

theorem afterChecks_congr {α : Type} {checks checks' : Except CmdError α} (s : State) (k : α → Run)
    (h : checks = checks') : afterChecks s checks k = afterChecks s checks' k := by
  rw [h]

theorem afterChecks_of_eq_bind {α β : Type} {checks : Except CmdError β} {x : Except CmdError α}
    {f : α → Except CmdError β} (s : State) (k : β → Run) (h : checks = (x >>= f)) :
    afterChecks s checks k = afterChecks s x fun a => afterChecks s (f a) k := by
  rw [h, afterChecks_bind]

theorem afterChecks_checkAll_ok {cs : List (Bool × Nat)} (h : ∀ c ∈ cs, c.1 = false) (s : State)
    (k : Unit → Run) : afterChecks s (checkAll cs) k = k () := by
  rw [checkAll_eq_ok h, afterChecks_ok]

/-! ## The model's checks as lists -/

theorem decide_lt_eq_not (m n : Nat) : decide (n < m) = !decide (m ≤ n) := by
  rw [← decide_not]
  simp only [not_le]

theorem decide_le_eq_not (m n : Nat) : decide (m ≤ n) = !decide (n < m) := by
  rw [decide_lt_eq_not, Bool.not_not]

theorem decide_or_lt_eq_not (a b c d : Nat) :
    (decide (b < a) || decide (d < c)) = !(decide (a ≤ b) && decide (c ≤ d)) := by
  rw [decide_lt_eq_not, decide_lt_eq_not, Bool.not_and]

section Lists

variable (s : State)

theorem checkHint_eq : checkHint s = checkAll [(decide (s.opt.btype = 3), 0x008)] :=
  require_eq_checkAll (by simp) _

theorem checkWindow_eq : checkWindow hw s = checkAll [(decide (hw.inCap < s.inputLen), 0x018)] :=
  require_eq_checkAll (decide_lt_eq_not _ _) _

theorem checkBytes_eq (x y : ArgReg) : checkBytes hw s x y = checkAll (byteChecks s x y) := by
  unfold checkBytes
  rw [checkWindow_eq, require_eq_checkAll (decide_or_lt_eq_not _ _ _ _),
    require_eq_checkAll (decide_lt_eq_not _ _), ← checkAll_append, ← checkAll_append]
  rfl

theorem checkStoreArgs_eq (x : StoreSel) : checkStoreArgs hw s x .x0 .x1 = checkAll (storeChecks s x) := by
  unfold checkStoreArgs
  rw [require_eq_checkAll (decide_or_lt_eq_not _ _ _ _), require_eq_checkAll (decide_lt_eq_not _ _),
    require_eq_checkAll (decide_lt_eq_not _ _), ← checkAll_append, ← checkAll_append]
  rfl

theorem checkStoreRoom_eq (n : Nat) : checkStoreRoom hw s n =
    checkAll [(decide (hw.storeCap < s.storeLen .s) || decide (hw.storeCap < s.storeLen .s + n), 0x074)] :=
  require_eq_checkAll (decide_or_lt_eq_not _ _ _ _) _

theorem checkCompress_eq : checkCompress hw s = checkAll (argChecks s .compress) := by
  unfold checkCompress
  rw [checkHint_eq, checkWindow_eq, ← checkAll_append]
  rfl

theorem checkFindmatch_eq : checkFindmatch hw s = checkAll (argChecks s .findmatch) := by
  unfold checkFindmatch
  rw [checkWindow_eq, require_eq_checkAll (decide_le_eq_not _ _),
    ← checkAll_append]
  rfl

theorem checkSppass_eq : checkSppass hw s = checkAll (argChecks s .sppass) := by
  unfold checkSppass
  rw [checkBytes_eq, checkStoreRoom_eq, ← checkAll_append]
  rfl

theorem checkWbits_eq : checkWbits s = checkAll (argChecks s .wbits) :=
  require_eq_checkAll (decide_lt_eq_not _ _) _

theorem loadRange_eq (x : StoreSel) : loadRange hw s x .x0 .x1 = (checkAll (storeChecks s x) >>= fun _ =>
    readEntries hw s x (s.argOf .x1 - s.argOf .x0) (s.argOf .x0)) := by
  rw [loadRange, checkStoreArgs_eq]

/-- The symbol check of entries from m to n and the tiling check of [a, b) over them (40_control.md R422, R423). -/
def tiledEntries (x : StoreSel) (m n a b : Nat) : Except CmdError (List Entry) := do
  let entries ← readEntries hw s x (n - m) m
  checkTiling entries m a b
  return entries

theorem loadTiledRange_eq (x : StoreSel) : loadTiledRange hw s x =
    (checkAll (storeChecks s x ++ byteChecks s .x2 .x3) >>= fun _ =>
      tiledEntries s x (s.argOf .x0) (s.argOf .x1) (s.argOf .x2) (s.argOf .x3)) := by
  rw [loadTiledRange, checkStoreArgs_eq, checkBytes_eq, checkAll_append, bind_assoc]
  rfl

theorem checkSplit_eq : checkSplit hw s = (checkAll (argChecks s .split) >>= fun _ =>
    tiledEntries s .g 0 (s.storeLen .g) s.lens.gA.toNat s.lens.gB.toNat) := by
  unfold checkSplit
  rw [checkHint_eq, require_eq_checkAll (decide_lt_eq_not _ _), ← bind_assoc, ← checkAll_append]
  rfl

theorem checkSqueeze_eq : checkSqueeze hw s = (checkAll (squeezeChecks s) >>= fun _ =>
    tiledEntries s .g (s.planWord (s.argOf .x0) 2) (s.planWord (s.argOf .x0) 3) (s.planWord (s.argOf .x0) 0)
      (s.planWord (s.argOf .x0) 1)) := by
  unfold checkSqueeze
  simp only []
  rw [checkHint_eq, checkWindow_eq, checkStoreRoom_eq, require_eq_checkAll (decide_lt_eq_not _ _),
    require_eq_checkAll (decide_le_eq_not s.lens.planLen.toNat _),
    require_eq_checkAll (decide_lt_eq_not _ _), require_eq_checkAll (decide_lt_eq_not _ _),
    require_eq_checkAll (decide_or_lt_eq_not _ _ _ _), require_eq_checkAll (decide_lt_eq_not _ _),
    require_eq_checkAll (decide_or_lt_eq_not _ _ _ _)]
  simp only [← bind_assoc, ← checkAll_append]
  rw [bind_assoc]
  rfl

theorem checkAlphabet_eq :
    checkAlphabet s = checkAll [(decide (s.argOf .x0 < 1) || decide (288 < s.argOf .x0), 0x040)] :=
  require_eq_checkAll (decide_or_lt_eq_not _ _ _ _) _

theorem checkHufflen_eq : ∃ f, (∀ u, ∃ a, f u = .ok a) ∧ checkHufflen hw s = (checkAll (argChecks s .hufflen) >>= fun _ =>
    require (decide ((codedSyms (s.readTable .freq (s.argOf .x0))).length ≤ 2 ^ s.argOf .x1))
      (huffError (codedSyms (s.readTable .freq (s.argOf .x0))).length) >>= f) := by
  unfold checkHufflen
  rw [checkAlphabet_eq, require_eq_checkAll (decide_or_lt_eq_not _ _ _ _), ← bind_assoc, ← checkAll_append]
  exact ⟨_, fun _ => ⟨_, rfl⟩, rfl⟩

theorem checkLens_eq (k : Nat) (ls : List Nat) :
    checkLens hw k ls = checkAll (ls.zipIdx.map (fun x => (decide (15 < x.1), 0x00012000 + 4 * (k + x.2)))) := by
  induction ls generalizing k with
  | nil => rfl
  | cons l ls ih =>
    rw [checkLens, ih, List.zipIdx_cons', List.map_cons, checkAll]
    simp [Region.entry, Region.base, Region.stride, Function.comp_def, Nat.add_comm, Nat.add_left_comm]

theorem checkCanon_eq : ∃ f, (∀ u, ∃ a, f u = .ok a) ∧ checkCanon hw s = (checkAll (argChecks s .canon) >>= fun _ =>
    require (decide (kraftSum hw (s.readTable .len (s.argOf .x0)) ≤ 2 ^ hw.maxBits))
      (huffError (kraftSum hw (s.readTable .len (s.argOf .x0)))) >>= f) := by
  unfold checkCanon
  have hlens : checkLens hw 0 (s.readTable .len (s.argOf .x0)) =
      checkAll ((List.range (s.argOf .x0)).map (fun k =>
        (decide (15 < (s.readWord (Region.len.entry k)).toNat), 0x00012000 + 4 * k))) := by
    rw [checkLens_eq, State.readTable]
    congr 1
    refine List.ext_getElem? fun i => ?_
    by_cases hi : i < s.argOf .x0 <;> simp [hi, Region.entry, Region.stride]
  simp only []
  rw [checkAlphabet_eq, hlens, ← bind_assoc, ← checkAll_append]
  exact ⟨_, fun _ => ⟨_, rfl⟩, rfl⟩

end Lists

/-! ## The errors a rule stops with after its checks -/

/-- Where a rule stops, it does so with an error of the given kind. -/
def Run.StopsWith (E : CmdError → Prop) : Run → Prop
  | .ok _ => True
  | .stop e _ => E e

theorem Run.StopsWith.andThen {E : CmdError → Prop} {r : Run} {k : State → Run} (h : r.StopsWith E)
    (hk : ∀ t, (k t).StopsWith E) : (r.andThen k).StopsWith E := by
  cases r with
  | ok t => exact hk t
  | stop e t => exact h

theorem Run.StopsWith.imp {E E' : CmdError → Prop} {r : Run} (h : r.StopsWith E) (hE : ∀ e, E e → E' e) :
    r.StopsWith E' := by
  cases r with
  | ok t => trivial
  | stop e t => exact hE e h

theorem afterChecks_stopsWith {α : Type} {E : CmdError → Prop} {s : State} {checks : Except CmdError α}
    {k : α → Run} (hc : ∀ e, checks = .error e → E e) (hk : ∀ a, (k a).StopsWith E) :
    (afterChecks s checks k).StopsWith E := by
  cases h : checks with
  | error e => exact hc e h
  | ok a => exact hk a

/-- The output-write failure, the one error of the bit packer (45_block_writer.md R901). -/
def CmdError.IsWriteError (e : CmdError) : Prop := e.code = .writeError

section Writers

variable (s : State) (t : List Sym) (final : Bool)

theorem putBit_stopsWith (x : Bool) : (putBit x s).StopsWith CmdError.IsWriteError := by
  rcases putBit_cases x s with ⟨-, h⟩ | ⟨-, -, h⟩ | ⟨-, -, h⟩ <;> rw [h]
  · trivial
  · trivial
  · rfl

theorem putAll_stopsWith (bits : List Bool) : (putAll bits s).StopsWith CmdError.IsWriteError := by
  induction bits generalizing s with
  | nil => trivial
  | cons x xs ih => exact (putBit_stopsWith s x).andThen ih

theorem flush_stopsWith : (flush s).StopsWith CmdError.IsWriteError := putAll_stopsWith s _

theorem putHeader_stopsWith (n : Nat) : (putHeader final n s).StopsWith CmdError.IsWriteError :=
  (putAll_stopsWith s _).andThen fun _ => trivial

theorem fixedBlock_stopsWith : (fixedBlock hw t final s).StopsWith CmdError.IsWriteError :=
  (putHeader_stopsWith s final 1).andThen fun u => putAll_stopsWith u _

theorem dynamicBlock_stopsWith : (dynamicBlock hw t final s).StopsWith CmdError.IsWriteError :=
  (putHeader_stopsWith s final 2).andThen fun u => putAll_stopsWith u _

theorem storedChunksFrom_stopsWith (chunks : List Nat) (p : Nat) :
    (storedChunksFrom final chunks p s).StopsWith CmdError.IsWriteError := by
  induction chunks generalizing p s with
  | nil => trivial
  | cons len rest ih =>
    exact (putHeader_stopsWith s _ 0).andThen fun s₁ => (flush_stopsWith s₁).andThen fun s₂ =>
      (putAll_stopsWith s₂ _).andThen fun s₃ => ih s₃ _

theorem storedBlocks_stopsWith (a b : Nat) : (storedBlocks hw a b final s).StopsWith CmdError.IsWriteError :=
  storedChunksFrom_stopsWith s final _ a

theorem autoBlock_stopsWith (a b : Nat) : (autoBlock hw t a b final s).StopsWith CmdError.IsWriteError := by
  unfold autoBlock
  split
  · exact storedBlocks_stopsWith s final a b
  · exact fixedBlock_stopsWith s t final
  · exact dynamicBlock_stopsWith s t final

theorem compressBlock_stopsWith (j : Nat) (p : PlanBlock) (entries : List Entry) :
    (s.compressBlock hw j final p entries).StopsWith CmdError.IsWriteError := by
  refine Run.StopsWith.andThen ?_ fun _ => trivial
  split
  · exact fixedBlock_stopsWith _ _ final
  · exact autoBlock_stopsWith _ _ final _ _

theorem compressBlocks_stopsWith (entries : List Entry) (ps : List PlanBlock) (j : Nat) :
    (compressBlocks hw entries ps j s).StopsWith CmdError.IsWriteError := by
  induction ps generalizing j s with
  | nil => trivial
  | cons p ps ih => exact (compressBlock_stopsWith s _ j p entries).andThen fun u => ih u _

theorem compressBody_stopsWith : (compressBody hw s).StopsWith CmdError.IsWriteError := by
  unfold compressBody
  split
  · exact storedBlocks_stopsWith s true 0 _
  · exact compressBlocks_stopsWith _ _ _ _

end Writers

/-! ## The rule of every command -/

/-- The rule of a command, before its end. -/
def commandRule (s : State) : Instr → Run
  | .nop => .ok s
  | .sreset => .ok (sresetState hw s)
  | .cacheclr => .ok s.clearCache
  | .compress => compressCmd hw s
  | .findmatch => findmatchCmd hw s
  | .greedy => greedyCmd hw s
  | .split => splitCmd hw s
  | .coststat store => coststatCmd hw store s
  | .costfixed => costfixedCmd hw s
  | .sppass => sppassCmd hw s
  | .squeeze => squeezeCmd hw s
  | .count store => countCmd hw store s
  | .hufflen => hufflenCmd hw s
  | .canon => canonCmd hw s
  | .wreset => .ok s.resetStream
  | .wbits => afterChecks s (checkWbits s) fun _ => putAll (bitsOf (s.argOf .x0) (s.argOf .x1)) s
  | .wflush => (flush s).andThen fun s' => .ok (s'.setRes0 s.flushCount)
  | .wstored final => wstoredCmd hw final s
  | .wfixed final store => wfixedCmd hw final store s
  | .wdynamic final store => wdynamicCmd hw final store s
  | .wauto final store => wautoCmd hw final store s
  | .blkcost store => blkcostCmd hw store s

theorem exec_eq_commandRule (i : Instr) (s : State) : exec i s = (commandRule s i).finish := by
  cases i <;> rfl

/-- What a rule that completes leaves in ERRCODE: no rule writes STATUS before its end, and SRESET clears it. -/
theorem commandRule_errCode {i : Instr} {s u : State} (h : commandRule s i = .ok u) (hs : s.status.errCode = .none) :
    u.status.errCode = .none := by
  have hof : (commandRule s i).Ends (Effect s) → u.status.errCode = .none := fun hr => by
    rw [h] at hr
    rw [hr.status, hs]
  cases i with
  | sreset =>
    cases h
    rfl
  | nop => exact hof (Appends.refl s).toEffect
  | cacheclr =>
    cases h
    exact hs
  | compress => exact hof (compressCmd_effect s)
  | findmatch => exact hof ((findmatchCmd_appends s).imp fun _ => Appends.toEffect)
  | greedy => exact hof ((greedyCmd_appends s).imp fun _ => Appends.toEffect)
  | split => exact hof ((splitCmd_appends s).imp fun _ => Appends.toEffect)
  | coststat store => exact hof ((coststatCmd_appends s store).imp fun _ => Appends.toEffect)
  | costfixed => exact hof ((costfixedCmd_appends s).imp fun _ => Appends.toEffect)
  | sppass => exact hof ((sppassCmd_appends s).imp fun _ => Appends.toEffect)
  | squeeze => exact hof ((squeezeCmd_appends s).imp fun _ => Appends.toEffect)
  | count store => exact hof ((countCmd_appends s store).imp fun _ => Appends.toEffect)
  | hufflen => exact hof ((hufflenCmd_appends s).imp fun _ => Appends.toEffect)
  | canon => exact hof ((canonCmd_appends s).imp fun _ => Appends.toEffect)
  | wreset =>
    cases h
    exact hs
  | wbits => exact hof ((wbits_appends s).imp fun _ => Appends.toEffect)
  | wflush => exact hof ((wflush_appends s).imp fun _ => Appends.toEffect)
  | wstored final => exact hof ((wstoredCmd_appends s final).imp fun _ => Appends.toEffect)
  | wfixed final store => exact hof ((wfixedCmd_appends s final store).imp fun _ => Appends.toEffect)
  | wdynamic final store => exact hof ((wdynamicCmd_appends s final store).imp fun _ => Appends.toEffect)
  | wauto final store => exact hof ((wautoCmd_appends s final store).imp fun _ => Appends.toEffect)
  | blkcost store => exact hof ((blkcostCmd_appends s store).imp fun _ => Appends.toEffect)

/-- Any error but BAD_ARG. -/
def CmdError.NotBadArg (e : CmdError) : Prop := e.code ≠ .badArg

theorem CmdError.IsWriteError.notBadArg {e : CmdError} (h : e.IsWriteError) : e.NotBadArg := by
  intro h'
  cases h.symm.trans h'

theorem badSymbol_notBadArg (k : Nat) : (badSymbol k).NotBadArg := nofun

theorem huffError_notBadArg (n : Nat) : (huffError n).NotBadArg := nofun

theorem readEntries_error_notBadArg {s : State} {x : StoreSel} {n k : Nat} (e : CmdError)
    (h : readEntries hw s x n k = .error e) : e.NotBadArg := by
  obtain ⟨m, -, -, rfl, -⟩ := readEntries_eq_error.1 h
  exact badSymbol_notBadArg m

theorem tiledEntries_error_notBadArg {s : State} {x : StoreSel} {m n a b : Nat} (e : CmdError)
    (h : tiledEntries s x m n a b = .error e) : e.NotBadArg := by
  rcases except_bind_eq_error.1 h with h | ⟨es, -, h⟩
  · exact readEntries_error_notBadArg e h
  · rcases except_bind_eq_error.1 h with h | ⟨-, -, h⟩
    · unfold checkTiling at h
      cases hk : tilingFailure es m a b with
      | none => simp [hk] at h
      | some k =>
        simp only [hk, Except.error.injEq] at h
        exact h ▸ badSymbol_notBadArg k
    · cases h

theorem require_bind_ok_error_notBadArg {α : Type} {c : Bool} {n : Nat} {f : Unit → Except CmdError α}
    (hf : ∀ u, ∃ a, f u = .ok a) (e : CmdError) (h : (require c (huffError n) >>= f) = .error e) : e.NotBadArg := by
  rcases except_bind_eq_error.1 h with h | ⟨u, -, h⟩
  · obtain ⟨-, rfl⟩ := require_eq_error.1 h
    exact huffError_notBadArg n
  · obtain ⟨a, ha⟩ := hf u
    cases ha.symm.trans h

/-! ## The order of the checks in each rule -/

/-- The rule of a command with a symbol range: its BAD_ARG checks, the symbol check, and the tiling check where it has
one; what comes after raises no BAD_ARG. -/
theorem exists_commandRule_of_symbolCheck {i : Instr} {s : State} {x : StoreSel} {m n : Nat}
    (h : symbolCheck s i = some (x, m, n)) : ∃ k : List Entry → Run, (∀ es, (k es).StopsWith CmdError.NotBadArg) ∧
      commandRule s i = afterChecks s (checkAll (argChecks s i)) fun _ =>
        match tilingCheck s i with
        | none => afterChecks s (readEntries hw s x (n - m) m) k
        | some (a, b) => afterChecks s (tiledEntries s x m n a b) k := by
  have hwrite : ∀ {r : Run}, r.StopsWith CmdError.IsWriteError → r.StopsWith CmdError.NotBadArg :=
    fun hr => hr.imp fun _ => CmdError.IsWriteError.notBadArg
  cases i with
  | coststat store =>
    cases h
    refine ⟨_, ?_, afterChecks_of_eq_bind s _ (loadRange_eq s _)⟩
    exact fun _ => trivial
  | count store =>
    cases h
    refine ⟨_, ?_, afterChecks_of_eq_bind s _ (loadRange_eq s _)⟩
    exact fun _ => trivial
  | wfixed final store =>
    cases h
    refine ⟨_, ?_, afterChecks_of_eq_bind s _ (loadRange_eq s _)⟩
    exact fun _ => (hwrite (fixedBlock_stopsWith s _ final)).andThen fun _ => trivial
  | wdynamic final store =>
    cases h
    refine ⟨_, ?_, afterChecks_of_eq_bind s _ (loadRange_eq s _)⟩
    exact fun _ => (hwrite (dynamicBlock_stopsWith s _ final)).andThen fun _ => trivial
  | wauto final store =>
    cases h
    refine ⟨_, ?_, afterChecks_of_eq_bind s _ (loadTiledRange_eq s _)⟩
    exact fun _ => (hwrite (autoBlock_stopsWith s _ final _ _)).andThen fun _ => trivial
  | blkcost store =>
    cases h
    refine ⟨_, ?_, afterChecks_of_eq_bind s _ (loadTiledRange_eq s _)⟩
    exact fun _ => trivial
  | split =>
    cases h
    refine ⟨_, ?_, afterChecks_of_eq_bind s _ (checkSplit_eq s)⟩
    exact fun _ => trivial
  | squeeze =>
    cases h
    refine ⟨_, ?_, afterChecks_of_eq_bind s _ (checkSqueeze_eq s)⟩
    exact fun _ => trivial
  | _ => cases h

/-- Every rule begins with its BAD_ARG checks, and raises no BAD_ARG after them. -/
theorem exists_commandRule_eq (i : Instr) (s : State) : ∃ k : Unit → Run, (k ()).StopsWith CmdError.NotBadArg ∧
    commandRule s i = afterChecks s (checkAll (argChecks s i)) k := by
  have hwrite : ∀ {r : Run}, r.StopsWith CmdError.IsWriteError → r.StopsWith CmdError.NotBadArg :=
    fun hr => hr.imp fun _ => CmdError.IsWriteError.notBadArg
  cases hsym : symbolCheck s i with
  | some range =>
    obtain ⟨k, hk, heq⟩ := exists_commandRule_of_symbolCheck hsym
    refine ⟨_, ?_, heq⟩
    cases tilingCheck s i with
    | none => exact afterChecks_stopsWith readEntries_error_notBadArg hk
    | some range => exact afterChecks_stopsWith tiledEntries_error_notBadArg hk
  | none =>
    cases i with
    | nop => exact ⟨fun _ => .ok s, trivial, rfl⟩
    | sreset => exact ⟨fun _ => .ok (sresetState hw s), trivial, rfl⟩
    | cacheclr => exact ⟨fun _ => .ok s.clearCache, trivial, rfl⟩
    | costfixed => exact ⟨fun _ => costfixedCmd hw s, trivial, rfl⟩
    | wreset => exact ⟨fun _ => .ok s.resetStream, trivial, rfl⟩
    | wflush =>
      refine ⟨fun _ => commandRule s .wflush, ?_, rfl⟩
      exact (hwrite (flush_stopsWith s)).andThen fun _ => trivial
    | compress =>
      refine ⟨_, ?_, afterChecks_congr s _ (checkCompress_eq s)⟩
      refine (hwrite (compressBody_stopsWith _)).andThen fun u => (hwrite (flush_stopsWith u)).andThen fun v => ?_
      unfold compressEnd
      split
      · exact nofun
      · trivial
    | findmatch =>
      refine ⟨_, ?_, afterChecks_congr s _ (checkFindmatch_eq s)⟩
      trivial
    | greedy =>
      refine ⟨_, ?_, afterChecks_congr s _ (checkBytes_eq s _ _)⟩
      trivial
    | sppass =>
      refine ⟨_, ?_, afterChecks_congr s _ (checkSppass_eq s)⟩
      trivial
    | wbits => exact ⟨_, hwrite (putAll_stopsWith s _), afterChecks_congr s _ (checkWbits_eq s)⟩
    | wstored final =>
      refine ⟨_, ?_, afterChecks_congr s _ (checkBytes_eq s _ _)⟩
      exact (hwrite (storedBlocks_stopsWith s final _ _)).andThen fun _ => trivial
    | hufflen =>
      obtain ⟨f, hok, hf⟩ := checkHufflen_eq s
      refine ⟨_, ?_, afterChecks_of_eq_bind s _ hf⟩
      exact afterChecks_stopsWith (require_bind_ok_error_notBadArg hok) fun _ => trivial
    | canon =>
      obtain ⟨f, hok, hf⟩ := checkCanon_eq s
      refine ⟨_, ?_, afterChecks_of_eq_bind s _ hf⟩
      exact afterChecks_stopsWith (require_bind_ok_error_notBadArg hok) fun _ => trivial
    | _ => cases hsym

/-! ## Where the tiling check fails -/

theorem tilingFailure_of_pos_ne {es : List Entry} {a b e k : Nat} {y : Entry} (i : Nat) (ht : Tiles (es.take k) a e)
    (hk : es[k]? = some y) (hy : y.pos ≠ e) : tilingFailure es i a b = some (i + k) := by
  induction es generalizing i a k with
  | nil => simp at hk
  | cons x es ih =>
    cases k with
    | zero =>
      obtain rfl : a = e := ht
      obtain rfl : x = y := by simpa using hk
      simp [tilingFailure, hy]
    | succ k =>
      obtain ⟨rfl, ht⟩ := ht
      rw [tilingFailure, if_neg (not_not.2 rfl), ih (i + 1) ht (by simpa using hk)]
      congr 1
      omega

theorem tilingFailure_of_end_ne {es : List Entry} {a b e : Nat} (i : Nat) (ht : Tiles es a e) (hb : e ≠ b) :
    tilingFailure es i a b = some (i + es.length) := by
  induction es generalizing i a with
  | nil =>
    obtain rfl : a = e := ht
    simp [tilingFailure, hb]
  | cons x es ih =>
    obtain ⟨rfl, ht⟩ := ht
    rw [tilingFailure, if_neg (not_not.2 rfl), ih (i + 1) ht, List.length_cons]
    congr 1
    omega

theorem tiledEntries_eq_error {s : State} {x : StoreSel} {m n a b j : Nat} {es : List Entry}
    (hlen : es.length = n - m) (hes : HoldsEntries s x m es) (hj : tilingFailure es m a b = some j) :
    tiledEntries s x m n a b = .error (badSymbol j) := by
  rw [tiledEntries, readEntries_eq_ok.2 ⟨hlen, hes⟩]
  show (checkTiling es m a b >>= fun _ => pure es) = _
  rw [checkTiling, hj]
  rfl

theorem readEntries_eq_badSymbol {s : State} {x : StoreSel} {m n k : Nat} (hm : m ≤ k) (hk : k < n)
    (hread : ∀ l, m ≤ l → l < k → s.entryAt hw x l ≠ none) (hbad : s.entryAt hw x k = none) :
    readEntries hw s x (n - m) m = .error (badSymbol k) :=
  readEntries_eq_error.2 ⟨k, hm, by omega, rfl, hbad, hread⟩

theorem tiledEntries_eq_badSymbol {s : State} {x : StoreSel} {m n a b k : Nat}
    (h : readEntries hw s x (n - m) m = .error (badSymbol k)) :
    tiledEntries s x m n a b = .error (badSymbol k) := by
  rw [tiledEntries, h]
  rfl

/-- The symbol range of a command that passes its BAD_ARG checks does not end before it begins. -/
theorem symbolCheck_le_of_argsPass {i : Instr} {s : State} {x : StoreSel} {m n : Nat} (hp : ArgsPass i s)
    (h : symbolCheck s i = some (x, m, n)) : m ≤ n := by
  have hstore : (∀ c ∈ storeChecks s x, c.1 = false) → s.argOf .x0 ≤ s.argOf .x1 := by
    intro hc
    have := hc (_, 0x044) (List.mem_cons_of_mem _ (List.mem_cons_of_mem _ List.mem_cons_self))
    simp only [Bool.or_eq_false_iff, decide_eq_false_iff_not] at this
    omega
  cases i with
  | coststat store => cases h; exact hstore hp
  | count store => cases h; exact hstore hp
  | wfixed final store => cases h; exact hstore hp
  | wdynamic final store => cases h; exact hstore hp
  | wauto final store => cases h; exact hstore fun c hc => hp c (List.mem_append_left _ hc)
  | blkcost store => cases h; exact hstore fun c hc => hp c (List.mem_append_left _ hc)
  | split => cases h; exact Nat.zero_le _
  | squeeze =>
    cases h
    have hge : (decide (s.planWord (s.argOf .x0) 3 < s.planWord (s.argOf .x0) 2) ||
        decide (s.storeLen .g < s.planWord (s.argOf .x0) 3)) = false :=
      hp ((squeezeChecks s)[8]'(by simp [squeezeChecks])) (List.getElem_mem _)
    simp only [Bool.or_eq_false_iff, decide_eq_false_iff_not] at hge
    omega
  | _ => cases h

/-! ## The obligation -/

theorem exec_of_argCheck_fails {i : Instr} {s : State} {before after : List (Bool × Nat)} {info : Nat}
    (h : argChecks s i = before ++ (true, info) :: after) (hb : ∀ c ∈ before, c.1 = false) :
    exec i s = .next (s.raiseError (badArg info)) := by
  obtain ⟨k, -, heq⟩ := exists_commandRule_eq i s
  rw [exec_eq_commandRule, heq, h, checkAll_eq_error hb]
  rfl

theorem exec_errCode_ne_badArg {i : Instr} {s t : State} (hp : ArgsPass i s) (hs : s.status.errCode = .none)
    (ht : exec i s = .next t) : t.status.errCode ≠ .badArg := by
  obtain ⟨k, hk, heq⟩ := exists_commandRule_eq i s
  rw [afterChecks_checkAll_ok hp] at heq
  rw [exec_eq_commandRule] at ht
  cases hr : k () with
  | ok u =>
    have hcode := commandRule_errCode (heq.trans hr) hs
    rw [heq, hr] at ht
    cases ht
    simp [hcode]
  | stop e u =>
    rw [hr] at hk
    rw [heq, hr] at ht
    cases ht
    exact hk

/-- A command that passes its BAD_ARG checks and fails its symbol check or its tiling check. -/
theorem exec_of_entries_fail {i : Instr} {s : State} {x : StoreSel} {m n k : Nat} (hp : ArgsPass i s)
    (h : symbolCheck s i = some (x, m, n))
    (hnone : tilingCheck s i = none → readEntries hw s x (n - m) m = .error (badSymbol k))
    (hsome : ∀ a b, tilingCheck s i = some (a, b) → tiledEntries s x m n a b = .error (badSymbol k)) :
    exec i s = .next (s.raiseError (badSymbol k)) := by
  obtain ⟨f, -, heq⟩ := exists_commandRule_of_symbolCheck h
  rw [exec_eq_commandRule, heq, afterChecks_checkAll_ok hp]
  cases ht : tilingCheck s i with
  | none => simp [hnone ht]
  | some range => simp [hsome _ _ ht]

/-- Settles O28: each rule is its list of BAD_ARG checks, then its symbol check, then its tiling check. -/
theorem operandErrorsComeInOrder : Obligations.OperandErrorsComeInOrder := by
  refine ⟨fun i s before after info => exec_of_argCheck_fails, fun i s t => exec_errCode_ne_badArg,
    fun i s x m n k hp hsym hm hk hread hbad => ?_, fun i s x m n a b e es hp hsym htile hlen hes => ?_⟩
  · have hentries := readEntries_eq_badSymbol hm hk hread hbad
    exact exec_of_entries_fail hp hsym (fun _ => hentries) fun _ _ _ => tiledEntries_eq_badSymbol hentries
  · have hfail : ∀ j, tilingFailure es m a b = some j → exec i s = .next (s.raiseError (badSymbol j)) := by
      refine fun j hj => exec_of_entries_fail hp hsym (fun hnone => absurd (htile.symm.trans hnone) nofun)
        fun a' b' hsome => ?_
      cases htile.symm.trans hsome
      exact tiledEntries_eq_error hlen hes hj
    refine ⟨fun k y ht hk hy => hfail _ (tilingFailure_of_pos_ne m ht hk hy), fun ht hb => ?_⟩
    have hmn := symbolCheck_le_of_argsPass hp hsym
    have hend := hfail _ (tilingFailure_of_end_ne m ht hb)
    rwa [hlen, Nat.add_sub_cancel' hmn] at hend

end Sys2Proof.Machine
end

section
/-! PROOFS. COMPRESS on two states at once: a relation of states that COMPRESS cannot tell apart, and that its own updates
keep, holds again where the two runs end. Two uses: runs that differ in IN_ERR, and runs that agree on the inputs
of COMPRESS alone. -/

namespace Sys2Proof.Machine

open Config (hw)

/-! ## Two runs in lockstep -/

/-- Two states that agree on all that the work of COMPRESS reads: the options but IN_ERR, the packer, the lengths, the
cache and IN (40_control.md R443). -/
structure SameWork (s t : State) : Prop where
  opt : t.opt = { s.opt with inErr := t.opt.inErr }
  packer : t.packer = s.packer
  lens : t.lens = s.lens
  cache : t.cache = s.cache
  input : ∀ x, Region.input.covers hw x = true → t.readByte x = s.readByte x

/-- A store of n bytes from a on that leaves IN alone. -/
def OffInput (a n : Nat) : Prop := a + n ≤ Region.input.base ∨ Region.output.base ≤ a

/-- A relation of states under which COMPRESS reads the same, kept by each of its updates. -/
structure Lockstep (R : State → State → Prop) : Prop where
  same : ∀ {s t}, R s t → SameWork s t
  store : ∀ {s t a} {bs : List Byte}, OffInput a bs.length → R s t → R (s.storeBytes a bs) (t.storeBytes a bs)
  packer : ∀ {s t p}, R s t → R { s with packer := p } { t with packer := p }
  lose : ∀ {s t}, R s t → R s.loseBitState t.loseBitState
  lens : ∀ {s t l}, R s t → R { s with lens := l } { t with lens := l }
  cache : ∀ {s t c}, R s t → R { s with cache := c } { t with cache := c }
  curBlock : ∀ {s t v}, R s t →
    R { s with obs := { s.obs with curBlock := v } } { t with obs := { t.obs with curBlock := v } }
  passes : ∀ {s t m n}, R s t →
    R { s with obs := { s.obs with iterCount := m, bestBits := n } }
      { t with obs := { t.obs with iterCount := m, bestBits := n } }
  res : ∀ {s t r}, R s t → R { s with res := r } { t with res := r }

/-- Two rules that got to the same point: both go on, or both are stopped by the same error. -/
def Run.Paired (R : State → State → Prop) : Run → Run → Prop
  | .ok s, .ok t => R s t
  | .stop e s, .stop e' t => e' = e ∧ R s t
  | _, _ => False

theorem Run.Paired.andThen {R : State → State → Prop} {r r' : Run} {k k' : State → Run} (h : r.Paired R r')
    (hk : ∀ {s t}, R s t → (k s).Paired R (k' t)) : (r.andThen k).Paired R (r'.andThen k') := by
  cases r with
  | ok s =>
    cases r' with
    | ok t => exact hk h
    | stop e t => exact h.elim
  | stop e s =>
    cases r' with
    | ok t => exact h.elim
    | stop e' t => exact h

/-- Paired rules complete together, or raise the same error. -/
theorem Run.Paired.ends {R : State → State → Prop} {r r' : Run} (h : r.Paired R r') {t t' : State}
    (ht : r.finish = .next t) (ht' : r'.finish = .next t') : ∃ u v, R u v ∧
      ((t = u.complete ∧ t' = v.complete) ∨ ∃ e, t = u.raiseError e ∧ t' = v.raiseError e) := by
  cases r with
  | ok u =>
    cases r' with
    | ok v =>
      cases ht
      cases ht'
      exact ⟨u, v, h, .inl ⟨rfl, rfl⟩⟩
    | stop e v => exact h.elim
  | stop e u =>
    cases r' with
    | ok v => exact h.elim
    | stop e' v =>
      obtain ⟨rfl, h⟩ := h
      cases ht
      cases ht'
      exact ⟨u, v, h, .inr ⟨_, rfl, rfl⟩⟩

theorem Run.andThen_assoc (r : Run) (k l : State → Run) :
    (r.andThen k).andThen l = r.andThen fun s => (k s).andThen l := by
  cases r <;> rfl

section Paired

variable {R : State → State → Prop} (hR : Lockstep R) {s t : State}

/-- An option other than IN_ERR. -/
theorem SameWork.option {α : Type} (h : SameWork s t) {f : Options → α} (hf : ∀ o v, f { o with inErr := v } = f o) :
    f t.opt = f s.opt :=
  (congrArg f h.opt).trans (hf _ _)

theorem SameWork.searchCtx_eq (h : SameWork s t) (hN : s.inputLen ≤ hw.inCap) : t.searchCtx = s.searchCtx :=
  searchCtx_congr hN (h.option fun _ _ => rfl) (h.option fun _ _ => rfl) h.input

/-- The bytes of a chunk of the window. -/
theorem SameWork.readBytes_eq (h : SameWork s t) {p n : Nat} (hn : p + n ≤ hw.inCap) :
    t.readBytes (Region.input.entry p) n = s.readBytes (Region.input.entry p) n := by
  refine List.map_congr_left fun k hk => h.input _ (Region.covers_iff.2 ?_)
  have hk : k < n := List.mem_range.1 hk
  have hcap : hw.inCap = 16777216 := rfl
  simp only [Region.entry, Region.stride, Region.entries]
  omega

theorem Lockstep.storeWords (hR : Lockstep R) (h : R s t) {a : Nat} {ws : List Word} (ha : OffInput a (4 * ws.length)) :
    R (s.storeWords a ws) (t.storeWords a ws) :=
  hR.store (by rwa [length_flatMap_wordBytes]) h

theorem Lockstep.storeEntries (hR : Lockstep R) (h : R s t) (x : StoreSel) (k : Nat) (es : List Entry) :
    R (s.storeEntries x k es) (t.storeEntries x k es) := by
  have hbase : Region.output.base ≤ (storeRegion x).base := by cases x <;> decide
  exact hR.storeWords h (.inr (hbase.trans (Nat.le_add_right _ _)))

theorem Lockstep.storePlan (hR : Lockstep R) (h : R s t) {j k : Nat} (hj : j ≤ hw.planCap) {ws : List Word}
    (hk : k + ws.length ≤ 8) : R (s.storeWords (planAddr j k) ws) (t.storeWords (planAddr j k) ws) := by
  have hplan : Region.plan.base + 32 * (hw.planCap + 1) ≤ Region.input.base := by decide
  refine hR.storeWords h (.inl (le_trans ?_ hplan))
  unfold planAddr
  omega

include hR

theorem putBit_paired (x : Bool) (h : R s t) : (putBit x s).Paired R (putBit x t) := by
  have hsame := hR.same h
  have hlimit : t.opt.outLimit = s.opt.outLimit := hsame.option (f := Options.outLimit) fun _ _ => rfl
  unfold putBit
  rw [hsame.packer, hlimit]
  split
  · split
    · exact ⟨rfl, hR.lose h⟩
    · exact hR.packer (hR.store (.inr (Nat.le_add_right _ _)) h)
  · exact hR.packer h

theorem putAll_paired (bits : List Bool) (h : R s t) : (putAll bits s).Paired R (putAll bits t) := by
  induction bits generalizing s t with
  | nil => exact h
  | cons x xs ih => exact (putBit_paired hR x h).andThen ih

theorem flush_paired (h : R s t) : (flush s).Paired R (flush t) := by
  have hcount : t.flushCount = s.flushCount := by rw [State.flushCount, (hR.same h).packer, State.flushCount]
  unfold flush
  rw [hcount]
  exact putAll_paired hR _ h

theorem putHeader_paired (final : Bool) (n : Nat) (h : R s t) : (putHeader final n s).Paired R (putHeader final n t) := by
  refine (putAll_paired hR _ h).andThen fun {u v} h => ?_
  show R _ _
  rw [(hR.same h).packer]
  exact hR.packer h

theorem fixedBlock_paired (y : List Sym) (final : Bool) (h : R s t) :
    (fixedBlock hw y final s).Paired R (fixedBlock hw y final t) :=
  (putHeader_paired hR final 1 h).andThen (putAll_paired hR _)

theorem dynamicBlock_paired (y : List Sym) (final : Bool) (h : R s t) :
    (dynamicBlock hw y final s).Paired R (dynamicBlock hw y final t) :=
  (putHeader_paired hR final 2 h).andThen (putAll_paired hR _)

theorem storedChunksFrom_paired (final : Bool) (chunks : List Nat) {p : Nat} (hp : p + chunks.sum ≤ hw.inCap)
    (h : R s t) : (storedChunksFrom final chunks p s).Paired R (storedChunksFrom final chunks p t) := by
  induction chunks generalizing p s t with
  | nil => exact h
  | cons len rest ih =>
    rw [List.sum_cons] at hp
    refine (putHeader_paired hR _ 0 h).andThen fun h => (flush_paired hR h).andThen fun h => ?_
    rw [(hR.same h).readBytes_eq (by omega)]
    exact (putAll_paired hR _ h).andThen fun h => ih (by omega) h

end Paired

/-! ## The chunks of a stored encoding -/

theorem sum_chunkLens (k n : Nat) : (chunkLens hw k n).sum = n := by
  induction k generalizing n with
  | zero => simp [chunkLens]
  | succ k ih =>
    unfold chunkLens
    split
    · simp
    · rw [List.sum_cons, ih]
      omega

theorem sum_storedChunks (n : Nat) : (storedChunks hw n).sum = n := sum_chunkLens _ n

section Paired

variable {R : State → State → Prop} (hR : Lockstep R) {s t : State}

include hR

theorem storedBlocks_paired {a b : Nat} (ha : a ≤ hw.inCap) (hb : b ≤ hw.inCap) (final : Bool) (h : R s t) :
    (storedBlocks hw a b final s).Paired R (storedBlocks hw a b final t) :=
  storedChunksFrom_paired hR final _ (by rw [sum_storedChunks]; omega) h

theorem autoBlock_paired (y : List Sym) {a b : Nat} (ha : a ≤ hw.inCap) (hb : b ≤ hw.inCap) (final : Bool)
    (h : R s t) : (autoBlock hw y a b final s).Paired R (autoBlock hw y a b final t) := by
  have hpos : t.streamPos = s.streamPos := by rw [State.streamPos, (hR.same h).packer, State.streamPos]
  unfold autoBlock
  rw [hpos]
  split
  · exact storedBlocks_paired hR ha hb final h
  · exact fixedBlock_paired hR y final h
  · exact dynamicBlock_paired hR y final h

theorem runGreedy_paired (a b : Nat) (hN : s.inputLen ≤ hw.inCap) (h : R s t) :
    (t.runGreedy hw a b).1 = (s.runGreedy hw a b).1 ∧ R (s.runGreedy hw a b).2 (t.runGreedy hw a b).2 := by
  have hsame := hR.same h
  have hlazy : t.opt.lazy = s.opt.lazy := hsame.option (f := Options.lazy) fun _ _ => rfl
  have hstore := hR.storeEntries (hR.cache (c := (greedyParse hw s.searchCtx s.opt.lazy a b s.cache).2) h) .g 0
    (greedyParse hw s.searchCtx s.opt.lazy a b s.cache).1
  unfold State.runGreedy
  rw [hsame.searchCtx_eq hN, hlazy, hsame.cache]
  refine ⟨rfl, ?_⟩
  simpa only [hsame.lens] using hR.lens (l := { s.lens with
    gLen := word (greedyParse hw s.searchCtx s.opt.lazy a b s.cache).1.length, gA := word a, gB := word b }) hstore

theorem runSplit_paired (entries : List Entry) (h : R s t) :
    (t.runSplit hw entries).1 = (s.runSplit hw entries).1 ∧
      R (s.runSplit hw entries).2 (t.runSplit hw entries).2 := by
  have hsame := hR.same h
  have hhint : t.opt.btype = s.opt.btype := hsame.option (f := Options.btype) fun _ _ => rfl
  have hmax : t.opt.splitMax = s.opt.splitMax := hsame.option (f := Options.splitMax) fun _ _ => rfl
  have hmargin : t.opt.splitMargin = s.opt.splitMargin := hsame.option (f := Options.splitMargin) fun _ _ => rfl
  have hplan : Region.plan.base + 32 * hw.planCap ≤ Region.input.base := by decide
  have hlen := runSplit_length_le s entries
  have hstore : R (s.storeWords (planAddr 0 0) ((s.runSplit hw entries).1.flatMap PlanBlock.words))
      (t.storeWords (planAddr 0 0) ((s.runSplit hw entries).1.flatMap PlanBlock.words)) := by
    refine hR.storeWords h (.inl (le_trans ?_ hplan))
    rw [length_flatMap_planWords]
    unfold planAddr
    omega
  unfold State.runSplit at hstore ⊢
  rw [hhint, hmax, hmargin, hsame.lens]
  exact ⟨rfl, hR.lens hstore⟩

theorem runSqueeze_paired {j : Nat} (hj : j ≤ hw.planCap) (a b : Nat) (block : List Entry)
    (hN : s.inputLen ≤ hw.inCap) (h : R s t) :
    (t.runSqueeze hw j a b block).1 = (s.runSqueeze hw j a b block).1 ∧
      R (s.runSqueeze hw j a b block).2 (t.runSqueeze hw j a b block).2 := by
  have hsame := hR.same h
  have hq : t.squeezeBlock hw a b block = s.squeezeBlock hw a b block := by
    have hhint : t.opt.btype = s.opt.btype := hsame.option (f := Options.btype) fun _ _ => rfl
    have habsent : t.absent = s.absent := hsame.option (f := fun o => o.absentCost.toNat % 2 ^ 16) fun _ _ => rfl
    have hstag : t.opt.stagnation = s.opt.stagnation := hsame.option (f := Options.stagnation) fun _ _ => rfl
    have hiter : t.opt.numIter = s.opt.numIter := hsame.option (f := Options.numIter) fun _ _ => rfl
    unfold State.squeezeBlock
    rw [hsame.searchCtx_eq hN, hhint, habsent, hstag, hiter, hsame.cache]
  have hlen : t.storeLen .s = s.storeLen .s := by rw [State.storeLen, State.storeLen, hsame.lens]
  unfold State.runSqueeze
  simp only []
  rw [hq, hlen]
  refine ⟨rfl, ?_⟩
  have h₁ := hR.storeEntries (hR.cache (c := (s.squeezeBlock hw a b block).cache) h) .s (s.storeLen .s)
    (s.squeezeBlock hw a b block).best
  have h₂ := hR.storePlan (hR.storePlan h₁ hj (k := 4) (ws := [word (s.storeLen .s),
    word (s.storeLen .s + (s.squeezeBlock hw a b block).best.length)]) (by simp)) hj (k := 7)
    (ws := [word (s.squeezeBlock hw a b block).bestBits]) (by simp)
  have h₃ := hR.passes (hR.lens (l := { s.lens with
    sLen := word (s.storeLen .s + (s.squeezeBlock hw a b block).best.length) }) h₂)
    (m := word (s.squeezeBlock hw a b block).iters) (n := word (s.squeezeBlock hw a b block).bestBits)
  simp only [State.storeWords_lens, State.storeEntries_lens, hsame.lens]
  exact h₃

theorem compressBlock_paired {j : Nat} (hj : j ≤ hw.planCap) (final : Bool) {p : PlanBlock} (entries : List Entry)
    (ha : p.a ≤ hw.inCap) (hb : p.b ≤ hw.inCap) (hN : s.inputLen ≤ hw.inCap) (h : R s t) :
    (s.compressBlock hw j final p entries).Paired R (t.compressBlock hw j final p entries) := by
  obtain ⟨hq, hstates⟩ := runSqueeze_paired hR hj p.a p.b (slice entries p.gs p.ge)
    (s := { s with obs := { s.obs with curBlock := word j } }) hN (hR.curBlock h)
  have hhint : t.opt.btype = s.opt.btype := (hR.same h).option (f := Options.btype) fun _ _ => rfl
  have hpos := (hR.same hstates).packer
  unfold State.compressBlock
  simp only []
  rw [hq, hhint, State.streamPos, State.streamPos, hpos]
  refine Run.Paired.andThen ?_ fun h => hR.storePlan h hj (by simp)
  split
  · exact fixedBlock_paired hR _ final hstates
  · exact autoBlock_paired hR _ ha hb final hstates

theorem compressBlocks_paired (entries : List Entry) (blocks : List PlanBlock) {j : Nat}
    (hj : j + blocks.length ≤ hw.planCap) (hab : ∀ p ∈ blocks, p.a ≤ hw.inCap ∧ p.b ≤ hw.inCap)
    (hN : ∀ {u v}, R u v → u.inputLen ≤ hw.inCap) (h : R s t) :
    (compressBlocks hw entries blocks j s).Paired R (compressBlocks hw entries blocks j t) := by
  induction blocks generalizing j s t with
  | nil => exact h
  | cons p ps ih =>
    rw [List.length_cons] at hj
    obtain ⟨⟨ha, hb⟩, hps⟩ := List.forall_mem_cons.1 hab
    exact (compressBlock_paired hR (by omega) _ entries ha hb (hN h) h).andThen fun h => ih (by omega) hps h

omit hR in
/-- A plan block begins at the start of the range or where a symbol of the parse begins (43_block_splitter.md R712). -/
theorem planBlock_start_le {entries : List Entry} {ga gb : Nat} (hab : ga ≤ gb) (he : ∀ e ∈ entries, e.pos < gb)
    (r : SymRange) : (planBlock entries ga gb r).a ≤ gb := by
  unfold planBlock
  simp only []
  split
  · exact hab
  · cases hi : entries[r.i]? with
    | none => exact le_rfl
    | some e => exact (he e (List.mem_of_getElem? hi)).le

omit hR in
theorem compress_block_start_le (s : State) {p : PlanBlock}
    (hp : p ∈ ((s.runGreedy hw 0 s.inputLen).2.runSplit hw (s.runGreedy hw 0 s.inputLen).1).1) :
    p.a ≤ s.inputLen := by
  obtain ⟨r, -, rfl⟩ := List.mem_map.1 hp
  have hgb : (s.runGreedy hw 0 s.inputLen).2.lens.gB.toNat = s.inputLen := by
    simp [State.runGreedy, State.inputLen]
  rw [hgb]
  exact planBlock_start_le (Nat.zero_le _) (greedyFrom_pos_lt _ _ _ _ _ _) r

theorem compressBody_paired (hN : ∀ {u v}, R u v → u.inputLen ≤ hw.inCap) (h : R s t) :
    (compressBody hw s).Paired R (compressBody hw t) := by
  have hhint : t.opt.btype = s.opt.btype := (hR.same h).option (f := Options.btype) fun _ _ => rfl
  have hlen : t.inputLen = s.inputLen := (hR.same h).option (f := fun o => o.inLen.toNat) fun _ _ => rfl
  unfold compressBody
  rw [hhint, hlen]
  split
  · exact storedBlocks_paired hR (Nat.zero_le _) (hN h) true h
  · obtain ⟨hgreedy, hg⟩ := runGreedy_paired hR 0 s.inputLen (hN h) h
    obtain ⟨hsplit, hp⟩ := runSplit_paired hR (s.runGreedy hw 0 s.inputLen).1 hg
    simp only []
    rw [hgreedy, hsplit]
    have hcap := runSplit_length_le (s.runGreedy hw 0 s.inputLen).2 (s.runGreedy hw 0 s.inputLen).1
    exact compressBlocks_paired hR _ _ (by omega)
      (fun p hmem => ⟨(compress_block_start_le s hmem).trans (hN h), (compress_block_end_le s hmem).trans (hN h)⟩) hN hp

omit hR in
/-- The results of COMPRESS, in one equation (40_control.md R435). -/
theorem compressResults_eq (s : State) (bits : Nat) : s.compressResults bits =
    { s with
      res := { r0 := s.packer.outLen, r1 := s.lens.planLen, r2 := s.packer.blocksOut, r3 := word bits }
      obs := if s.opt.btype = 0 then { s.obs with iterCount := 0, bestBits := 0 } else s.obs } := by
  unfold State.compressResults
  split <;> simp [State.setRes0, State.setRes1, State.setRes2, State.setRes3]

theorem compressResults_lockstep (bits : Nat) (h : R s t) : R (s.compressResults bits) (t.compressResults bits) := by
  have hsame := hR.same h
  have hhint : t.opt.btype = s.opt.btype := hsame.option (f := Options.btype) fun _ _ => rfl
  have hres := hR.res (r := ⟨s.packer.outLen, s.lens.planLen, s.packer.blocksOut, word bits⟩) h
  have heq : (⟨t.packer.outLen, t.lens.planLen, t.packer.blocksOut, word bits⟩ : Results) =
      ⟨s.packer.outLen, s.lens.planLen, s.packer.blocksOut, word bits⟩ := by rw [hsame.packer, hsame.lens]
  rw [compressResults_eq, compressResults_eq, hhint, heq]
  split
  · exact hR.passes hres
  · exact hres

end Paired

/-! ## COMPRESS as its checks, its work and its end -/

/-- The work of COMPRESS from its start to its results (40_control.md R432 to R435). -/
def State.compressWork (s : State) : Run :=
  (compressBody hw s).andThen fun s₁ => (flush s₁).andThen fun s₂ => .ok (s₂.compressResults s₁.streamPos)

theorem compressCmd_eq (s : State) : compressCmd hw s =
    afterChecks s (checkCompress hw s) fun _ => s.compressStart.compressWork.andThen compressEnd := by
  unfold compressCmd State.compressWork
  simp only [Run.andThen_assoc, Run.ok_andThen]

theorem exec_compress_eq (s : State) : exec .compress s = (compressCmd hw s).finish := rfl

theorem checkCompress_eq_ok {s : State} {u : Unit} :
    checkCompress hw s = .ok u ↔ s.opt.btype ≠ 3 ∧ s.inputLen ≤ hw.inCap := by
  simp [checkCompress, except_bind_eq_ok, checkWindow_eq_ok, checkHint]

theorem compressWork_paired {R : State → State → Prop} (hR : Lockstep R) {s t : State}
    (hN : ∀ {u v}, R u v → u.inputLen ≤ hw.inCap) (h : R s t) : s.compressWork.Paired R t.compressWork := by
  refine (compressBody_paired hR hN h).andThen fun {u v} h => ?_
  have hpos : v.streamPos = u.streamPos := by rw [State.streamPos, (hR.same h).packer, State.streamPos]
  rw [hpos]
  exact (flush_paired hR h).andThen fun h => compressResults_lockstep hR _ h

/-! ## Runs that differ in IN_ERR -/

/-- t has the options o, and s is t with IN_ERR = 0. -/
def SameButInErr (o : Options) (s t : State) : Prop := s.opt = { o with inErr := 0 } ∧ t = { s with opt := o }

theorem sameButInErr_lockstep (o : Options) : Lockstep (SameButInErr o) where
  same := by
    rintro s _ ⟨hopt, rfl⟩
    exact { opt := by simp [hopt], packer := rfl, lens := rfl, cache := rfl, input := fun _ _ => rfl }
  store _ := by rintro ⟨hopt, rfl⟩; exact ⟨hopt, rfl⟩
  packer := by rintro s _ p ⟨hopt, rfl⟩; exact ⟨hopt, rfl⟩
  lose := by rintro s _ ⟨hopt, rfl⟩; exact ⟨hopt, rfl⟩
  lens := by rintro s _ l ⟨hopt, rfl⟩; exact ⟨hopt, rfl⟩
  cache := by rintro s _ c ⟨hopt, rfl⟩; exact ⟨hopt, rfl⟩
  curBlock := by rintro s _ v ⟨hopt, rfl⟩; exact ⟨hopt, rfl⟩
  passes := by rintro s _ m n ⟨hopt, rfl⟩; exact ⟨hopt, rfl⟩
  res := by rintro s _ r ⟨hopt, rfl⟩; exact ⟨hopt, rfl⟩

theorem compressEnd_of_readFailed {s : State} (h : s.opt.readFailed = true) :
    compressEnd s = .stop { code := .readError, info := word (s.opt.readKind.toNat <<< 24) } s := by
  rw [compressEnd, if_pos h]

theorem compressEnd_of_not_readFailed {s : State} (h : s.opt.readFailed = false) : compressEnd s = .ok s := by
  rw [compressEnd, if_neg (by simp [h])]

/-- Settles O34: the work is the same up to IN_ERR, which only the end of COMPRESS reads. -/
theorem compressReportsAReadFailure : Obligations.CompressReportsAReadFailure := by
  intro s u hfail _ hexec herr
  rw [exec_compress_eq, compressCmd_eq] at hexec ⊢
  have hcheck : checkCompress hw { s with opt := { s.opt with inErr := 0 } } = checkCompress hw s := rfl
  rw [hcheck] at hexec
  cases hc : checkCompress hw s with
  | error e =>
    rw [hc] at hexec
    cases hexec
    cases herr
  | ok _ =>
    rw [hc, afterChecks_ok] at hexec
    rw [afterChecks_ok]
    have hN : s.inputLen ≤ hw.inCap := (checkCompress_eq_ok.1 hc).2
    have hpaired := compressWork_paired (sameButInErr_lockstep s.opt)
      (fun {v _} hv => (congrArg (fun o : Options => o.inLen.toNat) hv.1).le.trans hN)
      (s := State.compressStart { s with opt := { s.opt with inErr := 0 } }) (t := s.compressStart) ⟨rfl, rfl⟩
    cases hrun : State.compressWork (State.compressStart { s with opt := { s.opt with inErr := 0 } }) with
    | stop e v =>
      rw [hrun] at hexec
      cases hexec
      cases herr
    | ok v =>
      rw [hrun] at hexec hpaired
      cases hrun' : State.compressWork s.compressStart with
      | stop e v' =>
        rw [hrun'] at hpaired
        exact hpaired.elim
      | ok v' =>
        rw [hrun'] at hpaired
        obtain ⟨hopt, rfl⟩ := hpaired
        rw [Run.ok_andThen, compressEnd_of_not_readFailed (by simp [hopt, Options.readFailed])] at hexec
        cases hexec
        rw [Run.ok_andThen, compressEnd_of_readFailed (s := { v with opt := s.opt }) hfail]
        rfl

/-! ## Runs that agree on the inputs of COMPRESS -/

/-- Two values after two runs: equal, or each as it was. -/
abbrev EqualOrKept {α : Type} (x₁ x₂ y₁ y₂ : α) : Prop := y₁ = y₂ ∨ (y₁ = x₁ ∧ y₂ = x₂)

/-- Where the runs of COMPRESS from s₁ and s₂ have got to: what COMPRESS reads is equal, and what it writes is equal or
still as it was (40_control.md R443). -/
structure AgreeFrom (s₁ s₂ u v : State) : Prop where
  opt : v.opt = u.opt
  optKept : u.opt = s₁.opt
  status : v.status = u.status
  errInfo : v.errInfo = u.errInfo
  packer : v.packer = u.packer
  lens : v.lens = u.lens
  cache : v.cache = u.cache
  draws : v.draws = u.draws
  input : ∀ x, Region.input.covers hw x = true → v.readByte x = u.readByte x
  curBlock : v.obs.curBlock = u.obs.curBlock
  iterCount : EqualOrKept s₁.obs.iterCount s₂.obs.iterCount u.obs.iterCount v.obs.iterCount
  bestBits : EqualOrKept s₁.obs.bestBits s₂.obs.bestBits u.obs.bestBits v.obs.bestBits
  res : EqualOrKept s₁.res s₂.res u.res v.res
  mem : ∀ x, EqualOrKept (s₁.readByte x) (s₂.readByte x) (u.readByte x) (v.readByte x)

/-- A store off IN of the same bytes in both. -/
theorem AgreeFrom.storeBytes {s₁ s₂ u v : State} (h : AgreeFrom s₁ s₂ u v) {a : Nat} {bs : List Byte}
    (ha : OffInput a bs.length) : AgreeFrom s₁ s₂ (u.storeBytes a bs) (v.storeBytes a bs) :=
  { h with
    input := fun x hx => by
      have hend : Region.input.base + Region.input.stride * Region.input.entries hw ≤ Region.output.base := by decide
      have hx' := Region.covers_iff.1 hx
      have hout : x < a ∨ a + bs.length ≤ x := by unfold OffInput at ha; omega
      rw [State.readByte_storeBytes_of_outside _ _ _ hout, State.readByte_storeBytes_of_outside _ _ _ hout]
      exact h.input x hx
    mem := fun x => by
      rw [State.readByte_storeBytes, State.readByte_storeBytes]
      split
      · exact .inl rfl
      · exact h.mem x }

theorem agreeFrom_lockstep (s₁ s₂ : State) : Lockstep (AgreeFrom s₁ s₂) where
  same h := { opt := by rw [h.opt], packer := h.packer, lens := h.lens, cache := h.cache, input := h.input }
  store ha h := h.storeBytes ha
  packer h := { h with packer := rfl }
  lose {u v} h :=
    { h with
      packer := by simp only [State.loseBitState, State.draw, h.draws, h.packer]
      draws := congrArg (· + 1) h.draws }
  lens h := { h with lens := rfl }
  cache h := { h with cache := rfl }
  curBlock h := { h with curBlock := rfl }
  passes h := { h with iterCount := .inl rfl, bestBits := .inl rfl }
  res h := { h with res := .inl rfl }

/-- What O37 claims of two ends. -/
theorem AgreeFrom.ends {s₁ s₂ u v t₁ t₂ : State} (h : AgreeFrom s₁ s₂ u v)
    (ht : (t₁ = u.complete ∧ t₂ = v.complete) ∨ ∃ e, t₁ = u.raiseError e ∧ t₂ = v.raiseError e) :
    AgreeFrom s₁ s₂ t₁ t₂ := by
  rcases ht with ⟨rfl, rfl⟩ | ⟨e, rfl, rfl⟩
  · exact { h with status := by simp [h.status] }
  · exact { h with status := by simp [h.status], errInfo := rfl }

/-- COMPRESS reads nothing but what the two states agree on. -/
theorem compressWork_agreeFrom {s₁ s₂ : State} (hopt : s₁.opt = s₂.opt) (hstatus : s₁.status = s₂.status)
    (hinfo : s₁.errInfo = s₂.errInfo) (hdraws : s₁.draws = s₂.draws) (hN : s₁.inputLen ≤ hw.inCap)
    (hin : ∀ x, Region.input.covers hw x = true → s₁.readByte x = s₂.readByte x) :
    (s₁.compressStart.compressWork.andThen compressEnd).Paired
      (fun u v => AgreeFrom s₁ s₂ u v) (s₂.compressStart.compressWork.andThen compressEnd) := by
  have hstart : AgreeFrom s₁ s₂ s₁.compressStart s₂.compressStart :=
    { opt := hopt.symm, optKept := rfl, status := hstatus.symm, errInfo := hinfo.symm, packer := rfl
      lens := by simp [State.inputLen, hopt], cache := rfl, draws := hdraws.symm
      input := fun x hx => (hin x hx).symm, curBlock := rfl, iterCount := .inr ⟨rfl, rfl⟩
      bestBits := .inr ⟨rfl, rfl⟩, res := .inr ⟨rfl, rfl⟩, mem := fun x => .inr ⟨rfl, rfl⟩ }
  refine (compressWork_paired (agreeFrom_lockstep s₁ s₂)
    (fun h => (congrArg (fun o : Options => o.inLen.toNat) h.optKept).le.trans hN) hstart).andThen fun {u v} h => ?_
  unfold compressEnd
  rw [h.opt]
  split
  · exact ⟨rfl, h⟩
  · exact h

/-- Settles O37: the two runs go in lockstep, whether they complete, are stopped, or fail the same check. -/
theorem compressDependsOnItsInputsOnly : Obligations.CompressDependsOnItsInputsOnly := by
  intro s₁ s₂ t₁ t₂ hopt hstatus hinfo hdraws hin h₁ h₂
  have hcheck : checkCompress hw s₂ = checkCompress hw s₁ := by
    unfold checkCompress checkHint checkWindow State.inputLen
    rw [hopt]
  rw [exec_compress_eq, compressCmd_eq] at h₁ h₂
  rw [hcheck] at h₂
  cases hc : checkCompress hw s₁ with
  | error e =>
    rw [hc] at h₁ h₂
    cases h₁
    cases h₂
    exact ⟨by simp [hstatus], rfl, .inr ⟨rfl, rfl⟩, .inr ⟨rfl, rfl⟩, .inr ⟨rfl, rfl⟩, .inr ⟨rfl, rfl⟩, .inr ⟨rfl, rfl⟩,
      .inr ⟨rfl, rfl⟩, .inr ⟨rfl, rfl⟩, fun _ => .inr ⟨rfl, rfl⟩⟩
  | ok _ =>
    rw [hc, afterChecks_ok] at h₁ h₂
    have hN := (checkCompress_eq_ok.1 hc).2
    obtain ⟨u, v, h, hends⟩ := (compressWork_agreeFrom hopt hstatus hinfo hdraws hN hin).ends h₁ h₂
    have hend := h.ends hends
    exact ⟨hend.status.symm, hend.errInfo.symm, hend.res, .inl hend.packer.symm, .inl hend.lens.symm,
      .inl hend.curBlock.symm, hend.iterCount, hend.bestBits, .inl hend.cache.symm, hend.mem⟩

end Sys2Proof.Machine
end

section
/-! PROOFS. The output stream: what the bit packer leaves after a run of bits and block headers, whether they fit below
OUT_LIMIT or are cut there. -/

namespace Sys2Proof.Machine

open Config (hw)

/-! ## Bits of the partial byte -/

theorem bitsOf_succ (v n : Nat) : bitsOf v (n + 1) = bitsOf v n ++ [v.testBit n] := by
  simp [bitsOf, List.range_succ]

theorem bitsOf_congr {v w n : Nat} (h : ∀ i, i < n → v.testBit i = w.testBit i) : bitsOf v n = bitsOf w n :=
  List.map_congr_left fun i hi => h i (List.mem_range.1 hi)

theorem getLsbD_one_shiftLeft {cnt i : Nat} (hi : i < 8) : (1#8 <<< cnt).getLsbD i = decide (i = cnt) := by
  rw [BitVec.getLsbD_shiftLeft, BitVec.getLsbD_one]
  by_cases h : i = cnt
  · simp [h]; omega
  · simp [h]; omega

theorem testBit_putInBuf (buf : Byte) {cnt : Nat} (hc : cnt < 8) (x : Bool) (i : Nat) :
    (putInBuf buf cnt x).toNat.testBit i = if i = cnt then x else buf.toNat.testBit i := by
  rw [BitVec.testBit_toNat, BitVec.testBit_toNat]
  by_cases hi : i < 8
  · unfold putInBuf
    rw [BitVec.getLsbD_or, BitVec.getLsbD_and, BitVec.getLsbD_not, getLsbD_one_shiftLeft hi,
      apply_ite (BitVec.getLsbD · i), getLsbD_one_shiftLeft hi]
    by_cases h : i = cnt <;> cases x <;> simp [h, hi]
  · have hne : i ≠ cnt := by omega
    rw [if_neg hne, BitVec.getLsbD_of_ge _ _ (by omega), BitVec.getLsbD_of_ge _ _ (by omega)]

/-- The waiting bits after one more (45_block_writer.md R901). -/
theorem bitsOf_putInBuf (buf : Byte) {cnt : Nat} (hc : cnt < 8) (x : Bool) :
    bitsOf (putInBuf buf cnt x).toNat (cnt + 1) = bitsOf buf.toNat cnt ++ [x] := by
  rw [bitsOf_succ, testBit_putInBuf buf hc, if_pos rfl]
  congr 1
  refine bitsOf_congr fun i hi => ?_
  rw [testBit_putInBuf buf hc, if_neg (by omega)]

/-- The bits of BITBUF at and above BITCNT are 0. -/
def State.PackerClean (s : State) : Prop := s.packer.bitBuf.toNat < 2 ^ s.packer.bitCnt.toNat

theorem putInBuf_lt {buf : Byte} {cnt : Nat} (hc : cnt < 8) (h : buf.toNat < 2 ^ cnt) (x : Bool) :
    (putInBuf buf cnt x).toNat < 2 ^ (cnt + 1) := by
  refine Nat.lt_pow_two_of_testBit _ fun i hi => ?_
  rw [testBit_putInBuf buf hc, if_neg (by omega)]
  exact Nat.testBit_lt_two_pow (h.trans_le (Nat.pow_le_pow_right (by decide) (by omega)))

/-! ## Runs of bytes -/

theorem State.readBytes_congr {s t : State} {a n : Nat} (h : ∀ k, k < n → t.readByte (a + k) = s.readByte (a + k)) :
    t.readBytes a n = s.readBytes a n :=
  List.map_congr_left fun k hk => h k (List.mem_range.1 hk)

theorem State.readBytes_append (s : State) (a m n : Nat) :
    s.readBytes a (m + n) = s.readBytes a m ++ s.readBytes (a + m) n := by
  simp [State.readBytes, List.range_add, Nat.add_assoc, Function.comp_def]

@[simp] theorem State.readBytes_length (s : State) (a n : Nat) : (s.readBytes a n).length = n := by
  simp [State.readBytes]

theorem State.readBytes_one (s : State) (a : Nat) : s.readBytes a 1 = [s.readByte a] := rfl

/-- The bits of bytes, in stream order (20_memory.md R225). -/
def bytesBits (bytes : List Byte) : List Bool := bytes.flatMap (fun b => bitsOf b.toNat 8)

theorem bytesBits_append (xs ys : List Byte) : bytesBits (xs ++ ys) = bytesBits xs ++ bytesBits ys :=
  List.flatMap_append

@[simp] theorem bytesBits_length (bytes : List Byte) : (bytesBits bytes).length = 8 * bytes.length := by
  induction bytes with
  | nil => rfl
  | cons b bs ih =>
    rw [bytesBits, List.flatMap_cons, List.length_append, bitsOf_length, ← bytesBits, ih, List.length_cons]
    omega

/-- The completed part of the stream: the bytes of OUT below OUT_LEN. -/
def State.outBytes (s : State) : List Byte := s.readBytes Region.output.base s.packer.outLen.toNat

theorem State.streamBits_eq (s : State) :
    s.streamBits = bytesBits s.outBytes ++ bitsOf s.packer.bitBuf.toNat s.packer.bitCnt.toNat := rfl

@[simp] theorem State.streamBits_length (s : State) : s.streamBits.length = s.streamPos := by
  rw [streamBits_eq, List.length_append, bytesBits_length, bitsOf_length, outBytes, readBytes_length, streamPos]

/-- The completed bytes are the stream's first bits. -/
theorem State.take_streamBits (s : State) (bits : List Bool) :
    (s.streamBits ++ bits).take (8 * s.packer.outLen.toNat) = bytesBits s.outBytes := by
  rw [streamBits_eq, List.append_assoc, List.take_append_of_le_length (by simp [outBytes])]
  exact List.take_of_length_le (by simp [outBytes])

theorem Region.output_entry (k : Nat) : Region.output.entry k = Region.output.base + k := by
  simp [Region.entry, Region.stride]

/-! ## Bits and headers put -/

/-- The stream is longer by the bits, with the headers among them, each where it begins, and the headers are counted
(45_block_writer.md R901, R905). -/
structure Streamed (s t : State) (bits : List Bool) (headers : List (Nat × BitVec 3)) : Prop where
  opt : t.opt = s.opt
  stream : t.streamBits = s.streamBits ++ bits
  outLen_le : s.packer.outLen.toNat ≤ t.packer.outLen.toNat
  limit : t.packer.outLen.toNat ≤ max s.opt.outLimit.toNat s.packer.outLen.toNat
  clean : s.PackerClean → t.PackerClean
  blocksOut : t.packer.blocksOut = s.packer.blocksOut + word headers.length
  lastBlock : t.packer.lastBlock = (headers.getLast?.map (·.2)).getD s.packer.lastBlock

/-- The bits are all put, and nothing else changes but the bytes of OUT completed meanwhile. -/
structure Emitted (s t : State) (bits : List Bool) (headers : List (Nat × BitVec 3)) : Prop
    extends Streamed s t bits headers where
  rest : t = { s with packer := t.packer, mem := t.mem }
  mem : ∀ x, (x < Region.output.base + s.packer.outLen.toNat ∨ Region.output.base + t.packer.outLen.toNat ≤ x) →
    t.readByte x = s.readByte x

/-- Not all bits are put: the stream is cut, and nothing else changes but a draw (log 6) and the bytes of OUT completed
meanwhile (60_exceptions.md R1007, R1012). -/
structure Cut (s t : State) (bits : List Bool) (headers : List (Nat × BitVec 3)) : Prop where
  rest : t = { s with packer := t.packer, mem := t.mem, draws := t.draws }
  cut : StreamCut s t bits headers
  mem : ∀ x, (x < Region.output.base + s.packer.outLen.toNat ∨ Region.output.base + t.packer.outLen.toNat ≤ x) →
    t.readByte x = s.readByte x

/-- A rule that puts bits, headers among them, from the state s: all of them when they fit, and otherwise WRITE_ERROR
where they are cut. -/
structure Emits (s : State) (r : Run) (bits : List Bool) (headers : List (Nat × BitVec 3)) : Prop where
  fits : s.HasRoom bits.length → ∃ t, r = .ok t ∧ Emitted s t bits headers
  full : ¬ s.HasRoom bits.length → ∃ t, r = .stop { code := .writeError, info := t.packer.outLen } t ∧
    Cut s t bits headers

/-- The three bits of each header lie in the n bits from stream position pos on. -/
def HeadersIn (pos n : Nat) (headers : List (Nat × BitVec 3)) : Prop := ∀ x ∈ headers, pos ≤ x.1 ∧ x.1 + 3 ≤ pos + n

theorem headersIn_nil (pos n : Nat) : HeadersIn pos n [] := nofun

theorem headersIn_singleton (pos : Nat) {n : Nat} (hn : 3 ≤ n) (v : BitVec 3) : HeadersIn pos n [(pos, v)] := by
  rintro _ (_ | ⟨_, ⟨⟩⟩)
  exact ⟨le_rfl, Nat.add_le_add_left hn pos⟩

theorem HeadersIn.mono {pos n pos' n' : Nat} {headers : List (Nat × BitVec 3)} (h : HeadersIn pos n headers)
    (hpos : pos' ≤ pos) (hn : pos + n ≤ pos' + n') : HeadersIn pos' n' headers :=
  fun x hx => ⟨hpos.trans (h x hx).1, (h x hx).2.trans hn⟩

theorem HeadersIn.append {pos m n : Nat} {headers headers' : List (Nat × BitVec 3)} (h : HeadersIn pos m headers)
    (h' : HeadersIn (pos + m) n headers') : HeadersIn pos (m + n) (headers ++ headers') := by
  intro x hx
  rcases List.mem_append.1 hx with hx | hx
  · have := h x hx
    omega
  · have := h' x hx
    omega

section Emitted

variable {s t u : State} {bits bits' : List Bool} {headers headers' : List (Nat × BitVec 3)}

theorem Streamed.streamPos (h : Streamed s t bits headers) : t.streamPos = s.streamPos + bits.length := by
  rw [← State.streamBits_length, h.stream, List.length_append, State.streamBits_length]

/-- How far the stream may grow is the same before and after. -/
theorem Streamed.cap (h : Streamed s t bits headers) :
    max t.opt.outLimit.toNat t.packer.outLen.toNat = max s.opt.outLimit.toNat s.packer.outLen.toNat := by
  have hle := h.outLen_le
  have hlimit := h.limit
  rw [h.opt]
  omega

theorem Streamed.hasRoom_iff (h : Streamed s t bits headers) (n : Nat) :
    t.HasRoom n ↔ s.HasRoom (bits.length + n) := by
  rw [State.HasRoom, State.HasRoom, h.cap, h.streamPos, Nat.add_assoc]

theorem getD_map_getLast?_append (d : BitVec 3) :
    ((headers ++ headers').getLast?.map (·.2)).getD d =
      (headers'.getLast?.map (·.2)).getD ((headers.getLast?.map (·.2)).getD d) := by
  rw [List.getLast?_append]
  cases headers'.getLast? <;> rfl

theorem word_length_append (b : Word) :
    b + word headers.length + word headers'.length = b + word (headers ++ headers').length := by
  rw [List.length_append, word, word, word, BitVec.ofNat_add, BitVec.add_assoc]

theorem Streamed.trans (h : Streamed s t bits headers) (h' : Streamed t u bits' headers') :
    Streamed s u (bits ++ bits') (headers ++ headers') where
  opt := h'.opt.trans h.opt
  stream := by rw [h'.stream, h.stream, List.append_assoc]
  outLen_le := h.outLen_le.trans h'.outLen_le
  limit := h'.limit.trans h.cap.le
  clean := h'.clean ∘ h.clean
  blocksOut := by rw [h'.blocksOut, h.blocksOut, word_length_append]
  lastBlock := by rw [h'.lastBlock, h.lastBlock, getD_map_getLast?_append]

theorem Emitted.trans (h : Emitted s t bits headers) (h' : Emitted t u bits' headers') :
    Emitted s u (bits ++ bits') (headers ++ headers') where
  toStreamed := h.toStreamed.trans h'.toStreamed
  rest := by rw [h'.rest, h.rest]
  mem x hx := by
    have hle := h.outLen_le
    have hle' := h'.outLen_le
    rw [h'.mem x (by omega), h.mem x (by omega)]

theorem Streamed.refl (s : State) : Streamed s s [] [] where
  opt := rfl
  stream := (List.append_nil _).symm
  outLen_le := le_rfl
  limit := le_max_right _ _
  clean := id
  blocksOut := (BitVec.add_zero _).symm
  lastBlock := rfl

theorem Emitted.refl (s : State) : Emitted s s [] [] where
  toStreamed := .refl s
  rest := rfl
  mem _ _ := rfl

/-- A change that leaves the packer and the bytes of OUT below OUT_LEN puts no bits. -/
theorem Streamed.of_outBytes (hopt : t.opt = s.opt) (hpacker : t.packer = s.packer) (hbytes : t.outBytes = s.outBytes) :
    Streamed s t [] [] where
  opt := hopt
  stream := by rw [State.streamBits_eq, State.streamBits_eq, hbytes, hpacker, List.append_nil]
  outLen_le := (congrArg (fun p => p.outLen.toNat) hpacker).ge
  limit := (congrArg (fun p => p.outLen.toNat) hpacker).le.trans (le_max_right _ _)
  clean h := by rwa [State.PackerClean, hpacker]
  blocksOut := by rw [hpacker]; exact (BitVec.add_zero _).symm
  lastBlock := by rw [hpacker]; rfl

/-- Bits put, then the rest of the bits cut. -/
theorem Streamed.trans_cut (h : Streamed s t bits headers) (hr : s.HasRoom bits.length)
    (hin : ∀ x ∈ headers, x.1 + 3 ≤ s.streamPos + bits.length) (h' : StreamCut t u bits' headers') :
    StreamCut s u (bits ++ bits') (headers ++ headers') where
  outLen := h'.outLen.trans h.cap
  bytes := by rw [h'.bytes, h.stream, List.append_assoc]
  counted := by
    rintro _ rfl
    obtain ⟨hblocks, hlast⟩ := h'.counted _ rfl
    rw [h.cap] at hblocks hlast
    have hput : headers.takeWhile
        (fun x => decide ((x.1 + 3) / 8 ≤ max s.opt.outLimit.toNat s.packer.outLen.toNat)) = headers := by
      refine List.takeWhile_eq_self_iff.2 fun x hx => decide_eq_true ?_
      exact (Nat.div_le_div_right (hin x hx)).trans hr
    rw [List.takeWhile_append, hput, if_pos rfl, hblocks, hlast, h.blocksOut, h.lastBlock, word_length_append,
      getD_map_getLast?_append]
    exact ⟨rfl, rfl⟩

theorem Emitted.trans_cut (h : Emitted s t bits headers) (hr : s.HasRoom bits.length)
    (hin : ∀ x ∈ headers, x.1 + 3 ≤ s.streamPos + bits.length) (h' : Cut t u bits' headers') :
    Cut s u (bits ++ bits') (headers ++ headers') where
  rest := by rw [h'.rest, h.rest]
  cut := h.toStreamed.trans_cut hr hin h'.cut
  mem x hx := by
    have hle := h.outLen_le
    have hcap := h.cap
    have hcut := h'.cut.outLen
    rw [h'.mem x (by omega), h.mem x (by omega)]

/-- The bits cut, whatever would have come after them. -/
theorem StreamCut.append (h : StreamCut s t bits headers) (hr : ¬ s.HasRoom bits.length)
    (hin : ∀ x ∈ headers', s.streamPos + bits.length ≤ x.1) :
    StreamCut s t (bits ++ bits') (headers ++ headers') where
  outLen := h.outLen
  bytes := by
    have hcut := h.outLen
    have hlen : 8 * t.packer.outLen.toNat ≤ (s.streamBits ++ bits).length := by
      rw [List.length_append, State.streamBits_length]
      unfold State.HasRoom at hr
      omega
    rw [h.bytes, ← List.append_assoc, List.take_append_of_le_length hlen]
  counted := by
    rintro _ rfl
    have hnone : headers'.takeWhile
        (fun x => decide ((x.1 + 3) / 8 ≤ max s.opt.outLimit.toNat s.packer.outLen.toNat)) = [] := by
      cases headers' with
      | nil => rfl
      | cons x xs =>
        have hx := hin x List.mem_cons_self
        refine List.takeWhile_cons_of_neg ?_
        unfold State.HasRoom at hr
        simp only [decide_eq_true_eq]
        omega
    have hcounted := h.counted _ rfl
    rw [List.takeWhile_append, hnone, List.append_nil]
    split
    · next hall => rwa [(List.takeWhile_prefix _).eq_of_length hall] at hcounted
    · exact hcounted

theorem Cut.append (h : Cut s t bits headers) (hr : ¬ s.HasRoom bits.length)
    (hin : ∀ x ∈ headers', s.streamPos + bits.length ≤ x.1) : Cut s t (bits ++ bits') (headers ++ headers') where
  rest := h.rest
  mem := h.mem
  cut := StreamCut.append h.cut hr hin

theorem not_hasRoom_append (hr : ¬ s.HasRoom bits.length) (bits' : List Bool) :
    ¬ s.HasRoom (bits ++ bits').length := by
  refine fun hall => hr ((Nat.div_le_div_right ?_).trans hall)
  rw [List.length_append]
  omega

/-- One run of bits after another. -/
theorem Emits.andThen {r : Run} {k : State → Run} (h : Emits s r bits headers)
    (hin : HeadersIn s.streamPos bits.length headers)
    (hin' : HeadersIn (s.streamPos + bits.length) bits'.length headers')
    (hk : ∀ t, Emitted s t bits headers → Emits t (k t) bits' headers') :
    Emits s (r.andThen k) (bits ++ bits') (headers ++ headers') := by
  by_cases hroom : s.HasRoom bits.length
  · obtain ⟨t, rfl, ht⟩ := h.fits hroom
    have hrest := hk t ht
    have hiff : t.HasRoom bits'.length ↔ s.HasRoom (bits ++ bits').length := by
      rw [ht.hasRoom_iff, List.length_append]
    refine ⟨fun hr => ?_, fun hr => ?_⟩
    · obtain ⟨u, hu, hemit⟩ := hrest.fits (hiff.2 hr)
      exact ⟨u, hu, ht.trans hemit⟩
    · obtain ⟨u, hu, hcut⟩ := hrest.full (mt hiff.1 hr)
      exact ⟨u, hu, ht.trans_cut hroom (fun x hx => (hin x hx).2) hcut⟩
  · obtain ⟨t, rfl, ht⟩ := h.full hroom
    exact ⟨fun hr => absurd hr (not_hasRoom_append hroom _),
      fun _ => ⟨t, rfl, ht.append hroom fun x hx => (hin' x hx).1⟩⟩

/-- A run of bits without a header before another run. -/
theorem Emits.andThen_of_bits {r : Run} {k : State → Run} (h : Emits s r bits [])
    (hin : HeadersIn (s.streamPos + bits.length) bits'.length headers)
    (hk : ∀ t, Emitted s t bits [] → Emits t (k t) bits' headers) :
    Emits s (r.andThen k) (bits ++ bits') headers :=
  h.andThen (headersIn_nil _ _) hin hk

end Emitted

/-! ## The parts of the block encoders -/

/-- The stream after the eighth bit of a byte, which is written to OUT[OUT_LEN] (45_block_writer.md R901). -/
theorem streamBits_of_completed {s t : State} {x : Bool} (h7 : s.packer.bitCnt.toNat = 7)
    (hlen : t.packer.outLen.toNat = s.packer.outLen.toNat + 1) (hcnt : t.packer.bitCnt = 0)
    (hbyte : t.readByte (Region.output.base + s.packer.outLen.toNat) = putInBuf s.packer.bitBuf 7 x)
    (hkept : ∀ k, k < s.packer.outLen.toNat →
      t.readByte (Region.output.base + k) = s.readByte (Region.output.base + k)) :
    t.streamBits = s.streamBits ++ [x] := by
  have hbytes : t.outBytes = s.outBytes ++ [putInBuf s.packer.bitBuf 7 x] := by
    rw [State.outBytes, hlen, State.readBytes_append, State.readBytes_one, hbyte, State.readBytes_congr hkept,
      State.outBytes]
  have hbyteBits : bytesBits [putInBuf s.packer.bitBuf 7 x] = bitsOf s.packer.bitBuf.toNat 7 ++ [x] := by
    rw [← bitsOf_putInBuf _ (by decide), bytesBits, List.flatMap_singleton]
  rw [State.streamBits_eq, State.streamBits_eq, hbytes, bytesBits_append, hbyteBits, hcnt, h7]
  simp [bitsOf]

theorem putBit_emits (s : State) (x : Bool) : Emits s (putBit x s) [x] [] := by
  have hcnt : s.packer.bitCnt.toNat < 8 := s.packer.bitCnt.isLt
  have hroom : s.HasRoom [x].length ↔
      (8 * s.packer.outLen.toNat + s.packer.bitCnt.toNat + 1) / 8 ≤ max s.opt.outLimit.toNat s.packer.outLen.toNat :=
    Iff.rfl
  rcases putBit_cases x s with ⟨hlt, heq⟩ | ⟨h7, hlt, heq⟩ | ⟨h7, hge, heq⟩ <;> rw [heq]
  · have hnext : (s.packer.bitCnt + 1).toNat = s.packer.bitCnt.toNat + 1 := by
      rw [BitVec.toNat_add]
      exact Nat.mod_eq_of_lt (show s.packer.bitCnt.toNat + 1 < 2 ^ 3 by omega)
    refine ⟨fun _ => ⟨_, rfl, ?_⟩, fun hr => absurd (hroom.2 (by omega)) hr⟩
    exact
      { rest := rfl
        opt := rfl
        stream := by
          rw [State.streamBits_eq, State.streamBits_eq, List.append_assoc, ← bitsOf_putInBuf _ hcnt]
          simp only [hnext]
          rfl
        outLen_le := le_rfl
        limit := le_max_right _ _
        clean := fun h => (putInBuf_lt hcnt h x).trans_eq (by rw [hnext])
        blocksOut := (BitVec.add_zero _).symm
        lastBlock := rfl
        mem := fun _ _ => rfl }
  · have hnext : (s.packer.outLen + 1).toNat = s.packer.outLen.toNat + 1 := by
      have := s.opt.outLimit.isLt
      rw [BitVec.toNat_add]
      exact Nat.mod_eq_of_lt (show s.packer.outLen.toNat + 1 < 2 ^ 32 by omega)
    rw [Region.output_entry]
    refine ⟨fun _ => ⟨_, rfl, ?_⟩, fun hr => absurd (hroom.2 (by omega)) hr⟩
    exact
      { rest := rfl
        opt := rfl
        stream := by
          refine streamBits_of_completed h7 hnext rfl ?_ fun k hk => ?_
          · exact State.readByte_storeBytes_of_inside s _ [putInBuf s.packer.bitBuf 7 x] (k := 0) (by simp)
          · exact State.readByte_storeBytes_of_outside s _ _ (.inl (by omega))
        outLen_le := hnext ▸ Nat.le_succ _
        limit := (hnext.le.trans hlt).trans (le_max_left _ _)
        clean := fun _ => by simp [State.PackerClean]
        blocksOut := (BitVec.add_zero _).symm
        lastBlock := rfl
        mem := fun y hy => by
          simp only [hnext] at hy
          refine State.readByte_storeBytes_of_outside s _ _ ?_
          simpa [Nat.add_assoc] using hy }
  · refine ⟨fun hr => absurd (hroom.1 hr) (by omega), fun _ => ⟨s.loseBitState, rfl, ?_⟩⟩
    exact
      { rest := rfl
        cut :=
          { outLen := (max_eq_right hge).symm
            bytes := (State.take_streamBits s [x]).symm
            counted := by
              rintro _ rfl
              exact ⟨(BitVec.add_zero _).symm, rfl⟩ }
        mem := fun _ _ => rfl }

theorem State.hasRoom_zero (s : State) : s.HasRoom 0 := by
  have hcnt : s.packer.bitCnt.toNat < 8 := s.packer.bitCnt.isLt
  unfold State.HasRoom State.streamPos
  omega

theorem putAll_emits (s : State) (bits : List Bool) : Emits s (putAll bits s) bits [] := by
  induction bits generalizing s with
  | nil =>
    exact ⟨fun _ => ⟨s, rfl, .refl s⟩, fun hr => absurd s.hasRoom_zero hr⟩
  | cons x xs ih => exact (putBit_emits s x).andThen_of_bits (headersIn_nil _ _) fun t _ => ih t

theorem flush_emits (s : State) : Emits s (flush s) (List.replicate s.flushCount false) [] := putAll_emits s _

/-- The three bits of a header (30_encoding.md R330). -/
def headerBits (final : Bool) (n : Nat) : List Bool := final :: bitsOf n 2

/-- The header of a block of type n that begins at a stream position: where it is, and the LAST_BLOCK it sets. -/
def headerAt (pos : Nat) (final : Bool) (n : Nat) : Nat × BitVec 3 := (pos, BitVec.ofBool final ++ BitVec.ofNat 2 n)

theorem putHeader_emits (s : State) (final : Bool) (n : Nat) :
    Emits s (putHeader final n s) (headerBits final n) [headerAt s.streamPos final n] := by
  have hbits := putAll_emits s (headerBits final n)
  refine ⟨fun hr => ?_, fun hr => ?_⟩
  · obtain ⟨t, ht, hemit⟩ := hbits.fits hr
    refine ⟨_, congrArg (Run.andThen · _) ht, ?_⟩
    exact
      { rest := by rw [hemit.rest]
        opt := hemit.opt
        stream := hemit.stream
        outLen_le := hemit.outLen_le
        limit := hemit.limit
        clean := hemit.clean
        blocksOut := by
          show t.packer.blocksOut + 1 = _
          rw [hemit.blocksOut]
          simp
        lastBlock := rfl
        mem := hemit.mem }
  · obtain ⟨t, ht, hcut⟩ := hbits.full hr
    refine ⟨t, congrArg (Run.andThen · _) ht, { rest := hcut.rest, mem := hcut.mem, cut := ?_ }⟩
    refine { outLen := hcut.cut.outLen, bytes := hcut.cut.bytes, counted := ?_ }
    rintro _ rfl
    have hno : ¬ (s.streamPos + 3) / 8 ≤ max s.opt.outLimit.toNat s.packer.outLen.toNat := hr
    rw [List.takeWhile_cons_of_neg (by rw [decide_eq_true_eq]; exact hno)]
    exact hcut.cut.counted [] rfl

/-- A block of one header and its data. -/
theorem block_emits (s : State) (final : Bool) (n : Nat) (bits : List Bool) :
    Emits s ((putHeader final n s).andThen (putAll bits)) (headerBits final n ++ bits)
      [headerAt s.streamPos final n] :=
  (putHeader_emits s final n).andThen (headersIn_singleton _ (by simp [headerBits]) _) (headersIn_nil _ _)
    fun t _ => putAll_emits t bits

theorem fixedBlock_emits (s : State) (final : Bool) (y : List Sym) :
    Emits s (fixedBlock hw y final s) (fixedStream final y) [headerAt s.streamPos final 1] :=
  block_emits s final 1 _

theorem dynamicBlock_emits (s : State) (final : Bool) (y : List Sym) :
    Emits s (dynamicBlock hw y final s) (dynamicStream final y) [headerAt s.streamPos final 2] :=
  block_emits s final 2 _

/-! ## Stored chunks -/

@[simp] theorem storedBody_length (bytes : List Byte) : (storedBody bytes).length = 32 + 8 * bytes.length := by
  have hdata := bytesBits_length bytes
  rw [bytesBits] at hdata
  simp [storedBody, hdata]
  omega

theorem storedStream_length (final : Bool) (chunks : List Nat) (pos : Nat) {bytes : List Byte}
    (h : chunks.sum = bytes.length) : (storedStream final pos chunks bytes).length = chunkBits pos chunks := by
  induction chunks generalizing pos bytes with
  | nil => rfl
  | cons len rest ih =>
    rw [List.sum_cons] at h
    have hlen : len ≤ bytes.length := by omega
    rw [storedStream, chunkBits, List.length_append, ih _ (by rw [List.length_drop]; omega)]
    simp only [List.length_append, List.length_replicate, storedBody_length, List.length_take_of_le hlen]
    simp only [Nat.add_assoc]
    rfl

theorem storedHeaders_in (final : Bool) (chunks : List Nat) (pos : Nat) :
    HeadersIn pos (chunkBits pos chunks) (storedHeaders final pos chunks) := by
  induction chunks generalizing pos with
  | nil => exact headersIn_nil _ _
  | cons len rest ih =>
    have hrest := ih (pos + (3 + storedPad pos + 32 + 8 * len))
    have hfirst := headersIn_singleton pos (n := 3 + storedPad pos + 32 + 8 * len) (by omega)
      (BitVec.ofBool (final && rest.isEmpty) ++ 0#2)
    have h := hfirst.append hrest
    simpa only [storedHeaders, chunkBits, List.singleton_append, Nat.add_assoc] using h

theorem Streamed.flushCount {s t : State} {bits : List Bool} {headers : List (Nat × BitVec 3)}
    (h : Streamed s t bits headers) : t.flushCount = (8 - (s.streamPos + bits.length) % 8) % 8 := by
  have hcnt : t.packer.bitCnt.toNat < 8 := t.packer.bitCnt.isLt
  rw [← h.streamPos, State.streamPos, State.flushCount]
  omega

/-- The bytes of IN are not among those the packer writes. -/
theorem Emitted.readBytes_input {s t : State} {bits : List Bool} {headers : List (Nat × BitVec 3)}
    (h : Emitted s t bits headers) {p n : Nat} (hn : p + n ≤ hw.inCap) :
    t.readBytes (Region.input.entry p) n = s.readBytes (Region.input.entry p) n := by
  have hend : Region.input.base + hw.inCap ≤ Region.output.base := by decide
  refine State.readBytes_congr fun k hk => h.mem _ (.inl ?_)
  have hentry : Region.input.entry p = Region.input.base + p := by simp [Region.entry, Region.stride]
  omega

/-- Stored chunks of the window from p on: the header of each, the padding up to the byte boundary, LEN, NLEN and its
bytes (45_block_writer.md R950). -/
theorem storedChunksFrom_emits (final : Bool) (chunks : List Nat) {p : Nat} (s : State) (hp : p + chunks.sum ≤ hw.inCap)
    {bytes : List Byte} (hbytes : s.readBytes (Region.input.entry p) chunks.sum = bytes) :
    Emits s (storedChunksFrom final chunks p s) (storedStream final s.streamPos chunks bytes)
      (storedHeaders final s.streamPos chunks) := by
  induction chunks generalizing p s bytes with
  | nil => exact putAll_emits s []
  | cons len rest ih =>
    rw [List.sum_cons] at hp hbytes
    have hsplit := State.readBytes_append s (Region.input.entry p) len rest.sum
    rw [hbytes] at hsplit
    have hnext : Region.input.entry p + len = Region.input.entry (p + len) := by
      simp [Region.entry, Region.stride, Nat.add_assoc]
    have htake : bytes.take len = s.readBytes (Region.input.entry p) len := by
      rw [hsplit, List.take_left' (by simp)]
    have hdrop : bytes.drop len = s.readBytes (Region.input.entry (p + len)) rest.sum := by
      rw [hsplit, List.drop_left' (by simp), hnext]
    have hlast := storedStream_length final rest (s.streamPos + 3 + storedPad s.streamPos + 32 + 8 * len)
      (bytes := bytes.drop len) (by rw [hdrop, State.readBytes_length])
    have hrest := storedHeaders_in final rest (s.streamPos + 3 + storedPad s.streamPos + 32 + 8 * len)
    have hlen : (storedBody (bytes.take len)).length = 32 + 8 * len := by
      rw [htake, storedBody_length, State.readBytes_length]
    have hheader : (headerBits (final && rest.isEmpty) 0).length = 3 := rfl
    rw [← hlast] at hrest
    rw [storedChunksFrom, storedStream, storedHeaders, List.append_assoc, List.append_assoc]
    refine (putHeader_emits s (final && rest.isEmpty) 0).andThen (headersIn_singleton _ le_rfl _) ?_ fun t₁ h₁ => ?_
    · refine hrest.mono ?_ ?_ <;> simp only [List.length_append, List.length_replicate, hlen, hheader] <;> omega
    · have hpad : t₁.flushCount = storedPad s.streamPos := h₁.flushCount
      refine (hpad ▸ flush_emits t₁).andThen_of_bits ?_ fun t₂ h₂ => ?_
      · refine hrest.mono ?_ ?_ <;>
          simp only [List.length_append, List.length_replicate, hlen, h₁.streamPos, hheader] <;> omega
      · rw [h₂.readBytes_input (by omega), h₁.readBytes_input (by omega), ← htake]
        refine (putAll_emits t₂ _).andThen_of_bits ?_ fun t₃ h₃ => ?_
        · refine hrest.mono ?_ ?_ <;>
            simp only [List.length_replicate, hlen, h₂.streamPos, h₁.streamPos, hheader] <;> omega
        · have hpos : t₃.streamPos = s.streamPos + 3 + storedPad s.streamPos + 32 + 8 * len := by
            rw [h₃.streamPos, h₂.streamPos, h₁.streamPos, hlen, hheader, List.length_replicate]
            omega
          rw [← hpos]
          refine ih t₃ (by omega) ?_
          rw [h₃.readBytes_input (by omega), h₂.readBytes_input (by omega), h₁.readBytes_input (by omega), hdrop]

end Sys2Proof.Machine
end

section
/-! PROOFS. COMPRESS under the STORED hint: the chunks of the window, their number and their bits. -/

namespace Sys2Proof.Machine

open Config (hw)

/-! ## The stream of stored chunks as a whole -/

/-- Stored chunks end at a byte boundary. -/
theorem chunkBits_aligned {chunks : List Nat} (h : chunks ≠ []) (pos : Nat) :
    (pos + chunkBits pos chunks) % 8 = 0 := by
  induction chunks generalizing pos with
  | nil => exact absurd rfl h
  | cons len rest ih =>
    rw [chunkBits]
    cases rest with
    | nil =>
      simp only [chunkBits, storedPad]
      omega
    | cons len' rest' =>
      have := ih (by simp) (pos + (3 + storedPad pos + 32 + 8 * len))
      rwa [Nat.add_assoc] at this

theorem chunkLens_ne_nil (k n : Nat) : chunkLens hw k n ≠ [] := by
  cases k with
  | zero => simp [chunkLens]
  | succ k =>
    unfold chunkLens
    split <;> simp

theorem storedChunks_ne_nil (n : Nat) : storedChunks hw n ≠ [] := chunkLens_ne_nil _ n

/-- A stored encoding has one chunk for each full 65535 bytes begun, and one when there are none (40_control.md R442). -/
theorem chunkLens_length {k n : Nat} (hk : n / 65535 ≤ k) : (chunkLens hw k n).length = max 1 ((n + 65534) / 65535) := by
  induction k generalizing n with
  | zero =>
    simp only [chunkLens, List.length_singleton]
    omega
  | succ k ih =>
    have hmax : hw.storedMax = 65535 := rfl
    unfold chunkLens
    rw [hmax]
    split
    · simp only [List.length_singleton]
      omega
    · rw [List.length_cons, ih (by omega)]
      omega

theorem storedChunks_length (n : Nat) : (storedChunks hw n).length = max 1 ((n + 65534) / 65535) :=
  chunkLens_length le_rfl

@[simp] theorem storedHeaders_length (final : Bool) (chunks : List Nat) (pos : Nat) :
    (storedHeaders final pos chunks).length = chunks.length := by
  induction chunks generalizing pos with
  | nil => rfl
  | cons len rest ih => rw [storedHeaders, List.length_cons, ih, List.length_cons]

/-- Only the last chunk carries BFINAL. -/
theorem storedHeaders_getLast? (final : Bool) {chunks : List Nat} (h : chunks ≠ []) (pos : Nat) :
    (storedHeaders final pos chunks).getLast?.map (·.2) = some (BitVec.ofBool final ++ 0#2) := by
  induction chunks generalizing pos with
  | nil => exact absurd rfl h
  | cons len rest ih =>
    rw [storedHeaders]
    cases rest with
    | nil => simp [storedHeaders]
    | cons len' rest' =>
      have hlast := ih (by simp) (pos + 3 + storedPad pos + 32 + 8 * len)
      rw [storedHeaders, List.getLast?_cons_cons]
      rwa [storedHeaders] at hlast

/-! ## The start of the stream, and its flush -/

section Start

variable (s : State)

@[simp] theorem compressStart_streamPos : s.compressStart.streamPos = 0 := rfl

theorem compressStart_clean : s.compressStart.PackerClean := by
  show (0 : Byte).toNat < 2 ^ (0 : BitVec 3).toNat
  decide

theorem compressStart_hasRoom {n : Nat} : s.compressStart.HasRoom n ↔ n / 8 ≤ s.opt.outLimit.toNat := by
  show (0 + n) / 8 ≤ max s.opt.outLimit.toNat 0 ↔ _
  simp

end Start

theorem flush_of_aligned {s : State} (h : s.packer.bitCnt = 0) : flush s = .ok s := by
  have hcount : s.flushCount = 0 := by simp [State.flushCount, h]
  rw [flush, hcount]
  rfl

/-- A clean packer at a byte boundary, by the position of the stream. -/
theorem packer_of_aligned {s : State} (hclean : s.PackerClean) (hpos : s.streamPos % 8 = 0) :
    s.packer = { s.packer with outLen := word (s.streamPos / 8), bitCnt := 0, bitBuf := 0 } := by
  have hcnt : s.packer.bitCnt.toNat < 8 := s.packer.bitCnt.isLt
  have hzero : s.packer.bitCnt.toNat = 0 := by unfold State.streamPos at hpos; omega
  have hlen : s.streamPos / 8 = s.packer.outLen.toNat := by unfold State.streamPos; omega
  have hbuf : s.packer.bitBuf.toNat = 0 := by
    unfold State.PackerClean at hclean
    rw [hzero] at hclean
    omega
  rw [hlen, word, BitVec.ofNat_toNat, BitVec.setWidth_eq]
  have hcnt0 : s.packer.bitCnt = 0 := BitVec.eq_of_toNat_eq hzero
  have hbuf0 : s.packer.bitBuf = 0 := BitVec.eq_of_toNat_eq hbuf
  cases hp : s.packer
  rw [hp] at hcnt0 hbuf0
  subst hcnt0 hbuf0
  rfl

theorem StreamCut.raiseError {s t : State} {bits : List Bool} {headers : List (Nat × BitVec 3)}
    (h : StreamCut s t bits headers) (e : CmdError) : StreamCut s (t.raiseError e) bits headers :=
  { outLen := h.outLen, bytes := h.bytes, counted := h.counted }

/-! ## COMPRESS under the STORED hint -/

section Stored

variable {s : State}

theorem exec_compress_of_checks (hhint : s.opt.btype ≠ 3) (hN : s.inputLen ≤ hw.inCap) :
    exec .compress s = (s.compressStart.compressWork.andThen compressEnd).finish := by
  rw [exec_compress_eq, compressCmd_eq, checkCompress_eq_ok (u := ()).2 ⟨hhint, hN⟩, afterChecks_ok]

theorem compressBody_of_stored (h : s.opt.btype = 0) : compressBody hw s = storedBlocks hw 0 s.inputLen true s := by
  rw [compressBody, if_pos h]

/-- The work of COMPRESS under the STORED hint is the chunks of the window. -/
theorem compressBody_emits_stored (h : s.opt.btype = 0) (hN : s.inputLen ≤ hw.inCap) :
    Emits s.compressStart (compressBody hw s.compressStart)
      (storedStream true 0 (storedChunks hw s.inputLen) s.window)
      (storedHeaders true 0 (storedChunks hw s.inputLen)) := by
  rw [compressBody_of_stored (s := s.compressStart) h]
  refine storedChunksFrom_emits true (storedChunks hw s.inputLen) s.compressStart ?_ ?_
  · rw [sum_storedChunks]
    omega
  · rw [sum_storedChunks]
    rfl

theorem window_length : s.window.length = s.inputLen := by simp [State.window, State.inputLen]

theorem storedStream_window_length :
    (storedStream true 0 (storedChunks hw s.inputLen) s.window).length = storedBits hw 0 s.inputLen :=
  storedStream_length _ _ _ (by rw [sum_storedChunks, window_length])

/-- The packer after the chunks of the window. -/
theorem packer_of_stored {t : State} (h : Emitted s.compressStart t
      (storedStream true 0 (storedChunks hw s.inputLen) s.window)
      (storedHeaders true 0 (storedChunks hw s.inputLen))) :
    t.packer = { outLen := word (storedBits hw 0 s.inputLen / 8), bitCnt := 0, bitBuf := 0,
                 blocksOut := word (storedChunks hw s.inputLen).length, lastBlock := 0x4 } := by
  have hpos : t.streamPos = storedBits hw 0 s.inputLen := by
    rw [h.streamPos, compressStart_streamPos, Nat.zero_add, storedStream_window_length]
  have haligned : t.streamPos % 8 = 0 := by
    have := chunkBits_aligned (storedChunks_ne_nil s.inputLen) 0
    rwa [Nat.zero_add, ← storedBits, ← hpos] at this
  have hblocks := h.blocksOut
  have hlast := h.lastBlock
  rw [storedHeaders_length] at hblocks
  rw [storedHeaders_getLast? true (storedChunks_ne_nil _)] at hlast
  rw [packer_of_aligned (h.clean (compressStart_clean s)) haligned]
  simp only [hblocks, hlast, hpos, Packer.mk.injEq, true_and]
  exact ⟨BitVec.zero_add _, rfl⟩

/-- A run of OUT bytes from the start of the stream. -/
theorem sameMemOutside_of_start {t : State} (h : ∀ x, (x < Region.output.base + s.compressStart.packer.outLen.toNat ∨
      Region.output.base + t.packer.outLen.toNat ≤ x) → t.readByte x = s.compressStart.readByte x) :
    SameMemOutside [(Region.output.base, t.packer.outLen.toNat)] s t :=
  fun x hx => h x (hx _ List.mem_cons_self)

/-- The end of COMPRESS from a state its start leads to by writes of OUT and the packer. -/
theorem endsWell_of_start {t : State}
    (h : t = { s.compressStart with packer := t.packer, mem := t.mem }) : EndsWell s t.complete := by
  rw [h]
  exact ⟨rfl, rfl, rfl, rfl, rfl, rfl, rfl, rfl⟩

theorem endsFull_of_start {t : State}
    (h : t = { s.compressStart with packer := t.packer, mem := t.mem, draws := t.draws }) :
    EndsFull s (t.raiseError { code := .writeError, info := t.packer.outLen }) := by
  rw [h]
  exact ⟨rfl, rfl, rfl, rfl, rfl, rfl, rfl, rfl⟩

/-- Settles O32: the chunks of the window either fit and end at a byte boundary, or are cut at OUT_LIMIT. -/
theorem compressStoredWritesTheWindow : Obligations.CompressStoredWritesTheWindow := by
  intro s hhint hN hfail
  have hemits := compressBody_emits_stored hhint hN
  have hlen := storedStream_window_length (s := s)
  have hexec := exec_compress_of_checks (s := s) (by rw [hhint]; decide) hN
  refine ⟨hlen, fun hfit => ?_, fun hover => ?_⟩
  · obtain ⟨t, hrun, ht⟩ := hemits.fits ((compressStart_hasRoom s).2 (by rwa [hlen]))
    have hpacker := packer_of_stored ht
    have hopt : t.opt = s.opt := ht.opt
    have hwork : s.compressStart.compressWork = .ok (t.compressResults t.streamPos) := by
      rw [State.compressWork, hrun, Run.ok_andThen, flush_of_aligned (by rw [hpacker])]
      rfl
    have hnofail : (t.compressResults t.streamPos).opt.readFailed = false := by
      rw [compressResults_eq]
      exact hopt ▸ hfail
    rw [hwork, Run.ok_andThen, compressEnd_of_not_readFailed hnofail, Run.finish_ok, compressResults_eq,
      if_pos (hopt ▸ hhint)] at hexec
    have hmem := sameMemOutside_of_start ht.mem
    have hends := endsWell_of_start ht.rest
    have hdiv : (word (storedBits hw 0 s.inputLen / 8)).toNat = storedBits hw 0 s.inputLen / 8 := by
      have := s.opt.outLimit.isLt
      rw [BitVec.toNat_ofNat, Nat.mod_eq_of_lt (by omega)]
    have hlens := congrArg State.lens ht.rest
    refine ⟨_, hexec, { hends with }, ht.stream, hpacker, ?_, hlens, ?_, congrArg State.cache ht.rest, ?_⟩
    · show (⟨t.packer.outLen, t.lens.planLen, t.packer.blocksOut, word t.streamPos⟩ : Results) = _
      rw [ht.streamPos, hlen, congrArg Lens.planLen hlens, compressStart_streamPos, Nat.zero_add]
      rfl
    · show ({ t.obs with iterCount := 0, bestBits := 0 } : Observed) = _
      rw [congrArg State.obs ht.rest]
      rfl
    · rw [hpacker, hdiv] at hmem
      exact hmem
  · obtain ⟨t, hrun, ht⟩ := hemits.full (mt (compressStart_hasRoom s).1 (by rw [hlen]; omega))
    have hwork : s.compressStart.compressWork = .stop { code := .writeError, info := t.packer.outLen } t := by
      rw [State.compressWork, hrun, Run.stop_andThen]
    rw [hwork, Run.stop_andThen, Run.finish_stop] at hexec
    have hmem := sameMemOutside_of_start ht.mem
    exact ⟨_, hexec, endsFull_of_start ht.rest, ht.cut.raiseError _, congrArg State.lens ht.rest,
      congrArg State.cache ht.rest, hmem⟩

end Stored

end Sys2Proof.Machine
end

section
/-! PROOFS. Matches and parses: a record's matches repeat earlier bytes of the window, a search through a coherent cache
answers the record, and the greedy parse is a parse whose symbols are R521's choice. -/

namespace Sys2Proof.Machine

open Config (hw)

/-! ## Candidates -/

theorem exists_of_mem_walkBack {bs suffix : List Byte} {d : Nat} {c : Nat × List Byte} (h : c ∈ walkBack bs suffix d) :
    ∃ i, i < bs.length ∧ c = (d + i, (bs.take (i + 1)).reverse ++ suffix) := by
  induction bs generalizing suffix d with
  | nil => cases h
  | cons b bs ih =>
    rcases List.mem_cons.1 h with rfl | h
    · exact ⟨0, by simp, by simp⟩
    · obtain ⟨i, hi, rfl⟩ := ih h
      exact ⟨i + 1, by simpa using hi, by simp [Nat.add_assoc, Nat.add_comm 1 i]⟩

/-- An earlier position is at most WINDOW back, and comes with the window from there on (41_lz77_parser.md R504). -/
theorem of_mem_earlier {w : List Byte} {p : Nat} (hp : p ≤ w.length) {c : Nat × List Byte} (h : c ∈ earlier hw w p) :
    1 ≤ c.1 ∧ c.1 ≤ p ∧ c.1 ≤ 32768 ∧ c.2 = w.drop (p - c.1) := by
  obtain ⟨i, hi, rfl⟩ := exists_of_mem_walkBack h
  have hlen : i < 32768 ∧ i < p := by simpa [hp] using hi
  have hwin : i + 1 ≤ hw.window := by have : hw.window = 32768 := rfl; omega
  refine ⟨by omega, by omega, by omega, ?_⟩
  rw [List.take_take, min_eq_left hwin, List.reverse_take, List.length_reverse, List.length_take_of_le hp,
    List.reverse_reverse, Nat.add_comm 1 i]
  have hsplit : w.drop (p - (i + 1)) = (w.take p ++ w.drop p).drop (p - (i + 1)) := by rw [List.take_append_drop]
  rw [hsplit, List.drop_append_of_le_length (by rw [List.length_take_of_le hp]; omega)]

theorem mem_of_mem_firstOfBoth {r m₁ m₂ : Nat} {l : List (Nat × List Byte)} {c : Nat × List Byte}
    (h : c ∈ firstOfBoth hw r m₁ m₂ l) : c ∈ l := by
  induction l generalizing m₁ m₂ with
  | nil => simp [firstOfBoth] at h
  | cons e l ih =>
    unfold firstOfBoth at h
    have hcons : ∀ {n₁ n₂}, c ∈ e :: firstOfBoth hw r n₁ n₂ l → c ∈ e :: l := fun h =>
      (List.mem_cons.1 h).elim (fun h => h ▸ List.mem_cons_self) fun h => List.mem_cons_of_mem _ (ih h)
    split at h
    · split at h
      · exact hcons h
      · exact List.mem_cons_of_mem _ (ih h)
    · split at h
      · exact hcons h
      · exact List.mem_cons_of_mem _ (ih h)

theorem mem_earlier_of_mem_candidates {w : List Byte} {m p : Nat} {c : Nat × List Byte}
    (h : c ∈ candidates hw w m p) : c ∈ earlier hw w p := by
  have hchain := mem_of_mem_firstOfBoth h
  unfold chain1 at hchain
  split at hchain
  · cases hchain
  · exact List.mem_of_mem_filter hchain

/-! ## Records -/

theorem lcp_spec (n : Nat) (xs ys : List Byte) : lcp n xs ys ≤ n ∧ ∀ k, k < lcp n xs ys → xs[k]? = ys[k]? := by
  induction n generalizing xs ys with
  | zero => exact ⟨by simp [lcp], by simp [lcp]⟩
  | succ n ih =>
    cases xs with
    | nil => simp [lcp]
    | cons x xs =>
      cases ys with
      | nil => simp [lcp]
      | cons y ys =>
        unfold lcp
        split
        · next hxy =>
          obtain ⟨hle, heq⟩ := ih xs ys
          refine ⟨Nat.succ_le_succ hle, fun k hk => ?_⟩
          cases k with
          | zero => simp [hxy]
          | succ k => simpa using heq k (by omega)
        · simp

/-- A distance a record gives for length 3 + k is that of a candidate that repeats at least so many bytes. -/
def ReachedBy (w : List Byte) (m p : Nat) (k d : Nat) : Prop :=
  ∃ c ∈ candidates hw w m p, c.1 = d ∧ k + 3 ≤ lcp (matchLimit hw w p) c.2 (w.drop p)

theorem matchRec_sub_reached {w : List Byte} {m p k d : Nat} (h : (matchRec hw w m p).sub[k]? = some d) :
    ReachedBy w m p k d := by
  have hfold : ∀ (cs : List (Nat × List Byte)) (sub : List Nat), (∀ c ∈ cs, c ∈ candidates hw w m p) →
      (∀ k d, sub[k]? = some d → ReachedBy w m p k d) → ∀ k d,
      (cs.foldl (fun sub c => extendSub hw sub c.1 (lcp (matchLimit hw w p) c.2 (w.drop p))) sub)[k]? = some d →
        ReachedBy w m p k d := by
    intro cs
    induction cs with
    | nil => exact fun sub _ hsub => hsub
    | cons c cs ih =>
      intro sub hmem hsub
      obtain ⟨hc, hcs⟩ := List.forall_mem_cons.1 hmem
      refine ih _ hcs fun k d hk => ?_
      simp only [extendSub, List.getElem?_append] at hk
      split at hk
      · exact hsub k d hk
      · obtain ⟨hlt, heq⟩ := List.getElem?_eq_some_iff.1 hk
        rw [List.getElem_replicate] at heq
        rw [List.length_replicate] at hlt
        exact ⟨c, hc, heq, by omega⟩
  exact hfold _ [] (fun _ => id) (by simp) k d h

theorem matchRec_best (w : List Byte) (m p : Nat) : (matchRec hw w m p).best =
    if (matchRec hw w m p).sub = [] then 0 else (matchRec hw w m p).sub.length + 2 := by
  unfold matchRec
  simp only [List.isEmpty_iff]

/-- The symbol is valid and stands for the window bytes at its position. -/
def Sym.StandsAt (w : List Byte) (y : Sym) (p : Nat) : Prop := y.Valid ∧ Entry.Reconstructs w { sym := y, pos := p }

theorem ref_standsAt_of_reached {w : List Byte} {m p k d : Nat} (hp : p ≤ w.length) (h : ReachedBy w m p k d) :
    (Sym.ref (k + 3) d).StandsAt w p := by
  obtain ⟨c, hc, rfl, hk⟩ := h
  obtain ⟨hpos, hle, hwin, hdrop⟩ := of_mem_earlier hp (mem_earlier_of_mem_candidates hc)
  obtain ⟨hlim, heq⟩ := lcp_spec (matchLimit hw w p) c.2 (w.drop p)
  have hmin : k + 3 ≤ min hw.maxMatch (w.length - p) := hk.trans hlim
  refine ⟨⟨by omega, hmin.trans (min_le_left _ _), hpos, hwin⟩, hle, ?_, fun j hj => ?_⟩
  · show p + (k + 3) ≤ w.length
    have := hmin.trans (min_le_right _ _)
    omega
  · have hbyte := heq j (by omega)
    rw [hdrop, List.getElem?_drop, List.getElem?_drop] at hbyte
    show w[p + j]? = w[p + j - c.1]?
    rw [← hbyte]
    congr 1
    omega

/-- A match at a length of the record, at the distance the record gives for it (41_lz77_parser.md R506, R508). -/
theorem ref_standsAt_of_le_best {w : List Byte} {m p len : Nat} (hp : p ≤ w.length) (h3 : 3 ≤ len)
    (hbest : len ≤ (matchRec hw w m p).best) :
    (Sym.ref len ((matchRec hw w m p).subAt hw len)).StandsAt w p := by
  obtain ⟨k, rfl⟩ : ∃ k, len = k + 3 := ⟨len - 3, by omega⟩
  rw [matchRec_best] at hbest
  split at hbest
  · omega
  · have hlt : k < (matchRec hw w m p).sub.length := by omega
    have hsub : (matchRec hw w m p).subAt hw (k + 3) = (matchRec hw w m p).sub[k] := by
      simp [MatchRec.subAt, hlt]
    rw [hsub]
    exact ref_standsAt_of_reached hp (matchRec_sub_reached (List.getElem?_eq_getElem hlt))

theorem lit_standsAt {w : List Byte} {p : Nat} (hp : p < w.length) : (Sym.lit (w.getD p 0)).StandsAt w p :=
  ⟨trivial, show w[p]? = some (w.getD p 0) by simp [hp]⟩

/-! ## Searches through a coherent cache -/

section Searches

variable {x : SearchCtx}

theorem mem_of_cache_get? {c : Cache} {p : Nat} {r : MatchRec} (h : c.get? p = some r) : (p, r) ∈ c := by
  obtain ⟨e, he, rfl⟩ := Option.map_eq_some_iff.1 h
  have hp : (e.1 == p) = true := List.find?_some (p := fun e : Nat × MatchRec => e.1 == p) he
  rw [← beq_iff_eq.1 hp]
  exact List.mem_of_find?_eq_some he

/-- A hit and a miss answer the same record (41_lz77_parser.md R531). -/
theorem cachedRec_fst {c : Cache} (h : c.CoherentWith x) (p : Nat) :
    (cachedRec hw x c p).1 = matchRec hw x.window x.maxChain p := by
  unfold cachedRec
  split
  · next r hr => exact (h _ (mem_of_cache_get? hr)).2.2
  · rfl

theorem cachedRec_snd {c : Cache} (h : c.CoherentWith x) (hN : x.window.length ≤ hw.inCap) {p : Nat}
    (hp : p < x.window.length) : Cache.CoherentWith x (cachedRec hw x c p).2 :=
  coherentWith_keptBySearch hN c p hp h

/-! ## The greedy parse -/

/-- The matches and the literal of a position clipped at b, as the parse chooses among them. -/
theorem greedySym_standsAt (lazy : Bool) {b p : Nat} (hp : p < b) (hb : b ≤ x.window.length) :
    (greedySym x lazy b p).StandsAt x.window p ∧ 1 ≤ (greedySym x lazy b p).span ∧
      p + (greedySym x lazy b p).span ≤ b := by
  unfold greedySym
  simp only []
  split
  · exact ⟨lit_standsAt (hp.trans_le hb), le_rfl, hp⟩
  · next hmatch =>
    have h3 : 3 ≤ (clipMatch hw (matchRec hw x.window x.maxChain p) (b - p)).1 := by
      by_contra hlt
      exact hmatch (.inl (by omega))
    unfold clipMatch at h3 ⊢
    split at h3
    · omega
    · next hclip =>
      rw [if_neg hclip]
      refine ⟨ref_standsAt_of_le_best (by omega) h3 (min_le_left _ _), ?_, ?_⟩
      · exact le_trans (by omega) h3
      · have := min_le_right (matchRec hw x.window x.maxChain p).best (b - p)
        show p + min (matchRec hw x.window x.maxChain p).best (b - p) ≤ b
        omega

/-- The lazy step through a coherent cache. -/
theorem lazyStep_fst {c : Cache} (h : c.CoherentWith x) (lazy : Bool) (b p len : Nat) :
    (lazyStep hw x lazy b p len c).1 = true ↔ lazy = true ∧ p + 1 < b ∧
      len < (clipMatch hw (matchRec hw x.window x.maxChain (p + 1)) (b - p - 1)).1 := by
  unfold lazyStep
  split
  · next hl =>
    simp only [Bool.and_eq_true, decide_eq_true_eq] at hl
    simp only [cachedRec_fst h, decide_eq_true_eq, hl, true_and]
  · next hl =>
    simp only [Bool.and_eq_true, decide_eq_true_eq] at hl
    simp only [Bool.false_eq_true, false_iff]
    exact fun hlazy => hl ⟨hlazy.1, hlazy.2.1⟩

/-- One symbol of the parse (41_lz77_parser.md R521). -/
theorem greedyFrom_succ {c : Cache} (h : c.CoherentWith x) (hN : x.window.length ≤ hw.inCap) (lazy : Bool)
    {b p : Nat} (hp : p < b) (hb : b ≤ x.window.length) (k : Nat) :
    ∃ c' : Cache, c'.CoherentWith x ∧ greedyFrom hw x lazy b (k + 1) p c =
      ({ sym := greedySym x lazy b p, pos := p } ::
        (greedyFrom hw x lazy b k (p + (greedySym x lazy b p).span) c').1,
        (greedyFrom hw x lazy b k (p + (greedySym x lazy b p).span) c').2) := by
  have hsearch : ∀ (c : Cache) p, p < b → c.CoherentWith x → Cache.CoherentWith x (cachedRec hw x c p).2 :=
    fun c p hp hc => cachedRec_snd hc hN (hp.trans_le hb)
  have hrec := hsearch c p hp h
  have hlazy := fun len => lazyStep_keeps (R := Cache.CoherentWith x) hsearch lazy p len hrec
  rw [greedyFrom, if_neg (not_le.2 hp)]
  simp only [cachedRec_fst h, lazyStep_fst hrec]
  unfold greedySym
  by_cases h3 : 3 ≤ (clipMatch hw (matchRec hw x.window x.maxChain p) (b - p)).1
  · rw [if_pos h3]
    by_cases hl : lazy = true ∧ p + 1 < b ∧ (clipMatch hw (matchRec hw x.window x.maxChain p) (b - p)).1 <
        (clipMatch hw (matchRec hw x.window x.maxChain (p + 1)) (b - p - 1)).1
    · rw [if_pos hl, if_pos (.inr hl)]
      exact ⟨_, hlazy _, rfl⟩
    · rw [if_neg hl, if_neg (not_or.2 ⟨by omega, hl⟩)]
      exact ⟨_, hlazy _, rfl⟩
  · rw [if_neg h3, if_pos (.inl (by omega))]
    exact ⟨_, hrec, rfl⟩

theorem isParse_cons {w : List Byte} {y : Sym} {es : List Entry} {p b : Nat} (h : y.StandsAt w p)
    (hes : IsParse w es (p + y.span) b) : IsParse w ({ sym := y, pos := p } :: es) p b :=
  ⟨⟨rfl, hes.1⟩, List.forall_mem_cons.2 ⟨h, hes.2⟩⟩

theorem isParse_nil (w : List Byte) (p : Nat) : IsParse w [] p p := ⟨rfl, nofun⟩

theorem greedyFrom_isParse (hN : x.window.length ≤ hw.inCap) (lazy : Bool) {b : Nat} (hb : b ≤ x.window.length)
    (k : Nat) {p : Nat} (hp : p ≤ b) (hk : b ≤ p + k) {c : Cache} (h : c.CoherentWith x) :
    IsParse x.window (greedyFrom hw x lazy b k p c).1 p b ∧
      (∀ e ∈ (greedyFrom hw x lazy b k p c).1, e.sym = greedySym x lazy b e.pos) := by
  induction k generalizing p c with
  | zero =>
    obtain rfl : p = b := by omega
    exact ⟨isParse_nil _ _, nofun⟩
  | succ k ih =>
    by_cases hlt : p < b
    · obtain ⟨c', hc', heq⟩ := greedyFrom_succ h hN lazy hlt hb k
      obtain ⟨hstands, hspan, hend⟩ := greedySym_standsAt (x := x) lazy hlt hb
      obtain ⟨hparse, hsyms⟩ := ih hend (by omega) hc'
      rw [heq]
      exact ⟨isParse_cons hstands hparse, List.forall_mem_cons.2 ⟨rfl, hsyms⟩⟩
    · obtain rfl : p = b := by omega
      rw [greedyFrom, if_pos le_rfl]
      exact ⟨isParse_nil _ _, nofun⟩

/-- The greedy parse of [a, b) is a parse, made of the symbols R521 chooses. -/
theorem greedyParse_isParse (hN : x.window.length ≤ hw.inCap) (lazy : Bool) {a b : Nat} (hab : a ≤ b)
    (hb : b ≤ x.window.length) {c : Cache} (h : c.CoherentWith x) :
    IsParse x.window (greedyParse hw x lazy a b c).1 a b ∧
      (∀ e ∈ (greedyParse hw x lazy a b c).1, e.sym = greedySym x lazy b e.pos) :=
  greedyFrom_isParse hN lazy hb _ hab (by omega) h

end Searches

end Sys2Proof.Machine
end

section
/-! PROOFS. The squeeze: the pass along the shortest path answers a parse, the same whatever records the cache holds, and
the iterations keep the first parse of least estimate. -/

namespace Sys2Proof.Machine

open Config (hw)

/-! ## The edges out of a position -/

section Paths

variable {x : SearchCtx}

theorem getElem?_matchEdges (c : CostModel) (len : Nat) (ds : List Nat) (i : Nat) :
    (matchEdges c len ds)[i]? = ds[i]?.map (fun d => some (c.ref (len + i) d, .ref (len + i) d)) := by
  induction ds generalizing len i with
  | nil => rfl
  | cons d ds ih =>
    cases i with
    | zero => rfl
    | succ i =>
      rw [matchEdges, List.getElem?_cons_succ, ih, List.getElem?_cons_succ, Nat.add_assoc, Nat.add_comm 1 i]

/-- Edge i ends i + 1 positions on, and its symbol stands for the window there (42_squeeze.md R641). -/
theorem edgesFrom_standsAt {c : CostModel} {b p i cost : Nat} {y : Sym} (hp : p < b) (hb : b ≤ x.window.length)
    (h : (edgesFrom hw x c b p (matchRec hw x.window x.maxChain p))[i]? = some (some (cost, y))) :
    y.span = i + 1 ∧ y.StandsAt x.window p := by
  have hmin : hw.minMatch = 3 := rfl
  unfold edgesFrom at h
  rw [hmin] at h
  match i with
  | 0 =>
    simp only [List.cons_append, List.getElem?_cons_zero, Option.some.injEq, Prod.mk.injEq] at h
    obtain ⟨-, rfl⟩ := h
    exact ⟨rfl, lit_standsAt (hp.trans_le hb)⟩
  | 1 => simp at h
  | i + 2 =>
    have hedges : (matchEdges c 3 ((matchRec hw x.window x.maxChain p).sub.take
        (min (matchRec hw x.window x.maxChain p).best (b - p) - (3 - 1))))[i]? = some (some (cost, y)) := h
    rw [getElem?_matchEdges, Option.map_eq_some_iff] at hedges
    obtain ⟨d, hd, heq⟩ := hedges
    simp only [Option.some.injEq, Prod.mk.injEq] at heq
    obtain ⟨-, rfl⟩ := heq
    have hsub : (matchRec hw x.window x.maxChain p).sub[i]? = some d := by
      rw [List.getElem?_take] at hd
      split at hd
      · exact hd
      · cases hd
    rw [Nat.add_comm 3 i]
    exact ⟨rfl, ref_standsAt_of_reached (by omega) (matchRec_sub_reached hsub)⟩

/-! ## Slots -/

/-- What the slot of position q may hold in a pass that began at a: nothing at a, and elsewhere the symbol of an edge
from a position of the range to q (42_squeeze.md R641). -/
def SlotAt (w : List Byte) (a q : Nat) (slot : Slot) : Prop :=
  match slot.via with
  | none => q = a
  | some y => 1 ≤ y.span ∧ a + y.span ≤ q ∧ y.StandsAt w (q - y.span)

theorem relaxSlot_via (cost : Nat) (y : Sym) (old : Option Slot) :
    (relaxSlot cost y old).via = some y ∨ old = some (relaxSlot cost y old) := by
  cases old with
  | none => exact .inl rfl
  | some old => by_cases h : cost ≤ old.cost <;> simp [relaxSlot, h]

theorem relax_length (base : Nat) (es : List (Option (Nat × Sym))) (dp : List (Option Slot)) :
    (relax base es dp).length = dp.length := by
  induction es generalizing dp with
  | nil => rfl
  | cons e es ih =>
    cases dp with
    | nil => cases e <;> rfl
    | cons slot dp => cases e <;> simp [relax, ih]

/-- A slot after relaxation: as before, or the symbol of an edge to it. -/
theorem relax_getElem? {base : Nat} {es : List (Option (Nat × Sym))} {dp : List (Option Slot)} {i : Nat} {slot : Slot}
    (h : (relax base es dp)[i]? = some (some slot)) :
    dp[i]? = some (some slot) ∨ ∃ cost y, es[i]? = some (some (cost, y)) ∧ slot.via = some y := by
  induction es generalizing dp i with
  | nil => exact .inl h
  | cons e es ih =>
    cases dp with
    | nil => cases e <;> simp [relax] at h
    | cons old dp =>
      cases e with
      | none =>
        cases i with
        | zero => exact .inl h
        | succ i => exact ih h
      | some e =>
        cases i with
        | zero =>
          simp only [relax, List.getElem?_cons_zero, Option.some.injEq] at h
          subst h
          rcases relaxSlot_via (base + e.1) e.2 old with hvia | hold
          · exact .inr ⟨e.1, e.2, rfl, hvia⟩
          · exact .inl (congrArg some hold)
        | succ i => exact ih h

/-- The literal edge reaches the next position. -/
theorem relax_head (base : Nat) (e : Nat × Sym) (es : List (Option (Nat × Sym))) {dp : List (Option Slot)}
    (h : dp ≠ []) : ∃ slot, (relax base (some e :: es) dp)[0]? = some (some slot) := by
  cases dp with
  | nil => exact absurd rfl h
  | cons old dp => exact ⟨_, rfl⟩

/-- The slots of p, ..., b in a pass that began at a: each is sound, and p is reached. -/
structure Ahead (w : List Byte) (a b p : Nat) (dp : List (Option Slot)) : Prop where
  length : dp.length = b + 1 - p
  reached : ∃ slot, dp[0]? = some (some slot)
  sound : ∀ i slot, dp[i]? = some (some slot) → SlotAt w a (p + i) slot

/-- The slots of p - 1, p - 2, ..., a: each is reached and sound. -/
structure Behind (w : List Byte) (a p : Nat) (slots : List (Option Slot)) : Prop where
  length : slots.length = p - a
  sound : ∀ i, i < slots.length → ∃ slot, slots[i]? = some (some slot) ∧ SlotAt w a (p - 1 - i) slot

theorem Behind.cons {w : List Byte} {a p : Nat} {slots : List (Option Slot)} {slot : Slot} (hap : a ≤ p)
    (h : Behind w a p slots) (hslot : SlotAt w a p slot) : Behind w a (p + 1) (some slot :: slots) where
  length := by rw [List.length_cons, h.length]; omega
  sound i hi := by
    cases i with
    | zero => exact ⟨slot, rfl, hslot⟩
    | succ i =>
      rw [List.length_cons] at hi
      obtain ⟨s, hs, hat⟩ := h.sound i (by omega)
      exact ⟨s, hs, by rwa [show p + 1 - 1 - (i + 1) = p - 1 - i by omega]⟩

/-! ## The pass -/

theorem passFrom_behind (hN : x.window.length ≤ hw.inCap) {m : CostModel} {a b : Nat} (hb : b ≤ x.window.length)
    (k : Nat) {p : Nat} (hk : p + k = b) (hap : a ≤ p) {dp done : List (Option Slot)} {c : Cache}
    (hc : c.CoherentWith x) (hdp : Ahead x.window a b p dp) (hdone : Behind x.window a p done) :
    Behind x.window a (b + 1) (passFrom hw x m b k p dp done c).1 := by
  induction k generalizing p dp done c with
  | zero =>
    obtain rfl : p = b := hk
    obtain ⟨slot, hslot⟩ := hdp.reached
    have hhead : dp.head?.join = some slot := by rw [List.head?_eq_getElem?, hslot]; rfl
    rw [passFrom, hhead]
    exact hdone.cons hap (hdp.sound 0 slot hslot)
  | succ k ih =>
    have hlt : p < b := by omega
    obtain ⟨slot, hslot⟩ := hdp.reached
    cases dp with
    | nil => simp at hslot
    | cons old rest =>
      obtain rfl : old = some slot := by simpa using hslot
      have hlen := hdp.length
      rw [List.length_cons] at hlen
      rw [passFrom]
      simp only [cachedRec_fst hc]
      refine ih (by omega) (by omega) (cachedRec_snd hc hN (hlt.trans_le hb)) ?_
        (hdone.cons hap (hdp.sound 0 slot hslot))
      refine
        { length := by rw [relax_length]; omega
          reached := relax_head _ _ _ (List.ne_nil_of_length_pos (by omega))
          sound := fun i s hs => ?_ }
      rcases relax_getElem? hs with hs | ⟨cost, y, hedge, hvia⟩
      · have hat := hdp.sound (i + 1) s hs
        rwa [show p + 1 + i = p + (i + 1) by omega]
      · obtain ⟨hspan, hstands⟩ := edgesFrom_standsAt hlt hb hedge
        unfold SlotAt
        rw [hvia]
        refine ⟨by omega, by omega, ?_⟩
        rwa [hspan, show p + 1 + i - (i + 1) = p by omega]

/-- The pass does not depend on the records the cache holds (41_lz77_parser.md R531). -/
theorem passFrom_fst_eq (hN : x.window.length ≤ hw.inCap) (m : CostModel) {b : Nat} (hb : b ≤ x.window.length)
    (k : Nat) {p : Nat} (hk : p + k = b) (dp done : List (Option Slot)) {c c' : Cache} (hc : c.CoherentWith x)
    (hc' : c'.CoherentWith x) : (passFrom hw x m b k p dp done c).1 = (passFrom hw x m b k p dp done c').1 := by
  induction k generalizing p dp done c c' with
  | zero => rfl
  | succ k ih =>
    cases dp with
    | nil => rfl
    | cons slot rest =>
      have hp : p < x.window.length := by omega
      rw [passFrom, passFrom]
      simp only [cachedRec_fst hc, cachedRec_fst hc']
      exact ih (by omega) _ _ (cachedRec_snd hc hN hp) (cachedRec_snd hc' hN hp)

/-! ## The trace back -/

theorem traceBack_isParse {w : List Byte} {a b : Nat} (k : Nat) {t : Nat} (hat : a ≤ t) (hk : t ≤ a + k)
    {slots : List (Option Slot)} (hslots : Behind w a (t + 1) slots) {acc : List Entry} (hacc : IsParse w acc t b) :
    IsParse w (traceBack k t slots acc) a b := by
  induction k generalizing t slots acc with
  | zero =>
    obtain rfl : t = a := by omega
    exact hacc
  | succ k ih =>
    have hlen := hslots.length
    obtain ⟨⟨cost, via⟩, hslot, hsound⟩ := hslots.sound 0 (by omega)
    cases slots with
    | nil => simp at hslot
    | cons old rest =>
      obtain rfl : old = some ⟨cost, via⟩ := by simpa using hslot
      cases via with
      | none =>
        obtain rfl : t = a := hsound
        exact hacc
      | some y =>
        obtain ⟨hpos, hle, hstands⟩ : 1 ≤ y.span ∧ a + y.span ≤ t ∧ y.StandsAt w (t - y.span) := hsound
        rw [List.length_cons] at hlen
        rw [traceBack]
        refine ih (by omega) (by omega) ?_ (isParse_cons hstands (by rwa [Nat.sub_add_cancel (by omega)]))
        refine ⟨by rw [List.length_drop]; omega, fun i hi => ?_⟩
        rw [List.length_drop] at hi
        obtain ⟨s, hs, hat'⟩ := hslots.sound (i + y.span) (by rw [List.length_cons]; omega)
        refine ⟨s, ?_, ?_⟩
        · rw [List.getElem?_drop, ← hs, show i + y.span = (y.span - 1 + i) + 1 by omega, List.getElem?_cons_succ]
        · rwa [show t - y.span + 1 - 1 - i = t + 1 - 1 - (i + y.span) by omega]

/-! ## The shortest path -/

/-- The path of a pass over [a, b) is a parse of it (42_squeeze.md R643). -/
theorem shortestPath_isParse (hN : x.window.length ≤ hw.inCap) (m : CostModel) {a b : Nat} (hab : a ≤ b)
    (hb : b ≤ x.window.length) {c : Cache} (hc : c.CoherentWith x) :
    IsParse x.window (shortestPath hw x m a b c).path a b := by
  have hstart : Ahead x.window a b a (some { cost := 0, via := none } :: List.replicate (b - a) none) :=
    { length := by rw [List.length_cons, List.length_replicate]; omega
      reached := ⟨_, rfl⟩
      sound := fun i slot h => by
        cases i with
        | zero =>
          simp only [List.getElem?_cons_zero, Option.some.injEq] at h
          subst h
          rfl
        | succ i =>
          rw [List.getElem?_cons_succ, List.getElem?_replicate] at h
          split at h <;> simp at h }
  have hnil : Behind x.window a a ([] : List (Option Slot)) := ⟨by simp, fun i hi => absurd hi (Nat.not_lt_zero i)⟩
  have hslots := passFrom_behind hN (m := m) hb (b - a) (by omega) le_rfl hc hstart hnil
  exact traceBack_isParse _ hab (by omega) hslots (isParse_nil _ _)

theorem shortestPath_path_eq (hN : x.window.length ≤ hw.inCap) (m : CostModel) {a b : Nat} (hab : a ≤ b)
    (hb : b ≤ x.window.length) {c : Cache} (hc : c.CoherentWith x) :
    (shortestPath hw x m a b c).path = (shortestPath hw x m a b []).path := by
  unfold shortestPath
  simp only []
  rw [passFrom_fst_eq hN m hb (b - a) (by omega) _ _ hc (coherentWith_nil x)]

theorem shortestPath_coherent (hN : x.window.length ≤ hw.inCap) (m : CostModel) (a : Nat) {b : Nat}
    (hb : b ≤ x.window.length) {c : Cache} (hc : c.CoherentWith x) :
    Cache.CoherentWith x (shortestPath hw x m a b c).cache :=
  shortestPath_keeps (R := Cache.CoherentWith x) (fun _ _ hp hc => cachedRec_snd hc hN (hp.trans_le hb)) m a hc

/-! ## The iterations of the squeeze -/

/-- The n-th parse of a squeeze is a parse of the block, when its greedy store is one. -/
theorem squeezePass_isParse (hN : x.window.length ≤ hw.inCap) (h absent : Nat) {a b : Nat} (hab : a ≤ b)
    (hb : b ≤ x.window.length) {block : List Entry} (hblock : IsParse x.window block a b) (n : Nat) :
    IsParse x.window (squeezePass x h absent a b block n) a b := by
  cases n with
  | zero => exact hblock
  | succ n => exact shortestPath_isParse hN _ hab hb (coherentWith_nil x)

/-- The estimate of the n-th parse of a squeeze. -/
def passEst (x : SearchCtx) (h absent a b : Nat) (block : List Entry) (n : Nat) : Nat :=
  est hw h ((squeezePass x h absent a b block n).map Entry.sym)

/-- The working state after n iterations: the first parse of least estimate so far, the passes since, the costs of the
last parse (42_squeeze.md R652, R654). -/
structure AfterPasses (x : SearchCtx) (h absent a b : Nat) (block : List Entry) (n : Nat) (q : SqueezeState) : Prop where
  iters : q.iters = n
  costs : q.costs = nextCosts hw h absent ((squeezePass x h absent a b block n).map Entry.sym)
  cache : q.cache.CoherentWith x
  least : ∃ m, IsFirstLeast (passEst x h absent a b block) n m ∧ q.best = squeezePass x h absent a b block m ∧
    q.bestBits = passEst x h absent a b block m ∧ m + q.stale = n

theorem afterPasses_boot (h absent a b : Nat) (block : List Entry) {c : Cache} (hc : c.CoherentWith x) :
    AfterPasses x h absent a b block 0 (squeezeBoot hw h absent block c) where
  iters := rfl
  costs := rfl
  cache := hc
  least := ⟨0, ⟨le_rfl, fun k hk => by rw [Nat.le_zero.1 hk], fun k hk => absurd hk (Nat.not_lt_zero k)⟩, rfl, rfl, rfl⟩

theorem isFirstLeast_succ_of_lt {e : Nat → Nat} {n m : Nat} (h : IsFirstLeast e n m) (hlt : e (n + 1) < e m) :
    IsFirstLeast e (n + 1) (n + 1) := by
  obtain ⟨-, hmin, -⟩ := h
  refine ⟨le_rfl, fun k hk => ?_, fun k hk => hlt.trans_le (hmin k (by omega))⟩
  rcases Nat.eq_or_lt_of_le hk with rfl | hk
  · exact le_rfl
  · exact hlt.le.trans (hmin k (by omega))

theorem isFirstLeast_succ_of_le {e : Nat → Nat} {n m : Nat} (h : IsFirstLeast e n m) (hle : e m ≤ e (n + 1)) :
    IsFirstLeast e (n + 1) m := by
  obtain ⟨hm, hmin, hfirst⟩ := h
  refine ⟨by omega, fun k hk => ?_, hfirst⟩
  rcases Nat.eq_or_lt_of_le hk with rfl | hk
  · exact hle
  · exact hmin k (by omega)

theorem isFirstLeast_unique {e : Nat → Nat} {n l m : Nat} (hl : IsFirstLeast e n l) (hm : IsFirstLeast e n m) :
    l = m := by
  obtain ⟨hln, hlmin, hlfirst⟩ := hl
  obtain ⟨hmn, hmmin, hmfirst⟩ := hm
  rcases Nat.lt_trichotomy l m with h | h | h
  · exact absurd (hmfirst l h) (not_lt.2 (hlmin m hmn))
  · exact h
  · exact absurd (hlfirst m h) (not_lt.2 (hmmin l hln))

theorem AfterPasses.step (hN : x.window.length ≤ hw.inCap) {h absent a b : Nat} (hab : a ≤ b)
    (hb : b ≤ x.window.length) {block : List Entry} {n : Nat} {q : SqueezeState}
    (hq : AfterPasses x h absent a b block n q) :
    AfterPasses x h absent a b block (n + 1) (squeezeStep hw x h absent a b q) := by
  have hpath : (shortestPath hw x q.costs a b q.cache).path = squeezePass x h absent a b block (n + 1) := by
    rw [shortestPath_path_eq hN _ hab hb hq.cache, hq.costs]
    rfl
  obtain ⟨m, hleast, hbest, hbits, hstale⟩ := hq.least
  unfold squeezeStep
  simp only [hpath]
  refine ⟨by simp [hq.iters], rfl, shortestPath_coherent hN _ a hb hq.cache, ?_⟩
  rw [hbits]
  by_cases hlt : passEst x h absent a b block (n + 1) < passEst x h absent a b block m
  · have hlt' : est hw h ((squeezePass x h absent a b block (n + 1)).map Entry.sym) <
      passEst x h absent a b block m := hlt
    simp only [hlt', decide_true, if_true]
    exact ⟨n + 1, isFirstLeast_succ_of_lt hleast hlt, rfl, rfl, rfl⟩
  · have hlt' : ¬ est hw h ((squeezePass x h absent a b block (n + 1)).map Entry.sym) <
      passEst x h absent a b block m := hlt
    simp only [hlt', decide_false, Bool.false_eq_true, if_false]
    exact ⟨m, isFirstLeast_succ_of_le hleast (not_lt.1 hlt), hbest, rfl, by omega⟩

/-- The loop ends after NUMITER passes, or after the first that is the STAGNATION-th in a row without a new minimum
(42_squeeze.md R653, R654). -/
theorem squeezeLoop_afterPasses (hN : x.window.length ≤ hw.inCap) {h absent stagnation a b : Nat} (hab : a ≤ b)
    (hb : b ≤ x.window.length) {block : List Entry} (n : Nat) {i : Nat} {q : SqueezeState}
    (hq : AfterPasses x h absent a b block i q)
    (hgoing : ∀ k l, 1 ≤ k → k ≤ i → IsFirstLeast (passEst x h absent a b block) k l → k < l + stagnation) :
    ∃ j, AfterPasses x h absent a b block j (squeezeLoop hw x h absent stagnation a b n q) ∧ i ≤ j ∧ j ≤ i + n ∧
      (∀ k l, 1 ≤ k → k < j → IsFirstLeast (passEst x h absent a b block) k l → k < l + stagnation) ∧
      (j = i + n ∨ (1 ≤ j ∧ ∀ m, IsFirstLeast (passEst x h absent a b block) j m → m + stagnation ≤ j)) := by
  induction n generalizing i q with
  | zero => exact ⟨i, hq, le_rfl, le_rfl, fun k l hk hlt => hgoing k l hk hlt.le, .inl rfl⟩
  | succ n ih =>
    have hstep := hq.step hN hab hb
    obtain ⟨m, hleast, -, -, hstale⟩ := hstep.least
    rw [squeezeLoop]
    split
    · next hstop =>
      refine ⟨i + 1, hstep, by omega, by omega, fun k l hk hlt => hgoing k l hk (by omega), .inr ⟨by omega, ?_⟩⟩
      intro m' hm'
      obtain rfl := isFirstLeast_unique hm' hleast
      omega
    · next hgo =>
      obtain ⟨j, hj, hle, hle', hbefore, hend⟩ := ih hstep fun k l hk hki hl => by
        rcases Nat.eq_or_lt_of_le hki with rfl | hlt
        · obtain rfl := isFirstLeast_unique hl hleast
          omega
        · exact hgoing k l hk (by omega) hl
      exact ⟨j, hj, by omega, by omega, hbefore, by rwa [show i + (n + 1) = i + 1 + n by omega]⟩

end Paths

/-! ## The squeeze of a block -/

section Squeeze

variable {s : State}

/-- What a squeeze of a block of a legal window leaves: the first parse of least estimate, its bits, the passes run. -/
theorem squeezeBlock_spec (hN : s.inputLen ≤ hw.inCap) (hc : CacheCoherent s) {a b : Nat} (hab : a ≤ b)
    (hb : b ≤ s.inputLen) {block : List Entry} (hblock : IsParse s.window block a b) :
    IsSqueezed s a b block (s.squeezeBlock hw a b block).best (s.squeezeBlock hw a b block).iters ∧
      IsParse s.window (s.squeezeBlock hw a b block).best a b ∧
      (s.squeezeBlock hw a b block).bestBits =
        est hw s.opt.btype ((s.squeezeBlock hw a b block).best.map Entry.sym) ∧
      (s.squeezeBlock hw a b block).cache.CoherentWith s.searchCtx := by
  have hlen : s.searchCtx.window.length = s.inputLen := searchCtx_window_length s
  have hN' : s.searchCtx.window.length ≤ hw.inCap := hlen.le.trans hN
  obtain ⟨j, hj, -, hle, hbefore, hend⟩ := squeezeLoop_afterPasses hN' (stagnation := s.opt.stagnation.toNat) hab
    (hb.trans_eq hlen.symm) s.opt.numIter.toNat
    (afterPasses_boot s.opt.btype s.absent a b block (cacheCoherent_iff.1 hc)) fun k l hk hk0 => by omega
  obtain ⟨m, hleast, hbest, hbits, -⟩ := hj.least
  have hq : s.squeezeBlock hw a b block = squeezeLoop hw s.searchCtx s.opt.btype s.absent s.opt.stagnation.toNat a b
    s.opt.numIter.toNat (squeezeBoot hw s.opt.btype s.absent block s.cache) := rfl
  rw [← hq] at hj hbest hbits
  refine ⟨⟨m, ?_, hbest, ?_, ?_, ?_⟩, ?_, ?_, hj.cache⟩
  · rw [hj.iters]
    exact hleast
  · rw [hj.iters]
    omega
  · rw [hj.iters]
    exact hbefore
  · rw [hj.iters]
    exact hend.imp (fun h => h.trans (Nat.zero_add _)) fun h => ⟨h.1, h.2 m hleast⟩
  · rw [hbest]
    exact squeezePass_isParse hN' _ _ hab (hb.trans_eq hlen.symm) hblock m
  · rw [hbits, hbest]
    rfl

end Squeeze

end Sys2Proof.Machine
end

section
/-! PROOFS. The bisection: the ranges the splitter goes through, and the plan of blocks they make (43_block_splitter.md
R711, R712). -/

namespace Sys2Proof.Machine

open Config (hw)

/-! ## The range picked -/

/-- The symbols of a range. -/
def SymRange.size (r : SymRange) : Nat := r.j - r.i

/-- The range can still be picked: it is open and has a cut. -/
def SymRange.Splittable (r : SymRange) : Prop := r.isOpen = true ∧ 2 ≤ r.size

/-- The ranges with q the first of the splittable ones with the most symbols. -/
structure Picked (before after : List SymRange) (q : SymRange) : Prop where
  splittable : q.Splittable
  before_lt : ∀ r ∈ before, r.Splittable → r.size < q.size
  after_le : ∀ r ∈ after, r.Splittable → r.size ≤ q.size

theorem pickRange_cons_of_not {r : SymRange} (h : ¬ r.Splittable) (rs : List SymRange) :
    pickRange (r :: rs) = pickRange rs := by
  have hno : ¬ (r.isOpen && decide (2 ≤ r.j - r.i)) = true := by
    rw [Bool.and_eq_true, decide_eq_true_eq]
    exact h
  rw [pickRange, if_neg hno]

theorem pickRange_cons_of_splittable {r : SymRange} (h : r.Splittable) (rs : List SymRange) :
    pickRange (r :: rs) = match pickRange rs with
      | none => some r
      | some q => if r.size < q.size then some q else some r := by
  have hyes : (r.isOpen && decide (2 ≤ r.j - r.i)) = true := by
    rw [Bool.and_eq_true, decide_eq_true_eq]
    exact h
  rw [pickRange, if_pos hyes]
  rfl

theorem not_splittable_of_pickRange {rs : List SymRange} (h : pickRange rs = none) :
    ∀ r ∈ rs, ¬ r.Splittable := by
  induction rs with
  | nil => simp
  | cons r rs ih =>
    by_cases hr : r.Splittable
    · rw [pickRange_cons_of_splittable hr] at h
      split at h
      · simp at h
      · split at h <;> simp at h
    · rw [pickRange_cons_of_not hr] at h
      exact List.forall_mem_cons.2 ⟨hr, ih h⟩

theorem picked_of_pickRange {rs : List SymRange} {q : SymRange} (h : pickRange rs = some q) :
    ∃ before after, rs = before ++ q :: after ∧ Picked before after q := by
  induction rs generalizing q with
  | nil => simp [pickRange] at h
  | cons r rs ih =>
    by_cases hr : r.Splittable
    · rw [pickRange_cons_of_splittable hr] at h
      split at h
      · next hnone =>
        obtain rfl : r = q := by simpa using h
        exact ⟨[], rs, rfl, hr, by simp, fun x hx hs => absurd hs (not_splittable_of_pickRange hnone x hx)⟩
      · next p hp =>
        obtain ⟨before, after, rfl, hpick⟩ := ih hp
        split at h
        · next hlt =>
          obtain rfl : p = q := by simpa using h
          exact ⟨r :: before, after, rfl, hpick.splittable,
            List.forall_mem_cons.2 ⟨fun _ => hlt, hpick.before_lt⟩, hpick.after_le⟩
        · next hge =>
          obtain rfl : r = q := by simpa using h
          refine ⟨[], _, rfl, hr, by simp, fun x hx hs => ?_⟩
          rcases List.mem_append.1 hx with hx | hx
          · have := hpick.before_lt x hx hs
            omega
          · rcases List.mem_cons.1 hx with rfl | hx
            · omega
            · have := hpick.after_le x hx hs
              omega
    · rw [pickRange_cons_of_not hr] at h
      obtain ⟨before, after, rfl, hpick⟩ := ih h
      exact ⟨r :: before, after, rfl, hpick.splittable,
        List.forall_mem_cons.2 ⟨fun hs => absurd hs hr, hpick.before_lt⟩, hpick.after_le⟩

theorem replaceRange_of_picked {before after : List SymRange} {q : SymRange} (h : Picked before after q)
    (new : List SymRange) : replaceRange q new (before ++ q :: after) = before ++ (new ++ after) := by
  have hnot : ∀ r ∈ before, r ≠ q := fun r hr heq => by
    have := h.before_lt r hr (heq ▸ h.splittable)
    rw [heq] at this
    omega
  clear h
  induction before with
  | nil => simp [replaceRange]
  | cons r before ih =>
    rw [List.cons_append, replaceRange, if_neg (hnot r List.mem_cons_self),
      ih fun x hx => hnot x (List.mem_cons_of_mem _ hx), List.cons_append]

/-! ## The best cut -/

/-- The first cut of least estimate among those below k. -/
structure BestBelow (h : Nat) (t : List Sym) (i j k : Nat) (best : Nat × Nat) : Prop where
  lt : i < best.1
  below : best.1 < k
  bits : best.2 = cutBits h t i best.1 j
  least : ∀ l, i < l → l < k → best.2 ≤ cutBits h t i l j ∧ (l < best.1 → best.2 < cutBits h t i l j)

theorem bestSplitFrom_bestBelow {h : Nat} {t : List Sym} {i j : Nat} (n : Nat) {k : Nat} {best : Nat × Nat}
    (hb : BestBelow h t i j k best) : BestBelow h t i j (k + n) (bestSplitFrom hw h t i j n k best) := by
  induction n generalizing k best with
  | zero => exact hb
  | succ n ih =>
    obtain ⟨hlt, hbelow, hbits, hleast⟩ := hb
    rw [bestSplitFrom, show k + (n + 1) = k + 1 + n by omega]
    refine ih ?_
    show BestBelow h t i j (k + 1) (if cutBits h t i k j < best.2 then (k, cutBits h t i k j) else best)
    split
    · next hless =>
      refine ⟨by omega, by omega, rfl, fun l hl hlk => ?_⟩
      rcases Nat.eq_or_lt_of_le (Nat.le_of_lt_succ hlk) with rfl | hlk
      · exact ⟨le_rfl, fun hkk => absurd hkk (lt_irrefl _)⟩
      · have := (hleast l hl hlk).1
        exact ⟨by omega, fun _ => by omega⟩
    · next hge =>
      refine ⟨hlt, by omega, hbits, fun l hl hlk => ?_⟩
      rcases Nat.eq_or_lt_of_le (Nat.le_of_lt_succ hlk) with rfl | hlk
      · exact ⟨by omega, fun hkk => by omega⟩
      · exact hleast l hl hlk

theorem bestSplit_bestBelow (h : Nat) (t : List Sym) {i j : Nat} (hij : i + 2 ≤ j) :
    BestBelow h t i j j (bestSplit hw h t i j) := by
  have hstart : BestBelow h t i j (i + 2) (i + 1, cutBits h t i (i + 1) j) :=
    ⟨by simp, by simp, rfl, fun l hl hlk => by
      obtain rfl : l = i + 1 := by omega
      exact ⟨le_rfl, fun hkk => absurd hkk (lt_irrefl _)⟩⟩
  have hend := bestSplitFrom_bestBelow (j - i - 2) hstart
  rwa [show i + 2 + (j - i - 2) = j by omega] at hend

theorem bestSplit_bestCut {h margin : Nat} {t : List Sym} {i j : Nat} (hij : i + 2 ≤ j)
    (hsave : (bestSplit hw h t i j).2 + margin < rangeEst hw h t i j) :
    BestCut h margin t i (bestSplit hw h t i j).1 j := by
  obtain ⟨hlt, hbelow, hbits, hleast⟩ := bestSplit_bestBelow h t hij
  rw [hbits] at hsave hleast
  exact ⟨hlt, hbelow, hsave, hleast⟩

theorem noCut_of_bestSplit {h margin : Nat} {t : List Sym} {i j : Nat} (hij : i + 2 ≤ j)
    (hsave : ¬ (bestSplit hw h t i j).2 + margin < rangeEst hw h t i j) : NoCut h margin t i j := by
  intro k hik hkj
  have := ((bestSplit_bestBelow h t hij).least k hik hkj).1
  omega

/-! ## The rounds -/

/-- Ranges that follow one another from symbol i to symbol j. -/
def RangeChain : List SymRange → Nat → Nat → Prop
  | [], i, j => i = j
  | r :: rs, i, j => r.i = i ∧ r.i ≤ r.j ∧ RangeChain rs r.j j

theorem rangeChain_append {xs ys : List SymRange} {i k : Nat} :
    RangeChain (xs ++ ys) i k ↔ ∃ j, RangeChain xs i j ∧ RangeChain ys j k := by
  induction xs generalizing i with
  | nil => simp [RangeChain]
  | cons r rs ih =>
    simp only [List.cons_append, RangeChain, ih]
    constructor
    · rintro ⟨hi, hle, j, hrs, hys⟩
      exact ⟨j, ⟨hi, hle, hrs⟩, hys⟩
    · rintro ⟨j, ⟨hi, hle, hrs⟩, hys⟩
      exact ⟨hi, hle, j, hrs, hys⟩

theorem RangeChain.le {rs : List SymRange} {i j : Nat} (h : RangeChain rs i j) : i ≤ j := by
  induction rs generalizing i with
  | nil => exact Nat.le_of_eq h
  | cons r rs ih =>
    obtain ⟨hi, hle, hrs⟩ := h
    exact hi ▸ hle.trans (ih hrs)

/-- The ranges after some rounds of the bisection: those closed have no saving cut, and the caps hold. -/
structure Rounds (h splitMax margin : Nat) (t : List Sym) (rs : List SymRange) : Prop where
  nonempty : rs ≠ []
  chain : RangeChain rs 0 t.length
  bisected : Bisected h margin t (rs.map fun r => (r.i, r.j))
  closed : ∀ r ∈ rs, r.isOpen = false → NoCut h margin t r.i r.j
  planCap : rs.length ≤ hw.planCap
  splitCap : splitMax ≠ 0 → rs.length ≤ splitMax

/-- What is left to do: a range of m symbols takes at most 2m - 1 rounds. -/
def openWork (rs : List SymRange) : Nat := (rs.map fun r => if r.isOpen then 2 * r.size - 1 else 0).sum

theorem openWork_append (xs ys : List SymRange) : openWork (xs ++ ys) = openWork xs + openWork ys := by
  rw [openWork, List.map_append, List.sum_append]
  rfl

theorem openWork_cons_open {r : SymRange} (h : r.isOpen = true) (rs : List SymRange) :
    openWork (r :: rs) = 2 * r.size - 1 + openWork rs := by
  simp [openWork, h]

theorem openWork_cons_closed {r : SymRange} (h : r.isOpen = false) (rs : List SymRange) :
    openWork (r :: rs) = openWork rs := by
  simp [openWork, h]

section Round

variable {h splitMax margin : Nat} {t : List Sym} {before after : List SymRange} {r : SymRange}

theorem Rounds.noCut_of_not_splittable {rs : List SymRange} (hr : Rounds h splitMax margin t rs) {x : SymRange}
    (hx : x ∈ rs) (hno : ¬ x.Splittable) : NoCut h margin t x.i x.j := by
  cases hopen : x.isOpen with
  | false => exact hr.closed x hx hopen
  | true =>
    intro k hik hkj
    exact absurd ⟨hopen, show 2 ≤ x.j - x.i by omega⟩ hno

/-- A round that closes a range. -/
theorem Rounds.close (hr : Rounds h splitMax margin t (before ++ r :: after)) (hno : NoCut h margin t r.i r.j) :
    Rounds h splitMax margin t (before ++ { r with isOpen := false } :: after) where
  nonempty := by simp
  chain := by
    obtain ⟨k, hbefore, hrest⟩ := rangeChain_append.1 hr.chain
    exact rangeChain_append.2 ⟨k, hbefore, hrest⟩
  bisected := by simpa using hr.bisected
  closed x hx hopen := by
    rcases List.mem_append.1 hx with hx | hx
    · exact hr.closed x (List.mem_append_left _ hx) hopen
    · rcases List.mem_cons.1 hx with rfl | hx
      · exact hno
      · exact hr.closed x (List.mem_append_right _ (List.mem_cons_of_mem _ hx)) hopen
  planCap := by simpa using hr.planCap
  splitCap := by simpa using hr.splitCap

/-- A round that cuts the range picked. -/
theorem Rounds.cut (hr : Rounds h splitMax margin t (before ++ r :: after)) (hpick : Picked before after r) {k : Nat}
    (hcut : BestCut h margin t r.i k r.j) (hcap : (before ++ r :: after).length < hw.planCap)
    (hsplit : splitMax ≠ 0 → (before ++ r :: after).length < splitMax) :
    Rounds h splitMax margin t
      (before ++ { i := r.i, j := k, isOpen := true } :: { i := k, j := r.j, isOpen := true } :: after) := by
  obtain ⟨hik, hkj, -, -⟩ := id hcut
  have hlen : (before ++ (⟨r.i, k, true⟩ : SymRange) :: ⟨k, r.j, true⟩ :: after).length =
      (before ++ r :: after).length + 1 := by simp; omega
  refine
    { nonempty := by simp
      chain := ?_
      bisected := ?_
      closed := fun x hx hopen => ?_
      planCap := by omega
      splitCap := fun h0 => by have := hsplit h0; omega }
  · obtain ⟨m, hbefore, hi, -, hrest⟩ := rangeChain_append.1 hr.chain
    exact rangeChain_append.2 ⟨m, hbefore, hi, hik.le, rfl, hkj.le, hrest⟩
  · have hbis := hr.bisected
    rw [List.map_append, List.map_cons] at hbis
    rw [List.map_append, List.map_cons, List.map_cons]
    have hmem : ∀ x, x ∈ before ∨ x ∈ after → x ∈ before ++ r :: after := fun x hx => by
      rcases hx with hx | hx <;> simp [hx]
    refine Bisected.cut _ _ _ k _ hbis hcut (fun y hy hle => ?_) (fun y hy hlt => ?_)
    · obtain ⟨x, hx, rfl⟩ := List.mem_map.1 hy
      refine hr.noCut_of_not_splittable (hmem x (.inl hx)) fun hs => ?_
      have hsize : x.j - x.i < r.j - r.i := hpick.before_lt x hx hs
      exact absurd (show r.j - r.i ≤ x.j - x.i from hle) (not_le.2 hsize)
    · obtain ⟨x, hx, rfl⟩ := List.mem_map.1 hy
      refine hr.noCut_of_not_splittable (hmem x (.inr hx)) fun hs => ?_
      have hsize : x.j - x.i ≤ r.j - r.i := hpick.after_le x hx hs
      exact absurd (show r.j - r.i < x.j - x.i from hlt) (not_lt.2 hsize)
  · rcases List.mem_append.1 hx with hx | hx
    · exact hr.closed x (List.mem_append_left _ hx) hopen
    · rcases List.mem_cons.1 hx with rfl | hx
      · simp at hopen
      · rcases List.mem_cons.1 hx with rfl | hx
        · simp at hopen
        · exact hr.closed x (List.mem_append_right _ (List.mem_cons_of_mem _ hx)) hopen

end Round

/-- The bisection ends with no splittable range left, or at a cap. -/
theorem bisectLoop_rounds {h splitMax margin : Nat} {t : List Sym} (n : Nat) {rs : List SymRange}
    (hr : Rounds h splitMax margin t rs) (hn : openWork rs ≤ n) :
    Rounds h splitMax margin t (bisectLoop hw h splitMax margin t n rs) ∧
      ((bisectLoop hw h splitMax margin t n rs).length < hw.planCap →
        (splitMax = 0 ∨ (bisectLoop hw h splitMax margin t n rs).length < splitMax) →
        pickRange (bisectLoop hw h splitMax margin t n rs) = none) := by
  induction n generalizing rs with
  | zero =>
    refine ⟨hr, fun _ _ => ?_⟩
    rw [bisectLoop]
    cases hpick : pickRange rs with
    | none => rfl
    | some q =>
      obtain ⟨before, after, rfl, hq⟩ := picked_of_pickRange hpick
      rw [openWork_append, openWork_cons_open hq.splittable.1] at hn
      have := hq.splittable.2
      omega
  | succ n ih =>
    rw [bisectLoop]
    split
    · next hstop => exact ⟨hr, fun _ h0 => by omega⟩
    · next hsplit =>
      split
      · next hstop => exact ⟨hr, fun h0 => by omega⟩
      · next hcap =>
        split
        · next hnone => exact ⟨hr, fun _ _ => hnone⟩
        · next q hq =>
          obtain ⟨before, after, rfl, hpick⟩ := picked_of_pickRange hq
          have hopen := hpick.splittable.1
          have hsize : 2 ≤ q.j - q.i := hpick.splittable.2
          have hpos : 2 ≤ q.size := hsize
          rw [openWork_append, openWork_cons_open hopen] at hn
          simp only [replaceRange_of_picked hpick]
          split
          · next hsave =>
            have hcut := bestSplit_bestCut (by omega) hsave
            refine ih (hr.cut hpick hcut (by omega) fun h0 => by omega) ?_
            obtain ⟨hik, hkj, -, -⟩ := hcut
            rw [openWork_append, List.cons_append, openWork_cons_open rfl, List.cons_append, openWork_cons_open rfl,
              List.nil_append]
            simp only [SymRange.size] at hn ⊢
            omega
          · next hsave =>
            refine ih (hr.close (noCut_of_bestSplit (by omega) hsave)) ?_
            rw [openWork_append, List.cons_append, openWork_cons_closed rfl, List.nil_append]
            omega

theorem bisect_rounds (h splitMax margin : Nat) (t : List Sym) :
    Rounds h splitMax margin t (bisect hw h splitMax margin t) ∧
      ((bisect hw h splitMax margin t).length < hw.planCap →
        (splitMax = 0 ∨ (bisect hw h splitMax margin t).length < splitMax) →
        pickRange (bisect hw h splitMax margin t) = none) := by
  refine bisectLoop_rounds _ ⟨by simp, ⟨rfl, Nat.zero_le _, rfl⟩, .whole, by simp, by simp, fun h0 => ?_⟩ ?_
  · simp only [List.length_cons, List.length_nil]
    omega
  · rw [openWork_cons_open rfl]
    simp only [SymRange.size, openWork, List.map_nil, List.sum_nil]
    omega

/-! ## The blocks -/

/-- The byte position of symbol i of a store that ends at byte b. -/
def posAt (es : List Entry) (b i : Nat) : Nat := (es[i]?.map Entry.pos).getD b

theorem posAt_zero {es : List Entry} {a b : Nat} (h : Tiles es a b) : posAt es b 0 = a := by
  cases es with
  | nil => exact h.symm
  | cons e es => exact h.1

theorem posAt_length (es : List Entry) (b : Nat) : posAt es b es.length = b := by
  simp [posAt]

theorem planBlock_eq {es : List Entry} {a b : Nat} (h : Tiles es a b) (r : SymRange) :
    planBlock es a b r = { a := posAt es b r.i, b := posAt es b r.j, gs := r.i, ge := r.j } := by
  unfold planBlock
  congr 1
  · split
    · next h0 => rw [h0, posAt_zero h]
    · rfl
  · split
    · next h0 => rw [h0, posAt_length]
    · rfl

theorem planChain_of_rangeChain {es : List Entry} {a b : Nat} (h : Tiles es a b) {rs : List SymRange} {i j : Nat}
    (hrs : RangeChain rs i j) : PlanChain (rs.map (planBlock es a b)) i (posAt es b i) j (posAt es b j) := by
  induction rs generalizing i with
  | nil =>
    obtain rfl : i = j := hrs
    exact ⟨rfl, rfl⟩
  | cons r rs ih =>
    obtain ⟨rfl, -, hrs⟩ := hrs
    rw [List.map_cons, planBlock_eq h]
    exact ⟨rfl, rfl, ih hrs⟩

/-- The plan `Split` makes of a store that tiles [a, b). -/
theorem isPlan_bisect {es : List Entry} {a b : Nat} (h : Tiles es a b) (hint splitMax margin : Nat) :
    IsPlan hint splitMax margin es a b
      ((bisect hw hint splitMax margin (es.map Entry.sym)).map (planBlock es a b)) := by
  obtain ⟨hr, hend⟩ := bisect_rounds hint splitMax margin (es.map Entry.sym)
  have hlen : (es.map Entry.sym).length = es.length := List.length_map _
  refine
    { nonempty := by simpa using hr.nonempty
      chain := ?_
      ranges := ?_
      planCap := by simpa using hr.planCap
      splitCap := by simpa using hr.splitCap
      complete := fun hcap hsplit p hp => ?_ }
  · have hchain := planChain_of_rangeChain h hr.chain
    rwa [posAt_zero h, hlen, posAt_length] at hchain
  · have hmap : (fun p : PlanBlock => (p.gs, p.ge)) ∘ planBlock es a b = fun r => (r.i, r.j) := by
      funext r
      rfl
    rw [List.map_map, hmap]
    exact hr.bisected
  · rw [List.length_map] at hcap hsplit
    obtain ⟨r, hmem, rfl⟩ := List.mem_map.1 hp
    exact hr.noCut_of_not_splittable hmem (not_splittable_of_pickRange (hend hcap hsplit) r hmem)

/-! ## The symbols of a block -/

theorem tiles_drop {es : List Entry} {a b : Nat} (h : Tiles es a b) (i : Nat) :
    Tiles (es.drop i) (posAt es b i) b := by
  induction es generalizing a i with
  | nil => simp [Tiles, posAt]
  | cons e es ih =>
    cases i with
    | zero =>
      obtain ⟨rfl, hes⟩ := h
      exact ⟨rfl, hes⟩
    | succ i => exact ih h.2 i

theorem tiles_take {es : List Entry} {a b : Nat} (h : Tiles es a b) (i : Nat) :
    Tiles (es.take i) a (posAt es b i) := by
  induction es generalizing a i with
  | nil => simpa [Tiles, posAt] using h
  | cons e es ih =>
    cases i with
    | zero => exact h.1.symm
    | succ i => exact ⟨h.1, ih h.2 i⟩

theorem posAt_drop (es : List Entry) (b i j : Nat) : posAt (es.drop i) b j = posAt es b (i + j) := by
  rw [posAt, List.getElem?_drop, posAt]

theorem slice_isParse {w : List Byte} {es : List Entry} {a b : Nat} (h : IsParse w es a b) {i j : Nat} (hij : i ≤ j) :
    IsParse w (slice es i j) (posAt es b i) (posAt es b j) := by
  refine ⟨?_, fun e he => h.2 e (List.mem_of_mem_drop (List.mem_of_mem_take he))⟩
  have := tiles_take (tiles_drop h.1 i) (j - i)
  rwa [posAt_drop, Nat.add_sub_cancel' hij] at this

theorem Tiles.le {es : List Entry} {a b : Nat} (h : Tiles es a b) : a ≤ b := by
  induction es generalizing a with
  | nil => exact Nat.le_of_eq h
  | cons e es ih => exact (Nat.le_add_right _ _).trans (ih h.2)

end Sys2Proof.Machine
end

section
/-! PROOFS. The sizes of the blocks: the bits the encoders put are those R932 to R935 count, and what bounds them
(45_block_writer.md). -/

namespace Sys2Proof.Machine

open Config (hw)

/-! ## The bits of a block -/

theorem length_flatMap_eq_sum {α β : Type} (f : α → List β) (g : α → Nat) (xs : List α)
    (h : ∀ x ∈ xs, (f x).length = g x) : (xs.flatMap f).length = (xs.map g).sum := by
  rw [List.length_flatMap, List.map_congr_left h]

theorem symCode_length (ll llc dd dc : List Nat) (y : Sym) : (symCode ll llc dd dc y).length = symBits ll dd y := by
  cases y with
  | lit b => exact huffBits_length _ _
  | ref len dist =>
    simp only [symCode, symBits, List.length_append, huffBits_length, bitsOf_length]

theorem dataCode_length (t : List Sym) (ll llc dd dc : List Nat) :
    (dataCode t ll llc dd dc).length = dataBits t ll dd := by
  rw [dataCode, List.length_append, length_flatMap_eq_sum _ _ _ fun y _ => symCode_length ll llc dd dc y,
    huffBits_length, dataBits]

theorem fixedStream_length (final : Bool) (t : List Sym) : (fixedStream final t).length = fixedBits t := by
  rw [fixedStream, List.length_append, fixedBody, dataCode_length]
  rfl

theorem usedLength_le (l : List Nat) : usedLength l ≤ l.length := by
  have := (List.dropWhile_suffix (fun x => x == 0) (l := l.reverse)).length_le
  rwa [List.length_reverse] at this

theorem dynTables_ncl_eq (t : List Sym) :
    (dynTables hw t).ncl = max 4 (usedLength (clOrder.map fun c => (dynTables hw t).cl.getD c 0)) := by
  simp only [dynTables]

theorem dynTables_ncl_le (t : List Sym) : (dynTables hw t).ncl ≤ clOrder.length := by
  rw [dynTables_ncl_eq]
  generalize (dynTables hw t).cl = cl
  have hused := usedLength_le (clOrder.map fun c => cl.getD c 0)
  rw [List.length_map] at hused
  exact max_le (by decide) hused

theorem dynamicStream_length (final : Bool) (t : List Sym) : (dynamicStream final t).length = dynBits hw t := by
  have hncl : (clOrder.take (dynTables hw t).ncl).length = (dynTables hw t).ncl :=
    List.length_take_of_le (dynTables_ncl_le t)
  have hlens : ((clOrder.take (dynTables hw t).ncl).flatMap fun c => bitsOf ((dynTables hw t).cl.getD c 0) 3).length =
      3 * (dynTables hw t).ncl := by
    rw [length_flatMap_eq_sum _ (fun _ => 3) _ fun _ _ => bitsOf_length _ _, List.map_const', List.sum_replicate, hncl,
      smul_eq_mul, Nat.mul_comm]
  have hitems : ((dynTables hw t).items.flatMap fun x =>
      huffBits ((canonical hw (dynTables hw t).cl).getD x.1 0) ((dynTables hw t).cl.getD x.1 0) ++
        bitsOf x.2 (clExtra x.1)).length =
      ((dynTables hw t).items.map fun x => (dynTables hw t).cl.getD x.1 0 + clExtra x.1).sum :=
    length_flatMap_eq_sum _ _ _ fun x _ => by simp
  simp only [dynamicStream, dynBody, List.length_append, bitsOf_length, hlens, hitems, dataCode_length]
  simp only [dynBits, List.length_cons, List.length_nil]
  omega

/-! ## The bits of a fixed block of a parse -/

theorem getD_le_of_forall {l : List Nat} {n : Nat} (h : ∀ x ∈ l, x ≤ n) (i : Nat) : l.getD i 0 ≤ n := by
  rw [List.getD_eq_getElem?_getD]
  cases hi : l[i]? with
  | none => exact Nat.zero_le _
  | some x => exact h x (List.mem_of_getElem? hi)

theorem fixedLitLens_le (i : Nat) : fixedLitLens.getD i 0 ≤ 9 := by
  refine getD_le_of_forall (fun x hx => ?_) i
  simp only [fixedLitLens, List.mem_append, List.mem_replicate] at hx
  omega

theorem fixedDistLens_le (i : Nat) : fixedDistLens.getD i 0 ≤ 5 :=
  getD_le_of_forall (fun _ hx => (List.eq_of_mem_replicate hx).le) i

theorem lengthRow_extra_le (len : Nat) : (lengthRow len).extra ≤ 5 := by
  have hall : ∀ r ∈ lengthRows, r.extra ≤ 5 := by decide
  exact hall _ (lengthRow_mem len)

theorem distanceRow_extra_le (dist : Nat) : (distanceRow dist).extra ≤ 13 := by
  have hall : ∀ r ∈ distanceRows, r.extra ≤ 13 := by decide
  exact hall _ (distanceRow_mem dist)

/-- A symbol of a parse takes at most 11 bits for each byte it covers under the fixed code. -/
theorem symBits_fixed_le {y : Sym} (h : y.Valid) : symBits fixedLitLens fixedDistLens y ≤ 11 * y.span := by
  cases y with
  | lit b =>
    have := fixedLitLens_le b.toNat
    simp only [symBits, Sym.span]
    omega
  | ref len dist =>
    have hlit := fixedLitLens_le (lengthRow len).code
    have hdist := fixedDistLens_le (distanceRow dist).code
    have hlen := lengthRow_extra_le len
    have hext := distanceRow_extra_le dist
    have hmin : 3 ≤ len := h.1
    simp only [symBits, Sym.span]
    omega

theorem sum_symBits_fixed_le {w : List Byte} {es : List Entry} {a b : Nat} (h : IsParse w es a b) :
    ((es.map Entry.sym).map (symBits fixedLitLens fixedDistLens)).sum ≤ 11 * (b - a) := by
  obtain ⟨htiles, hvalid⟩ := h
  induction es generalizing a with
  | nil => exact Nat.zero_le _
  | cons e es ih =>
    obtain ⟨-, hes⟩ := htiles
    have hsym := symBits_fixed_le (hvalid e List.mem_cons_self).1
    have hrest := ih hes fun x hx => hvalid x (List.mem_cons_of_mem _ hx)
    have hle := hes.le
    simp only [List.map_cons, List.sum_cons]
    omega

theorem fixedBits_le_of_isParse {w : List Byte} {es : List Entry} {a b : Nat} (h : IsParse w es a b) :
    fixedBits (es.map Entry.sym) ≤ 11 * (b - a) + 10 := by
  have hsum := sum_symBits_fixed_le h
  have hend : fixedLitLens.getD endOfBlock 0 = 7 := by decide
  rw [fixedBits, dataBits, hend]
  omega

/-! ## The block type -/

theorem storedChunks_of_le {n : Nat} (h : n ≤ hw.storedMax) : storedChunks hw n = [n] := by
  unfold storedChunks
  cases n / hw.storedMax with
  | zero => rfl
  | succ k => rw [chunkLens, if_pos h]

theorem storedBits_of_le {n : Nat} (h : n ≤ hw.storedMax) (pos : Nat) :
    storedBits hw pos n = 3 + storedPad pos + 32 + 8 * n := by
  rw [storedBits, storedChunks_of_le h]
  rfl

/-- The three ways AutoBlock chooses (45_block_writer.md R980). -/
theorem autoChoice_cases (pos n : Nat) (t : List Sym) :
    (autoChoice hw pos n t = 0 ∧ n ≤ hw.storedMax ∧ storedBits hw pos n < dynBits hw t ∧
      storedBits hw pos n < fixedBits t) ∨
    (autoChoice hw pos n t = 1 ∧ fixedBits t < dynBits hw t ∧
      (n ≤ hw.storedMax → fixedBits t ≤ storedBits hw pos n)) ∨
    (autoChoice hw pos n t = 2 ∧ dynBits hw t ≤ fixedBits t ∧
      (n ≤ hw.storedMax → dynBits hw t ≤ storedBits hw pos n)) := by
  unfold autoChoice
  simp only []
  split
  · next h => exact .inl ⟨rfl, h⟩
  · next h =>
    right
    split
    · next hlt => exact .inl ⟨rfl, hlt, fun hn => by by_contra hno; exact h ⟨hn, by omega, by omega⟩⟩
    · next hge => exact .inr ⟨rfl, by omega, fun hn => by by_contra hno; exact h ⟨hn, by omega, by omega⟩⟩

end Sys2Proof.Machine
end

section
/-! PROOFS. What the stores and PLAN hold after COMPRESS writes them, and the parse the squeeze keeps for a block
whatever records the cache holds. -/

namespace Sys2Proof.Machine

open Config (hw)

/-! ## Words and entries of a memory -/

section Holds

variable {s t : State}

theorem readWord_congr {x : Nat} (h : ∀ y, x ≤ y → y < x + 4 → t.readByte y = s.readByte y) :
    t.readWord x = s.readWord x := by
  unfold State.readWord
  rw [h (x + 3) (by omega) (by omega), h (x + 2) (by omega) (by omega), h (x + 1) (by omega) (by omega),
    h x (by omega) (by omega)]

theorem holdsWords_storeWords (s : State) (a : Nat) (ws : List Word) : HoldsWords (s.storeWords a ws) a ws := by
  intro k hk
  rw [State.readWord_storeWords s a ws hk, List.getD_eq_getElem _ _ hk]

theorem HoldsWords.congr {a : Nat} {ws : List Word} (hs : HoldsWords s a ws)
    (h : ∀ y, a ≤ y → y < a + 4 * ws.length → t.readByte y = s.readByte y) : HoldsWords t a ws := by
  intro k hk
  rw [← hs k hk]
  exact readWord_congr fun y hy hy' => h y (by omega) (by omega)

theorem HoldsWords.append {a : Nat} {ws ws' : List Word} (h : HoldsWords s a ws)
    (h' : HoldsWords s (a + 4 * ws.length) ws') : HoldsWords s a (ws ++ ws') := by
  intro k hk
  rw [List.length_append] at hk
  by_cases hlt : k < ws.length
  · rw [h k hlt, List.getD_append _ _ _ _ hlt]
  · have hw' := h' (k - ws.length) (by omega)
    rw [List.getD_append_right _ _ _ _ (by omega), ← hw']
    congr 1
    omega

/-- The words of a list, from those of a part of it. -/
theorem HoldsWords.part {a : Nat} {ws ws' ws'' : List Word} (h : HoldsWords s a (ws ++ (ws' ++ ws''))) :
    HoldsWords s (a + 4 * ws.length) ws' := by
  intro k hk
  have hpart := h (ws.length + k) (by simp only [List.length_append]; omega)
  rw [List.getD_append_right _ _ _ _ (by omega), Nat.add_sub_cancel_left, List.getD_append _ _ _ _ hk] at hpart
  rw [← hpart]
  congr 1
  omega

/-- An entry that a store can hold: its symbol is valid and its position a word. -/
def Entry.Storable (e : Entry) : Prop := e.sym.Valid ∧ e.pos < 2 ^ 32

theorem getElem?_flatMap_toWords (es : List Entry) (n k : Nat) (hk : k < 2) :
    (es.flatMap Entry.toWords)[2 * n + k]? = (es[n]?).bind fun e => e.toWords[k]? := by
  induction es generalizing n with
  | nil => simp
  | cons e es ih =>
    rw [List.flatMap_cons]
    have hlen : e.toWords.length = 2 := rfl
    cases n with
    | zero =>
      rw [List.getElem?_append_left (by omega), Nat.mul_zero, Nat.zero_add]
      rfl
    | succ n =>
      rw [List.getElem?_append_right (by omega), hlen, show 2 * (n + 1) + k - 2 = 2 * n + k by omega, ih]
      rfl

@[simp] theorem length_flatMap_toWords (es : List Entry) : (es.flatMap Entry.toWords).length = 2 * es.length := by
  rw [length_flatMap_eq_sum _ (fun _ => 2) _ fun _ _ => rfl, List.map_const', List.sum_replicate, smul_eq_mul,
    Nat.mul_comm]

theorem storeRegion_entry (x : StoreSel) (k : Nat) : (storeRegion x).entry k = (storeRegion x).base + 8 * k := by
  cases x <;> rfl

theorem sameMemBut_storeEntries (s : State) (x : StoreSel) (k : Nat) (es : List Entry) :
    SameMemBut ((storeRegion x).base + 8 * k) (8 * es.length) s (s.storeEntries x k es) := by
  have h := s.sameMemBut_storeWords ((storeRegion x).entry k) (es.flatMap Entry.toWords)
  rw [length_flatMap_toWords, ← Nat.mul_assoc] at h
  rw [← storeRegion_entry]
  exact h

theorem holdsEntries_storeEntries (s : State) (x : StoreSel) (k : Nat) {es : List Entry}
    (hes : ∀ e ∈ es, e.Storable) : HoldsEntries (s.storeEntries x k es) x k es := by
  intro n hn
  obtain ⟨hvalid, hpos⟩ := hes es[n] (List.getElem_mem hn)
  have hword : ∀ i, i < 2 → (s.storeEntries x k es).readWord ((storeRegion x).entry (k + n) + 4 * i) =
      es[n].toWords.getD i 0 := by
    intro i hi
    have hlen : 2 * n + i < (es.flatMap Entry.toWords).length := by rw [length_flatMap_toWords]; omega
    have hread := s.readWord_storeWords ((storeRegion x).entry k) (es.flatMap Entry.toWords) hlen
    have hget := getElem?_flatMap_toWords es n i hi
    have haddr : (storeRegion x).entry (k + n) + 4 * i = (storeRegion x).entry k + 4 * (2 * n + i) := by
      rw [storeRegion_entry, storeRegion_entry]
      omega
    rw [List.getElem?_eq_getElem hlen, List.getElem?_eq_getElem hn, Option.bind_some] at hget
    rw [List.getD_eq_getElem?_getD, ← hget, haddr]
    exact hread
  have hsym := hword 0 (by decide)
  have hposWord := hword 1 (by decide)
  rw [Nat.mul_zero, Nat.add_zero] at hsym
  have hnat : (word es[n].pos).toNat = es[n].pos := by rw [BitVec.toNat_ofNat, Nat.mod_eq_of_lt hpos]
  rw [State.entryAt, hsym, show 4 = 4 * 1 from rfl, hposWord, List.getElem?_eq_getElem hn]
  show (symOfWord hw es[n].sym.toWord).map _ = _
  rw [symOfWord_toWord hvalid]
  show some (⟨es[n].sym, (word es[n].pos).toNat⟩ : Entry) = _
  rw [hnat]

theorem HoldsEntries.congr {x : StoreSel} {k : Nat} {es : List Entry} (hs : HoldsEntries s x k es)
    (h : ∀ y, (storeRegion x).base + 8 * k ≤ y → y < (storeRegion x).base + 8 * (k + es.length) →
      t.readByte y = s.readByte y) : HoldsEntries t x k es := by
  intro n hn
  have hread : ∀ i, i < 2 → t.readWord ((storeRegion x).entry (k + n) + 4 * i) =
      s.readWord ((storeRegion x).entry (k + n) + 4 * i) := fun i hi => by
    rw [storeRegion_entry]
    exact readWord_congr fun y hy hy' => h y (by omega) (by omega)
  have h0 := hread 0 (by decide)
  have h1 := hread 1 (by decide)
  rw [← hs n hn, State.entryAt, State.entryAt]
  simp only [Nat.mul_zero, Nat.add_zero, Nat.mul_one] at h0 h1
  rw [h0, h1]

theorem HoldsEntries.append {x : StoreSel} {k : Nat} {es es' : List Entry} (h : HoldsEntries s x k es)
    (h' : HoldsEntries s x (k + es.length) es') : HoldsEntries s x k (es ++ es') := by
  intro n hn
  rw [List.length_append] at hn
  by_cases hlt : n < es.length
  · rw [h n hlt, List.getElem?_append_left hlt]
  · have hrest := h' (n - es.length) (by omega)
    rw [List.getElem?_append_right (by omega), ← hrest]
    congr 1
    omega

/-- The entries of a parse can be stored. -/
theorem IsParse.storable {w : List Byte} {es : List Entry} {a b : Nat} (h : IsParse w es a b) (hb : b < 2 ^ 32) :
    ∀ e ∈ es, e.Storable := by
  obtain ⟨htiles, hvalid⟩ := h
  refine fun e he => ⟨(hvalid e he).1, ?_⟩
  clear hvalid
  induction es generalizing a with
  | nil => cases he
  | cons x xs ih =>
    obtain ⟨rfl, hxs⟩ := htiles
    rcases List.mem_cons.1 he with rfl | he
    · have := hxs.le
      omega
    · exact ih hxs he

/-- A parse has at most one symbol for each byte. -/
theorem IsParse.length_le {w : List Byte} {es : List Entry} {a b : Nat} (h : IsParse w es a b) :
    es.length ≤ b - a := by
  obtain ⟨htiles, hvalid⟩ := h
  induction es generalizing a with
  | nil => exact Nat.zero_le _
  | cons e es ih =>
    obtain ⟨-, hes⟩ := htiles
    have hrest := ih hes fun x hx => hvalid x (List.mem_cons_of_mem _ hx)
    have hle := hes.le
    have hspan : 1 ≤ e.sym.span := by
      have hsym := (hvalid e List.mem_cons_self).1
      cases hy : e.sym with
      | lit b => exact le_rfl
      | ref len dist =>
        rw [hy] at hsym
        have hmin : 3 ≤ len := hsym.1
        exact (by decide : 1 ≤ 3).trans hmin
    rw [List.length_cons]
    omega

end Holds

/-! ## The squeeze, whatever the cache holds -/

/-- A working state of the squeeze, but for the cache. -/
def SqueezeState.dropCache (q : SqueezeState) : SqueezeState := { q with cache := [] }

section Kept

variable {x : SearchCtx}

theorem dropCache_squeezeStep (hN : x.window.length ≤ hw.inCap) (h absent : Nat) {a b : Nat} (hab : a ≤ b)
    (hb : b ≤ x.window.length) {q q' : SqueezeState} (hq : q.cache.CoherentWith x) (hq' : q'.cache.CoherentWith x)
    (heq : q.dropCache = q'.dropCache) :
    (squeezeStep hw x h absent a b q).dropCache = (squeezeStep hw x h absent a b q').dropCache := by
  obtain ⟨best, bits, costs, stale, iters, c⟩ := q
  obtain ⟨best', bits', costs', stale', iters', c'⟩ := q'
  simp only [SqueezeState.dropCache, SqueezeState.mk.injEq, and_true] at heq
  obtain ⟨rfl, rfl, rfl, rfl, rfl⟩ := heq
  have hpath : (shortestPath hw x costs a b c).path = (shortestPath hw x costs a b c').path :=
    (shortestPath_path_eq hN costs hab hb hq).trans (shortestPath_path_eq hN costs hab hb hq').symm
  simp only [squeezeStep, SqueezeState.dropCache, hpath]

theorem squeezeStep_coherent (hN : x.window.length ≤ hw.inCap) (h absent a : Nat) {b : Nat}
    (hb : b ≤ x.window.length) {q : SqueezeState} (hq : q.cache.CoherentWith x) :
    Cache.CoherentWith x (squeezeStep hw x h absent a b q).cache :=
  shortestPath_coherent hN q.costs a hb hq

theorem dropCache_squeezeLoop (hN : x.window.length ≤ hw.inCap) (h absent stagnation : Nat) {a b : Nat} (hab : a ≤ b)
    (hb : b ≤ x.window.length) (n : Nat) {q q' : SqueezeState} (hq : q.cache.CoherentWith x)
    (hq' : q'.cache.CoherentWith x) (heq : q.dropCache = q'.dropCache) :
    (squeezeLoop hw x h absent stagnation a b n q).dropCache =
      (squeezeLoop hw x h absent stagnation a b n q').dropCache := by
  induction n generalizing q q' with
  | zero => exact heq
  | succ n ih =>
    have hstep := dropCache_squeezeStep hN h absent hab hb hq hq' heq
    have hstale := congrArg SqueezeState.stale hstep
    simp only [SqueezeState.dropCache] at hstale
    rw [squeezeLoop, squeezeLoop]
    simp only [hstale]
    split
    · exact hstep
    · exact ih (squeezeStep_coherent hN h absent a hb hq) (squeezeStep_coherent hN h absent a hb hq') hstep

end Kept

/-- What the squeeze of a block of the plan keeps, from the empty cache. -/
def State.kept (s : State) (gs : List Entry) (p : PlanBlock) : SqueezeState :=
  ({ s with cache := [] } : State).squeezeBlock hw p.a p.b (slice gs p.gs p.ge)

/-- A state inside a run of COMPRESS from s: same options, same window, and a cache of records of it. -/
structure InRun (s u : State) : Prop where
  opt : u.opt = s.opt
  ctx : u.searchCtx = s.searchCtx
  cache : u.cache.CoherentWith s.searchCtx

/-- A block of a plan whose symbols are a parse of its bytes. -/
structure GoodBlock (s : State) (gs : List Entry) (p : PlanBlock) : Prop where
  le : p.a ≤ p.b
  end_le : p.b ≤ s.inputLen
  parse : IsParse s.window (slice gs p.gs p.ge) p.a p.b

section KeptBlock

variable {s u : State} {gs : List Entry} {p : PlanBlock}

theorem InRun.inputLen (h : InRun s u) : u.inputLen = s.inputLen := by
  rw [State.inputLen, h.opt, State.inputLen]

theorem InRun.window (h : InRun s u) : u.window = s.window := congrArg SearchCtx.window h.ctx

theorem InRun.squeezeBlock_eq (h : InRun s u) (hN : s.inputLen ≤ hw.inCap) (hp : GoodBlock s gs p) :
    (u.squeezeBlock hw p.a p.b (slice gs p.gs p.ge)).dropCache = (s.kept gs p).dropCache := by
  have hlen : s.searchCtx.window.length = s.inputLen := searchCtx_window_length s
  have hloop := dropCache_squeezeLoop (hlen.le.trans hN) s.opt.btype s.absent s.opt.stagnation.toNat hp.le
    (hp.end_le.trans_eq hlen.symm) s.opt.numIter.toNat
    (q := squeezeBoot hw s.opt.btype s.absent (slice gs p.gs p.ge) u.cache)
    (q' := squeezeBoot hw s.opt.btype s.absent (slice gs p.gs p.ge) []) h.cache (coherentWith_nil _) rfl
  have habsent : u.absent = s.absent := by rw [State.absent, h.opt, State.absent]
  rw [State.squeezeBlock, h.ctx, h.opt, habsent]
  exact hloop

theorem kept_spec (hN : s.inputLen ≤ hw.inCap) (hp : GoodBlock s gs p) :
    IsSqueezed s p.a p.b (slice gs p.gs p.ge) (s.kept gs p).best (s.kept gs p).iters ∧
      IsParse s.window (s.kept gs p).best p.a p.b ∧
      (s.kept gs p).bestBits = est hw s.opt.btype ((s.kept gs p).best.map Entry.sym) := by
  obtain ⟨hsq, hparse, hbits, -⟩ := squeezeBlock_spec (s := { s with cache := [] }) hN
    (cacheCoherent_iff.2 (coherentWith_nil _)) hp.le hp.end_le hp.parse
  exact ⟨hsq, hparse, hbits⟩

end KeptBlock

end Sys2Proof.Machine
end

section
/-! PROOFS. The blocks of COMPRESS: what one block of the plan writes, and what the blocks write one after another
(40_control.md R433). -/

namespace Sys2Proof.Machine

open Config (hw)

/-! ## The bits of a block -/

section Stream

theorem window_slice (s : State) {a b : Nat} (hab : a ≤ b) (hb : b ≤ s.inputLen) :
    s.readBytes (Region.input.entry a) (b - a) = slice s.window a b := by
  have hentry : Region.input.entry a = Region.input.base + a := by simp [Region.entry, Region.stride]
  have hsplit : s.window = s.readBytes Region.input.base a ++ (s.readBytes (Region.input.base + a) (b - a) ++
      s.readBytes (Region.input.base + b) (s.inputLen - b)) := by
    rw [State.window, ← State.inputLen, show s.inputLen = a + ((b - a) + (s.inputLen - b)) by omega,
      State.readBytes_append, State.readBytes_append, show Region.input.base + a + (b - a) = Region.input.base + b by omega,
      show a + ((b - a) + (s.inputLen - b)) - b = s.inputLen - b by omega]
  rw [hentry, slice, hsplit, List.drop_left' (by simp), List.take_left' (by simp)]

theorem slice_window_length (s : State) {a b : Nat} (hab : a ≤ b) (hb : b ≤ s.inputLen) :
    (slice s.window a b).length = b - a := by
  rw [← window_slice s hab hb, State.readBytes_length]

/-- The block type as AutoBlock and the hint choose it. -/
theorem blockType_of_fixed (pos : Nat) (x : DoneBlock) : blockType 1 pos x = 1 := rfl

theorem blockType_of_not_fixed {h : Nat} (hh : h ≠ 1) (pos : Nat) (x : DoneBlock) :
    blockType h pos x = autoChoice hw pos (x.1.b - x.1.a) x.2 := if_neg hh

/-- The bits of a block, by its type. -/
theorem blockStream_of_stored {h pos : Nat} {x : DoneBlock} (hx : blockType h pos x = 0) (w : List Byte)
    (final : Bool) :
    blockStream h w final pos x = storedStream final pos [x.1.b - x.1.a] (slice w x.1.a x.1.b) := by
  simp only [blockStream, hx]

theorem blockStream_of_fixed {h pos : Nat} {x : DoneBlock} (hx : blockType h pos x = 1) (w : List Byte)
    (final : Bool) : blockStream h w final pos x = fixedStream final x.2 := by
  simp only [blockStream, hx]

theorem blockStream_of_dynamic {h pos : Nat} {x : DoneBlock} (hx : blockType h pos x = 2) (w : List Byte)
    (final : Bool) : blockStream h w final pos x = dynamicStream final x.2 := by
  simp only [blockStream, hx]

/-- The bits of a block from a stream position on, counted (45_block_writer.md R980). -/
def blockBits (h pos : Nat) (x : DoneBlock) : Nat :=
  match blockType h pos x with
  | 0 => storedBits hw pos (x.1.b - x.1.a)
  | 1 => fixedBits x.2
  | _ => dynBits hw x.2

/-- The block lies in the window: its bytes are as many as its range says. -/
def DoneBlock.InWindow (w : List Byte) (x : DoneBlock) : Prop := (slice w x.1.a x.1.b).length = x.1.b - x.1.a

theorem blockType_cases (h pos : Nat) (x : DoneBlock) :
    (blockType h pos x = 0 ∧ x.1.b - x.1.a ≤ hw.storedMax ∧
      storedBits hw pos (x.1.b - x.1.a) < fixedBits x.2) ∨ blockType h pos x = 1 ∨
    (blockType h pos x = 2 ∧ dynBits hw x.2 ≤ fixedBits x.2) := by
  by_cases hh : h = 1
  · exact .inr (.inl (hh ▸ blockType_of_fixed pos x))
  · rw [blockType_of_not_fixed hh]
    rcases autoChoice_cases pos (x.1.b - x.1.a) x.2 with ⟨heq, hn, -, hlt⟩ | ⟨heq, -⟩ | ⟨heq, hle, -⟩
    · exact .inl ⟨heq, hn, hlt⟩
    · exact .inr (.inl heq)
    · exact .inr (.inr ⟨heq, hle⟩)

theorem blockStream_length {w : List Byte} {x : DoneBlock} (hx : x.InWindow w) (h : Nat) (final : Bool) (pos : Nat) :
    (blockStream h w final pos x).length = blockBits h pos x := by
  rcases blockType_cases h pos x with ⟨heq, hn, -⟩ | heq | ⟨heq, -⟩
  · rw [blockStream_of_stored heq, storedStream_length _ _ _ (by rw [hx]; rfl), ← storedChunks_of_le hn]
    simp only [blockBits, heq]
    rfl
  · rw [blockStream_of_fixed heq, fixedStream_length]
    simp only [blockBits, heq]
  · rw [blockStream_of_dynamic heq, dynamicStream_length]
    simp only [blockBits, heq]

theorem blockBits_le_fixedBits (h pos : Nat) (x : DoneBlock) : blockBits h pos x ≤ fixedBits x.2 := by
  unfold blockBits
  rcases blockType_cases h pos x with ⟨heq, -, hlt⟩ | heq | ⟨heq, hle⟩ <;> simp only [heq]
  · exact hlt.le
  · exact le_rfl
  · exact hle

theorem three_le_blockBits (h pos : Nat) (x : DoneBlock) : 3 ≤ blockBits h pos x := by
  unfold blockBits
  rcases blockType_cases h pos x with ⟨heq, hn, -⟩ | heq | ⟨heq, -⟩ <;> simp only [heq]
  · rw [storedBits_of_le hn]
    omega
  · exact Nat.le_add_right _ _
  · rw [← dynamicStream_length true, dynamicStream, List.length_append]
    exact Nat.le_add_right _ _

theorem planHeaders_length (h : Nat) (w : List Byte) (pos : Nat) (xs : List DoneBlock) :
    (planHeaders h w pos xs).length = xs.length := by
  induction xs generalizing pos with
  | nil => rfl
  | cons x xs ih => rw [planHeaders, List.length_cons, ih, List.length_cons]

theorem planHeaders_in {h : Nat} {w : List Byte} {xs : List DoneBlock} (hxs : ∀ x ∈ xs, x.InWindow w) (pos : Nat) :
    HeadersIn pos (planStream h w pos xs).length (planHeaders h w pos xs) := by
  induction xs generalizing pos with
  | nil => exact headersIn_nil _ _
  | cons x xs ih =>
    obtain ⟨hx, hxs⟩ := List.forall_mem_cons.1 hxs
    have hlen := blockStream_length hx h xs.isEmpty pos
    have h3 := three_le_blockBits h pos x
    rw [planStream, planHeaders, List.length_append]
    exact (headersIn_singleton pos (by omega) _).append (ih hxs _)

end Stream

/-! ## One block -/

section OneBlock

/-- The writer of a block puts its bits, with one header. -/
theorem blockWriter_emits {u : State} (hN : u.inputLen ≤ hw.inCap) (x : DoneBlock) (hab : x.1.a ≤ x.1.b)
    (hb : x.1.b ≤ u.inputLen) (final : Bool) :
    Emits u (if u.opt.btype = 1 then fixedBlock hw x.2 final u else autoBlock hw x.2 x.1.a x.1.b final u)
      (blockStream u.opt.btype u.window final u.streamPos x)
      [headerAt u.streamPos final (blockType u.opt.btype u.streamPos x)] := by
  split
  · next hh =>
    rw [blockStream_of_fixed (by rw [hh]; rfl), hh, blockType_of_fixed]
    exact fixedBlock_emits u final x.2
  · next hh =>
    have htype := blockType_of_not_fixed hh u.streamPos x
    rcases blockType_cases u.opt.btype u.streamPos x with ⟨heq, hn, -⟩ | heq | ⟨heq, -⟩
    · rw [blockStream_of_stored heq, heq]
      rw [htype] at heq
      have hrule : autoBlock hw x.2 x.1.a x.1.b final u = storedChunksFrom final [x.1.b - x.1.a] x.1.a u := by
        simp only [autoBlock, heq, storedBlocks, storedChunks_of_le hn]
      have hemits := storedChunksFrom_emits final [x.1.b - x.1.a] (p := x.1.a) u
        (bytes := slice u.window x.1.a x.1.b)
        (by rw [List.sum_singleton]; omega) (by rw [List.sum_singleton, window_slice u hab hb])
      have hheader : storedHeaders final u.streamPos [x.1.b - x.1.a] = [headerAt u.streamPos final 0] := by
        simp [storedHeaders, headerAt]
      rwa [hrule, ← hheader]
    · rw [blockStream_of_fixed heq, heq]
      rw [htype] at heq
      simp only [autoBlock, heq]
      exact fixedBlock_emits u final x.2
    · rw [blockStream_of_dynamic heq, heq]
      rw [htype] at heq
      simp only [autoBlock, heq]
      exact dynamicBlock_emits u final x.2

end OneBlock

/-! ## What the blocks write -/

/-- The parses kept for the blocks of a plan. -/
def State.parts (s : State) (gs : List Entry) (ps : List PlanBlock) : List (List Entry) :=
  ps.map fun p => (s.kept gs p).best

/-- A block of the plan with the parse kept for it. -/
def State.doneBlock (s : State) (gs : List Entry) (p : PlanBlock) : DoneBlock :=
  (p, (s.kept gs p).best.map Entry.sym)

/-- The blocks of a plan with their parses. -/
def State.doneBlocks (s : State) (gs : List Entry) (ps : List PlanBlock) : List DoneBlock := ps.map (s.doneBlock gs)

/-- The words of PLAN the squeeze and the writer of a block write (30_encoding.md R325). -/
def lateWords (h : Nat) (header : BitVec 3) (ss : Nat) (x : DoneBlock) : List Word :=
  [word ss, word (ss + x.2.length), word (header.toNat + 256), word (est hw h x.2)]

theorem doneWords_eq (h : Nat) (header : BitVec 3) (ss : Nat) (x : DoneBlock) : doneWords h header ss x =
    [word x.1.a, word x.1.b, word x.1.gs, word x.1.ge] ++ lateWords h header ss x := rfl

/-- An address outside what blocks j to n write: the bytes of OUT from o to o', the entries of S from l to l', the last
four words of their plan entries. -/
structure Outside (o o' l l' j n x : Nat) : Prop where
  out : x < Region.output.base + o ∨ Region.output.base + o' ≤ x
  store : x < Region.storeS.base + 8 * l ∨ Region.storeS.base + 8 * l' ≤ x
  plan : ∀ i, j ≤ i → i < n → x < planAddr i 4 ∨ planAddr (i + 1) 0 ≤ x

/-- CUR_BLOCK, ITER_COUNT and BEST_BITS after blocks of a plan from plan entry j on: those of the last. -/
def State.obsAfter (s : State) (gs : List Entry) (ps : List PlanBlock) (j : Nat) (o : Observed) : Observed :=
  (ps.getLast?.map fun p => ({ curBlock := word (j + ps.length - 1), iterCount := word (s.kept gs p).iters,
                               bestBits := word (s.kept gs p).bestBits } : Observed)).getD o

/-- What blocks of a plan leave, from plan entry j on, when their bits fit. -/
structure BlocksDone (s : State) (gs : List Entry) (ps : List PlanBlock) (j : Nat) (bits : List Bool)
    (headers : List (Nat × BitVec 3)) (u t : State) : Prop where
  streamed : Streamed u t bits headers
  inRun : InRun s t
  rest : t = { u with
    packer := t.packer, mem := t.mem, cache := t.cache, obs := t.obs, lens := { u.lens with sLen := t.lens.sLen } }
  sLen : t.storeLen .s = u.storeLen .s + (s.parts gs ps).flatten.length
  obs : t.obs = s.obsAfter gs ps j u.obs
  frame : ∀ x, Outside u.packer.outLen.toNat t.packer.outLen.toNat (u.storeLen .s)
    (u.storeLen .s + (s.parts gs ps).flatten.length) j (j + ps.length) x → t.readByte x = u.readByte x
  entries : HoldsEntries t .s (u.storeLen .s) (s.parts gs ps).flatten
  words : ∀ i x y, (s.doneBlocks gs ps)[i]? = some x → headers[i]? = some y →
    HoldsWords t (planAddr (j + i) 4)
      (lateWords s.opt.btype y.2 (u.storeLen .s + ((s.parts gs ps).take i).flatten.length) x)

/-- What blocks of a plan leave when their bits are cut. -/
structure BlocksCut (s : State) (gs : List Entry) (ps : List PlanBlock) (j : Nat) (bits : List Bool)
    (headers : List (Nat × BitVec 3)) (u t : State) : Prop where
  cut : StreamCut u t bits headers
  rest : t = { u with
    packer := t.packer, mem := t.mem, cache := t.cache, obs := t.obs, lens := t.lens, draws := t.draws }
  frame : ∀ x, Outside u.packer.outLen.toNat t.packer.outLen.toNat (u.storeLen .s)
    (u.storeLen .s + (s.parts gs ps).flatten.length) j (j + ps.length) x → t.readByte x = u.readByte x

/-- A rule that writes blocks of a plan from the state u. -/
structure EmitsBlocks (s : State) (gs : List Entry) (ps : List PlanBlock) (j : Nat) (u : State) (r : Run)
    (bits : List Bool) (headers : List (Nat × BitVec 3)) : Prop where
  fits : u.HasRoom bits.length → ∃ t, r = .ok t ∧ BlocksDone s gs ps j bits headers u t
  full : ¬ u.HasRoom bits.length → ∃ t, r = .stop { code := .writeError, info := t.packer.outLen } t ∧
    BlocksCut s gs ps j bits headers u t

/-- The bytes of OUT lie below the stores as long as the stream has at most 2^32 bits. -/
theorem State.outLen_le_of_streamPos {u : State} (h : u.streamPos ≤ 2 ^ 32) :
    Region.output.base + u.packer.outLen.toNat ≤ Region.storeG.base := by
  have hbase : Region.output.base = 2 ^ 29 := rfl
  have hbase' : Region.storeG.base = 2 ^ 30 := rfl
  unfold State.streamPos at h
  omega

section Compose

variable {s u t v : State} {gs : List Entry} {p : PlanBlock} {ps : List PlanBlock} {j : Nat} {bits bits' : List Bool}
  {headers headers' : List (Nat × BitVec 3)}

theorem planAddr_eq (i k : Nat) : planAddr i k = Region.plan.base + 32 * i + 4 * k := rfl

/-- The plan lies below IN, IN below OUT, OUT below the stores (20_memory.md R210). -/
theorem plan_lt_input {i : Nat} (h : i ≤ hw.planCap) : planAddr i 0 ≤ Region.input.base := by
  have hcap : Region.plan.base + 32 * hw.planCap ≤ Region.input.base := by decide
  rw [planAddr_eq]
  omega

theorem input_lt_output : Region.input.base + hw.inCap ≤ Region.output.base := by decide

theorem storeG_lt_storeS : Region.storeG.base + 8 * hw.storeCap ≤ Region.storeS.base := by decide

theorem output_lt_storeG : Region.output.base ≤ Region.storeG.base := by decide

theorem parts_flatten_cons (s : State) (gs : List Entry) (p : PlanBlock) (ps : List PlanBlock) :
    (s.parts gs (p :: ps)).flatten = (s.kept gs p).best ++ (s.parts gs ps).flatten := List.flatten_cons

theorem parts_flatten_singleton (s : State) (gs : List Entry) (p : PlanBlock) :
    (s.parts gs [p]).flatten = (s.kept gs p).best := by
  rw [parts_flatten_cons]
  exact List.append_nil _

theorem obsAfter_cons (s : State) (gs : List Entry) (p : PlanBlock) (ps : List PlanBlock) (j : Nat) (o : Observed) :
    s.obsAfter gs ps (j + 1) (s.obsAfter gs [p] j o) = s.obsAfter gs (p :: ps) j o := by
  cases ps with
  | nil => rfl
  | cons p' ps' =>
    have hj : j + 1 + (p' :: ps').length - 1 = j + (p :: p' :: ps').length - 1 := by
      simp only [List.length_cons]
      omega
    have hlast : (p :: p' :: ps').getLast? = (p' :: ps').getLast? := List.getLast?_cons_cons
    simp only [State.obsAfter, hj, hlast, List.getLast?_cons]
    rfl

/-- One block, then the blocks after it. -/
theorem BlocksDone.cons (h : BlocksDone s gs [p] j bits headers u t) (hone : headers.length = 1)
    (h' : BlocksDone s gs ps (j + 1) bits' headers' t v) (hj : j + 1 + ps.length ≤ hw.planCap) (hpos : v.streamPos ≤ 2 ^ 32) :
    BlocksDone s gs (p :: ps) j (bits ++ bits') (headers ++ headers') u v := by
  have hlen : t.storeLen .s = u.storeLen .s + (s.kept gs p).best.length := by
    rw [h.sLen, parts_flatten_singleton]
  have hout := State.outLen_le_of_streamPos hpos
  have hplan : ∀ i, i < j + 1 + ps.length → planAddr (i + 1) 0 ≤ Region.input.base := fun i hi =>
    plan_lt_input (by omega)
  have hreg : (storeRegion .s).base = Region.storeS.base := rfl
  have hin := input_lt_output
  have hstores := storeG_lt_storeS
  have hle := h.streamed.outLen_le
  have hle' := h'.streamed.outLen_le
  refine
    { streamed := h.streamed.trans h'.streamed
      inRun := h'.inRun
      rest := by rw [h'.rest, h.rest]
      sLen := ?_
      obs := ?_
      frame := fun x hx => ?_
      entries := ?_
      words := fun i x y hx hy => ?_ }
  · rw [h'.sLen, hlen, parts_flatten_cons, List.length_append, Nat.add_assoc]
  · rw [h'.obs, h.obs]
    exact obsAfter_cons s gs p ps j u.obs
  · obtain ⟨hxout, hxstore, hxplan⟩ := hx
    rw [parts_flatten_cons, List.length_append] at hxstore
    rw [List.length_cons] at hxplan
    rw [h'.frame x ⟨by omega, by omega, fun i hi hi' => hxplan i (by omega) (by omega)⟩,
      h.frame x ⟨by omega, by rw [parts_flatten_singleton]; omega, fun i hi hi' => by
        rw [List.length_singleton] at hi'
        exact hxplan i hi (by omega)⟩]
  · have hfirst := h.entries
    have hrest := h'.entries
    rw [parts_flatten_singleton] at hfirst
    rw [hlen] at hrest
    rw [parts_flatten_cons]
    refine HoldsEntries.append (hfirst.congr fun y hy hy' => h'.frame y ⟨?_, ?_, fun i hi hi' => ?_⟩) hrest
    · omega
    · omega
    · have := hplan i hi'
      omega
  · cases i with
    | zero =>
      obtain ⟨y', rfl⟩ := List.length_eq_one_iff.1 hone
      have hend := hplan j (by omega)
      have hentry : planAddr (j + 0) 4 + 4 * 4 = planAddr (j + 1) 0 := by
        simp only [planAddr_eq]
        omega
      refine (h.words 0 x y hx hy).congr fun z hz hz' => h'.frame z ⟨?_, ?_, fun i hi hi' => ?_⟩ <;>
        change z < planAddr (j + 0) 4 + 4 * 4 at hz'
      · omega
      · omega
      · simp only [planAddr_eq] at hz hz' ⊢
        omega
    | succ i =>
      rw [List.getElem?_append_right (by omega), hone, Nat.add_sub_cancel] at hy
      have hw := h'.words i x y hx hy
      rwa [hlen, Nat.add_assoc, Nat.add_assoc, Nat.add_comm 1 i, ← List.length_append] at hw

/-- One block, then the blocks after it, cut. -/
theorem BlocksDone.trans_cut (h : BlocksDone s gs [p] j bits headers u t) (hr : u.HasRoom bits.length)
    (hin : HeadersIn u.streamPos bits.length headers) (h' : BlocksCut s gs ps (j + 1) bits' headers' t v) :
    BlocksCut s gs (p :: ps) j (bits ++ bits') (headers ++ headers') u v where
  cut := h.streamed.trans_cut hr (fun x hx => (hin x hx).2) h'.cut
  rest := by rw [h'.rest, h.rest]
  frame x hx := by
    have hlen : t.storeLen .s = u.storeLen .s + (s.kept gs p).best.length := by
      rw [h.sLen, parts_flatten_singleton]
    have hle := h.streamed.outLen_le
    have hle' := h'.cut.outLen
    obtain ⟨hxout, hxstore, hxplan⟩ := hx
    rw [parts_flatten_cons, List.length_append] at hxstore
    rw [List.length_cons] at hxplan
    rw [h'.frame x ⟨by omega, by omega, fun i hi hi' => hxplan i (by omega) (by omega)⟩,
      h.frame x ⟨by omega, by rw [parts_flatten_singleton]; omega, fun i hi hi' => by
        rw [List.length_singleton] at hi'
        exact hxplan i hi (by omega)⟩]

/-- One block cut, whatever blocks would have come after it. -/
theorem BlocksCut.append (h : BlocksCut s gs [p] j bits headers u t) (hr : ¬ u.HasRoom bits.length)
    (hin : ∀ x ∈ headers', u.streamPos + bits.length ≤ x.1) :
    BlocksCut s gs (p :: ps) j (bits ++ bits') (headers ++ headers') u t where
  cut := h.cut.append hr hin
  rest := h.rest
  frame x hx := by
    obtain ⟨hxout, hxstore, hxplan⟩ := hx
    rw [parts_flatten_cons, List.length_append] at hxstore
    rw [List.length_cons] at hxplan
    exact h.frame x ⟨hxout, by rw [parts_flatten_singleton]; omega, fun i hi hi' => by
      rw [List.length_singleton] at hi'
      exact hxplan i hi (by omega)⟩

/-- One block, then the blocks after it, whether they fit or not. -/
theorem EmitsBlocks.cons {r : Run} {k : State → Run} (h : EmitsBlocks s gs [p] j u r bits headers)
    (hone : headers.length = 1) (hin : HeadersIn u.streamPos bits.length headers)
    (hin' : HeadersIn (u.streamPos + bits.length) bits'.length headers') (hj : j + 1 + ps.length ≤ hw.planCap)
    (hpos : u.streamPos + (bits ++ bits').length ≤ 2 ^ 32)
    (hk : ∀ t, BlocksDone s gs [p] j bits headers u t → EmitsBlocks s gs ps (j + 1) t (k t) bits' headers') :
    EmitsBlocks s gs (p :: ps) j u (r.andThen k) (bits ++ bits') (headers ++ headers') := by
  by_cases hroom : u.HasRoom bits.length
  · obtain ⟨t, rfl, ht⟩ := h.fits hroom
    have hrest := hk t ht
    have hiff : t.HasRoom bits'.length ↔ u.HasRoom (bits ++ bits').length := by
      rw [ht.streamed.hasRoom_iff, List.length_append]
    refine ⟨fun hr => ?_, fun hr => ?_⟩
    · obtain ⟨v, hv, hdone⟩ := hrest.fits (hiff.2 hr)
      have hend : v.streamPos ≤ 2 ^ 32 := by
        rwa [(ht.streamed.trans hdone.streamed).streamPos]
      exact ⟨v, hv, ht.cons hone hdone hj hend⟩
    · obtain ⟨v, hv, hcut⟩ := hrest.full (mt hiff.1 hr)
      exact ⟨v, hv, ht.trans_cut hroom hin hcut⟩
  · obtain ⟨t, rfl, ht⟩ := h.full hroom
    exact ⟨fun hr => absurd hr (not_hasRoom_append hroom _),
      fun _ => ⟨t, rfl, ht.append hroom fun x hx => (hin' x hx).1⟩⟩

end Compose

/-! ## The squeeze of a block of the plan -/

/-- The state after the squeeze of a block of the plan (40_control.md R433). -/
def State.squeezed (u : State) (gs : List Entry) (p : PlanBlock) (j : Nat) : State :=
  ({ u with obs := { u.obs with curBlock := word j } }.runSqueeze hw j p.a p.b (slice gs p.gs p.ge)).2

/-- What the squeeze of a block leaves: its parse appended to S, its words in PLAN, its numbers. -/
structure Squeezed (s : State) (gs : List Entry) (p : PlanBlock) (j : Nat) (u v : State) : Prop where
  rest : v = { u with
    mem := v.mem, cache := v.cache
    obs := { curBlock := word j, iterCount := word (s.kept gs p).iters, bestBits := word (s.kept gs p).bestBits }
    lens := { u.lens with sLen := word (u.storeLen .s + (s.kept gs p).best.length) } }
  frame : ∀ x, (x < Region.storeS.base + 8 * u.storeLen .s ∨
      Region.storeS.base + 8 * (u.storeLen .s + (s.kept gs p).best.length) ≤ x) →
    (x < planAddr j 4 ∨ planAddr (j + 1) 0 ≤ x) → v.readByte x = u.readByte x
  entries : HoldsEntries v .s (u.storeLen .s) (s.kept gs p).best
  range : HoldsWords v (planAddr j 4) [word (u.storeLen .s), word (u.storeLen .s + (s.kept gs p).best.length)]
  bits : HoldsWords v (planAddr j 7) [word (s.kept gs p).bestBits]

section Block

variable {s u : State} {gs : List Entry} {p : PlanBlock} {j : Nat}

/-- The memory after the squeeze of a block: its parse stored, then its words of PLAN. -/
def State.storeBlock (u : State) (q : SqueezeState) (j : Nat) : State :=
  ((u.storeEntries .s (u.storeLen .s) q.best).storeWords (planAddr j 4)
    [word (u.storeLen .s), word (u.storeLen .s + q.best.length)]).storeWords (planAddr j 7) [word q.bestBits]

theorem squeezed_eq (hN : s.inputLen ≤ hw.inCap) (hu : InRun s u) (hp : GoodBlock s gs p) :
    u.squeezed gs p j = { u with
      mem := (u.storeBlock (s.kept gs p) j).mem
      cache := (u.squeezeBlock hw p.a p.b (slice gs p.gs p.ge)).cache
      obs := { curBlock := word j, iterCount := word (s.kept gs p).iters, bestBits := word (s.kept gs p).bestBits }
      lens := { u.lens with sLen := word (u.storeLen .s + (s.kept gs p).best.length) } } := by
  have heq := hu.squeezeBlock_eq hN hp
  have hbest := congrArg SqueezeState.best heq
  have hiters := congrArg SqueezeState.iters heq
  have hbits := congrArg SqueezeState.bestBits heq
  simp only [SqueezeState.dropCache] at hbest hiters hbits
  rw [State.storeBlock, ← hbest, ← hiters, ← hbits]
  rfl

/-- Nothing but S from S_LEN on and PLAN[j] from SS on is written. -/
theorem storeBlock_frame (u : State) (q : SqueezeState) (j : Nat) {x : Nat}
    (hstore : x < Region.storeS.base + 8 * u.storeLen .s ∨
      Region.storeS.base + 8 * (u.storeLen .s + q.best.length) ≤ x)
    (hplan : x < planAddr j 4 ∨ planAddr (j + 1) 0 ≤ x) : (u.storeBlock q j).readByte x = u.readByte x := by
  have hreg : (storeRegion .s).base = Region.storeS.base := rfl
  simp only [planAddr_eq] at hplan
  rw [State.storeBlock, State.sameMemBut_storeWords _ (planAddr j 7) _ x (by simp [planAddr_eq]; omega),
    State.sameMemBut_storeWords _ (planAddr j 4) _ x (by simp [planAddr_eq]; omega),
    sameMemBut_storeEntries _ .s _ _ x (by omega)]

theorem storeBlock_entries (u : State) {q : SqueezeState} (hq : ∀ e ∈ q.best, e.Storable) (hj : j + 1 ≤ hw.planCap) :
    HoldsEntries (u.storeBlock q j) .s (u.storeLen .s) q.best := by
  have hplan := plan_lt_input hj
  have hin := input_lt_output
  have hout := output_lt_storeG
  have hstores := storeG_lt_storeS
  have hreg : (storeRegion .s).base = Region.storeS.base := rfl
  simp only [planAddr_eq] at hplan
  refine (holdsEntries_storeEntries u .s (u.storeLen .s) hq).congr fun y hy _ => ?_
  rw [State.storeBlock, State.sameMemBut_storeWords _ (planAddr j 7) _ y (by simp [planAddr_eq]; omega),
    State.sameMemBut_storeWords _ (planAddr j 4) _ y (by simp [planAddr_eq]; omega)]

theorem storeBlock_range (u : State) (q : SqueezeState) (j : Nat) :
    HoldsWords (u.storeBlock q j) (planAddr j 4) [word (u.storeLen .s), word (u.storeLen .s + q.best.length)] := by
  refine (holdsWords_storeWords (u.storeEntries .s (u.storeLen .s) q.best) (planAddr j 4) _).congr fun y hy hy' => ?_
  simp only [planAddr_eq, List.length_cons, List.length_nil] at hy'
  exact State.sameMemBut_storeWords _ (planAddr j 7) _ y (.inl (by rw [planAddr_eq]; omega))

theorem squeezed_spec (hN : s.inputLen ≤ hw.inCap) (hu : InRun s u) (hp : GoodBlock s gs p) (hj : j + 1 ≤ hw.planCap) :
    Squeezed s gs p j u (u.squeezed gs p j) := by
  obtain ⟨-, hparse, -⟩ := kept_spec hN hp
  have hend : p.b < 2 ^ 32 := hp.end_le.trans_lt (hN.trans_lt (by decide))
  rw [squeezed_eq hN hu hp]
  exact
    { rest := rfl
      frame := fun x hstore hplan => storeBlock_frame u _ j hstore hplan
      entries := storeBlock_entries u (hparse.storable hend) hj
      range := storeBlock_range u _ j
      bits := holdsWords_storeWords _ (planAddr j 7) _ }

/-- The state after the block's bits and its PLAN[j].INFO (40_control.md R433). -/
def State.putInfo (w : State) (h pos : Nat) (final : Bool) (j : Nat) (x : DoneBlock) : State :=
  w.storeWords (planAddr j 6) [word (blockType h pos x + (if final then 4 else 0) + 256)]

theorem compressBlock_eq (hN : s.inputLen ≤ hw.inCap) (hu : InRun s u) (hp : GoodBlock s gs p) (final : Bool) :
    u.compressBlock hw j final p gs =
      (if s.opt.btype = 1 then fixedBlock hw (s.doneBlock gs p).2 final (u.squeezed gs p j)
        else autoBlock hw (s.doneBlock gs p).2 (s.doneBlock gs p).1.a (s.doneBlock gs p).1.b final
          (u.squeezed gs p j)).andThen fun v =>
      .ok (v.putInfo s.opt.btype u.streamPos final j (s.doneBlock gs p)) := by
  have hbest := congrArg SqueezeState.best (hu.squeezeBlock_eq hN hp)
  simp only [SqueezeState.dropCache] at hbest
  have hopt : u.opt.btype = s.opt.btype := by rw [hu.opt]
  have hpos : (u.squeezed gs p j).streamPos = u.streamPos := rfl
  show (if decide (u.opt.btype = 1) = true then
      fixedBlock hw ((u.squeezeBlock hw p.a p.b (slice gs p.gs p.ge)).best.map Entry.sym) final (u.squeezed gs p j)
    else autoBlock hw ((u.squeezeBlock hw p.a p.b (slice gs p.gs p.ge)).best.map Entry.sym) p.a p.b final
      (u.squeezed gs p j)).andThen (fun v => .ok (v.storeWords (planAddr j 6)
        [word ((if decide (u.opt.btype = 1) = true then 1 else autoChoice hw (u.squeezed gs p j).streamPos (p.b - p.a)
          ((u.squeezeBlock hw p.a p.b (slice gs p.gs p.ge)).best.map Entry.sym)) +
          (if final then 4 else 0) + 256)])) = _
  rw [hbest, hopt, hpos]
  simp only [decide_eq_true_eq]
  rfl

theorem Squeezed.packer {v : State} (h : Squeezed s gs p j u v) : v.packer = u.packer := by rw [h.rest]

theorem Squeezed.opt {v : State} (h : Squeezed s gs p j u v) : v.opt = u.opt := by rw [h.rest]

theorem Squeezed.outBytes {v : State} (h : Squeezed s gs p j u v) (hj : j + 1 ≤ hw.planCap)
    (hpos : u.streamPos ≤ 2 ^ 32) : v.outBytes = u.outBytes := by
  have hplan := plan_lt_input hj
  have hin := input_lt_output
  have hout := State.outLen_le_of_streamPos hpos
  have hstores := storeG_lt_storeS
  rw [State.outBytes, h.packer, State.outBytes]
  exact State.readBytes_congr fun k hk => h.frame _ (.inl (by omega)) (.inr (by omega))

theorem Squeezed.streamed {v : State} (h : Squeezed s gs p j u v) (hj : j + 1 ≤ hw.planCap)
    (hpos : u.streamPos ≤ 2 ^ 32) : Streamed u v [] [] :=
  .of_outBytes h.opt h.packer (h.outBytes hj hpos)

/-- A store into PLAN is below the bytes of OUT. -/
theorem storePlan_outBytes (w : State) (hj : j + 1 ≤ hw.planCap) (v : Word) :
    (w.storeWords (planAddr j 6) [v]).outBytes = w.outBytes := by
  have hplan := plan_lt_input hj
  have hin := input_lt_output
  refine State.readBytes_congr fun k _ => State.sameMemBut_storeWords _ _ _ _ (.inr ?_)
  simp only [planAddr_eq, List.length_singleton] at hplan ⊢
  omega

theorem headerAt_toNat (pos : Nat) (final : Bool) {n : Nat} (hn : n < 4) :
    (headerAt pos final n).2.toNat = n + if final then 4 else 0 := by
  have hall : ∀ n : Fin 4, ∀ f : Bool, (BitVec.ofBool f ++ BitVec.ofNat 2 n).toNat = n + if f then 4 else 0 := by decide
  exact hall ⟨n, hn⟩ final

theorem blockType_lt (h pos : Nat) (x : DoneBlock) : blockType h pos x < 4 := by
  rcases blockType_cases h pos x with ⟨heq, -⟩ | heq | ⟨heq, -⟩ <;> rw [heq] <;> decide

theorem runSqueeze_searchCtx (hN : s.inputLen ≤ hw.inCap) (hu : InRun s u) (hj : j ≤ hw.planCap) :
    (u.squeezed gs p j).searchCtx = s.searchCtx := by
  have hN' : u.inputLen ≤ hw.inCap := hu.inputLen.le.trans hN
  have happends := runSqueeze_appends { u with obs := { u.obs with curBlock := word j } } hj p.a p.b
    (slice gs p.gs p.ge)
  exact (happends.toEffect.searchCtx_eq hN').trans hu.ctx

theorem compressBlock_inRun (hN : s.inputLen ≤ hw.inCap) (hu : InRun s u) (hp : GoodBlock s gs p)
    (hj : j ≤ hw.planCap) {final : Bool} {t : State} (hrun : u.compressBlock hw j final p gs = .ok t) : InRun s t := by
  have hN' : u.inputLen ≤ hw.inCap := hu.inputLen.le.trans hN
  have happends := compressBlock_appends u hj final p gs
  have hcache := compressBlock_keeps (R := Cache.CoherentWith s.searchCtx) (s := u)
    (hu.ctx ▸ coherentWith_keptBySearch (by rwa [searchCtx_window_length])) j final
    (hp.end_le.trans_eq hu.inputLen.symm) gs hu.cache
  rw [hrun] at happends hcache
  have ht : Appends u t := happends
  exact ⟨ht.opt.trans hu.opt, (ht.toEffect.searchCtx_eq hN').trans hu.ctx, hcache⟩

theorem putInfo_frame (w : State) (h pos : Nat) (final : Bool) (j : Nat) (x : DoneBlock) {y : Nat}
    (hy : y < planAddr j 6 ∨ planAddr j 7 ≤ y) : (w.putInfo h pos final j x).readByte y = w.readByte y := by
  refine State.sameMemBut_storeWords _ _ _ y ?_
  simp only [planAddr_eq, List.length_singleton] at hy ⊢
  omega

section Wrote

variable {v w : State} {final : Bool} {bits : List Bool}

/-- The last four words of the plan entry of a block that is done. -/
theorem lateWords_of_wrote (hN : s.inputLen ≤ hw.inCap) (hp : GoodBlock s gs p) (hj : j + 1 ≤ hw.planCap)
    (hv : Squeezed s gs p j u v)
    (hwrote : ∀ y, y < Region.output.base → w.readByte y = v.readByte y) :
    HoldsWords (w.putInfo s.opt.btype u.streamPos final j (s.doneBlock gs p)) (planAddr j 4)
      (lateWords s.opt.btype (headerAt u.streamPos final (blockType s.opt.btype u.streamPos (s.doneBlock gs p))).2
        (u.storeLen .s) (s.doneBlock gs p)) := by
  obtain ⟨-, -, hbits⟩ := kept_spec hN hp
  have hplan := plan_lt_input hj
  have hin := input_lt_output
  have hlen : (s.doneBlock gs p).2.length = (s.kept gs p).best.length := List.length_map _
  simp only [planAddr_eq] at hplan
  have hkept : ∀ y, y < planAddr (j + 1) 0 → (y < planAddr j 6 ∨ planAddr j 7 ≤ y) →
      (w.putInfo s.opt.btype u.streamPos final j (s.doneBlock gs p)).readByte y = v.readByte y := fun y hy hout => by
    simp only [planAddr_eq] at hy
    rw [putInfo_frame _ _ _ _ _ _ hout, hwrote y (by omega)]
  have hrange := hv.range.congr fun y hy hy' => hkept y (by simp [planAddr_eq] at hy' ⊢; omega)
    (.inl (by simp [planAddr_eq] at hy' ⊢; omega))
  have hlast := hv.bits.congr fun y hy hy' => hkept y (by simp [planAddr_eq] at hy' ⊢; omega) (.inr hy)
  have hinfo := holdsWords_storeWords w (planAddr j 6)
    [word (blockType s.opt.btype u.streamPos (s.doneBlock gs p) + (if final then 4 else 0) + 256)]
  rw [lateWords, headerAt_toNat _ _ (blockType_lt _ _ _), hlen]
  rw [hbits] at hlast
  exact hrange.append (hinfo.append hlast)

theorem blockDone_of_wrote (hN : s.inputLen ≤ hw.inCap) (hp : GoodBlock s gs p)
    (hj : j + 1 ≤ hw.planCap) (hroom : u.storeLen .s + (s.kept gs p).best.length < 2 ^ 32)
    (hpos : u.streamPos + bits.length ≤ 2 ^ 32) (hv : Squeezed s gs p j u v)
    (hwrote : Emitted v w bits [headerAt u.streamPos final (blockType s.opt.btype u.streamPos (s.doneBlock gs p))])
    (hrun : InRun s (w.putInfo s.opt.btype u.streamPos final j (s.doneBlock gs p))) :
    BlocksDone s gs [p] j bits [headerAt u.streamPos final (blockType s.opt.btype u.streamPos (s.doneBlock gs p))] u
      (w.putInfo s.opt.btype u.streamPos final j (s.doneBlock gs p)) := by
  have hupos : u.streamPos ≤ 2 ^ 32 := (Nat.le_add_right _ _).trans hpos
  have hstart := hv.streamed hj hupos
  have hwpos : w.streamPos ≤ 2 ^ 32 := by
    rwa [hwrote.streamPos, hstart.streamPos, List.length_nil, Nat.add_zero]
  have hend : Streamed w (w.putInfo s.opt.btype u.streamPos final j (s.doneBlock gs p)) [] [] :=
    .of_outBytes rfl rfl (storePlan_outBytes w hj _)
  have hplan := plan_lt_input hj
  have hin := input_lt_output
  have hout := State.outLen_le_of_streamPos hwpos
  have hstores := storeG_lt_storeS
  have hreg : (storeRegion .s).base = Region.storeS.base := rfl
  have hle := hwrote.outLen_le
  rw [hv.packer] at hle
  refine
    { streamed := by simpa using (hstart.trans hwrote.toStreamed).trans hend
      inRun := hrun
      rest := ?_
      sLen := ?_
      obs := ?_
      frame := fun x hx => ?_
      entries := ?_
      words := fun i x y hx hy => ?_ }
  · rw [State.putInfo, hwrote.rest, hv.rest]
    rfl
  · have hlens : (w.putInfo s.opt.btype u.streamPos final j (s.doneBlock gs p)).lens.sLen =
        word (u.storeLen .s + (s.kept gs p).best.length) := by
      rw [State.putInfo, hwrote.rest, hv.rest]
      rfl
    rw [State.storeLen, hlens, parts_flatten_singleton, BitVec.toNat_ofNat, Nat.mod_eq_of_lt hroom]
  · rw [State.putInfo, hwrote.rest, hv.rest]
    rfl
  · obtain ⟨hxout, hxstore, hxplan⟩ := hx
    rw [parts_flatten_singleton] at hxstore
    have hxj := hxplan j le_rfl (by simp)
    have hxinfo : x < planAddr j 6 ∨ planAddr j 7 ≤ x := by
      simp only [planAddr_eq] at hxj ⊢
      omega
    have hxw : x < Region.output.base + v.packer.outLen.toNat ∨ Region.output.base + w.packer.outLen.toNat ≤ x := by
      rw [hv.packer]
      exact hxout
    rw [putInfo_frame _ _ _ _ _ _ hxinfo, hwrote.mem x hxw, hv.frame x hxstore hxj]
  · rw [parts_flatten_singleton]
    refine hv.entries.congr fun y hy _ => ?_
    have hyinfo : y < planAddr j 6 ∨ planAddr j 7 ≤ y := by
      simp only [planAddr_eq] at hplan ⊢
      omega
    rw [putInfo_frame _ _ _ _ _ _ hyinfo, hwrote.mem y (by omega)]
  · cases i with
    | zero =>
      obtain rfl : s.doneBlock gs p = x := by simpa [State.doneBlocks] using hx
      obtain rfl : headerAt u.streamPos final (blockType s.opt.btype u.streamPos (s.doneBlock gs p)) = y := by
        simpa using hy
      exact lateWords_of_wrote hN hp hj hv fun z hz => hwrote.mem z (.inl (by omega))
    | succ i => simp [State.doneBlocks] at hx

theorem blockCut_of_wrote (hj : j + 1 ≤ hw.planCap) (hpos : u.streamPos ≤ 2 ^ 32) (hv : Squeezed s gs p j u v)
    {headers : List (Nat × BitVec 3)} (hcut : Cut v w bits headers) : BlocksCut s gs [p] j bits headers u w where
  cut := (hv.streamed hj hpos).trans_cut u.hasRoom_zero nofun hcut.cut
  rest := by rw [hcut.rest, hv.rest]
  frame x hx := by
    obtain ⟨hxout, hxstore, hxplan⟩ := hx
    rw [parts_flatten_singleton] at hxstore
    rw [hcut.mem x (by rwa [hv.packer]), hv.frame x hxstore (hxplan j le_rfl (by simp))]

end Wrote

/-- One block of COMPRESS, whether it fits or not (40_control.md R433). -/
theorem compressBlock_emits (hN : s.inputLen ≤ hw.inCap) (hu : InRun s u) (hp : GoodBlock s gs p)
    (hj : j + 1 ≤ hw.planCap) (hroom : u.storeLen .s + (s.kept gs p).best.length < 2 ^ 32) (final : Bool)
    (hpos : u.streamPos +
      (blockStream s.opt.btype s.window final u.streamPos (s.doneBlock gs p)).length ≤ 2 ^ 32) :
    EmitsBlocks s gs [p] j u (u.compressBlock hw j final p gs)
      (blockStream s.opt.btype s.window final u.streamPos (s.doneBlock gs p))
      [headerAt u.streamPos final (blockType s.opt.btype u.streamPos (s.doneBlock gs p))] := by
  have hv := squeezed_spec hN hu hp hj
  have hupos : u.streamPos ≤ 2 ^ 32 := (Nat.le_add_right _ _).trans hpos
  have hopt : (u.squeezed gs p j).opt = s.opt := hv.opt.trans hu.opt
  have hctx := runSqueeze_searchCtx (gs := gs) (p := p) hN hu (j := j) (by omega)
  have hwindow : (u.squeezed gs p j).window = s.window := congrArg SearchCtx.window hctx
  have hinput : (u.squeezed gs p j).inputLen = s.inputLen := by rw [State.inputLen, hopt, State.inputLen]
  have hstream : (u.squeezed gs p j).streamPos = u.streamPos := rfl
  have hemits := blockWriter_emits (u := u.squeezed gs p j) (hinput.le.trans hN) (s.doneBlock gs p) hp.le
    (hp.end_le.trans_eq hinput.symm) final
  have hiff := (hv.streamed hj hupos).hasRoom_iff
    (blockStream s.opt.btype s.window final u.streamPos (s.doneBlock gs p)).length
  have heq := compressBlock_eq (j := j) hN hu hp final
  rw [hwindow, hstream, hopt] at hemits
  rw [List.length_nil, Nat.zero_add] at hiff
  refine ⟨fun hr => ?_, fun hr => ?_⟩
  · obtain ⟨w, hwrite, hwrote⟩ := hemits.fits (hiff.2 hr)
    rw [hwrite, Run.ok_andThen] at heq
    exact ⟨_, heq, blockDone_of_wrote hN hp hj hroom hpos hv hwrote (compressBlock_inRun hN hu hp (by omega) heq)⟩
  · obtain ⟨w, hwrite, hcut⟩ := hemits.full (mt hiff.1 hr)
    rw [hwrite, Run.stop_andThen] at heq
    exact ⟨w, heq, blockCut_of_wrote hj hupos hv hcut⟩

end Block

/-! ## The blocks of a plan -/

section Blocks

variable {s : State} {gs : List Entry}

theorem GoodBlock.inWindow {p : PlanBlock} (hp : GoodBlock s gs p) : (s.doneBlock gs p).InWindow s.window :=
  slice_window_length s hp.le hp.end_le

theorem doneBlocks_inWindow {ps : List PlanBlock} (hps : ∀ p ∈ ps, GoodBlock s gs p) :
    ∀ x ∈ s.doneBlocks gs ps, x.InWindow s.window := by
  intro x hx
  obtain ⟨p, hp, rfl⟩ := List.mem_map.1 hx
  exact (hps p hp).inWindow

/-- The blocks of COMPRESS from plan entry j on, whether they fit or not (40_control.md R433). -/
theorem compressBlocks_emits (hN : s.inputLen ≤ hw.inCap) {ps : List PlanBlock} (hps : ∀ p ∈ ps, GoodBlock s gs p)
    {j : Nat} (hj : j + ps.length ≤ hw.planCap) {u : State} (hu : InRun s u)
    (hroom : u.storeLen .s + (s.parts gs ps).flatten.length < 2 ^ 32)
    (hpos : u.streamPos + (planStream s.opt.btype s.window u.streamPos (s.doneBlocks gs ps)).length ≤ 2 ^ 32) :
    EmitsBlocks s gs ps j u (compressBlocks hw gs ps j u)
      (planStream s.opt.btype s.window u.streamPos (s.doneBlocks gs ps))
      (planHeaders s.opt.btype s.window u.streamPos (s.doneBlocks gs ps)) := by
  induction ps generalizing j u with
  | nil =>
    refine ⟨fun _ => ⟨u, rfl, ?_⟩, fun hr => absurd u.hasRoom_zero hr⟩
    exact
      { streamed := .refl u, inRun := hu, rest := rfl, sLen := rfl, obs := rfl, frame := fun _ _ => rfl
        entries := nofun, words := nofun }
  | cons p ps ih =>
    obtain ⟨hp, htail⟩ := List.forall_mem_cons.1 hps
    rw [parts_flatten_cons, List.length_append] at hroom
    rw [List.length_cons] at hj
    have hempty : (s.doneBlocks gs ps).isEmpty = ps.isEmpty := List.isEmpty_map
    have hlen := blockStream_length hp.inWindow s.opt.btype ps.isEmpty u.streamPos
    have h3 := three_le_blockBits s.opt.btype u.streamPos (s.doneBlock gs p)
    have hdone : s.doneBlocks gs (p :: ps) = s.doneBlock gs p :: s.doneBlocks gs ps := rfl
    rw [hdone, planStream, hempty] at hpos
    rw [hdone, planStream, planHeaders, hempty, compressBlocks]
    have hpos' := hpos
    rw [List.length_append] at hpos'
    refine (compressBlock_emits hN hu hp (by omega) (by omega) ps.isEmpty (by omega)).cons rfl
      (headersIn_singleton _ (by omega) _) (planHeaders_in (doneBlocks_inWindow htail) _) (by omega) hpos
      fun t ht => ?_
    have htpos := ht.streamed.streamPos
    have hsLen := ht.sLen
    rw [parts_flatten_singleton] at hsLen
    rw [← htpos]
    exact ih htail (by omega) ht.inRun (by omega) (by rw [htpos]; omega)

end Blocks

end Sys2Proof.Machine
end

section
/-! PROOFS. COMPRESS under the FIXED and DYNAMIC hints: the greedy parse and the plan it begins with, then the blocks
and the flush (40_control.md R433 to R435). -/

namespace Sys2Proof.Machine

open Config (hw)

/-! ## The parse and the plan -/

section Plan

/-- The greedy parse of the window. -/
def State.greedyEntries (s : State) : List Entry := (greedyParse hw s.searchCtx s.opt.lazy 0 s.inputLen []).1

/-- The blocks of the plan of the window. -/
def State.planBlocks (s : State) : List PlanBlock :=
  (bisect hw s.opt.btype s.opt.splitMax.toNat s.opt.splitMargin.toNat (s.greedyEntries.map Entry.sym)).map
    (planBlock s.greedyEntries 0 s.inputLen)

/-- The state of COMPRESS once the window is parsed and split. -/
def State.planned (s : State) : State :=
  ((s.compressStart.runGreedy hw 0 s.inputLen).2.runSplit hw s.greedyEntries).2

variable {s : State}

theorem greedyEntries_isParse (hN : s.inputLen ≤ hw.inCap) :
    IsParse s.window s.greedyEntries 0 s.inputLen ∧
      ∀ e ∈ s.greedyEntries, e.sym = greedySym s.searchCtx s.opt.lazy s.inputLen e.pos :=
  greedyParse_isParse ((searchCtx_window_length s).le.trans hN) s.opt.lazy (Nat.zero_le _)
    (searchCtx_window_length s).ge (coherentWith_nil _)

theorem planBlocks_isPlan (hN : s.inputLen ≤ hw.inCap) :
    IsPlan s.opt.btype s.opt.splitMax.toNat s.opt.splitMargin.toNat s.greedyEntries 0 s.inputLen s.planBlocks :=
  isPlan_bisect (greedyEntries_isParse hN).1.1 _ _ _

theorem posAt_le {es : List Entry} {a b : Nat} (h : Tiles es a b) (i : Nat) : posAt es b i ≤ b := (tiles_drop h i).le

theorem RangeChain.forall_le {rs : List SymRange} {i j : Nat} (h : RangeChain rs i j) : ∀ r ∈ rs, r.i ≤ r.j := by
  induction rs generalizing i with
  | nil => simp
  | cons r rs ih =>
    obtain ⟨-, hle, hrs⟩ := h
    exact List.forall_mem_cons.2 ⟨hle, ih hrs⟩

theorem planBlocks_good (hN : s.inputLen ≤ hw.inCap) : ∀ p ∈ s.planBlocks, GoodBlock s s.greedyEntries p := by
  intro p hp
  obtain ⟨r, hr, rfl⟩ := List.mem_map.1 hp
  have hparse := (greedyEntries_isParse hN).1
  have hle := (bisect_rounds s.opt.btype s.opt.splitMax.toNat s.opt.splitMargin.toNat
    (s.greedyEntries.map Entry.sym)).1.chain.forall_le r hr
  have hslice := slice_isParse hparse hle
  rw [planBlock_eq hparse.1]
  exact { le := hslice.1.le, end_le := posAt_le hparse.1 _, parse := hslice }

theorem word_inputLen (s : State) : (word s.inputLen).toNat = s.inputLen := by
  have hlt : s.inputLen < 2 ^ 32 := s.opt.inLen.isLt
  rw [BitVec.toNat_ofNat, Nat.mod_eq_of_lt hlt]

theorem runSplit_planBlocks (s : State) :
    ((s.compressStart.runGreedy hw 0 s.inputLen).2.runSplit hw s.greedyEntries).1 = s.planBlocks := by
  show List.map (planBlock _ (word 0).toNat (word s.inputLen).toNat) _ = _
  rw [word_inputLen]
  rfl

theorem compressBody_of_not_stored (h : s.opt.btype ≠ 0) :
    compressBody hw s.compressStart = compressBlocks hw s.greedyEntries s.planBlocks 0 s.planned := by
  have hhint : s.compressStart.opt.btype ≠ 0 := h
  rw [compressBody, if_neg hhint, State.planned, ← runSplit_planBlocks]
  rfl

/-- The words of one block among those `Split` writes. -/
theorem HoldsWords.planWords {t : State} {ps : List PlanBlock} {a i : Nat} {p : PlanBlock}
    (h : HoldsWords t a (ps.flatMap PlanBlock.words)) (hp : ps[i]? = some p) :
    HoldsWords t (a + 32 * i) [word p.a, word p.b, word p.gs, word p.ge] := by
  obtain ⟨hi, rfl⟩ := List.getElem?_eq_some_iff.1 hp
  have hsplit : ps = ps.take i ++ ps[i] :: ps.drop (i + 1) := by
    rw [List.cons_getElem_drop_succ, List.take_append_drop]
  have hwords : ps[i].words = [word ps[i].a, word ps[i].b, word ps[i].gs, word ps[i].ge] ++ [0, 0, 0, 0] := rfl
  rw [hsplit, List.flatMap_append, List.flatMap_cons, hwords, List.append_assoc] at h
  have hpart := h.part
  rwa [length_flatMap_planWords, List.length_take_of_le hi.le, show 4 * (8 * i) = 32 * i by omega] at hpart

/-- What the parse and the split leave. -/
structure Planned (s u : State) : Prop where
  rest : u = { s.compressStart with
    mem := u.mem, cache := u.cache
    lens := { gLen := word s.greedyEntries.length, gA := 0, gB := word s.inputLen, sLen := 0,
              planLen := word s.planBlocks.length } }
  inRun : InRun s u
  frame : ∀ x, (x < Region.storeG.base ∨ Region.storeG.base + 8 * s.greedyEntries.length ≤ x) →
    (x < planAddr 0 0 ∨ planAddr s.planBlocks.length 0 ≤ x) → u.readByte x = s.readByte x
  entries : HoldsEntries u .g 0 s.greedyEntries
  words : ∀ i p, s.planBlocks[i]? = some p →
    HoldsWords u (planAddr i 0) [word p.a, word p.b, word p.gs, word p.ge]

/-- The memory after the parse and the split. -/
def State.storePlan (s : State) : State :=
  (s.storeEntries .g 0 s.greedyEntries).storeWords (planAddr 0 0) (s.planBlocks.flatMap PlanBlock.words)

theorem planned_eq (s : State) : s.planned = { s.compressStart with
    mem := s.storePlan.mem
    cache := (s.compressStart.runGreedy hw 0 s.inputLen).2.cache
    lens := { gLen := word s.greedyEntries.length, gA := 0, gB := word s.inputLen, sLen := 0,
              planLen := word s.planBlocks.length } } := by
  rw [State.storePlan, ← runSplit_planBlocks]
  rfl

theorem compressStart_opt (s : State) : s.compressStart.opt = s.opt := rfl

theorem compressStart_searchCtx (s : State) : s.compressStart.searchCtx = s.searchCtx := rfl

theorem planned_opt (s : State) : s.planned.opt = s.opt := by
  rw [planned_eq]
  exact compressStart_opt s

theorem planned_cache (s : State) : s.planned.cache = (s.compressStart.runGreedy hw 0 s.inputLen).2.cache := by
  rw [planned_eq]

theorem planned_inRun (hN : s.inputLen ≤ hw.inCap) : InRun s s.planned where
  opt := planned_opt s
  ctx := by
    have happends := (runGreedy_appends s.compressStart 0 s.inputLen).trans (runSplit_appends _ s.greedyEntries)
    have hctx := happends.toEffect.searchCtx_eq hN
    rw [compressStart_searchCtx] at hctx
    rw [State.planned]
    exact hctx
  cache := by
    have hkept := coherentWith_keptBySearch (x := s.searchCtx) (by rwa [searchCtx_window_length])
    rw [← compressStart_searchCtx] at hkept ⊢
    rw [planned_cache]
    exact runGreedy_keeps hkept 0 le_rfl (coherentWith_nil _)

theorem planned_spec (hN : s.inputLen ≤ hw.inCap) : Planned s s.planned := by
  have hrun := planned_inRun hN
  have hstorable := (greedyEntries_isParse hN).1.storable (hN.trans_lt (by decide))
  have hcap := plan_lt_input (planBlocks_isPlan hN).planCap
  have hin := input_lt_output
  have hout := output_lt_storeG
  have hreg : (storeRegion .g).base = Region.storeG.base := rfl
  have hlen := length_flatMap_planWords s.planBlocks
  have hend : planAddr 0 0 + 4 * (s.planBlocks.flatMap PlanBlock.words).length = planAddr s.planBlocks.length 0 := by
    rw [hlen]
    simp only [planAddr_eq]
    omega
  rw [planned_eq] at hrun ⊢
  exact
    { rest := rfl
      inRun := hrun
      frame := fun x hstore hplan => by
        have hplan' : s.storePlan.readByte x = (s.storeEntries .g 0 s.greedyEntries).readByte x :=
          State.sameMemBut_storeWords _ (planAddr 0 0) _ x (by rwa [hend])
        exact hplan'.trans (sameMemBut_storeEntries s .g 0 s.greedyEntries x (by omega))
      entries := by
        refine (holdsEntries_storeEntries s .g 0 hstorable).congr fun y hy _ => ?_
        exact State.sameMemBut_storeWords _ (planAddr 0 0) _ y (.inr (by omega))
      words := fun i p hp => by
        have hwords := (holdsWords_storeWords (s.storeEntries .g 0 s.greedyEntries) (planAddr 0 0)
          (s.planBlocks.flatMap PlanBlock.words)).planWords hp
        have haddr : planAddr i 0 = planAddr 0 0 + 32 * i := by simp only [planAddr_eq]; omega
        rw [haddr]
        exact hwords }

end Plan

/-! ## How much the blocks write -/

section Sizes

variable {s : State} {gs : List Entry}

theorem sum_spans_of_planChain {ps : List PlanBlock} (hps : ∀ p ∈ ps, p.a ≤ p.b) {i a j b : Nat}
    (h : PlanChain ps i a j b) : a + (ps.map fun p => p.b - p.a).sum = b := by
  induction ps generalizing i a with
  | nil => exact h.2
  | cons p ps ih =>
    obtain ⟨-, rfl, hrest⟩ := h
    obtain ⟨hp, htail⟩ := List.forall_mem_cons.1 hps
    have := ih htail hrest
    rw [List.map_cons, List.sum_cons]
    omega

theorem parts_length_le (hN : s.inputLen ≤ hw.inCap) {ps : List PlanBlock} (hps : ∀ p ∈ ps, GoodBlock s gs p) :
    (s.parts gs ps).flatten.length ≤ (ps.map fun p => p.b - p.a).sum := by
  induction ps with
  | nil => exact Nat.zero_le _
  | cons p ps ih =>
    obtain ⟨hp, htail⟩ := List.forall_mem_cons.1 hps
    have hfirst := (kept_spec hN hp).2.1.length_le
    have hrest := ih htail
    rw [parts_flatten_cons, List.length_append, List.map_cons, List.sum_cons]
    omega

theorem planStream_length_le {w : List Byte} (h : Nat) {xs : List DoneBlock} (hxs : ∀ x ∈ xs, x.InWindow w)
    (pos : Nat) : (planStream h w pos xs).length ≤ (xs.map fun x => fixedBits x.2).sum := by
  induction xs generalizing pos with
  | nil => exact le_rfl
  | cons x xs ih =>
    obtain ⟨hx, htail⟩ := List.forall_mem_cons.1 hxs
    rw [planStream, List.length_append, List.map_cons, List.sum_cons, blockStream_length hx]
    exact Nat.add_le_add (blockBits_le_fixedBits h pos x) (ih htail _)

theorem sum_fixedBits_le (hN : s.inputLen ≤ hw.inCap) {ps : List PlanBlock} (hps : ∀ p ∈ ps, GoodBlock s gs p) :
    ((s.doneBlocks gs ps).map fun x => fixedBits x.2).sum ≤ 11 * (ps.map fun p => p.b - p.a).sum + 10 * ps.length := by
  induction ps with
  | nil => exact le_rfl
  | cons p ps ih =>
    obtain ⟨hp, htail⟩ := List.forall_mem_cons.1 hps
    have hfirst := fixedBits_le_of_isParse (kept_spec hN hp).2.1
    have hrest := ih htail
    have hdone : s.doneBlocks gs (p :: ps) = s.doneBlock gs p :: s.doneBlocks gs ps := rfl
    have hsyms : (s.doneBlock gs p).2 = (s.kept gs p).best.map Entry.sym := rfl
    rw [hdone, List.map_cons, List.sum_cons, List.map_cons, List.sum_cons, List.length_cons, hsyms]
    omega

end Sizes

/-! ## The whole run -/

section Run

/-- The blocks of the window with their parses. -/
def State.finished (s : State) : List DoneBlock := s.doneBlocks s.greedyEntries s.planBlocks

/-- The bits of the blocks of the window. -/
def State.blockStreams (s : State) : List Bool := planStream s.opt.btype s.window 0 s.finished

/-- The headers among them. -/
def State.blockHeaders (s : State) : List (Nat × BitVec 3) := planHeaders s.opt.btype s.window 0 s.finished

/-- The zero bits up to the byte boundary. -/
def padding (n : Nat) : List Bool := List.replicate ((8 - n % 8) % 8) false

/-- The parses kept, one after another. -/
def State.keptEntries (s : State) : List Entry := (s.parts s.greedyEntries s.planBlocks).flatten

variable {s : State}

theorem sum_spans (hN : s.inputLen ≤ hw.inCap) : (s.planBlocks.map fun p => p.b - p.a).sum = s.inputLen := by
  have := sum_spans_of_planChain (fun p hp => (planBlocks_good hN p hp).le) (planBlocks_isPlan hN).chain
  omega

theorem keptEntries_length_le (hN : s.inputLen ≤ hw.inCap) : s.keptEntries.length ≤ s.inputLen :=
  (parts_length_le hN (planBlocks_good hN)).trans (sum_spans hN).le

theorem blockStreams_length_le (hN : s.inputLen ≤ hw.inCap) : s.blockStreams.length ≤ 2 ^ 28 := by
  have hlen := planStream_length_le s.opt.btype (doneBlocks_inWindow (planBlocks_good hN)) 0
  have hsum := sum_fixedBits_le hN (planBlocks_good hN)
  have hplan := (planBlocks_isPlan hN).planCap
  have hcap : 11 * hw.inCap + 10 * hw.planCap ≤ 2 ^ 28 := by decide
  rw [sum_spans hN] at hsum
  rw [State.blockStreams, State.finished]
  omega

/-- The blocks of the window, from the state after the split. -/
theorem compressBody_emits (hN : s.inputLen ≤ hw.inCap) (hhint : s.opt.btype ≠ 0) :
    EmitsBlocks s s.greedyEntries s.planBlocks 0 s.planned (compressBody hw s.compressStart) s.blockStreams
      s.blockHeaders := by
  have hstart : s.planned.streamPos = 0 := rfl
  have hsLen : s.planned.storeLen .s = 0 := rfl
  have hkept := keptEntries_length_le hN
  have hbits := blockStreams_length_le hN
  have hcap : hw.inCap < 2 ^ 32 := by decide
  have hemits := compressBlocks_emits hN (planBlocks_good hN) (j := 0) (u := s.planned)
    ((Nat.zero_add _).le.trans (planBlocks_isPlan hN).planCap) (planned_inRun hN)
    (by rw [hsLen, Nat.zero_add]; exact (hkept.trans hN).trans_lt hcap)
    (by rw [hstart, Nat.zero_add]; exact hbits.trans (by decide))
  rw [compressBody_of_not_stored hhint]
  rwa [hstart] at hemits

theorem planned_streamed (s : State) : Streamed s.compressStart s.planned [] [] := .of_outBytes rfl rfl rfl

theorem planned_hasRoom (s : State) {n : Nat} : s.planned.HasRoom n ↔ n / 8 ≤ s.opt.outLimit.toNat :=
  compressStart_hasRoom s

/-- The flush after the blocks fills the last byte with zeros (45_block_writer.md R904). -/
theorem BlocksDone.flush_emits {gs : List Entry} {ps : List PlanBlock} {t : State}
    (ht : BlocksDone s gs ps 0 s.blockStreams s.blockHeaders s.planned t) :
    Emits t (flush t) (padding s.blockStreams.length) [] := by
  have hstart : s.planned.streamPos = 0 := rfl
  have hemits := Machine.flush_emits t
  rwa [ht.streamed.flushCount, hstart, Nat.zero_add] at hemits

/-- Whether the flush fits, by the bytes of the whole output. -/
theorem BlocksDone.hasRoom_padding {gs : List Entry} {ps : List PlanBlock} {t : State}
    (ht : BlocksDone s gs ps 0 s.blockStreams s.blockHeaders s.planned t) :
    t.HasRoom (padding s.blockStreams.length).length ↔
      (s.blockStreams.length + 7) / 8 ≤ s.opt.outLimit.toNat := by
  have hbytes : (s.blockStreams.length + (8 - s.blockStreams.length % 8) % 8) / 8 =
      (s.blockStreams.length + 7) / 8 := by omega
  rw [ht.streamed.hasRoom_iff, planned_hasRoom, padding, List.length_replicate, hbytes]

/-- When they fit, the blocks are written and the last byte is filled with zeros (40_control.md R434). -/
theorem compress_fits (hN : s.inputLen ≤ hw.inCap) (hhint : s.opt.btype ≠ 0)
    (hfit : (s.blockStreams.length + 7) / 8 ≤ s.opt.outLimit.toNat) :
    ∃ t v, compressBody hw s.compressStart = .ok t ∧ flush t = .ok v ∧
      BlocksDone s s.greedyEntries s.planBlocks 0 s.blockStreams s.blockHeaders s.planned t ∧
      Emitted t v (padding s.blockStreams.length) [] := by
  obtain ⟨t, hrun, ht⟩ := (compressBody_emits hN hhint).fits ((planned_hasRoom s).2 (by omega))
  have hroom : t.HasRoom (padding s.blockStreams.length).length := by
    rw [ht.hasRoom_padding]
    omega
  obtain ⟨v, hv, hemit⟩ := ht.flush_emits.fits hroom
  exact ⟨t, v, hrun, hv, ht, hemit⟩

/-- A stream cut before the padding. -/
theorem StreamCut.of_append {u v : State} {bits pad : List Bool} {headers : List (Nat × BitVec 3)}
    (h : StreamCut u v (bits ++ pad) headers) (hlen : 8 * v.packer.outLen.toNat ≤ u.streamPos + bits.length) :
    StreamCut u v bits headers where
  outLen := h.outLen
  bytes := by
    rw [h.bytes, ← List.append_assoc, List.take_append_of_le_length]
    rwa [List.length_append, State.streamBits_length]
  counted := h.counted

theorem BlocksDone.cut_in_padding {u t v : State} {gs : List Entry} {ps : List PlanBlock} {j : Nat}
    {bits pad : List Bool} {headers : List (Nat × BitVec 3)} (h : BlocksDone s gs ps j bits headers u t)
    (hr : u.HasRoom bits.length) (hin : HeadersIn u.streamPos bits.length headers) (hcut : Cut t v pad [])
    (hlen : 8 * v.packer.outLen.toNat ≤ u.streamPos + bits.length) : BlocksCut s gs ps j bits headers u v where
  cut := by
    have hall := h.streamed.trans_cut hr (fun x hx => (hin x hx).2) hcut.cut
    rw [List.append_nil] at hall
    exact hall.of_append hlen
  rest := by rw [hcut.rest, h.rest]
  frame x hx := by
    have hle := h.streamed.outLen_le
    have hle' := hcut.cut.outLen
    obtain ⟨hxout, hxstore, hxplan⟩ := hx
    rw [hcut.mem x (by omega), h.frame x ⟨by omega, hxstore, hxplan⟩]

/-- When they do not fit, the run ends in WRITE_ERROR in one of the blocks or in the flush. -/
theorem compress_full (hN : s.inputLen ≤ hw.inCap) (hhint : s.opt.btype ≠ 0)
    (hover : s.opt.outLimit.toNat < (s.blockStreams.length + 7) / 8) :
    ∃ t, (∀ k : State → State → Run, ((compressBody hw s.compressStart).andThen fun s₁ => (flush s₁).andThen (k s₁)) =
        .stop { code := .writeError, info := t.packer.outLen } t) ∧
      BlocksCut s s.greedyEntries s.planBlocks 0 s.blockStreams s.blockHeaders s.planned t := by
  have hemits := compressBody_emits hN hhint
  by_cases hroom : s.planned.HasRoom s.blockStreams.length
  · obtain ⟨t, hrun, ht⟩ := hemits.fits hroom
    have hno : ¬ t.HasRoom (padding s.blockStreams.length).length := by
      rw [ht.hasRoom_padding]
      omega
    obtain ⟨v, hv, hcut⟩ := ht.flush_emits.full hno
    refine ⟨v, fun k => by rw [hrun, Run.ok_andThen, hv, Run.stop_andThen], ht.cut_in_padding hroom ?_ hcut ?_⟩
    · exact planHeaders_in (doneBlocks_inWindow (planBlocks_good hN)) 0
    · have hlimit := (hcut.cut.outLen.trans ht.streamed.cap).le
      have hstart : s.planned.packer.outLen.toNat = 0 := rfl
      have hpos : s.planned.streamPos = 0 := rfl
      rw [hstart, planned_opt] at hlimit
      omega
  · obtain ⟨t, hrun, ht⟩ := hemits.full hroom
    exact ⟨t, fun k => by rw [hrun, Run.stop_andThen], ht⟩

/-- The end of COMPRESS when the blocks fit: its results, then READ_ERROR or success (40_control.md R435, R436). -/
theorem exec_compress_fits (hN : s.inputLen ≤ hw.inCap) (hhint : s.opt.btype ≠ 0) (hlegal : s.opt.btype ≠ 3)
    (hfit : (s.blockStreams.length + 7) / 8 ≤ s.opt.outLimit.toNat) :
    ∃ t v, exec .compress s = (compressEnd (v.compressResults s.blockStreams.length)).finish ∧
      BlocksDone s s.greedyEntries s.planBlocks 0 s.blockStreams s.blockHeaders s.planned t ∧
      Emitted t v (padding s.blockStreams.length) [] := by
  obtain ⟨t, v, hbody, hflush, ht, hv⟩ := compress_fits hN hhint hfit
  have hpos : t.streamPos = s.blockStreams.length := ht.streamed.streamPos.trans (Nat.zero_add _)
  refine ⟨t, v, ?_, ht, hv⟩
  rw [exec_compress_of_checks hlegal hN, State.compressWork, hbody, Run.ok_andThen, hflush, Run.ok_andThen, hpos,
    Run.ok_andThen]

/-- The end of COMPRESS when the blocks do not fit. -/
theorem exec_compress_full (hN : s.inputLen ≤ hw.inCap) (hhint : s.opt.btype ≠ 0) (hlegal : s.opt.btype ≠ 3)
    (hover : s.opt.outLimit.toNat < (s.blockStreams.length + 7) / 8) :
    ∃ t, exec .compress s = .next (t.raiseError { code := .writeError, info := t.packer.outLen }) ∧
      BlocksCut s s.greedyEntries s.planBlocks 0 s.blockStreams s.blockHeaders s.planned t := by
  obtain ⟨t, hrun, ht⟩ := compress_full hN hhint hover
  refine ⟨t, ?_, ht⟩
  rw [exec_compress_of_checks hlegal hN, State.compressWork, hrun, Run.stop_andThen, Run.finish_stop]

theorem blockHeaders_length (s : State) : s.blockHeaders.length = s.planBlocks.length := by
  rw [State.blockHeaders, planHeaders_length, State.finished, State.doneBlocks, List.length_map]

section Finished

variable {t v : State}
  (ht : BlocksDone s s.greedyEntries s.planBlocks 0 s.blockStreams s.blockHeaders s.planned t)
  (hv : Emitted t v (padding s.blockStreams.length) [])

include ht hv

theorem finished_blocksOut : v.packer.blocksOut = word s.planBlocks.length := by
  have hstart : s.planned.packer.blocksOut = 0 := rfl
  have hnone : word ([] : List (Nat × BitVec 3)).length = 0 := rfl
  rw [hv.blocksOut, ht.streamed.blocksOut, blockHeaders_length, hstart, hnone]
  exact (BitVec.add_zero _).trans (BitVec.zero_add _)

theorem finished_lens : v.lens =
    { gLen := word s.greedyEntries.length, gA := 0, gB := word s.inputLen, sLen := word s.keptEntries.length,
      planLen := word s.planBlocks.length } := by
  have hlens : v.lens = t.lens := by rw [hv.rest]
  have hkept : t.lens = { s.planned.lens with sLen := t.lens.sLen } := congrArg State.lens ht.rest
  have hsLen : t.lens.sLen = word s.keptEntries.length := by
    have hstore : t.lens.sLen.toNat = s.keptEntries.length := ht.sLen.trans (Nat.zero_add _)
    rw [← hstore, word, BitVec.ofNat_toNat, BitVec.setWidth_eq]
  rw [hlens, hkept, hsLen, planned_eq]

theorem finished_opt : v.opt = s.opt := (hv.opt.trans ht.streamed.opt).trans (planned_opt s)

end Finished

end Run

end Sys2Proof.Machine
end

section
/-! PROOFS. The number of blocks of COMPRESS (40_control.md R442). -/

namespace Sys2Proof.Machine

open Config (hw)

section Ended

variable {s t : State}

/-- The end of COMPRESS keeps the packer, the lengths and the results, whether it is READ_ERROR or success. -/
theorem next_of_compressEnd {f : State} (h : (compressEnd f).finish = .next t) :
    t.packer = f.packer ∧ t.lens = f.lens ∧ t.res = f.res := by
  unfold compressEnd at h
  split at h
  · rw [Run.finish_stop] at h
    obtain rfl := Host.Outcome.next.inj h
    exact ⟨rfl, rfl, rfl⟩
  · rw [Run.finish_ok] at h
    obtain rfl := Host.Outcome.next.inj h
    exact ⟨rfl, rfl, rfl⟩

theorem next_of_compressResults {v : State} {n : Nat} (h : (compressEnd (v.compressResults n)).finish = .next t) :
    t.packer = v.packer ∧ t.lens = v.lens ∧
      t.res = { r0 := v.packer.outLen, r1 := v.lens.planLen, r2 := v.packer.blocksOut, r3 := word n } := by
  obtain ⟨hpacker, hlens, hres⟩ := next_of_compressEnd h
  rw [hpacker, hlens, hres, compressResults_eq]
  exact ⟨rfl, rfl, rfl⟩

/-- Under the STORED hint COMPRESS ends in WRITE_ERROR, or with the headers of its chunks counted. -/
theorem blocksOut_of_stored (hhint : s.opt.btype = 0) (hN : s.inputLen ≤ hw.inCap) (hexec : exec .compress s = .next t)
    (herr : t.status.errCode ≠ .writeError) : t.packer.blocksOut = word (storedChunks hw s.inputLen).length := by
  have hemits := compressBody_emits_stored hhint hN
  rw [exec_compress_of_checks (by rw [hhint]; decide) hN, State.compressWork] at hexec
  by_cases hroom : s.compressStart.HasRoom (storedStream true 0 (storedChunks hw s.inputLen) s.window).length
  · obtain ⟨u, hrun, hu⟩ := hemits.fits hroom
    have hpacker := packer_of_stored hu
    rw [hrun, Run.ok_andThen, flush_of_aligned (by rw [hpacker]), Run.ok_andThen, Run.ok_andThen] at hexec
    rw [(next_of_compressResults hexec).1, hpacker]
  · obtain ⟨u, hrun, -⟩ := hemits.full hroom
    rw [hrun, Run.stop_andThen, Run.stop_andThen, Run.finish_stop] at hexec
    obtain rfl := Host.Outcome.next.inj hexec
    exact absurd rfl herr

/-- Under the other hints COMPRESS ends in WRITE_ERROR, or with one header and one plan entry for each block. -/
theorem blocksOut_of_not_stored (hhint : s.opt.btype ≠ 0) (hlegal : s.opt.btype ≠ 3) (hN : s.inputLen ≤ hw.inCap)
    (hexec : exec .compress s = .next t) (herr : t.status.errCode ≠ .writeError) :
    t.packer.blocksOut = word s.planBlocks.length ∧ t.lens.planLen = word s.planBlocks.length := by
  by_cases hfit : (s.blockStreams.length + 7) / 8 ≤ s.opt.outLimit.toNat
  · obtain ⟨u, v, heq, hu, hv⟩ := exec_compress_fits hN hhint hlegal hfit
    obtain ⟨hpacker, hlens, -⟩ := next_of_compressResults (heq.symm.trans hexec)
    rw [hpacker, hlens, finished_lens hu hv]
    exact ⟨finished_blocksOut hu hv, rfl⟩
  · obtain ⟨u, heq, -⟩ := exec_compress_full hN hhint hlegal (not_le.1 hfit)
    rw [heq] at hexec
    obtain rfl := Host.Outcome.next.inj hexec
    exact absurd rfl herr

/-- Settles O36: the blocks counted are those of the plan, which the bisection keeps below SPLITMAX, or the chunks of
the window. -/
theorem splitCapBoundsTheBlocks : Obligations.SplitCapBoundsTheBlocks := by
  intro s t _ _ hN hexec herr
  have hno : t.status.errCode ≠ .writeError := by
    rcases herr with h | h <;> rw [h] <;> decide
  have hcap : hw.inCap < 2 ^ 32 := by decide
  refine ⟨fun hhint => ?_, fun hhint => ?_⟩
  · have h0 : s.opt.btype ≠ 0 := by rcases hhint with h | h <;> rw [h] <;> decide
    have h3 : s.opt.btype ≠ 3 := by rcases hhint with h | h <;> rw [h] <;> decide
    obtain ⟨hblocks, hlen⟩ := blocksOut_of_not_stored h0 h3 hN hexec hno
    have hplan := planBlocks_isPlan hN
    have hplanCap : hw.planCap < 2 ^ 32 := by decide
    refine ⟨hblocks.trans hlen.symm, fun hmax => ?_⟩
    have hsplit := hplan.splitCap fun h => hmax (BitVec.eq_of_toNat_eq h)
    rw [hlen, BitVec.toNat_ofNat, Nat.mod_eq_of_lt (hplan.planCap.trans_lt hplanCap)]
    exact hsplit
  · rw [blocksOut_of_stored hhint hN hexec hno, storedChunks_length, BitVec.toNat_ofNat]
    exact Nat.mod_eq_of_lt (by omega)

end Ended

end Sys2Proof.Machine
end

section
/-! PROOFS. COMPRESS under the FIXED and DYNAMIC hints leaves the parse, the plan, the kept parses and the stream of the
blocks (40_control.md R433 to R437). -/

namespace Sys2Proof.Machine

open Config (hw)

/-- BFINAL is set in the last header of a plan's blocks. -/
theorem planHeaders_getLast? (h : Nat) (w : List Byte) (pos : Nat) {xs : List DoneBlock} (hxs : xs ≠ []) :
    ∃ y, (planHeaders h w pos xs).getLast? = some y ∧ y.2.getLsbD 2 = true := by
  induction xs generalizing pos with
  | nil => exact absurd rfl hxs
  | cons x xs ih =>
    cases xs with
    | nil =>
      refine ⟨_, rfl, ?_⟩
      have hall : ∀ k : BitVec 2, (BitVec.ofBool true ++ k).getLsbD 2 = true := by decide
      exact hall _
    | cons x' xs' =>
      obtain ⟨y, hy, hfinal⟩ := ih (pos + (blockStream h w false pos x).length) (by simp)
      refine ⟨y, ?_, hfinal⟩
      rw [planHeaders] at hy ⊢
      rw [planHeaders, List.getLast?_cons_cons]
      exact hy

section Whole

variable {s : State}

/-- The runs of bytes COMPRESS writes. -/
def writtenRuns (s t : State) : List (Nat × Nat) :=
  [(Region.output.base, t.packer.outLen.toNat), (Region.storeG.base, 8 * s.greedyEntries.length),
   (Region.storeS.base, 8 * s.keptEntries.length), (Region.plan.base, 32 * s.planBlocks.length)]

/-- What the blocks leave alone after the parse and the split is outside the runs written. -/
theorem sameMemOutside_writtenRuns {u t : State} (hplanned : Planned s u)
    (hframe : ∀ x, Outside 0 t.packer.outLen.toNat 0 (0 + s.keptEntries.length) 0 (0 + s.planBlocks.length) x →
      t.readByte x = u.readByte x) : SameMemOutside (writtenRuns s t) s t := by
  intro x hx
  simp only [writtenRuns, List.forall_mem_cons] at hx
  obtain ⟨hout, hstoreG, hstoreS, hplan, -⟩ := hx
  have hentries : ∀ i, 0 ≤ i → i < 0 + s.planBlocks.length → x < planAddr i 4 ∨ planAddr (i + 1) 0 ≤ x :=
    fun i _ hi => by
      simp only [planAddr_eq]
      omega
  rw [hframe x ⟨hout, by omega, hentries⟩]
  exact hplanned.frame x hstoreG (by simp only [planAddr_eq]; omega)

section Finished

variable {t v : State}
  (ht : BlocksDone s s.greedyEntries s.planBlocks 0 s.blockStreams s.blockHeaders s.planned t)
  (hv : Emitted t v (padding s.blockStreams.length) [])

include ht hv

theorem finished_streamPos : v.streamPos = s.blockStreams.length + (8 - s.blockStreams.length % 8) % 8 := by
  have hpos : t.streamPos = s.blockStreams.length := ht.streamed.streamPos.trans (Nat.zero_add _)
  rw [hv.streamPos, hpos, padding, List.length_replicate]

theorem finished_streamBits : v.streamBits = s.blockStreams ++ padding s.blockStreams.length := by
  have hstart : s.planned.streamBits = [] := rfl
  rw [hv.stream, ht.streamed.stream, hstart, List.nil_append]

theorem finished_packer : v.packer =
    { v.packer with outLen := word ((s.blockStreams.length + 7) / 8), bitCnt := 0, bitBuf := 0 } := by
  have hclean := hv.clean (ht.streamed.clean (compressStart_clean s))
  have hpos := finished_streamPos ht hv
  have hbytes : v.streamPos / 8 = (s.blockStreams.length + 7) / 8 := by omega
  rw [← hbytes]
  exact packer_of_aligned hclean (by omega)

theorem finished_outLen (hN : s.inputLen ≤ hw.inCap) :
    v.packer.outLen.toNat = (s.blockStreams.length + 7) / 8 := by
  have hbits := blockStreams_length_le hN
  rw [finished_packer ht hv]
  show (word _).toNat = _
  rw [BitVec.toNat_ofNat, Nat.mod_eq_of_lt (by omega)]

theorem finished_frame {x : Nat} (hx : Outside 0 v.packer.outLen.toNat 0 (0 + s.keptEntries.length) 0
    (0 + s.planBlocks.length) x) : v.readByte x = s.planned.readByte x := by
  have hle := hv.outLen_le
  obtain ⟨hout, hstore, hplan⟩ := hx
  have hstart : s.planned.packer.outLen.toNat = 0 := rfl
  have hsLen : s.planned.storeLen .s = 0 := rfl
  rw [hv.mem x (by omega)]
  exact ht.frame x ⟨by omega, by rw [hsLen]; exact hstore, hplan⟩

theorem finished_out_le (hN : s.inputLen ≤ hw.inCap) :
    Region.output.base + v.packer.outLen.toNat ≤ Region.storeG.base := by
  have hbits := blockStreams_length_le hN
  have hpos := finished_streamPos ht hv
  exact State.outLen_le_of_streamPos (by omega)

theorem finished_entriesG (hN : s.inputLen ≤ hw.inCap) : HoldsEntries v .g 0 s.greedyEntries := by
  have hlen := (greedyEntries_isParse hN).1.length_le
  have hout := finished_out_le ht hv hN
  have hcap : hw.inCap = hw.storeCap := rfl
  have hin := input_lt_output
  have hstores := storeG_lt_storeS
  have hreg : (storeRegion .g).base = Region.storeG.base := rfl
  refine (planned_spec hN).entries.congr fun y hy hy' => finished_frame ht hv ⟨?_, ?_, fun i _ hi => ?_⟩
  · omega
  · omega
  · have hplan := plan_lt_input (i := i + 1) (by have := (planBlocks_isPlan hN).planCap; omega)
    have hbase : Region.output.base ≤ Region.storeG.base := output_lt_storeG
    omega

theorem finished_entriesS (hN : s.inputLen ≤ hw.inCap) : HoldsEntries v .s 0 s.keptEntries := by
  have hout := finished_out_le ht hv hN
  have hstores := storeG_lt_storeS
  have hreg : (storeRegion .s).base = Region.storeS.base := rfl
  have hentries : HoldsEntries t .s 0 s.keptEntries := ht.entries
  exact hentries.congr fun y hy _ => hv.mem y (.inr (by omega))

theorem finished_words (hN : s.inputLen ≤ hw.inCap) {j : Nat} {x : DoneBlock} {y : Nat × BitVec 3}
    (hx : s.finished[j]? = some x) (hy : s.blockHeaders[j]? = some y) :
    HoldsWords v (planAddr j 0) (doneWords s.opt.btype y.2
      ((s.parts s.greedyEntries s.planBlocks).take j).flatten.length x) := by
  have hj : j < s.planBlocks.length := by
    have := (List.getElem?_eq_some_iff.1 hx).1
    rwa [State.finished, State.doneBlocks, List.length_map] at this
  have hplan := plan_lt_input (i := j + 1) (by have := (planBlocks_isPlan hN).planCap; omega)
  have hin := input_lt_output
  have hout := output_lt_storeG
  have hstores := storeG_lt_storeS
  simp only [planAddr_eq] at hplan
  rw [doneWords_eq]
  refine HoldsWords.append ?_ ?_
  · have hblock : s.planBlocks[j]? = some x.1 := by
      rw [State.finished, State.doneBlocks, List.getElem?_map, Option.map_eq_some_iff] at hx
      obtain ⟨p, hp, rfl⟩ := hx
      exact hp
    refine ((planned_spec hN).words j x.1 hblock).congr fun z hz hz' =>
      finished_frame ht hv ⟨.inl ?_, .inl ?_, fun i _ hi => ?_⟩ <;>
      simp only [planAddr_eq, List.length_cons, List.length_nil] at hz hz' ⊢ <;> omega
  · have hlate := ht.words j x y hx hy
    have hsLen : s.planned.storeLen .s = 0 := rfl
    rw [hsLen, Nat.zero_add, Nat.zero_add] at hlate
    refine hlate.congr fun z hz hz' => hv.mem z (.inl ?_)
    change z < planAddr j 4 + 4 * 4 at hz'
    simp only [planAddr_eq] at hz'
    omega

theorem finished_obs (hN : s.inputLen ≤ hw.inCap) {p : PlanBlock} (hp : s.planBlocks.getLast? = some p) :
    v.obs = { curBlock := word (s.planBlocks.length - 1), iterCount := word (s.kept s.greedyEntries p).iters,
              bestBits := word (est hw s.opt.btype (s.doneBlock s.greedyEntries p).2) } := by
  have hobs : v.obs = t.obs := by rw [hv.rest]
  obtain ⟨-, -, hbits⟩ := kept_spec hN (planBlocks_good hN p (List.mem_of_getLast? hp))
  rw [hobs, ht.obs, State.obsAfter, hp, Nat.zero_add, Option.map_some, Option.getD_some, hbits]
  rfl

theorem finished_lastBlock (hplan : s.planBlocks ≠ []) : s.blockHeaders.getLast?.map (·.2) = some v.packer.lastBlock ∧
    v.packer.lastBlock.getLsbD 2 = true := by
  have hne : s.finished ≠ [] := by
    rw [State.finished, State.doneBlocks, Ne, List.map_eq_nil_iff]
    exact hplan
  obtain ⟨y, hy, hfinal⟩ := planHeaders_getLast? s.opt.btype s.window 0 hne
  have hlast : v.packer.lastBlock = y.2 := by
    rw [hv.lastBlock, ht.streamed.lastBlock, State.blockHeaders, hy]
    rfl
  rw [hlast, State.blockHeaders, hy]
  exact ⟨rfl, hfinal⟩

theorem finished_ends (n : Nat) : EndsWell s (v.compressResults n).complete := by
  have hrest : v = { s.compressStart with
      packer := v.packer, mem := v.mem, lens := v.lens, obs := v.obs, cache := v.cache } := by
    rw [hv.rest, ht.rest, planned_eq]
  rw [compressResults_eq, hrest]
  exact ⟨rfl, rfl, rfl, rfl, rfl, rfl, rfl, rfl⟩

theorem finished_sameMem (hN : s.inputLen ≤ hw.inCap) : SameMemOutside (writtenRuns s v) s v :=
  sameMemOutside_writtenRuns (planned_spec hN) fun _ hx => finished_frame ht hv hx

end Finished

theorem cut_ends {t : State}
    (ht : BlocksCut s s.greedyEntries s.planBlocks 0 s.blockStreams s.blockHeaders s.planned t) :
    EndsFull s (t.raiseError { code := .writeError, info := t.packer.outLen }) := by
  have hrest : t = { s.compressStart with
      packer := t.packer, mem := t.mem, lens := t.lens, obs := t.obs, cache := t.cache, draws := t.draws } := by
    rw [ht.rest, planned_eq]
  rw [hrest]
  exact ⟨rfl, rfl, rfl, rfl, rfl, rfl, rfl, rfl⟩

theorem cut_stream {t : State}
    (ht : BlocksCut s s.greedyEntries s.planBlocks 0 s.blockStreams s.blockHeaders s.planned t) :
    StreamCut s.compressStart t s.blockStreams s.blockHeaders :=
  (planned_streamed s).trans_cut s.compressStart.hasRoom_zero nofun ht.cut

theorem zip_map_self {α β : Type} (f : α → β) (xs : List α) : xs.zip (xs.map f) = xs.map fun x => (x, f x) := by
  induction xs with
  | nil => rfl
  | cons x xs ih => rw [List.map_cons, List.zip_cons_cons, ih, List.map_cons]

theorem finished_eq_zip (s : State) : s.planBlocks.zip
    ((s.parts s.greedyEntries s.planBlocks).map fun es => es.map Entry.sym) = s.finished := by
  rw [State.parts, List.map_map, zip_map_self]
  rfl

/-- Settles O33: the greedy parse, the plan of the bisection, the parses the squeezes keep, and the blocks of them, which
either fit and are flushed to a byte boundary, or are cut at OUT_LIMIT. -/
theorem compressParsesTheWholeWindow : Obligations.CompressParsesTheWholeWindow := by
  intro s hhint hN hfail
  have h0 : s.opt.btype ≠ 0 := by rcases hhint with h | h <;> rw [h] <;> decide
  have h3 : s.opt.btype ≠ 3 := by rcases hhint with h | h <;> rw [h] <;> decide
  have hplan := planBlocks_isPlan hN
  obtain ⟨hparse, hgreedy⟩ := greedyEntries_isParse hN
  refine ⟨s.greedyEntries, s.planBlocks, s.parts s.greedyEntries s.planBlocks,
    s.planBlocks.map fun p => (s.kept s.greedyEntries p).iters, hparse, hgreedy, hplan, List.length_map _,
    List.length_map _, fun j p best n hp hbest hn => ?_, ?_⟩
  · rw [State.parts, List.getElem?_map, hp] at hbest
    rw [List.getElem?_map, hp] at hn
    obtain rfl := Option.some.inj hbest
    obtain rfl := Option.some.inj hn
    obtain ⟨hsq, hkept, -⟩ := kept_spec hN (planBlocks_good hN p (List.mem_of_getElem? hp))
    exact ⟨hsq, hkept⟩
  · rw [finished_eq_zip]
    refine ⟨fun hfit => ?_, fun hover => ?_⟩
    · obtain ⟨t, v, hexec, ht, hv⟩ := exec_compress_fits hN h0 h3 hfit
      have hopt := finished_opt ht hv
      have hends := finished_ends ht hv s.blockStreams.length
      have hpacker := finished_packer ht hv
      have hlens := finished_lens ht hv
      have hstream := finished_streamBits ht hv
      have hblocks := finished_blocksOut ht hv
      have hentriesG := finished_entriesG ht hv hN
      have hentriesS := finished_entriesS ht hv hN
      have hmem := finished_sameMem ht hv hN
      obtain ⟨hlast, hfinal⟩ := finished_lastBlock ht hv hplan.nonempty
      have hnofail : (v.compressResults s.blockStreams.length).opt.readFailed = false := by
        rw [compressResults_eq]
        exact hopt ▸ hfail
      rw [compressEnd_of_not_readFailed hnofail, Run.finish_ok] at hexec
      rw [compressResults_eq, if_neg (hopt ▸ h0)] at hexec hends
      refine ⟨_, hexec, hends, hstream, congrArg Packer.bitCnt hpacker, congrArg Packer.bitBuf hpacker,
        congrArg Packer.outLen hpacker, hblocks, hlast, hfinal, hentriesG, hentriesS,
        fun j x y hx hy => finished_words ht hv hN hx hy, hlens, rfl, fun n x hn hx => ?_, hmem⟩
      rw [List.getLast?_map, Option.map_eq_some_iff] at hn
      rw [State.finished, State.doneBlocks, List.getLast?_map] at hx
      obtain ⟨p, hp, rfl⟩ := hn
      rw [hp] at hx
      obtain rfl := Option.some.inj hx
      exact finished_obs ht hv hN hp
    · obtain ⟨t, hexec, ht⟩ := exec_compress_full hN h0 h3 hover
      exact ⟨_, hexec, cut_ends ht, (cut_stream ht).raiseError _,
        sameMemOutside_writtenRuns (planned_spec hN) fun _ hx => ht.frame _ hx⟩

end Whole

end Sys2Proof.Machine
end

section
/-! PROOFS. More iterations of the squeeze never make the output of COMPRESS longer (40_control.md R441). -/

namespace Sys2Proof.Machine

open Config (hw)

/-! ## The squeeze with more iterations -/

section Squeezed

variable {e : Nat → Nat} {stagnation : Nat}

/-- A squeeze that may run longer keeps a parse of no greater estimate: when it ends before the other's best pass, the
other would have ended there too. -/
theorem firstLeast_le_of_longer {iters iters' m m' n n' : Nat} (hn : n ≤ n') (hm : IsFirstLeast e iters m)
    (hm' : IsFirstLeast e iters' m') (hle : iters ≤ n)
    (hgoing : ∀ k l, 1 ≤ k → k < iters → IsFirstLeast e k l → k < l + stagnation)
    (hend : iters' = n' ∨ (1 ≤ iters' ∧ m' + stagnation ≤ iters')) : e m' ≤ e m := by
  obtain ⟨hmi, -, -⟩ := hm
  have hleast' := hm'.2.1
  by_cases hreach : m ≤ iters'
  · exact hleast' m hreach
  · rcases hend with heq | ⟨hpos, hstop⟩
    · omega
    · have := hgoing iters' m' hpos (by omega) hm'
      omega

end Squeezed

/-- The state with another NUMITER. -/
def State.withNumIter (s : State) (n : Word) : State := { s with opt := { s.opt with numIter := n } }

section Longer

variable {s : State} {gs : List Entry} {p : PlanBlock} {n : Word}

theorem GoodBlock.withNumIter (hp : GoodBlock s gs p) (n : Word) : GoodBlock (s.withNumIter n) gs p :=
  ⟨hp.le, hp.end_le, hp.parse⟩

theorem withNumIter_btype (s : State) (n : Word) : (s.withNumIter n).opt.btype = s.opt.btype := rfl

theorem withNumIter_window (s : State) (n : Word) : (s.withNumIter n).window = s.window := rfl

theorem withNumIter_greedyEntries (s : State) (n : Word) : (s.withNumIter n).greedyEntries = s.greedyEntries := rfl

theorem withNumIter_planBlocks (s : State) (n : Word) : (s.withNumIter n).planBlocks = s.planBlocks := rfl

/-- The estimate of the parse kept for a block of the plan. -/
def keptEst (s : State) (gs : List Entry) (p : PlanBlock) : Nat := est hw s.opt.btype (s.doneBlock gs p).2

theorem keptEst_withNumIter_le (hN : s.inputLen ≤ hw.inCap) (hp : GoodBlock s gs p)
    (hn : s.opt.numIter.toNat ≤ n.toNat) : keptEst (s.withNumIter n) gs p ≤ keptEst s gs p := by
  obtain ⟨⟨m, hm, hbest, hle, hgoing, -⟩, -, -⟩ := kept_spec hN hp
  obtain ⟨⟨m', hm', hbest', -, -, hend'⟩, -, -⟩ := kept_spec (s := s.withNumIter n) hN (hp.withNumIter n)
  rw [keptEst, keptEst, State.doneBlock, State.doneBlock, hbest, hbest']
  exact firstLeast_le_of_longer hn hm hm' hle hgoing hend'

/-- The squeeze keeps no parse worse than the greedy one. -/
theorem keptEst_le (hN : s.inputLen ≤ hw.inCap) (hp : GoodBlock s gs p) :
    keptEst s gs p ≤ rangeEst hw s.opt.btype (gs.map Entry.sym) p.gs p.ge := by
  obtain ⟨⟨m, hm, hbest, -⟩, -, -⟩ := kept_spec hN hp
  have hslice : slice (gs.map Entry.sym) p.gs p.ge = (slice gs p.gs p.ge).map Entry.sym := by
    rw [slice, slice, List.map_take, List.map_drop]
  rw [keptEst, State.doneBlock, hbest, rangeEst, hslice]
  exact hm.2.1 0 (Nat.zero_le _)

end Longer

/-! ## The bits of a block by its estimate -/

section Bits

theorem est_fixed (t : List Sym) : est hw 1 t = fixedBits t := rfl

theorem est_of_not_fixed {h : Nat} (hh : h ≠ 1) (t : List Sym) : est hw h t = min (dynBits hw t) (fixedBits t) :=
  if_neg hh

theorem est_le_fixedBits (h : Nat) (t : List Sym) : est hw h t ≤ fixedBits t := by
  by_cases hh : h = 1
  · rw [hh, est_fixed]
  · rw [est_of_not_fixed hh]
    exact min_le_right _ _

theorem blockBits_fixed (pos : Nat) (x : DoneBlock) : blockBits 1 pos x = est hw 1 x.2 := rfl

/-- Under the other hints the block takes its estimate, or the stored bits when they are fewer. -/
theorem blockBits_of_not_fixed {h : Nat} (hh : h ≠ 1) (pos : Nat) (x : DoneBlock) : blockBits h pos x =
    if x.1.b - x.1.a ≤ hw.storedMax then min (storedBits hw pos (x.1.b - x.1.a)) (est hw h x.2) else est hw h x.2 := by
  rw [blockBits, blockType_of_not_fixed hh, est_of_not_fixed hh]
  rcases autoChoice_cases pos (x.1.b - x.1.a) x.2 with ⟨heq, hn, hd, hf⟩ | ⟨heq, hlt, hst⟩ | ⟨heq, hle, hst⟩ <;>
    simp only [heq]
  · rw [if_pos hn]
    omega
  · split
    · next hn => have := hst hn; omega
    · omega
  · split
    · next hn => have := hst hn; omega
    · omega

theorem blockBits_le_est (h pos : Nat) (x : DoneBlock) : blockBits h pos x ≤ est hw h x.2 := by
  by_cases hh : h = 1
  · rw [hh, blockBits_fixed]
  · rw [blockBits_of_not_fixed hh]
    split
    · exact min_le_right _ _
    · exact le_rfl

/-- A block that begins no later, with no greater estimate, ends no later. -/
theorem blockEnd_mono {h pos pos' : Nat} {x y : DoneBlock} (hpos : pos' ≤ pos) (hblock : y.1 = x.1)
    (hest : est hw h y.2 ≤ est hw h x.2) : pos' + blockBits h pos' y ≤ pos + blockBits h pos x := by
  by_cases hh : h = 1
  · rw [hh] at hest ⊢
    rw [blockBits_fixed, blockBits_fixed]
    omega
  · rw [blockBits_of_not_fixed hh, blockBits_of_not_fixed hh, hblock]
    split
    · next hn =>
      have hstored : pos' + storedBits hw pos' (x.1.b - x.1.a) ≤ pos + storedBits hw pos (x.1.b - x.1.a) := by
        rw [storedBits_of_le hn, storedBits_of_le hn]
        simp only [storedPad]
        omega
      omega
    · omega

theorem planStream_cons_length {w : List Byte} {x : DoneBlock} (hx : x.InWindow w) (h pos : Nat)
    (xs : List DoneBlock) : (planStream h w pos (x :: xs)).length =
      blockBits h pos x + (planStream h w (pos + blockBits h pos x) xs).length := by
  rw [planStream, List.length_append, blockStream_length hx]

/-- Blocks that begin no later, each with no greater estimate, end no later. -/
theorem planEnd_mono {w : List Byte} {h : Nat} {ys xs : List DoneBlock}
    (hall : List.Forall₂ (fun y x : DoneBlock => y.1 = x.1 ∧ est hw h y.2 ≤ est hw h x.2) ys xs)
    (hxs : ∀ x ∈ xs, x.InWindow w) {pos pos' : Nat} (hpos : pos' ≤ pos) :
    pos' + (planStream h w pos' ys).length ≤ pos + (planStream h w pos xs).length := by
  induction hall generalizing pos pos' with
  | nil => exact Nat.add_le_add_right hpos _
  | @cons y x ys xs hyx _ ih =>
    obtain ⟨hblock, hest⟩ := hyx
    obtain ⟨hx, htail⟩ := List.forall_mem_cons.1 hxs
    have hy : y.InWindow w := by rwa [DoneBlock.InWindow, hblock]
    have hrest := ih htail (blockEnd_mono hpos hblock hest)
    rw [planStream_cons_length hx, planStream_cons_length hy]
    omega

theorem planStream_length_le_est {w : List Byte} (h : Nat) {xs : List DoneBlock} (hxs : ∀ x ∈ xs, x.InWindow w)
    (pos : Nat) : (planStream h w pos xs).length ≤ (xs.map fun x => est hw h x.2).sum := by
  induction xs generalizing pos with
  | nil => exact le_rfl
  | cons x xs ih =>
    obtain ⟨hx, htail⟩ := List.forall_mem_cons.1 hxs
    rw [planStream_cons_length hx, List.map_cons, List.sum_cons]
    exact Nat.add_le_add (blockBits_le_est h pos x) (ih htail _)

/-- The cuts of the bisection never raise the estimate (43_block_splitter.md R711). -/
theorem sum_rangeEst_le {h margin : Nat} {t : List Sym} {rs : List (Nat × Nat)} (hrs : Bisected h margin t rs) :
    (rs.map fun r => rangeEst hw h t r.1 r.2).sum ≤ est hw h t := by
  induction hrs with
  | whole =>
    have hslice : slice t 0 t.length = t := by rw [slice, List.drop_zero, Nat.sub_zero, List.take_length]
    simp only [List.map_cons, List.map_nil, List.sum_cons, List.sum_nil, rangeEst, hslice]
    exact le_rfl
  | cut before after i k j _ hcut _ _ ih =>
    obtain ⟨-, -, hsave, -⟩ := hcut
    rw [cutBits] at hsave
    simp only [List.map_append, List.map_cons, List.sum_append, List.sum_cons] at ih ⊢
    omega

end Bits

/-! ## The whole output -/

section Output

variable {s t : State}

/-- The output takes at most 11 bits for each byte of the window, and 10 more. -/
theorem blockStreams_length_le_window (hN : s.inputLen ≤ hw.inCap) :
    s.blockStreams.length ≤ 11 * s.inputLen + 10 := by
  have hplan := planBlocks_isPlan hN
  have hwhole := fixedBits_le_of_isParse (greedyEntries_isParse hN).1
  have hblocks : ((s.finished.map fun x => est hw s.opt.btype x.2)).sum ≤
      (s.planBlocks.map fun p => rangeEst hw s.opt.btype (s.greedyEntries.map Entry.sym) p.gs p.ge).sum := by
    rw [State.finished, State.doneBlocks, List.map_map]
    exact List.sum_le_sum fun p hp => keptEst_le hN (planBlocks_good hN p hp)
  have hsum := sum_rangeEst_le hplan.ranges
  rw [List.map_map] at hsum
  calc s.blockStreams.length
      ≤ (s.finished.map fun x => est hw s.opt.btype x.2).sum :=
        planStream_length_le_est _ (doneBlocks_inWindow (planBlocks_good hN)) 0
    _ ≤ est hw s.opt.btype (s.greedyEntries.map Entry.sym) := hblocks.trans hsum
    _ ≤ fixedBits (s.greedyEntries.map Entry.sym) := est_le_fixedBits _ _
    _ ≤ 11 * s.inputLen + 10 := hwhole

theorem blockStreams_withNumIter_le (hN : s.inputLen ≤ hw.inCap) {n : Word} (hn : s.opt.numIter.toNat ≤ n.toNat) :
    (s.withNumIter n).blockStreams.length ≤ s.blockStreams.length := by
  have hgood := planBlocks_good hN
  have hest : ∀ p ∈ s.planBlocks, keptEst (s.withNumIter n) s.greedyEntries p ≤ keptEst s s.greedyEntries p :=
    fun p hp => keptEst_withNumIter_le hN (hgood p hp) hn
  simp only [keptEst, withNumIter_btype] at hest
  have hall : List.Forall₂ (fun y x : DoneBlock => y.1 = x.1 ∧ est hw s.opt.btype y.2 ≤ est hw s.opt.btype x.2)
      ((s.withNumIter n).doneBlocks s.greedyEntries s.planBlocks) s.finished := by
    rw [State.finished, State.doneBlocks, State.doneBlocks, List.forall₂_map_left_iff, List.forall₂_map_right_iff,
      List.forall₂_same]
    exact fun p hp => ⟨rfl, hest p hp⟩
  have hend := planEnd_mono hall (doneBlocks_inWindow hgood) (le_refl 0)
  rw [Nat.zero_add, Nat.zero_add] at hend
  rw [State.blockStreams, State.finished, withNumIter_btype, withNumIter_window, withNumIter_greedyEntries,
    withNumIter_planBlocks]
  exact hend

/-- RES0 under the STORED hint depends on the window and OUT_LIMIT only. -/
theorem r0_of_stored (hhint : s.opt.btype = 0) (hN : s.inputLen ≤ hw.inCap) (hexec : exec .compress s = .next t) :
    t.res.r0 = if storedBits hw 0 s.inputLen / 8 ≤ s.opt.outLimit.toNat then word (storedBits hw 0 s.inputLen / 8)
      else s.res.r0 := by
  have hemits := compressBody_emits_stored hhint hN
  have hlen := storedStream_window_length (s := s)
  rw [exec_compress_of_checks (by rw [hhint]; decide) hN, State.compressWork] at hexec
  split
  · next hfit =>
    obtain ⟨u, hrun, hu⟩ := hemits.fits ((compressStart_hasRoom s).2 (by rwa [hlen]))
    have hpacker := packer_of_stored hu
    rw [hrun, Run.ok_andThen, flush_of_aligned (by rw [hpacker]), Run.ok_andThen, Run.ok_andThen] at hexec
    obtain ⟨-, -, hres⟩ := next_of_compressResults hexec
    rw [hres, hpacker]
  · next hover =>
    obtain ⟨u, hrun, hu⟩ := hemits.full (mt (compressStart_hasRoom s).1 (by rwa [hlen]))
    rw [hrun, Run.stop_andThen, Run.stop_andThen, Run.finish_stop] at hexec
    obtain rfl := Host.Outcome.next.inj hexec
    show u.res.r0 = _
    rw [hu.rest]
    rfl

/-- RES0 under the other hints: the bytes of the blocks (40_control.md R435). -/
theorem r0_of_not_stored (hhint : s.opt.btype ≠ 0) (hlegal : s.opt.btype ≠ 3) (hN : s.inputLen ≤ hw.inCap)
    (hroom : 4 * (s.inputLen + 2) ≤ s.opt.outLimit.toNat) (hexec : exec .compress s = .next t) :
    t.res.r0.toNat = (s.blockStreams.length + 7) / 8 := by
  have hlen := blockStreams_length_le_window hN
  obtain ⟨u, v, heq, hu, hv⟩ := exec_compress_fits hN hhint hlegal (by omega)
  obtain ⟨-, -, hres⟩ := next_of_compressResults (heq.symm.trans hexec)
  rw [hres]
  exact finished_outLen hu hv hN

/-- Settles O35: the plan is the same, each block's kept estimate is no greater, and a block that begins no later with no
greater estimate ends no later. -/
theorem moreIterationsNeverGrowTheOutput : Obligations.MoreIterationsNeverGrowTheOutput := by
  intro s t u n hlegal hN hroom hn ht hu
  by_cases hhint : s.opt.btype = 0
  · rw [r0_of_stored hhint hN ht, r0_of_stored (s := s.withNumIter n) hhint hN hu]
    exact le_rfl
  · have hle := blockStreams_withNumIter_le hN hn
    rw [r0_of_not_stored hhint hlegal hN hroom ht,
      r0_of_not_stored (s := s.withNumIter n) hhint hlegal hN hroom hu]
    omega

end Output

end Sys2Proof.Machine
end

section
/-! PROOFS. The match cache by its positions: what a search stores and keeps, and the events that empty the cache
(41_lz77_parser.md R530, R532). -/

namespace Sys2Proof.Machine

open Config (hw)

/-! ## Records by position -/

theorem Cache.find?_filter (c : Cache) (f : Nat → Bool) (q : Nat) :
    (c.filter fun e => f e.1).find? (fun e => e.1 == q) = if f q then c.find? (fun e => e.1 == q) else none := by
  rw [List.find?_filter]
  cases hq : f q
  · refine List.find?_eq_none.2 fun e _ he => ?_
    simp only [decide_eq_true_eq, beq_iff_eq] at he
    obtain ⟨hf, rfl⟩ := he
    exact absurd hf (Bool.eq_false_iff.1 hq)
  · congr 1
    funext e
    by_cases he : e.1 = q <;> simp [he, hq]

theorem Cache.get?_put (c : Cache) (p : Nat) (r : MatchRec) (q : Nat) :
    (c.put p r).get? q = if q = p then some r else c.get? q := by
  have hbelow := c.find?_filter (fun n => decide (n < p)) q
  have habove := c.find?_filter (fun n => decide (p < n)) q
  unfold Cache.get? Cache.put
  rw [List.find?_append, List.find?_cons, hbelow, habove]
  rcases lt_trichotomy q p with hlt | rfl | hlt
  · have hne : (p == q) = false := by simp [hlt.ne']
    simp [hlt, hlt.ne, hne, hlt.not_gt]
  · simp
  · have hne : (p == q) = false := by simp [hlt.ne]
    simp [hlt, hlt.ne', hne, hlt.not_gt]

/-- A search leaves its answer in the entry of its position, and every other entry as it was. -/
theorem cachedRec_get? (x : SearchCtx) (c : Cache) (p q : Nat) :
    (cachedRec hw x c p).2.get? q = if q = p then some (cachedRec hw x c p).1 else c.get? q := by
  unfold cachedRec
  split
  · next r hr =>
    split
    · next hq => rw [hq, hr]
    · rfl
  · exact Cache.get?_put c p _ q

/-- Every record of the first cache is in the second. -/
def Cache.KeptIn (c c' : Cache) : Prop := ∀ p r, c.get? p = some r → c'.get? p = some r

/-- A search runs on a miss only, so it never replaces a record. -/
theorem keptIn_keptBySearch (c₀ : Cache) (x : SearchCtx) : KeptBySearch c₀.KeptIn x := by
  intro c p _ hc q r hq
  have hhit := hc q r hq
  unfold cachedRec
  split
  · exact hhit
  · next hmiss =>
    have hne : q ≠ p := by
      rintro rfl
      rw [hhit] at hmiss
      cases hmiss
    rw [Cache.get?_put, if_neg hne, hhit]

/-- A property that every search of the window keeps, which the empty cache need not have, is kept by every command
that does not empty the cache. -/
theorem exec_keeps_cache_of_not_emptied {R : Cache → Prop} {s t : State}
    (hR : s.inputLen ≤ hw.inCap → KeptBySearch R s.searchCtx) (hs : R s.cache) {i : Instr} (hcacheclr : i ≠ .cacheclr)
    (hsreset : i ≠ .sreset) (hcompress : i ≠ .compress) (ht : exec i s = .next t) : R t.cache := by
  have hkeeps : ∀ r : Run, R r.cache → r.finish = .next t → R t.cache :=
    fun r hr hfin => by rwa [Run.cache_of_finish hfin]
  by_cases hi : usesCache i = false
  · obtain ⟨r, hexec, hcache⟩ := exec_cache_of_not_usesCache hi s
    exact hkeeps r (by rwa [hcache]) (hexec ▸ ht)
  cases i with
  | sreset => exact absurd rfl hsreset
  | cacheclr => exact absurd rfl hcacheclr
  | compress => exact absurd rfl hcompress
  | findmatch => exact hkeeps _ (findmatchCmd_keeps hR hs) ht
  | greedy => exact hkeeps _ (greedyCmd_keeps hR hs) ht
  | sppass => exact hkeeps _ (sppassCmd_keeps hR hs) ht
  | squeeze => exact hkeeps _ (squeezeCmd_keeps hR hs) ht
  | _ => exact absurd rfl hi

theorem exec_keepsCache {i : Instr} {s t : State} (hcacheclr : i ≠ .cacheclr) (hsreset : i ≠ .sreset)
    (hcompress : i ≠ .compress) (ht : exec i s = .next t) : KeepsCache s t :=
  exec_keeps_cache_of_not_emptied (R := s.cache.KeptIn) (fun _ => keptIn_keptBySearch s.cache s.searchCtx)
    (fun _ _ => id) hcacheclr hsreset hcompress ht

/-! ## Host accesses -/

theorem writeRegion_cache (s : State) {r : Region} (hr : r ≠ .input) (a n : Nat) (v : Word) :
    (s.writeRegion r a n v).cache = s.cache := by
  cases r
  case input => exact absurd rfl hr
  all_goals rfl

theorem hostWriteState_cache_of_invalidating {s : State} (hb : s.status.busy = false) {a : Nat} (n : Nat) (v : Word)
    (ha : Region.input.covers hw a = true ∨ a = Csr.inLen.offset ∨ a = Csr.maxChain.offset) :
    (hostWriteState hw a n v s).cache = [] := by
  rcases ha with ha | rfl | rfl
  · rw [hostWriteState_region s v ha nofun, hb]
    rfl
  · rw [hostWriteState_csr_of_idle hb (c := .inLen) nofun]
    rfl
  · rw [hostWriteState_csr_of_idle hb (c := .maxChain) nofun]
    rfl

theorem hostWriteState_cache_of_busy {s : State} (hb : s.status.busy = true) (a n : Nat) (v : Word) :
    (hostWriteState hw a n v s).cache = s.cache := by
  rcases hostWriteState_cases s v a n with heq | heq | heq | ⟨hidle, -⟩
  · rw [heq]
  · rw [heq, State.ackStatus_cache]
  · rw [heq, State.drop_cache]
  · rw [hb] at hidle
    cases hidle

/-- A write to no part of IN, nor to IN_LEN or MAXCHAIN, by the place it names. -/
theorem hostWriteState_cache_of_other {s : State} {a : Nat} (n : Nat) (v : Word)
    (hin : Region.input.covers hw a = false) (hlen : a ≠ Csr.inLen.offset) (hchain : a ≠ Csr.maxChain.offset) :
    (hostWriteState hw a n v s).cache = s.cache := by
  cases hb : s.status.busy
  case true => exact hostWriteState_cache_of_busy hb a n v
  cases hr : regionAt hw a with
  | none => rw [hostWriteState, hr]
  | some r =>
    rw [regionAt_eq_some_iff] at hr
    by_cases hcsr : r = .csr
    · subst hcsr
      cases hc : csrAt a with
      | none =>
        rw [hostWriteState_unlisted s v hr hc, hb]
        rfl
      | some c =>
        obtain rfl := csrAt_eq_some_iff.1 hc
        by_cases hst : c = .status
        · rw [hst, hostWriteState_status, State.ackStatus_cache]
        rw [hostWriteState_csr_of_idle hb hst]
        by_cases hcmd : c = .cmd
        · subst hcmd
          rw [writeCsr_cmd]
          split
          · exact State.drop_cache s
          · rfl
        · exact writeCsr_cache s v hcmd (fun h => hlen (h ▸ rfl)) fun h => hchain (h ▸ rfl)
    · have hr' : r ≠ .input := by
        rintro rfl
        rw [hr] at hin
        cases hin
      rw [hostWriteState_region s v hr hcsr, hb]
      exact writeRegion_cache s hr' a n v

/-- Settles O18: the place a host write names decides whether it empties the cache, and a command other than the three
that empty it reaches the cache through searches alone, which keep every record. -/
theorem cacheInvalidation : Obligations.CacheInvalidation := by
  refine ⟨fun s a n v hb ha => hostWriteState_cache_of_invalidating hb n v ha, fun s a n v h => ?_, fun s a n => ?_,
    fun s t h => ?_, fun s => ⟨rfl, rfl⟩, fun i s t hcacheclr hsreset hcompress ht =>
      exec_keepsCache hcacheclr hsreset hcompress ht⟩
  · rcases h with hb | ⟨hin, hlen, hchain⟩
    · exact hostWriteState_cache_of_busy hb a n v
    · exact hostWriteState_cache_of_other n v hin hlen hchain
  · obtain ⟨_, _, _, _, _, heq⟩ := hostReadValue_frame s a n
    rw [heq]
  · rcases h with h | h
    · cases h
      rfl
    · cases h
      rfl

end Sys2Proof.Machine
end

section
/-! PROOFS. The two chains of a position (41_lz77_parser.md R502 to R504): which earlier positions are on them, in which
order, which of them are candidates, and what a run length is. -/

namespace Sys2Proof.Machine

open Config (hw)

/-! ## Keys -/

theorem keyOf_eq_none_iff (l : List Byte) : keyOf l = none ↔ l.length < 3 := by
  match l with
  | [] => simp [keyOf]
  | [x] => simp [keyOf]
  | [x, y] => simp [keyOf]
  | x :: y :: z :: l => simp [keyOf]

/-- Two suffixes, one of which has a key, have the same key when their first three bytes agree. -/
theorem keyOf_eq_iff {l : List Byte} (h : 3 ≤ l.length) (l' : List Byte) :
    keyOf l' = keyOf l ↔ l'[0]? = l[0]? ∧ l'[1]? = l[1]? ∧ l'[2]? = l[2]? := by
  match l with
  | x :: y :: z :: l =>
    match l' with
    | [] => simp [keyOf]
    | [x'] => simp [keyOf]
    | [x', y'] => simp [keyOf]
    | x' :: y' :: z' :: l' => simp [keyOf]

/-! ## The earlier positions and the first chain -/

theorem map_fst_walkBack (bs suffix : List Byte) (d : Nat) :
    (walkBack bs suffix d).map Prod.fst = List.range' d bs.length := by
  induction bs generalizing suffix d with
  | nil => rfl
  | cons b bs ih => rw [walkBack, List.map_cons, ih, List.length_cons, List.range'_succ]

/-- The distances of the earlier positions are 1, 2, and so on up to the window size or the window's start. -/
theorem map_fst_earlier {w : List Byte} {p : Nat} (hp : p ≤ w.length) :
    (earlier hw w p).map Prod.fst = List.range' 1 (min 32768 p) := by
  rw [earlier, map_fst_walkBack, List.length_take, List.length_reverse, List.length_take_of_le hp]

theorem earlier_pairwise (w : List Byte) (p : Nat) : (earlier hw w p).Pairwise fun c e => c.1 < e.1 := by
  rw [← List.pairwise_map (f := Prod.fst) (R := (· < ·)), earlier, map_fst_walkBack]
  exact List.pairwise_lt_range'

theorem mem_earlier_iff {w : List Byte} {p : Nat} (hp : p ≤ w.length) (c : Nat × List Byte) :
    c ∈ earlier hw w p ↔ 1 ≤ c.1 ∧ c.1 ≤ p ∧ c.1 ≤ 32768 ∧ c.2 = w.drop (p - c.1) := by
  refine ⟨of_mem_earlier hp, fun ⟨hpos, hle, hwin, hdrop⟩ => ?_⟩
  have hdist : c.1 ∈ (earlier hw w p).map Prod.fst := by
    rw [map_fst_earlier hp, List.mem_range'_1]
    omega
  obtain ⟨e, he, hfst⟩ := List.mem_map.1 hdist
  obtain ⟨-, -, -, hsnd⟩ := of_mem_earlier hp he
  rw [hfst, ← hdrop] at hsnd
  rwa [← Prod.ext hfst hsnd]

theorem chain1_of_no_key {w : List Byte} {p : Nat} (h : w.length < p + 3) : chain1 hw w p = [] := by
  have hkey : keyOf (w.drop p) = none := by
    rw [keyOf_eq_none_iff, List.length_drop]
    omega
  rw [chain1, hkey]

theorem chain1_of_key {w : List Byte} {p : Nat} (h : p + 3 ≤ w.length) :
    chain1 hw w p = (earlier hw w p).filter fun c => keyOf c.2 == keyOf (w.drop p) := by
  cases hkey : keyOf (w.drop p) with
  | none =>
    rw [keyOf_eq_none_iff, List.length_drop] at hkey
    omega
  | some key => rw [chain1, hkey]

theorem chain1_sublist (w : List Byte) (p : Nat) : (chain1 hw w p).Sublist (earlier hw w p) := by
  by_cases h : p + 3 ≤ w.length
  · rw [chain1_of_key h]
    exact List.filter_sublist
  · rw [chain1_of_no_key (by omega)]
    exact List.nil_sublist _

/-- The first chain: the earlier positions within 32768 bytes that share the three bytes of the key. -/
theorem mem_chain1_iff {w : List Byte} {p : Nat} (h : p + 3 ≤ w.length) (c : Nat × List Byte) :
    c ∈ chain1 hw w p ↔ 1 ≤ c.1 ∧ c.1 ≤ p ∧ c.1 ≤ 32768 ∧ c.2 = w.drop (p - c.1) ∧
      w[p - c.1]? = w[p]? ∧ w[p - c.1 + 1]? = w[p + 1]? ∧ w[p - c.1 + 2]? = w[p + 2]? := by
  have hlen : 3 ≤ (w.drop p).length := by
    rw [List.length_drop]
    omega
  rw [chain1_of_key h, List.mem_filter, mem_earlier_iff (by omega), beq_iff_eq, keyOf_eq_iff hlen, and_assoc, and_assoc,
    and_assoc]
  refine and_congr_right fun _ => and_congr_right fun _ => and_congr_right fun _ => and_congr_right fun hdrop => ?_
  simp only [hdrop, List.getElem?_drop, Nat.add_zero]

theorem length_of_mem_chain1 {w : List Byte} {p : Nat} {c : Nat × List Byte} (h : c ∈ chain1 hw w p) :
    p + 3 ≤ w.length := by
  by_contra hlt
  rw [chain1_of_no_key (by omega)] at h
  cases h

/-! ## The candidates -/

theorem firstOfBoth_sublist (r m₁ m₂ : Nat) (l : List (Nat × List Byte)) : (firstOfBoth hw r m₁ m₂ l).Sublist l := by
  induction l generalizing m₁ m₂ with
  | nil => exact List.Sublist.refl []
  | cons e l ih =>
    unfold firstOfBoth
    split
    · split
      · exact (ih _ _).cons_cons e
      · exact (ih _ _).cons e
    · split
      · exact (ih _ _).cons_cons e
      · exact (ih _ _).cons e

theorem candidates_pairwise (w : List Byte) (m p : Nat) : (candidates hw w m p).Pairwise fun c e => c.1 < e.1 :=
  (earlier_pairwise w p).sublist ((firstOfBoth_sublist _ m m _).trans (chain1_sublist w p))

theorem mem_take_cons_iff {α : Type} (c e : α) (l : List α) (m : Nat) :
    c ∈ (e :: l).take m ↔ (0 < m ∧ c = e) ∨ c ∈ l.take (m - 1) := by
  cases m with
  | zero => simp
  | succ m => simp

/-- A member of a chain is kept when it is among the first m₁, or among the first m₂ of those of run length r. -/
theorem mem_firstOfBoth_iff (r m₁ m₂ : Nat) (l : List (Nat × List Byte)) (c : Nat × List Byte) :
    c ∈ firstOfBoth hw r m₁ m₂ l ↔ c ∈ l.take m₁ ∨ c ∈ (l.filter fun e => runOf hw e.2 == r).take m₂ := by
  induction l generalizing m₁ m₂ with
  | nil => simp [firstOfBoth]
  | cons e l ih =>
    rw [mem_take_cons_iff, firstOfBoth]
    by_cases hrun : runOf hw e.2 = r
    · rw [if_pos hrun, List.filter_cons_of_pos (by simpa using hrun), mem_take_cons_iff]
      split
      · rw [List.mem_cons, ih]
        tauto
      · rw [ih]
        tauto
    · rw [if_neg hrun, List.filter_cons_of_neg (by simpa using hrun)]
      split
      · rw [List.mem_cons, ih]
        tauto
      · rw [ih]
        tauto

/-! ## Run lengths -/

theorem leading_spec (b : Byte) (n : Nat) (bs : List Byte) : leading b n bs ≤ n ∧
    (∀ k, k < leading b n bs → bs[k]? = some b) ∧ (leading b n bs = n ∨ bs[leading b n bs]? ≠ some b) := by
  induction n generalizing bs with
  | zero => simp [leading]
  | succ n ih =>
    cases bs with
    | nil => simp [leading]
    | cons c cs =>
      unfold leading
      split
      · next hc =>
        obtain ⟨hle, heq, hend⟩ := ih cs
        refine ⟨Nat.succ_le_succ hle, fun k hk => ?_, hend.imp (congrArg Nat.succ) fun hne => by simpa using hne⟩
        cases k with
        | zero => simp [hc]
        | succ k => simpa using heq k (Nat.lt_of_succ_lt_succ hk)
      · next hc => simpa using hc

theorem leading_le_length (b : Byte) (n : Nat) (bs : List Byte) : leading b n bs ≤ bs.length := by
  by_contra hlt
  have hlast := (leading_spec b n bs).2.1 bs.length (not_le.1 hlt)
  rw [List.getElem?_eq_none le_rfl] at hlast
  cases hlast

/-- The run length of a position: its bytes are equal, inside the window, and there are 258 of them or the next byte
is another or none (41_lz77_parser.md R503). -/
theorem runOf_drop_spec {w : List Byte} {p : Nat} (hp : p < w.length) :
    1 ≤ runOf hw (w.drop p) ∧ runOf hw (w.drop p) ≤ 258 ∧ p + runOf hw (w.drop p) ≤ w.length ∧
      (∀ k, k < runOf hw (w.drop p) → w[p + k]? = w[p]?) ∧
      (runOf hw (w.drop p) = 258 ∨ w[p + runOf hw (w.drop p)]? ≠ w[p]?) := by
  have hrun : runOf hw (w.drop p) = leading w[p] 257 (w.drop (p + 1)) + 1 := by
    rw [List.drop_eq_getElem_cons hp]
    rfl
  have hnext : ∀ k, (w.drop (p + 1))[k]? = w[p + (k + 1)]? := fun k => by
    rw [List.getElem?_drop]
    congr 1
    omega
  have hlen := leading_le_length w[p] 257 (w.drop (p + 1))
  obtain ⟨hle, heq, hend⟩ := leading_spec w[p] 257 (w.drop (p + 1))
  rw [List.length_drop] at hlen
  rw [hrun, List.getElem?_eq_getElem hp]
  refine ⟨by omega, by omega, by omega, fun k hk => ?_, hend.imp (fun h => by rw [h]) fun hne => by rwa [← hnext]⟩
  cases k with
  | zero => exact List.getElem?_eq_getElem hp
  | succ k => rw [← hnext, heq k (Nat.lt_of_succ_lt_succ hk)]

/-- Settles O41: the chain is a filter of the earlier positions, whose distances are 1, 2, and so on, and the candidates
are the two initial parts of it. -/
theorem candidatesAreTheTwoChains : Obligations.CandidatesAreTheTwoChains := by
  refine fun w m p => ⟨fun h => ⟨chain1_of_no_key h, ?_⟩, mem_chain1_iff,
    (earlier_pairwise w p).sublist (chain1_sublist w p), candidates_pairwise w m p,
    mem_firstOfBoth_iff _ m m (chain1 hw w p), runOf_drop_spec⟩
  rw [candidates, chain1_of_no_key h]
  rfl

end Sys2Proof.Machine
end

section
/-! PROOFS. The match record of a position (41_lz77_parser.md R505, R506): the bytes each candidate has in common
with it, and which candidate gives the record its distance for a length. -/

namespace Sys2Proof.Machine

open Config (hw)

/-! ## Common bytes -/

/-- A count of common bytes below its limit, and below the end of the second list, stops at two different
bytes or at the end of the first list. -/
theorem getElem?_lcp_ne {n : Nat} {xs ys : List Byte} (hn : lcp n xs ys < n) (hys : lcp n xs ys < ys.length) :
    xs[lcp n xs ys]? ≠ ys[lcp n xs ys]? := by
  induction n generalizing xs ys with
  | zero => cases hn
  | succ n ih =>
    cases ys with
    | nil => cases hys
    | cons y ys =>
      cases xs with
      | nil => simp [lcp]
      | cons x xs =>
        unfold lcp at hn hys ⊢
        split at hn
        · next hxy =>
          rw [if_pos hxy] at hys ⊢
          simpa using ih (Nat.lt_of_succ_lt_succ hn) (Nat.lt_of_succ_lt_succ hys)
        · next hxy =>
          rw [if_neg hxy]
          simpa using hxy

theorem le_lcp {n k : Nat} {xs ys : List Byte} (hn : k ≤ n) (hys : k ≤ ys.length)
    (h : ∀ i, i < k → xs[i]? = ys[i]?) : k ≤ lcp n xs ys := by
  by_contra hlt
  have hlt := not_le.1 hlt
  exact getElem?_lcp_ne (hlt.trans_le hn) (hlt.trans_le hys) (h _ hlt)

/-- How many bytes a position and an earlier one have in common, within the limit (41_lz77_parser.md R505). -/
def commonPrefix (w : List Byte) (p : Nat) (c : Nat × List Byte) : Nat := lcp (matchLimit hw w p) c.2 (w.drop p)

section Candidates

variable {w : List Byte} {m p : Nat}

/-- The bytes a candidate has in common with the position: they begin with the key, and within the limit
they end at a byte that differs (41_lz77_parser.md R505). -/
theorem commonPrefix_spec {c : Nat × List Byte} (h : c ∈ candidates hw w m p) :
    3 ≤ commonPrefix w p c ∧ commonPrefix w p c ≤ matchLimit hw w p ∧
    (∀ k, k < commonPrefix w p c → w[p - c.1 + k]? = w[p + k]?) ∧
    (commonPrefix w p c < matchLimit hw w p → w[p - c.1 + commonPrefix w p c]? ≠ w[p + commonPrefix w p c]?) := by
  have hchain : c ∈ chain1 hw w p := mem_of_mem_firstOfBoth h
  have hlen := length_of_mem_chain1 hchain
  obtain ⟨-, -, -, hdrop, h0, h1, h2⟩ := (mem_chain1_iff hlen c).1 hchain
  have hfrom : ∀ k, c.2[k]? = w[p - c.1 + k]? := fun k => by rw [hdrop, List.getElem?_drop]
  have hat : ∀ k, (w.drop p)[k]? = w[p + k]? := fun k => List.getElem?_drop
  have hsuffix : matchLimit hw w p ≤ (w.drop p).length := (min_le_right _ _).trans_eq List.length_drop.symm
  have hkey : 3 ≤ matchLimit hw w p := le_min (by decide) (by omega)
  obtain ⟨hle, heq⟩ := lcp_spec (matchLimit hw w p) c.2 (w.drop p)
  refine ⟨le_lcp hkey (hkey.trans hsuffix) fun k hk => ?_, hle, fun k hk => ?_, fun hlt => ?_⟩
  · rw [hfrom, hat]
    match k with
    | 0 => exact h0
    | 1 => exact h1
    | 2 => exact h2
  · rw [← hfrom, ← hat]
    exact heq k hk
  · rw [← hfrom, ← hat]
    exact getElem?_lcp_ne hlt (hlt.trans_le hsuffix)

/-! ## Which candidate gives a length its distance -/

theorem getElem?_extendSub (sub : List Nat) (d l k : Nat) :
    (extendSub hw sub d l)[k]? = sub[k]?.or (if k + 3 ≤ l then some d else none) := by
  rw [extendSub, List.getElem?_append, List.getElem?_replicate]
  by_cases hk : k < sub.length
  · rw [if_pos hk, List.getElem?_eq_getElem hk, Option.some_or]
  · rw [if_neg hk, List.getElem?_eq_none (not_lt.1 hk), Option.none_or]
    have hmin : hw.minMatch = 3 := rfl
    exact if_congr (by omega) rfl rfl

/-- Going through candidates, the record takes for each length not yet reached the first that reaches it. -/
theorem getElem?_foldl_extendSub (l : Nat × List Byte → Nat) (cs : List (Nat × List Byte)) (sub : List Nat) (k : Nat) :
    (cs.foldl (fun sub c => extendSub hw sub c.1 (l c)) sub)[k]? =
      sub[k]?.or ((cs.find? fun c => decide (k + 3 ≤ l c)).map Prod.fst) := by
  induction cs generalizing sub with
  | nil => simp
  | cons c cs ih =>
    rw [List.foldl_cons, ih, getElem?_extendSub, Option.or_assoc, List.find?_cons]
    by_cases hk : k + 3 ≤ l c <;> simp [hk]

theorem matchRec_sub_eq_find? (w : List Byte) (m p k : Nat) : (matchRec hw w m p).sub[k]? =
    ((candidates hw w m p).find? fun c => decide (k + 3 ≤ commonPrefix w p c)).map Prod.fst :=
  getElem?_foldl_extendSub (commonPrefix w p) (candidates hw w m p) [] k

/-- The best length is the number of lengths from 3 up that have a distance. -/
theorem le_matchRec_best_iff (w : List Byte) (m p k : Nat) :
    k + 3 ≤ (matchRec hw w m p).best ↔ k < (matchRec hw w m p).sub.length := by
  rw [matchRec_best]
  split
  · next hsub =>
    rw [hsub, List.length_nil]
    omega
  · omega

/-- The distance for a length up to the best: of the candidates reaching that length, the first and so the nearest. -/
theorem matchRec_subAt_spec {l : Nat} (h3 : 3 ≤ l) (hbest : l ≤ (matchRec hw w m p).best) :
    (∃ c ∈ candidates hw w m p, l ≤ commonPrefix w p c ∧
      (matchRec hw w m p).subAt hw l = c.1) ∧
    (∀ c ∈ candidates hw w m p, l ≤ commonPrefix w p c →
      (matchRec hw w m p).subAt hw l ≤ c.1) := by
  obtain ⟨k, rfl⟩ : ∃ k, l = k + 3 := ⟨l - 3, by omega⟩
  have hlt := (le_matchRec_best_iff w m p k).1 hbest
  have hsub := (List.getElem?_eq_getElem hlt).symm.trans (matchRec_sub_eq_find? w m p k)
  obtain ⟨c, hfind, hdist⟩ := Option.map_eq_some_iff.1 hsub.symm
  have hsubAt : (matchRec hw w m p).subAt hw (k + 3) = c.1 := by
    rw [hdist]
    simp [MatchRec.subAt, hlt]
  obtain ⟨hreach, before, after, hsplit, hbefore⟩ := List.find?_eq_some_iff_append.1 hfind
  have hsorted := candidates_pairwise w m p
  rw [hsplit, List.pairwise_append, List.pairwise_cons] at hsorted
  obtain ⟨-, ⟨hafter, -⟩, -⟩ := hsorted
  rw [hsubAt]
  refine ⟨⟨c, List.mem_of_find?_eq_some hfind, of_decide_eq_true hreach, rfl⟩, fun e he hlong => ?_⟩
  rw [hsplit, List.mem_append, List.mem_cons] at he
  rcases he with he | rfl | he
  · have hshort := hbefore e he
    simp only [Bool.not_eq_true', decide_eq_false_iff_not] at hshort
    exact absurd hlong hshort
  · exact le_rfl
  · exact (hafter e he).le

theorem matchRec_subAt_of_best_lt {l : Nat} (h : (matchRec hw w m p).best < l) :
    (matchRec hw w m p).subAt hw l = 0 := by
  unfold MatchRec.subAt
  split
  · rfl
  · next h3 =>
    have h3 : 3 ≤ l := not_lt.1 h3
    have hlen := mt (le_matchRec_best_iff w m p (l - 3)).2 (by omega)
    exact List.getD_eq_default _ _ (not_lt.1 hlen)

theorem commonPrefix_le_best {c : Nat × List Byte} (h : c ∈ candidates hw w m p) :
    commonPrefix w p c ≤ (matchRec hw w m p).best := by
  have h3 := (commonPrefix_spec h).1
  obtain ⟨k, hk⟩ : ∃ k, commonPrefix w p c = k + 3 := ⟨commonPrefix w p c - 3, by omega⟩
  rw [hk, le_matchRec_best_iff]
  by_contra hle
  have hsub := matchRec_sub_eq_find? w m p k
  rw [List.getElem?_eq_none (not_lt.1 hle)] at hsub
  have hnone := List.find?_eq_none.1 (Option.map_eq_none_iff.1 hsub.symm) c h
  exact hnone (by simp [hk])

theorem matchRec_best_of_no_candidates (h : candidates hw w m p = []) : (matchRec hw w m p).best = 0 := by
  unfold matchRec
  simp only [h]
  rfl

end Candidates

/-- Settles O42: the record's distance for a length is that of the first candidate that reaches it, and
the candidates come by increasing distance. -/
theorem matchRecordIsTheBestOfTheCandidates : Obligations.MatchRecordIsTheBestOfTheCandidates := by
  intro w m p prefixOf r
  refine ⟨fun c hc => commonPrefix_spec hc, matchRec_best_of_no_candidates, fun hne => ?_,
    fun c hc => commonPrefix_le_best hc, fun l h3 hl => matchRec_subAt_spec h3 hl,
    fun l hl => matchRec_subAt_of_best_lt hl, fun l h3 hl => ?_⟩
  · obtain ⟨e, he⟩ := List.exists_mem_of_ne_nil _ hne
    have h3 : 3 ≤ r.best := (commonPrefix_spec he).1.trans (commonPrefix_le_best he)
    obtain ⟨⟨c, hc, hreach, -⟩, -⟩ := matchRec_subAt_spec h3 (le_refl r.best)
    exact ⟨c, hc, le_antisymm (commonPrefix_le_best hc) hreach⟩
  · obtain ⟨⟨c, hc, hreach, hdist⟩, -⟩ := matchRec_subAt_spec (Nat.le_succ_of_le h3) (Nat.succ_le_of_lt hl)
    obtain ⟨-, hleast⟩ := matchRec_subAt_spec h3 hl.le
    exact hdist ▸ hleast c hc ((Nat.le_succ l).trans hreach)

end Sys2Proof.Machine
end

section
/-! PROOFS. FINDMATCH and GREEDY: what the two commands of the parser leave (41_lz77_parser.md R510, R520). -/

namespace Sys2Proof.Machine

open Config (hw)

variable {s : State}

/-! ## FINDMATCH -/

/-- RES0 to RES3 and SUBLEN, loaded with a record and its match clipped at a limit (41_lz77_parser.md R510). -/
def State.reportRecord (s : State) (r : MatchRec) (limit : Nat) : State :=
  { s.storeTable .sublen (sublenWords hw r) with
    res := { r0 := word (clipMatch hw r limit).1, r1 := word (clipMatch hw r limit).2, r2 := word r.best,
             r3 := word (r.subAt hw r.best) } }

theorem checkFindmatch_eq_ok {u : Unit} :
    checkFindmatch hw s = .ok u ↔ s.inputLen ≤ hw.inCap ∧ s.argOf .x0 < s.inputLen := by
  simp only [checkFindmatch, except_bind_eq_ok, checkWindow_eq_ok, require_eq_ok, decide_eq_true_eq, exists_const]

/-- FINDMATCH on a position of a legal window: the answer of the search reported, the cache the search leaves. -/
theorem exec_findmatch_of_checks (hN : s.inputLen ≤ hw.inCap) (hp : s.argOf .x0 < s.inputLen) :
    exec .findmatch s = .next ({ s with cache := (cachedRec hw s.searchCtx s.cache (s.argOf .x0)).2 }.reportRecord
      (cachedRec hw s.searchCtx s.cache (s.argOf .x0)).1 (s.argOf .x1)).complete := by
  show (findmatchCmd hw s).finish = _
  rw [findmatchCmd, (checkFindmatch_eq_ok (u := ())).2 ⟨hN, hp⟩, afterChecks_ok, Run.finish_ok]
  rfl

theorem clipMatch_eq (r : MatchRec) (limit : Nat) : clipMatch hw r limit =
    (if min r.best limit < 3 then 0 else min r.best limit,
      if min r.best limit < 3 then 0 else r.subAt hw (min r.best limit)) := by
  unfold clipMatch
  split <;> rfl

/-- Settles O38: the search answers the record whether the cache held it or not, and stores it under its position
only. -/
theorem findmatchReportsTheRecord : Obligations.FindmatchReportsTheRecord := by
  intro s hN hp hcache r m
  have hrec : (cachedRec hw s.searchCtx s.cache (s.argOf .x0)).1 = r := cachedRec_fst (cacheCoherent_iff.1 hcache) _
  have hget := cachedRec_get? s.searchCtx s.cache (s.argOf .x0)
  have hexec := exec_findmatch_of_checks hN hp
  rw [hrec] at hexec
  simp only [hrec] at hget
  refine ⟨_, hexec, ⟨rfl, rfl, rfl, rfl, rfl, rfl, rfl, rfl⟩, ?_, ?_, ?_, rfl, rfl, rfl, ?_, fun q hq => ?_⟩
  · show ({ r0 := word (clipMatch hw r (s.argOf .x1)).1, r1 := word (clipMatch hw r (s.argOf .x1)).2,
            r2 := word r.best, r3 := word (r.subAt hw r.best) } : Results) = _
    rw [clipMatch_eq]
  · exact holdsWords_storeWords _ Region.sublen.base ((sublenWords hw r).map word)
  · have hmem := s.sameMemBut_storeWords Region.sublen.base ((sublenWords hw r).map word)
    rw [List.length_map, sublenWords_length] at hmem
    exact sameMemOutside_single hmem
  · exact (hget _).trans (if_pos rfl)
  · exact (hget q).trans (if_neg hq)

/-! ## GREEDY -/

/-- GREEDY on a byte range: the parse into G, and its length. -/
theorem exec_greedy_of_byteRange (h : ByteRange s .x0 .x1) :
    exec .greedy s = .next ((s.runGreedy hw (s.argOf .x0) (s.argOf .x1)).2.setRes0
      (s.runGreedy hw (s.argOf .x0) (s.argOf .x1)).1.length).complete := by
  show (greedyCmd hw s).finish = _
  rw [greedyCmd, (checkBytes_eq_ok (u := ())).2 h, afterChecks_ok, Run.finish_ok]

/-- The parse of a byte range, whatever records of the window the cache holds. -/
theorem runGreedy_isParse (hcache : CacheCoherent s) {a b : Nat} (hN : s.inputLen ≤ hw.inCap) (hab : a ≤ b)
    (hb : b ≤ s.inputLen) : IsParse s.window (s.runGreedy hw a b).1 a b ∧
      ∀ e ∈ (s.runGreedy hw a b).1, e.sym = greedySym s.searchCtx s.opt.lazy b e.pos :=
  greedyParse_isParse ((searchCtx_window_length s).le.trans hN) s.opt.lazy hab
    (hb.trans_eq (searchCtx_window_length s).symm) (cacheCoherent_iff.1 hcache)

theorem runGreedy_lens (s : State) : (s.runGreedy hw (s.argOf .x0) (s.argOf .x1)).2.lens =
    { s.lens with
      gLen := word (s.runGreedy hw (s.argOf .x0) (s.argOf .x1)).1.length, gA := s.arg.a0, gB := s.arg.a1 } := by
  have hword : ∀ v : Word, word v.toNat = v := fun v => by simp [word]
  simp only [State.runGreedy, State.argOf, hword]

/-- Settles O39: the parse through a coherent cache is R521's, and its entries can be stored. -/
theorem greedyWritesAParse : Obligations.GreedyWritesAParse := by
  intro s hrange hcache
  obtain ⟨hN, hab, hb⟩ := id hrange
  obtain ⟨hparse, hsyms⟩ := runGreedy_isParse hcache hN hab hb
  have hstorable := hparse.storable (by have : hw.inCap = 16777216 := rfl; omega)
  have hexec := exec_greedy_of_byteRange hrange
  refine ⟨_, _, hexec, ⟨rfl, rfl, rfl, rfl, rfl, rfl, rfl, rfl⟩, hparse, hsyms, ?_, runGreedy_lens s, rfl, ?_, rfl, rfl,
    exec_keepsCache (i := .greedy) nofun nofun nofun hexec⟩
  · exact (holdsEntries_storeEntries s .g 0 hstorable).congr fun _ _ _ => rfl
  · exact sameMemOutside_single (sameMemBut_storeEntries s .g 0 _)

end Sys2Proof.Machine
end

section
/-! PROOFS. COSTFIXED and COSTSTAT: the cost tables the two commands load (42_squeeze.md R620, R630). -/

namespace Sys2Proof.Machine

open Config (hw)

/-! ## The cost tables in memory -/

/-- A cost model stored in LLCOST and DCOST: the two tables lie apart, and nothing else is written. -/
theorem storeCosts_spec (s : State) {c : CostModel} (hll : c.ll.length = 286) (hdd : c.dd.length = 30) :
    HoldsTable (s.storeCosts c) .llcost c.ll ∧ HoldsTable (s.storeCosts c) .dcost c.dd ∧
      SameMemOutside [(Region.llcost.base, 4 * 286), (Region.dcost.base, 4 * 30)] s (s.storeCosts c) := by
  have hmem := sameMemOutside_storeTables s .llcost .dcost c.ll c.dd
  rw [hll, hdd] at hmem
  have hapart : Region.llcost.base + 4 * 286 ≤ Region.dcost.base := by decide
  refine ⟨?_, holdsWords_storeWords _ Region.dcost.base (c.dd.map word), hmem⟩
  refine (holdsWords_storeWords s Region.llcost.base (c.ll.map word)).congr fun y _ hy => ?_
  rw [List.length_map, hll] at hy
  exact State.sameMemBut_storeWords _ Region.dcost.base (c.dd.map word) y (.inl (hy.trans_le hapart))

/-! ## The two cost models -/

theorem take_eq_map_getD {l : List Nat} {n : Nat} (hn : n ≤ l.length) :
    l.take n = (List.range n).map fun k => l.getD k 0 := by
  refine List.ext_getElem (by simpa using hn) fun k hk hk' => ?_
  have hlt : k < l.length := by
    rw [List.length_take] at hk
    omega
  simp [hlt]

/-- The fixed code's costs, entry by entry (42_squeeze.md R613, 30_encoding.md R333). -/
theorem costFixed_eq : costFixed hw =
    { ll := (List.range 286).map fun k => fixedLitLens.getD k 0, dd := List.replicate 30 5 } := by
  have hlen : 286 ≤ fixedLitLens.length := by
    simp only [fixedLitLens, List.length_append, List.length_replicate]
    omega
  have hdd : fixedDistLens.take 30 = List.replicate 30 5 := by
    rw [fixedDistLens, List.take_replicate]
    rfl
  show ({ ll := fixedLitLens.take 286, dd := fixedDistLens.take 30 } : CostModel) = _
  rw [take_eq_map_getD hlen, hdd]

theorem exec_costfixed (s : State) : exec .costfixed s = .next (s.storeCosts (costFixed hw)).complete := rfl

theorem exec_coststat_of_symbolRange {s : State} {x : StoreSel} {es : List Entry} (h : SymbolRange s x es) :
    exec (.coststat x) s = .next (s.storeCosts (costStat hw s.absent (es.map Entry.sym))).complete := by
  show (coststatCmd hw x s).finish = _
  rw [coststatCmd, loadRange_eq_ok.2 h, afterChecks_ok, Run.finish_ok]

/-- Settles O44: both commands store a cost model of 286 and 30 entries, and nothing else. -/
theorem costCommandsLoadTheTables : Obligations.CostCommandsLoadTheTables := by
  refine ⟨fun s => ?_, fun s x es h => ?_⟩
  · obtain ⟨hllLen, hddLen⟩ := costFixed_length
    obtain ⟨hll, hdd, hmem⟩ := storeCosts_spec s hllLen hddLen
    refine ⟨_, exec_costfixed s, ⟨rfl, rfl, rfl, rfl, rfl, rfl, rfl, rfl⟩, ?_, ?_, hmem, rfl, rfl, rfl, rfl, rfl⟩
    · rw [costFixed_eq] at hll ⊢
      exact hll
    · rw [costFixed_eq] at hdd ⊢
      exact hdd
  · obtain ⟨hllLen, hddLen⟩ := costStat_length s.absent (es.map Entry.sym)
    obtain ⟨hll, hdd, hmem⟩ := storeCosts_spec s hllLen hddLen
    refine ⟨_, exec_coststat_of_symbolRange h, ⟨rfl, rfl, rfl, rfl, rfl, rfl, rfl, rfl⟩, hll, hdd, ?_, ?_, hmem,
      rfl, rfl, rfl, rfl, rfl⟩
    · simp
    · simp

end Sys2Proof.Machine
end

section
/-! PROOFS. SPPASS: one pass along the shortest path, appended to S (42_squeeze.md R640, R643). -/

namespace Sys2Proof.Machine

open Config (hw)

/-- The path and the cost of a pass do not depend on the records the cache holds (41_lz77_parser.md R531). -/
theorem shortestPath_eq_of_coherent {x : SearchCtx} (hN : x.window.length ≤ hw.inCap) (m : CostModel) {a b : Nat}
    (hab : a ≤ b) (hb : b ≤ x.window.length) {c : Cache} (hc : c.CoherentWith x) :
    shortestPath hw x m a b c =
      { shortestPath hw x m a b [] with cache := (shortestPath hw x m a b c).cache } := by
  unfold shortestPath
  simp only [passFrom_fst_eq hN m hb (b - a) (Nat.add_sub_cancel' hab) _ _ hc (coherentWith_nil x)]

theorem checkSppass_eq_ok {s : State} {u : Unit} : checkSppass hw s = .ok u ↔ ByteRange s .x0 .x1 ∧
    s.storeLen .s ≤ hw.storeCap ∧ s.storeLen .s + (s.argOf .x1 - s.argOf .x0) ≤ hw.storeCap := by
  simp only [checkSppass, checkStoreRoom, except_bind_eq_ok, checkBytes_eq_ok, require_eq_ok, Bool.and_eq_true,
    decide_eq_true_eq, exists_const]

/-- S after a pass, with its length and the results that report it (42_squeeze.md R640). -/
def State.appendPath (s : State) (r : PathResult) : State :=
  { s.storeEntries .s (s.storeLen .s) r.path with
    cache := r.cache
    lens := { s.lens with sLen := word (s.storeLen .s + r.path.length) }
    res := { s.res with r0 := word r.path.length, r1 := word (r.cost % 2 ^ 32), r2 := word (r.cost / 2 ^ 32) } }

/-- SPPASS on a byte range with room in S. -/
theorem exec_sppass_of_room {s : State} (hrange : ByteRange s .x0 .x1)
    (hroom : s.storeLen .s + (s.argOf .x1 - s.argOf .x0) ≤ hw.storeCap) :
    exec .sppass s = .next (s.appendPath
      (shortestPath hw s.searchCtx (s.loadCosts hw) (s.argOf .x0) (s.argOf .x1) s.cache)).complete := by
  show (sppassCmd hw s).finish = _
  rw [sppassCmd, (checkSppass_eq_ok (u := ())).2 ⟨hrange, by omega, hroom⟩, afterChecks_ok, Run.finish_ok]
  rfl

/-- Settles O45: the pass through a coherent cache is the pass without one, and its entries can be stored. -/
theorem sppassAppendsThePath : Obligations.SppassAppendsThePath := by
  intro s hrange hcache hroom r
  obtain ⟨hN, hab, hb⟩ := id hrange
  have hlen := searchCtx_window_length s
  have hparse : IsParse s.window r.path (s.argOf .x0) (s.argOf .x1) :=
    shortestPath_isParse (hlen.le.trans hN) (s.loadCosts hw) hab (hb.trans_eq hlen.symm) (coherentWith_nil s.searchCtx)
  have hstorable := hparse.storable (hb.trans_lt (hN.trans_lt (by decide)))
  have hexec := exec_sppass_of_room hrange hroom
  have hkeeps := exec_keepsCache (i := .sppass) nofun nofun nofun hexec
  rw [shortestPath_eq_of_coherent (hlen.le.trans hN) _ hab (hb.trans_eq hlen.symm) (cacheCoherent_iff.1 hcache)]
    at hexec hkeeps
  refine ⟨hparse, _, hexec, ⟨rfl, rfl, rfl, rfl, rfl, rfl, rfl, rfl⟩, ?_, rfl, rfl, ?_, rfl, rfl, hkeeps⟩
  · exact (holdsEntries_storeEntries s .s (s.storeLen .s) hstorable).congr fun _ _ _ => rfl
  · exact sameMemOutside_single (sameMemBut_storeEntries s .s (s.storeLen .s) r.path)

end Sys2Proof.Machine
end

section
/-! PROOFS. The shortest-path pass finds a path of least cost (42_squeeze.md R641, R642): while the pass stands at
position p, the slot of each position n from p on is traced out by a path to n, and that path is the least, in cost and
then in its final edge, among the paths to n whose edges begin below p. -/

namespace Sys2Proof.Machine

open Config (hw)

section Optimal

variable {x : SearchCtx} {c : CostModel} {a b p n : Nat}

/-! ## Edges and paths of edges -/

/-- The symbol is that of an edge out of position p: the literal, or a match of the record of p at its least distance
(42_squeeze.md R641). -/
def IsEdge (x : SearchCtx) (p : Nat) : Sym → Prop
  | .lit v => v = x.window.getD p 0
  | .ref len dist => 3 ≤ len ∧ len ≤ (matchRec hw x.window x.maxChain p).best ∧
      dist = (matchRec hw x.window x.maxChain p).subAt hw len

theorem isEdgePath_iff {es : List Entry} :
    IsEdgePath x es a b ↔ Tiles es a b ∧ ∀ e ∈ es, IsEdge x e.pos e.sym := by
  refine and_congr_right fun _ => forall₂_congr fun e _ => ?_
  cases e.sym <;> rfl

theorem IsEdge.span_pos {y : Sym} (h : IsEdge x p y) : 1 ≤ y.span := by
  cases y with
  | lit v => exact le_rfl
  | ref len dist =>
    obtain ⟨h3, -, -⟩ := h
    exact (by decide : 1 ≤ 3).trans h3

/-- Two edges between the same positions are the same. -/
theorem IsEdge.eq_of_span_eq {y z : Sym} (hy : IsEdge x p y) (hz : IsEdge x p z) (h : y.span = z.span) : y = z := by
  cases y with
  | lit v =>
    cases z with
    | lit u => exact congrArg Sym.lit ((show v = _ from hy).trans (show u = _ from hz).symm)
    | ref len dist =>
      obtain ⟨h3, -, -⟩ := hz
      have h1 : 1 = len := h
      omega
  | ref len dist =>
    obtain ⟨h3, -, rfl⟩ := hy
    cases z with
    | lit u =>
      have h1 : len = 1 := h
      omega
    | ref len' dist' =>
      obtain ⟨-, -, rfl⟩ := hz
      obtain rfl : len = len' := h
      rfl

theorem tiles_concat {es : List Entry} {e : Entry} :
    Tiles (es ++ [e]) a b ↔ Tiles es a e.pos ∧ e.pos + e.sym.span = b := by
  induction es generalizing a with
  | nil =>
    constructor
    · rintro ⟨rfl, hend⟩
      exact ⟨rfl, hend⟩
    · rintro ⟨rfl, hend⟩
      exact ⟨rfl, hend⟩
  | cons y es ih =>
    rw [List.cons_append, Tiles, Tiles, ih, and_assoc]

theorem isEdgePath_concat {es : List Entry} {e : Entry} : IsEdgePath x (es ++ [e]) a b ↔
    IsEdgePath x es a e.pos ∧ IsEdge x e.pos e.sym ∧ e.pos + e.sym.span = b := by
  simp only [isEdgePath_iff, tiles_concat, List.forall_mem_append, List.forall_mem_singleton]
  tauto

theorem isEdgePath_nil : IsEdgePath x [] a b ↔ a = b := by simp [isEdgePath_iff, Tiles]

theorem pathCost_concat (c : CostModel) (es : List Entry) (e : Entry) :
    pathCost c (es ++ [e]) = pathCost c es + c.sym e.sym := by simp [pathCost]

theorem lastSpan_concat (es : List Entry) (e : Entry) : lastSpan (es ++ [e]) = e.sym.span := by simp [lastSpan]

/-- A path has at most one edge for each byte, and each begins below its end. -/
theorem isEdgePath_bounds {es : List Entry} (h : IsEdgePath x es a b) :
    a + es.length ≤ b ∧ ∀ e ∈ es, e.pos < b := by
  induction es using List.reverseRecOn generalizing b with
  | nil => exact ⟨Nat.le_of_eq (isEdgePath_nil.1 h), nofun⟩
  | append_singleton es e ih =>
    obtain ⟨hes, hedge, hend⟩ := isEdgePath_concat.1 h
    obtain ⟨hlen, hpos⟩ := ih hes
    have hspan := hedge.span_pos
    refine ⟨by rw [List.length_append, List.length_singleton]; omega, fun e' he' => ?_⟩
    rcases List.mem_append.1 he' with he' | he'
    · have := hpos e' he'
      omega
    · rw [List.mem_singleton.1 he']
      omega

/-- The distances of a record, by length (41_lz77_parser.md R506). -/
theorem matchRec_sub_eq_some {w : List Byte} {m p i d : Nat} : (matchRec hw w m p).sub[i]? = some d ↔
    i + 3 ≤ (matchRec hw w m p).best ∧ d = (matchRec hw w m p).subAt hw (i + 3) := by
  have hsub : (matchRec hw w m p).subAt hw (i + 3) = (matchRec hw w m p).sub.getD i 0 := rfl
  rw [hsub, le_matchRec_best_iff, List.getElem?_eq_some_iff]
  constructor
  · rintro ⟨hi, rfl⟩
    exact ⟨hi, (List.getD_eq_getElem _ _ hi).symm⟩
  · rintro ⟨hi, rfl⟩
    exact ⟨hi, (List.getD_eq_getElem _ _ hi).symm⟩

/-- The edges the pass relaxes out of p: entry i is the edge that ends at p + i + 1 inside the range, if there is
one. -/
theorem getElem?_edgesFrom (hp : p < b) (i cost : Nat) (y : Sym) :
    (edgesFrom hw x c b p (matchRec hw x.window x.maxChain p))[i]? = some (some (cost, y)) ↔
      IsEdge x p y ∧ y.span = i + 1 ∧ p + (i + 1) ≤ b ∧ cost = c.sym y := by
  have hedges : edgesFrom hw x c b p (matchRec hw x.window x.maxChain p) =
      some (c.lit (x.window.getD p 0), .lit (x.window.getD p 0)) :: none :: matchEdges c 3
        ((matchRec hw x.window x.maxChain p).sub.take (min (matchRec hw x.window x.maxChain p).best (b - p) - 2)) := rfl
  rw [hedges]
  match i with
  | 0 =>
    rw [List.getElem?_cons_zero]
    constructor
    · intro h
      cases h
      exact ⟨rfl, rfl, hp, rfl⟩
    · rintro ⟨hy, hspan, -, rfl⟩
      obtain rfl := hy.eq_of_span_eq (z := .lit (x.window.getD p 0)) rfl hspan
      rfl
  | 1 =>
    rw [List.getElem?_cons_succ, List.getElem?_cons_zero]
    refine iff_of_false nofun ?_
    rintro ⟨hy, hspan, -⟩
    cases y with
    | lit v => cases hspan
    | ref len dist =>
      obtain ⟨h3, -⟩ := hy
      have h2 : len = 2 := hspan
      omega
  | i + 2 =>
    rw [List.getElem?_cons_succ, List.getElem?_cons_succ, getElem?_matchEdges, Option.map_eq_some_iff,
      Nat.add_comm 3 i]
    constructor
    · rintro ⟨d, hd, heq⟩
      rw [List.getElem?_take, Option.ite_none_right_eq_some] at hd
      obtain ⟨hi, hd⟩ := hd
      obtain ⟨hbest, rfl⟩ := matchRec_sub_eq_some.1 hd
      cases heq
      exact ⟨⟨by omega, hbest, rfl⟩, rfl, by omega, rfl⟩
    · rintro ⟨hy, hspan, hend, rfl⟩
      cases y with
      | lit v => cases hspan
      | ref len dist =>
        obtain rfl : len = i + 3 := hspan
        obtain ⟨-, hbest, rfl⟩ := hy
        refine ⟨_, ?_, rfl⟩
        rw [List.getElem?_take, if_pos (by omega)]
        exact matchRec_sub_eq_some.2 ⟨hbest, rfl⟩

/-! ## Paths traced out of slots -/

/-- The slots of n, n - 1, ..., a trace out a path from a to n, and the first holds its cost. -/
inductive Traced (x : SearchCtx) (c : CostModel) (a : Nat) : Nat → List (Option Slot) → List Entry → Prop
  | start (rest : List (Option Slot)) : Traced x c a a (some { cost := 0, via := none } :: rest) []
  | edge {p : Nat} {slots rest : List (Option Slot)} {es : List Entry} {y : Sym} :
      Traced x c a p slots es → IsEdge x p y → rest.drop (y.span - 1) = slots →
      Traced x c a (p + y.span) (some { cost := pathCost c es + c.sym y, via := some y } :: rest)
        (es ++ [{ sym := y, pos := p }])

theorem Traced.isEdgePath {slots : List (Option Slot)} {es : List Entry} (h : Traced x c a n slots es) :
    IsEdgePath x es a n := by
  induction h with
  | start => exact isEdgePath_nil.2 rfl
  | edge _ hedge _ ih => exact isEdgePath_concat.2 ⟨ih, hedge, rfl⟩

theorem Traced.traceBack {slots : List (Option Slot)} {es : List Entry} (h : Traced x c a n slots es) {k : Nat}
    (hk : es.length ≤ k) (acc : List Entry) : traceBack k n slots acc = es ++ acc := by
  induction h generalizing k acc with
  | start => cases k <;> rfl
  | @edge p slots rest es y _ hedge hrest ih =>
    rw [List.length_append, List.length_singleton] at hk
    obtain ⟨k, rfl⟩ : ∃ m, k = m + 1 := ⟨k - 1, by omega⟩
    rw [Machine.traceBack, Nat.add_sub_cancel, hrest, ih (by omega), List.append_assoc, List.singleton_append]

/-- The length of a slot's edge, 0 at the start of the range. -/
def Slot.span (slot : Slot) : Nat := (slot.via.map Sym.span).getD 0

theorem Traced.head {slot : Slot} {rest : List (Option Slot)} {es : List Entry}
    (h : Traced x c a n (some slot :: rest) es) : slot.cost = pathCost c es ∧ slot.span = lastSpan es := by
  cases h with
  | start => exact ⟨rfl, rfl⟩
  | @edge p _ _ es y =>
    rw [pathCost_concat, lastSpan_concat]
    exact ⟨rfl, rfl⟩

/-! ## The slots ahead of the pass -/

/-- A path to n whose edges begin below p. -/
def PathBelow (x : SearchCtx) (a p n : Nat) (es : List Entry) : Prop :=
  IsEdgePath x es a n ∧ ∀ e ∈ es, e.pos < p

theorem isEdgePath_iff_pathBelow {es : List Entry} : IsEdgePath x es a n ↔ PathBelow x a n n es :=
  ⟨fun h => ⟨h, (isEdgePath_bounds h).2⟩, fun h => h.1⟩

/-- A path beyond p whose edges begin below p + 1 has its last edge below p, or at p. -/
theorem pathBelow_succ {es : List Entry} (hap : a ≤ p) (hpn : p < n) : PathBelow x a (p + 1) n es ↔
    PathBelow x a p n es ∨
      ∃ es' y, es = es' ++ [{ sym := y, pos := p }] ∧ IsEdgePath x es' a p ∧ IsEdge x p y ∧ p + y.span = n := by
  constructor
  · rintro ⟨hpath, hbelow⟩
    rcases List.eq_nil_or_concat es with rfl | ⟨es, ⟨y, q⟩, rfl⟩
    · have := isEdgePath_nil.1 hpath
      omega
    · rw [List.concat_eq_append] at hpath hbelow ⊢
      obtain ⟨hes, hedge, hend⟩ := isEdgePath_concat.1 hpath
      have hq : q < p + 1 := hbelow _ (List.mem_append_right _ List.mem_cons_self)
      rcases Nat.eq_or_lt_of_le (Nat.le_of_lt_succ hq) with rfl | hlt
      · exact .inr ⟨es, y, rfl, hes, hedge, hend⟩
      · refine .inl ⟨hpath, List.forall_mem_append.2 ⟨fun e he => ?_, List.forall_mem_singleton.2 hlt⟩⟩
        exact ((isEdgePath_bounds hes).2 e he).trans hlt
  · rintro (⟨hpath, hbelow⟩ | ⟨es', y, rfl, hes, hedge, hend⟩)
    · exact ⟨hpath, fun e he => (hbelow e he).trans (Nat.lt_succ_self p)⟩
    · refine ⟨isEdgePath_concat.2 ⟨hes, hedge, hend⟩, List.forall_mem_append.2
        ⟨fun e he => ?_, List.forall_mem_singleton.2 (Nat.lt_succ_self p)⟩⟩
      exact ((isEdgePath_bounds hes).2 e he).trans (Nat.lt_succ_self p)

/-- The last edge of a path below p that ends beyond p is longer than the way from p. -/
theorem PathBelow.lt_lastSpan {es : List Entry} (h : PathBelow x a p n es) (hap : a ≤ p) (hpn : p < n) :
    n < p + lastSpan es := by
  obtain ⟨hpath, hbelow⟩ := h
  rcases List.eq_nil_or_concat es with rfl | ⟨es, e, rfl⟩
  · have := isEdgePath_nil.1 hpath
    omega
  · rw [List.concat_eq_append] at hpath hbelow ⊢
    obtain ⟨-, -, hend⟩ := isEdgePath_concat.1 hpath
    have hpos : e.pos < p := hbelow e (List.mem_append_right _ List.mem_cons_self)
    rw [lastSpan_concat]
    omega

/-- The slot of n is the least among the given paths: in cost, and on a tie in its final edge (42_squeeze.md R642). -/
def Slot.IsLeast (c : CostModel) (slot : Slot) (paths : List Entry → Prop) : Prop :=
  ∀ es, paths es → slot.cost ≤ pathCost c es ∧ (pathCost c es = slot.cost → slot.span ≤ lastSpan es)

/-- The slot of n, put before the slots `done` of p - 1, ..., a whatever the slots between hold, traces out `es`. -/
def Slot.Traces (x : SearchCtx) (c : CostModel) (a p n : Nat) (done : List (Option Slot)) (slot : Slot)
    (es : List Entry) : Prop :=
  ∀ between : List (Option Slot), p + between.length = n → Traced x c a n (some slot :: (between ++ done)) es

/-- What the slot of n holds while the pass stands at p: nothing if no path to n begins below p, else the least such
path. -/
def Best (x : SearchCtx) (c : CostModel) (a p n : Nat) (done : List (Option Slot)) : Option Slot → Prop
  | none => ∀ es, ¬ PathBelow x a p n es
  | some slot => (∃ es, slot.Traces x c a p n done es) ∧ slot.IsLeast c (PathBelow x a p n)

variable {done : List (Option Slot)} {here : Slot}

theorem Slot.Traces.pass {slot : Slot} {es : List Entry} (h : slot.Traces x c a p n done es) (o : Option Slot) :
    slot.Traces x c a (p + 1) n (o :: done) es := by
  intro between hlen
  have := h (between ++ [o]) (by rw [List.length_append, List.length_singleton]; omega)
  rwa [List.append_assoc, List.singleton_append] at this

/-- The slot an edge out of p writes. -/
theorem Slot.Traces.alongEdge {es : List Entry} (h : here.Traces x c a p p done es) {y : Sym} (hy : IsEdge x p y) :
    ({ cost := here.cost + c.sym y, via := some y } : Slot).Traces x c a (p + 1) (p + y.span) (some here :: done)
      (es ++ [{ sym := y, pos := p }]) := by
  intro between hlen
  have hpath := h [] rfl
  rw [hpath.head.1]
  refine .edge hpath hy (List.drop_left' ?_)
  have := hy.span_pos
  omega

/-- Relaxation along the edge from p to n, if there is one. -/
def relaxed (base : Nat) (edge : Option (Nat × Sym)) (old : Option Slot) : Option Slot :=
  match edge with
  | none => old
  | some e => some (relaxSlot (base + e.1) e.2 old)

theorem getElem?_relax (base : Nat) (es : List (Option (Nat × Sym))) (dp : List (Option Slot)) (i : Nat) :
    (relax base es dp)[i]? = dp[i]?.map (relaxed base es[i]?.join) := by
  induction es generalizing dp i with
  | nil => exact Option.map_id'.symm
  | cons e es ih =>
    cases dp with
    | nil => cases e <;> simp [relax]
    | cons old dp =>
      cases e with
      | none =>
        cases i with
        | zero => rfl
        | succ i => exact ih dp i
      | some e =>
        cases i with
        | zero => rfl
        | succ i => exact ih dp i

/-- The slot of n when no edge from p reaches it. -/
theorem Best.of_no_edge (hap : a ≤ p) (hpn : p < n) {old : Option Slot} (hold : Best x c a p n done old)
    (hno : ∀ y, IsEdge x p y → p + y.span ≠ n) : Best x c a (p + 1) n (some here :: done) old := by
  have hpaths : ∀ es, PathBelow x a (p + 1) n es → PathBelow x a p n es := fun es h => by
    rcases (pathBelow_succ hap hpn).1 h with h | ⟨-, y, -, -, hedge, hend⟩
    · exact h
    · exact absurd hend (hno y hedge)
  cases old with
  | none => exact fun es h => hold es (hpaths es h)
  | some slot =>
    obtain ⟨⟨es, hes⟩, hleast⟩ := hold
    exact ⟨⟨es, hes.pass _⟩, fun es h => hleast es (hpaths es h)⟩

/-- A path to n with its last edge at p costs no less than the slot of p and the edge. -/
theorem Best.through (hhere : Best x c a p p done (some here)) {es : List Entry} (hes : IsEdgePath x es a p)
    (y : Sym) : here.cost + c.sym y ≤ pathCost c (es ++ [{ sym := y, pos := p }]) := by
  have := (hhere.2 es (isEdgePath_iff_pathBelow.1 hes)).1
  rw [pathCost_concat]
  exact Nat.add_le_add_right this _

/-- The slot of n after relaxation along the edge y from p: an edge as cheap as the old slot replaces it, as it is the
shorter one. -/
theorem Best.of_edge (hap : a ≤ p) {y : Sym} (hy : IsEdge x p y)
    (hhere : Best x c a p p done (some here)) {old : Option Slot} (hold : Best x c a p (p + y.span) done old) :
    Best x c a (p + 1) (p + y.span) (some here :: done) (some (relaxSlot (here.cost + c.sym y) y old)) := by
  have hpn : p < p + y.span := Nat.lt_add_of_pos_right hy.span_pos
  obtain ⟨es, hes⟩ := hhere.1
  have hnew : (∀ es, PathBelow x a p (p + y.span) es → here.cost + c.sym y ≤ pathCost c es) →
      Best x c a (p + 1) (p + y.span) (some here :: done) (some { cost := here.cost + c.sym y, via := some y }) := by
    refine fun hcheap => ⟨⟨_, hes.alongEdge hy⟩, fun es h => ?_⟩
    rcases (pathBelow_succ hap hpn).1 h with h | ⟨es', z, rfl, hes', hedge, hend⟩
    · have hlong := h.lt_lastSpan hap hpn
      exact ⟨hcheap es h, fun _ => (Nat.lt_of_add_lt_add_left hlong).le⟩
    · obtain rfl := hedge.eq_of_span_eq hy (Nat.add_left_cancel hend)
      refine ⟨hhere.through hes' z, fun _ => ?_⟩
      rw [lastSpan_concat]
      exact le_rfl
  cases old with
  | none => exact hnew fun es h => absurd h (hold es)
  | some slot =>
    obtain ⟨⟨es', hes'⟩, hleast⟩ := hold
    rw [relaxSlot]
    split
    · next hle => exact hnew fun es h => hle.trans (hleast es h).1
    · next hgt =>
      refine ⟨⟨es', hes'.pass _⟩, fun es h => ?_⟩
      rcases (pathBelow_succ hap hpn).1 h with h | ⟨es'', z, rfl, hes'', hedge, hend⟩
      · exact hleast es h
      · obtain rfl := hedge.eq_of_span_eq hy (Nat.add_left_cancel hend)
        have := hhere.through hes'' z
        exact ⟨by omega, fun heq => by omega⟩

/-! ## The pass -/

/-- The slots `dp` of p, ..., b and `done` of p - 1, ..., a while the pass stands at p. -/
structure PassAt (x : SearchCtx) (c : CostModel) (a b p : Nat) (dp done : List (Option Slot)) : Prop where
  length : dp.length = b + 1 - p
  reached : ∃ slot, dp[0]? = some (some slot)
  best : ∀ i old, dp[i]? = some old → Best x c a p (p + i) done old

theorem PassAt.start (hab : a ≤ b) :
    PassAt x c a b a (some { cost := 0, via := none } :: List.replicate (b - a) none) [] where
  length := by
    rw [List.length_cons, List.length_replicate]
    omega
  reached := ⟨_, rfl⟩
  best i old hold := by
    have hempty : ∀ es, PathBelow x a a (a + i) es → es = [] ∧ i = 0 := by
      rintro es ⟨hpath, hbelow⟩
      cases es with
      | nil => exact ⟨rfl, by have := isEdgePath_nil.1 hpath; omega⟩
      | cons e es =>
        have hpos : e.pos = a := (isEdgePath_iff.1 hpath).1.1
        have := hbelow e List.mem_cons_self
        omega
    cases i with
    | zero =>
      obtain rfl := Option.some.inj hold
      refine ⟨⟨[], fun _ _ => .start _⟩, fun es h => ?_⟩
      obtain ⟨rfl, -⟩ := hempty es h
      exact ⟨le_rfl, fun _ => le_rfl⟩
    | succ i =>
      rw [List.getElem?_cons_succ, List.getElem?_replicate] at hold
      split at hold
      · obtain rfl := Option.some.inj hold
        exact fun es h => absurd (hempty es h).2 (Nat.succ_ne_zero i)
      · cases hold

/-- One position of the pass. -/
theorem PassAt.step (hap : a ≤ p) (hpb : p < b) {rest : List (Option Slot)}
    (h : PassAt x c a b p (some here :: rest) done) :
    PassAt x c a b (p + 1)
      (relax here.cost (edgesFrom hw x c b p (matchRec hw x.window x.maxChain p)) rest) (some here :: done) := by
  have hlen := h.length
  rw [List.length_cons] at hlen
  have hhere : Best x c a p p done (some here) := h.best 0 _ rfl
  refine ⟨by rw [relax_length]; omega, relax_head _ _ _ (List.ne_nil_of_length_pos (by omega)), fun i new hnew => ?_⟩
  rw [getElem?_relax, Option.map_eq_some_iff] at hnew
  obtain ⟨old, hold, rfl⟩ := hnew
  have hi : i < rest.length := (List.getElem?_eq_some_iff.1 hold).1
  have hbest := h.best (i + 1) old hold
  have hedges := getElem?_edgesFrom (x := x) (c := c) hpb i
  rw [show p + 1 + i = p + (i + 1) by omega]
  cases hedge : (edgesFrom hw x c b p (matchRec hw x.window x.maxChain p))[i]?.join with
  | none =>
    refine hbest.of_no_edge hap (by omega) fun y hy hend => ?_
    rw [Nat.add_left_cancel_iff] at hend
    rw [(hedges _ y).2 ⟨hy, hend, by omega, rfl⟩] at hedge
    cases hedge
  | some e =>
    obtain ⟨hy, hspan, hend, hcost⟩ := (hedges _ _).1 (Option.join_eq_some_iff.1 hedge)
    rw [relaxed, hcost]
    rw [← hspan] at hbest ⊢
    exact hhere.of_edge hap hy hbest

/-- The cache holds only records a search would answer. -/
def Cache.Agrees (x : SearchCtx) (cache : Cache) : Prop :=
  ∀ p r, cache.get? p = some r → r = matchRec hw x.window x.maxChain p

theorem Cache.Agrees.cachedRec {cache : Cache} (h : cache.Agrees x) (p : Nat) :
    (cachedRec hw x cache p).1 = matchRec hw x.window x.maxChain p ∧ Cache.Agrees x (cachedRec hw x cache p).2 := by
  have hrec : (Machine.cachedRec hw x cache p).1 = matchRec hw x.window x.maxChain p := by
    unfold Machine.cachedRec
    split
    · next r hr => exact h p r hr
    · rfl
  refine ⟨hrec, fun q r hq => ?_⟩
  rw [cachedRec_get?] at hq
  split at hq
  · next heq => rw [heq, ← hrec, Option.some.inj hq]
  · exact h q r hq

/-- At the end of the range the pass has the slot of b before those of b - 1, ..., a. -/
theorem passFrom_best (k : Nat) (hk : p + k = b) (hap : a ≤ p) {dp : List (Option Slot)}
    (h : PassAt x c a b p dp done) {cache : Cache} (hc : cache.Agrees x) :
    ∃ slot behind, (passFrom hw x c b k p dp done cache).1 = some slot :: behind ∧
      Best x c a b b behind (some slot) := by
  induction k generalizing p dp done cache with
  | zero =>
    obtain rfl : p = b := hk
    obtain ⟨slot, hslot⟩ := h.reached
    refine ⟨slot, done, ?_, h.best 0 _ hslot⟩
    rw [passFrom, List.head?_eq_getElem?, hslot]
    rfl
  | succ k ih =>
    obtain ⟨slot, hslot⟩ := h.reached
    cases dp with
    | nil => cases hslot
    | cons old rest =>
      obtain rfl := Option.some.inj hslot
      obtain ⟨hrec, hagrees⟩ := hc.cachedRec p
      rw [passFrom]
      simp only [hrec]
      exact ih (by omega) (by omega) (h.step hap (by omega)) hagrees

end Optimal

/-- Settles O46: the slot of b holds the least of all paths, and the trace back follows it. -/
theorem shortestPathIsOptimal : Obligations.ShortestPathIsOptimal := by
  intro x c a b hab _ r
  obtain ⟨slot, behind, hpass, ⟨es, hes⟩, hleast⟩ :=
    passFrom_best (x := x) (c := c) (b - a) (Nat.add_sub_cancel' hab) le_rfl (.start hab) (cache := []) nofun
  have htraced := hes [] rfl
  have hpath := htraced.isEdgePath
  obtain ⟨hcost, hspan⟩ := htraced.head
  have hlen := (isEdgePath_bounds hpath).1
  have hresult : r.path = es ∧ r.cost = slot.cost := by
    refine ⟨?_, ?_⟩
    · show traceBack (b - a) b (passFrom hw x c b (b - a) a _ [] []).1 [] = es
      rw [hpass]
      exact (htraced.traceBack (by omega) []).trans (List.append_nil es)
    · show (((passFrom hw x c b (b - a) a _ [] []).1.head?.join).map Slot.cost).getD 0 = slot.cost
      rw [hpass]
      rfl
  rw [hresult.1, hresult.2]
  refine ⟨hpath, hcost.symm, fun es' hes' => ?_⟩
  rw [← hspan]
  exact hleast es' (isEdgePath_iff_pathBelow.1 hes')

end Sys2Proof.Machine
end

section
/-! PROOFS. SQUEEZE: the iterations over one block of the plan, the first parse of least estimate appended to S and
reported in PLAN (42_squeeze.md R650 to R656). -/

namespace Sys2Proof.Machine

open Config (hw)

variable {s : State} {es : List Entry}

/-! ## The operands -/

/-- The checks of SQUEEZE pass on legal operands, and answer the block's greedy store (42_squeeze.md R650). -/
theorem checkSqueeze_of_operands (h : SqueezeOperands s es) : checkSqueeze hw s = .ok es := by
  obtain ⟨hhint, hN, hplan, hj, hG, hab, hb, hij, hG', hroom, hlen, hes, htiles⟩ := h
  simp only [checkSqueeze, checkHint, checkStoreRoom, except_bind_eq_ok, checkWindow_eq_ok, require_eq_ok,
    Bool.and_eq_true, decide_eq_true_eq, readEntries_eq_ok, checkTiling_eq_ok, exists_const]
  exact ⟨hhint, hN, hplan, hj, hG, hab.trans hb, ⟨hab, hb⟩, hij.trans hG', ⟨hij, hG'⟩,
    ⟨(Nat.le_add_right _ _).trans hroom, hroom⟩, es, ⟨hlen, hes⟩, htiles, rfl⟩

/-- Entries read from a store can be stored again. -/
theorem HoldsEntries.storable {x : StoreSel} {k : Nat} (h : HoldsEntries s x k es) : ∀ e ∈ es, e.Storable := by
  intro e he
  obtain ⟨n, hn, rfl⟩ := List.getElem_of_mem he
  have hread := h n hn
  rw [List.getElem?_eq_getElem hn, State.entryAt, Option.map_eq_some_iff] at hread
  obtain ⟨y, hy, heq⟩ := hread
  rw [← heq]
  exact ⟨(valid_and_toWord_of_symOfWord hy).1, (s.readWord _).isLt⟩

/-! ## What the iterations keep -/

/-- The squeeze of a block of a legal window, whether or not the block's greedy store is a parse of it. -/
theorem squeezeBlock_isSqueezed (hN : s.inputLen ≤ hw.inCap) (hc : CacheCoherent s) {a b : Nat} (hab : a ≤ b)
    (hb : b ≤ s.inputLen) (block : List Entry) :
    IsSqueezed s a b block (s.squeezeBlock hw a b block).best (s.squeezeBlock hw a b block).iters ∧
      (s.squeezeBlock hw a b block).bestBits =
        est hw s.opt.btype ((s.squeezeBlock hw a b block).best.map Entry.sym) := by
  have hlen : s.searchCtx.window.length = s.inputLen := searchCtx_window_length s
  obtain ⟨j, hj, -, hle, hbefore, hend⟩ := squeezeLoop_afterPasses (hlen.le.trans hN)
    (stagnation := s.opt.stagnation.toNat) hab (hb.trans_eq hlen.symm) s.opt.numIter.toNat
    (afterPasses_boot s.opt.btype s.absent a b block (cacheCoherent_iff.1 hc)) fun k l hk hk0 => by omega
  have hq : AfterPasses s.searchCtx s.opt.btype s.absent a b block j (s.squeezeBlock hw a b block) := hj
  obtain ⟨m, hleast, hbest, hbits, -⟩ := hq.least
  rw [Nat.zero_add] at hle hend
  rw [hq.iters, hbits, hbest]
  exact ⟨⟨m, hleast, rfl, hle, hbefore, hend.imp_right fun h => ⟨h.1, h.2 m hleast⟩⟩, rfl⟩

/-- What a squeeze keeps is the greedy store, or a parse of a strictly smaller estimate (42_squeeze.md R656). -/
theorem IsSqueezed.kept_cases {a b iters : Nat} {block best : List Entry} (h : IsSqueezed s a b block best iters)
    (hN : s.inputLen ≤ hw.inCap) (hab : a ≤ b) (hb : b ≤ s.inputLen) :
    best = block ∨ (IsParse s.window best a b ∧
      est hw s.opt.btype (best.map Entry.sym) < est hw s.opt.btype (block.map Entry.sym)) := by
  obtain ⟨m, ⟨-, -, hfirst⟩, hbest, -⟩ := h
  have hlen := searchCtx_window_length s
  cases m with
  | zero => exact .inl hbest
  | succ m =>
    refine .inr ⟨?_, ?_⟩
    · rw [hbest]
      exact shortestPath_isParse (hlen.le.trans hN) _ hab (hb.trans_eq hlen.symm) (coherentWith_nil s.searchCtx)
    · rw [hbest]
      exact hfirst 0 (Nat.succ_pos m)

/-! ## What the command writes -/

/-- The state a squeeze of the block leaves, its results loaded (42_squeeze.md R655). -/
def State.reportSqueeze (s : State) (q : SqueezeState) (j : Nat) : State :=
  { s.storeBlock q j with
    cache := q.cache
    lens := { s.lens with sLen := word (s.storeLen .s + q.best.length) }
    obs := { s.obs with iterCount := word q.iters, bestBits := word q.bestBits }
    res := { s.res with r0 := word q.best.length, r1 := word q.bestBits, r2 := word q.iters } }

theorem exec_squeeze_of_operands (h : SqueezeOperands s es) :
    exec .squeeze s = .next (s.reportSqueeze
      (s.squeezeBlock hw (s.planWord (s.argOf .x0) 0) (s.planWord (s.argOf .x0) 1) es) (s.argOf .x0)).complete := by
  show (squeezeCmd hw s).finish = _
  rw [squeezeCmd, checkSqueeze_of_operands h, afterChecks_ok, Run.finish_ok]
  rfl

/-- PLAN[j].INFO, between SE and BITS, is not among the words written. -/
theorem storeBlock_sameMemOutside (s : State) (q : SqueezeState) (j : Nat) :
    SameMemOutside [(Region.storeS.entry (s.storeLen .s), 8 * q.best.length), (planAddr j 4, 8), (planAddr j 7, 4)]
      s (s.storeBlock q j) := by
  intro x hx
  simp only [List.forall_mem_cons] at hx
  obtain ⟨hstore, hrange, hbits, -⟩ := hx
  calc (s.storeBlock q j).readByte x
    _ = ((s.storeEntries .s (s.storeLen .s) q.best).storeWords (planAddr j 4)
          [word (s.storeLen .s), word (s.storeLen .s + q.best.length)]).readByte x :=
        State.sameMemBut_storeWords _ (planAddr j 7) [word q.bestBits] x hbits
    _ = (s.storeEntries .s (s.storeLen .s) q.best).readByte x := State.sameMemBut_storeWords _ (planAddr j 4) _ x hrange
    _ = s.readByte x := sameMemBut_storeEntries s .s (s.storeLen .s) q.best x hstore

/-- Settles O47: the iterations keep the first parse of least estimate, whose entries can be stored as they are a
pass's or were read from G. -/
theorem squeezeKeepsTheBestParse : Obligations.SqueezeKeepsTheBestParse := by
  intro s es h hcache j
  have hexec := exec_squeeze_of_operands h
  obtain ⟨-, hN, hplan, hj, -, hab, hb, -, -, -, -, hes, -⟩ := h
  obtain ⟨hsqueezed, hbits⟩ := squeezeBlock_isSqueezed hN hcache hab hb es
  have hcases := hsqueezed.kept_cases hN hab hb
  have hstorable : ∀ e ∈ (s.squeezeBlock hw (s.planWord j 0) (s.planWord j 1) es).best, e.Storable := by
    rcases hcases with heq | ⟨hparse, -⟩
    · rw [heq]
      exact hes.storable
    · exact hparse.storable (hb.trans_lt (hN.trans_lt (by decide)))
  have hkeeps := exec_keepsCache (i := .squeeze) nofun nofun nofun hexec
  generalize s.squeezeBlock hw (s.planWord j 0) (s.planWord j 1) es = q at hexec hsqueezed hbits hcases hstorable hkeeps
  refine ⟨_, q.best, q.iters, hexec, ⟨rfl, rfl, rfl, rfl, rfl, rfl, rfl, rfl⟩, hsqueezed, hcases.imp_right And.left,
    ?_, fun hne => (hcases.resolve_left hne).2, ?_⟩
  · rcases hcases with heq | ⟨-, hlt⟩
    · rw [heq]
    · exact hlt.le
  · rw [← hbits]
    exact ⟨storeBlock_entries s hstorable (Nat.succ_le_of_lt (hj.trans_le hplan)), storeBlock_range s q j,
      holdsWords_storeWords _ (planAddr j 7) [word q.bestBits], rfl, rfl, rfl, storeBlock_sameMemOutside s q j, rfl,
      hkeeps⟩

end Sys2Proof.Machine
end

section
/-! PROOFS. SPLIT: the plan of the greedy store, and what the command writes (43_block_splitter.md R710 to R712). -/

namespace Sys2Proof.Machine

open Config (hw)

variable {s : State} {es : List Entry}

/-- The greedy store SPLIT reads: the whole of G, which tiles [G_A, G_B) (43_block_splitter.md R710). -/
structure SplitOperands (s : State) (es : List Entry) : Prop where
  hint : s.opt.btype ≠ 3
  cap : s.storeLen .g ≤ hw.storeCap
  length : es.length = s.storeLen .g
  entries : HoldsEntries s .g 0 es
  tiles : Tiles es s.lens.gA.toNat s.lens.gB.toNat

/-- The checks of SPLIT pass exactly on its operands, and answer the store (43_block_splitter.md R710). -/
theorem checkSplit_eq_ok : checkSplit hw s = .ok es ↔ SplitOperands s es := by
  simp only [checkSplit, checkHint, except_bind_eq_ok, require_eq_ok, decide_eq_true_eq, readEntries_eq_ok,
    checkTiling_eq_ok, exists_const, pure, Except.pure, Except.ok.injEq]
  constructor
  · rintro ⟨hhint, hcap, _, ⟨hlen, hes⟩, htiles, rfl⟩
    exact ⟨hhint, hcap, hlen, hes, htiles⟩
  · rintro ⟨hhint, hcap, hlen, hes, htiles⟩
    exact ⟨hhint, hcap, es, ⟨hlen, hes⟩, htiles, rfl⟩

/-- SPLIT on its operands: the plan into PLAN, and its length. -/
theorem exec_split_of_operands (h : SplitOperands s es) :
    exec .split s = .next ((s.runSplit hw es).2.setRes0 (s.runSplit hw es).1.length).complete := by
  show (splitCmd hw s).finish = _
  rw [splitCmd, checkSplit_eq_ok.2 h, afterChecks_ok, Run.finish_ok]

/-- SPLIT writes eight words for each block of its plan, from PLAN[0] on. -/
theorem runSplit_sameMemBut (s : State) (es : List Entry) :
    SameMemBut (planAddr 0 0) (32 * (s.runSplit hw es).1.length) s (s.runSplit hw es).2 := by
  have hmem := s.sameMemBut_storeWords (planAddr 0 0) ((s.runSplit hw es).1.flatMap PlanBlock.words)
  rwa [length_flatMap_planWords, ← Nat.mul_assoc] at hmem

/-- The estimate of a block is that of its symbol range. -/
theorem est_slice_map_sym (h : Nat) (es : List Entry) (i j : Nat) :
    est hw h ((slice es i j).map Entry.sym) = rangeEst hw h (es.map Entry.sym) i j := by
  rw [rangeEst, slice, slice, List.map_take, List.map_drop]

/-- The blocks of a plan together are estimated at no more than the whole store (43_block_splitter.md R711). -/
theorem IsPlan.sum_est_le {h splitMax margin a b : Nat} {blocks : List PlanBlock}
    (hplan : IsPlan h splitMax margin es a b blocks) :
    (blocks.map fun p => est hw h ((slice es p.gs p.ge).map Entry.sym)).sum ≤ est hw h (es.map Entry.sym) := by
  have hsum := sum_rangeEst_le hplan.ranges
  rw [List.map_map] at hsum
  simp only [est_slice_map_sym]
  exact hsum

/-- Settles O40: the checks pass on the store, and the bisection of the store is the plan written. -/
theorem splitPlansTheStore : Obligations.SplitPlansTheStore := by
  intro s es hhint hcap hlen hes htiles
  have hplan : IsPlan s.opt.btype s.opt.splitMax.toNat s.opt.splitMargin.toNat es s.lens.gA.toNat s.lens.gB.toNat
      (s.runSplit hw es).1 := isPlan_bisect htiles _ _ _
  refine ⟨_, _, exec_split_of_operands ⟨hhint, hcap, hlen, hes, htiles⟩, ⟨rfl, rfl, rfl, rfl, rfl, rfl, rfl, rfl⟩,
    hplan, hplan.sum_est_le, ?_, rfl, rfl, ?_, rfl, rfl, rfl⟩
  · exact holdsWords_storeWords s (planAddr 0 0) ((s.runSplit hw es).1.flatMap PlanBlock.words)
  · exact sameMemOutside_single (runSplit_sameMemBut s es)

end Sys2Proof.Machine
end

section
/-! PROOFS. HUFFLEN and CANON: the tables the two commands write, and the errors of their own checks (44_huffman.md
R820, R822, R840). -/

namespace Sys2Proof.Machine

open Config (hw)

variable {s : State}

/-! ## The checks -/

/-- The coded symbols of lengths, or the symbols that occur of frequencies, are as many as the nonzero numbers. -/
theorem length_codedSyms (ns : List Nat) : (codedSyms ns).length = (ns.filter fun v => decide (0 < v)).length := by
  have hfilter := List.filter_map (f := Prod.fst) (p := fun v : Nat => decide (0 < v)) (l := ns.zipIdx)
  rw [List.zipIdx_map_fst] at hfilter
  rw [codedSyms, List.length_map, hfilter, List.length_map]
  rfl

theorem require_of_true {c : Bool} (h : c = true) (e : CmdError) : require c e = .ok () := require_eq_ok.2 h

theorem require_of_false {c : Bool} (h : c = false) (e : CmdError) : require c e = .error e :=
  require_eq_error.2 ⟨h, rfl⟩

theorem checkAlphabet_eq_ok (h1 : 1 ≤ s.argOf .x0) (h288 : s.argOf .x0 ≤ 288) : checkAlphabet s = .ok () :=
  require_of_true (by simp [h1, h288]) _

/-- The checks of HUFFLEN on legal operands come down to the number of symbols that occur (44_huffman.md R822). -/
theorem checkHufflen_of_operands (h1 : 1 ≤ s.argOf .x0) (h288 : s.argOf .x0 ≤ 288) (hL1 : 1 ≤ s.argOf .x1)
    (hL15 : s.argOf .x1 ≤ 15) {f : List Nat} (hf : s.readTable .freq (s.argOf .x0) = f) :
    checkHufflen hw s = (require (decide ((codedSyms f).length ≤ 2 ^ s.argOf .x1)) (huffError (codedSyms f).length) >>=
      fun _ => .ok (f, (codedSyms f).length)) := by
  have hlimit : (decide (1 ≤ s.argOf .x1) && decide (s.argOf .x1 ≤ hw.maxBits)) = true := by
    simpa using ⟨hL1, hL15⟩
  subst hf
  rw [checkHufflen, checkAlphabet_eq_ok h1 h288, require_of_true hlimit]
  rfl

/-- The check of the LEN words passes where each is at most 15. -/
theorem checkLens_eq_ok {ls : List Nat} (h : ∀ l ∈ ls, l ≤ 15) (k : Nat) : checkLens hw k ls = .ok () := by
  rw [checkLens_eq]
  refine checkAll_eq_ok fun c hc => ?_
  obtain ⟨x, hx, rfl⟩ := List.mem_map.1 hc
  exact decide_eq_false (not_lt.2 (h _ (List.fst_mem_of_mem_zipIdx hx)))

/-- The check of the LEN words names the first above 15. -/
theorem checkLens_eq_error {ls : List Nat} {k : Nat} (hbelow : ∀ j, j < k → ls.getD j 0 ≤ 15)
    (hk : 15 < ls.getD k 0) (i : Nat) : checkLens hw i ls = .error (badArg (Region.len.entry (i + k))) := by
  induction ls generalizing k i with
  | nil => exact absurd hk (by simp)
  | cons l ls ih =>
    rw [checkLens]
    cases k with
    | zero => exact if_pos hk
    | succ k =>
      have hl : ¬ hw.maxBits < l := not_lt.2 (hbelow 0 k.succ_pos)
      rw [if_neg hl, ih (fun j hj => hbelow (j + 1) (Nat.succ_lt_succ hj)) hk, Nat.add_right_comm, Nat.add_assoc]

/-- The checks of CANON on a legal alphabet: the lengths, then their Kraft sum (44_huffman.md R840). -/
theorem checkCanon_of_operands (h1 : 1 ≤ s.argOf .x0) (h288 : s.argOf .x0 ≤ 288) {lens : List Nat}
    (hlens : s.readTable .len (s.argOf .x0) = lens) : checkCanon hw s = (checkLens hw 0 lens >>= fun _ =>
      require (decide (kraftSum hw lens ≤ 2 ^ 15)) (huffError (kraftSum hw lens)) >>= fun _ => .ok lens) := by
  subst hlens
  rw [checkCanon, checkAlphabet_eq_ok h1 h288]
  rfl

/-! ## The commands -/

/-- A table stored from the first entry of its region on, and the rest of the memory as before. -/
theorem storeTable_spec (s : State) (r : Region) (ns : List Nat) :
    HoldsTable (s.storeTable r ns) r ns ∧ SameMemOutside [(r.base, 4 * ns.length)] s (s.storeTable r ns) := by
  have hmem := s.sameMemBut_storeWords r.base (ns.map word)
  rw [List.length_map] at hmem
  exact ⟨holdsWords_storeWords s r.base (ns.map word), sameMemOutside_single hmem⟩

theorem exec_hufflen_of_checks {r : List Nat × Nat} (h : checkHufflen hw s = .ok r) : exec .hufflen s =
    .next ((s.storeTable .len (katajainen r.1 (s.argOf .x1))).setRes0 r.2).complete := by
  show (hufflenCmd hw s).finish = _
  rw [hufflenCmd, h, afterChecks_ok, Run.finish_ok]

theorem exec_hufflen_of_error {e : CmdError} (h : checkHufflen hw s = .error e) :
    exec .hufflen s = .next (s.raiseError e) := by
  show (hufflenCmd hw s).finish = _
  rw [hufflenCmd, h, afterChecks_error, Run.finish_stop]

theorem exec_canon_of_checks {lens : List Nat} (h : checkCanon hw s = .ok lens) : exec .canon s =
    .next (((s.storeTable .code (canonical hw lens)).setRes0 (codedSyms lens).length).setRes1
      (kraftSum hw lens)).complete := by
  show (canonCmd hw s).finish = _
  rw [canonCmd, h, afterChecks_ok, Run.finish_ok]

theorem exec_canon_of_error {e : CmdError} (h : checkCanon hw s = .error e) :
    exec .canon s = .next (s.raiseError e) := by
  show (canonCmd hw s).finish = _
  rw [canonCmd, h, afterChecks_error, Run.finish_stop]

/-- Settles O49: on legal operands the one check left is that of m against 2^L. -/
theorem hufflenWritesTheLengths : Obligations.HufflenWritesTheLengths := by
  intro s h1 h288 hL1 hL15 f m
  have hcheck := checkHufflen_of_operands h1 h288 hL1 hL15 (f := f) rfl
  rw [length_codedSyms] at hcheck
  refine ⟨fun hm => ?_, fun hm => ?_⟩
  · rw [require_of_true (decide_eq_true hm)] at hcheck
    obtain ⟨hholds, hmem⟩ := storeTable_spec s .len (katajainen f (s.argOf .x1))
    have hlen : (katajainen f (s.argOf .x1)).length = s.argOf .x0 :=
      (katajainen_length f _).trans (readTable_length s .freq _)
    rw [hlen] at hmem
    exact ⟨_, exec_hufflen_of_checks hcheck, ⟨rfl, rfl, rfl, rfl, rfl, rfl, rfl, rfl⟩, hholds, hlen, rfl, hmem,
      rfl, rfl, rfl, rfl⟩
  · rw [require_of_false (decide_eq_false (not_le.2 hm))] at hcheck
    exact exec_hufflen_of_error hcheck

/-- Settles O50: on a legal alphabet the checks are those of the lengths, in order, and of their Kraft sum. -/
theorem canonWritesTheCodes : Obligations.CanonWritesTheCodes := by
  intro s h1 h288 lens
  have hcheck := checkCanon_of_operands h1 h288 (lens := lens) rfl
  refine ⟨fun h15 hkraft => ?_, fun h15 hkraft => ?_, fun k _ hbelow hk => ?_⟩
  · rw [checkLens_eq_ok h15, require_of_true (decide_eq_true hkraft)] at hcheck
    have hexec := exec_canon_of_checks hcheck
    rw [length_codedSyms] at hexec
    obtain ⟨hholds, hmem⟩ := storeTable_spec s .code (canonical hw lens)
    have hlen : (canonical hw lens).length = s.argOf .x0 := (canonical_length lens).trans (readTable_length s .len _)
    rw [hlen] at hmem
    exact ⟨_, hexec, ⟨rfl, rfl, rfl, rfl, rfl, rfl, rfl, rfl⟩, hholds, hlen, rfl, hmem, rfl, rfl, rfl, rfl⟩
  · rw [checkLens_eq_ok h15, require_of_false (decide_eq_false (not_le.2 hkraft))] at hcheck
    exact exec_canon_of_error hcheck
  · rw [checkLens_eq_error hbelow hk, Nat.zero_add] at hcheck
    exact exec_canon_of_error hcheck

end Sys2Proof.Machine
end

section
/-! PROOFS. The items of package-merge (44_huffman.md R821): the symbols and the weight of packages and of lists of
items, and the merge of packages and leaves. -/

namespace Sys2Proof.Machine

/-! ## Items -/

/-- The leaf of a symbol. -/
def leafOf (w : Nat → Nat) (s : Nat) : Item := ⟨w s, [s]⟩

/-- The order of the lists, by weight ascending. -/
def Item.Le (x y : Item) : Prop := x.weight ≤ y.weight

/-- An item weighs what its symbols do together, and has at least one; all are of the alphabet. -/
structure Item.Holds (w : Nat → Nat) (S : List Nat) (x : Item) : Prop where
  weight : x.weight = (x.syms.map w).sum
  nonempty : x.syms ≠ []
  subset : x.syms ⊆ S

/-- The weight of the items of a list together. -/
def totalWeight (xs : List Item) : Nat := (xs.map Item.weight).sum

/-- The package of two items. -/
def Item.pack (x y : Item) : Item := ⟨x.weight + y.weight, x.syms ++ y.syms⟩

/-! ## Packages -/

theorem packages_cons_cons (x y : Item) (xs : List Item) : packages (x :: y :: xs) = x.pack y :: packages xs := rfl

theorem packages_of_length_le_one {xs : List Item} (h : xs.length ≤ 1) : packages xs = [] := by
  rcases xs with - | ⟨x, - | ⟨y, xs⟩⟩
  · rfl
  · rfl
  · simp at h

theorem packages_length : (xs : List Item) → (packages xs).length = xs.length / 2
  | [] => rfl
  | [x] => by rw [packages_of_length_le_one (by simp)]; simp
  | x :: y :: xs => by
    rw [packages_cons_cons, List.length_cons, packages_length xs, List.length_cons, List.length_cons]
    omega

/-- The first b packages hold the first 2 b items. -/
theorem sum_map_take_packages {g : Item → Nat} (hg : ∀ x y, g (x.pack y) = g x + g y) {xs : List Item} {b : Nat}
    (hb : 2 * b ≤ xs.length) : (((packages xs).take b).map g).sum = ((xs.take (2 * b)).map g).sum := by
  induction b generalizing xs with
  | zero => rfl
  | succ b ih =>
    rcases xs with - | ⟨x, - | ⟨y, xs⟩⟩
    · simp at hb
    · simp only [List.length_singleton] at hb
      omega
    · have hb : 2 * b ≤ xs.length := by
        simp only [List.length_cons] at hb
        omega
      simp only [packages_cons_cons, Nat.mul_succ, List.take_succ_cons, List.map_cons, List.sum_cons, ih hb, hg,
        Nat.add_assoc]

theorem occurrences_take_packages {xs : List Item} {b : Nat} (hb : 2 * b ≤ xs.length) (s : Nat) :
    occurrences s ((packages xs).take b) = occurrences s (xs.take (2 * b)) :=
  sum_map_take_packages (g := fun x => x.syms.count s) (fun _ _ => List.count_append) hb

theorem totalWeight_take_packages {xs : List Item} {b : Nat} (hb : 2 * b ≤ xs.length) :
    totalWeight ((packages xs).take b) = totalWeight (xs.take (2 * b)) :=
  sum_map_take_packages (fun _ _ => rfl) hb

theorem exists_of_mem_packages {p : Item} : {xs : List Item} → p ∈ packages xs →
    ∃ x ∈ xs, ∃ y ∈ xs, p = x.pack y
  | [], hp => by simp [packages] at hp
  | [x], hp => by simp [packages_of_length_le_one] at hp
  | x :: y :: xs, hp => by
    rcases List.mem_cons.1 hp with rfl | hp
    · exact ⟨x, by simp, y, by simp, rfl⟩
    · obtain ⟨x', hx, y', hy, h⟩ := exists_of_mem_packages hp
      exact ⟨x', by simp [hx], y', by simp [hy], h⟩

theorem packages_sorted : {xs : List Item} → xs.Pairwise Item.Le → (packages xs).Pairwise Item.Le
  | [], _ => .nil
  | [x], _ => by simp [packages_of_length_le_one]
  | x :: y :: xs, h => by
    obtain ⟨hx, h⟩ := List.pairwise_cons.1 h
    obtain ⟨hy, h⟩ := List.pairwise_cons.1 h
    refine List.pairwise_cons.2 ⟨fun p hp => ?_, packages_sorted h⟩
    obtain ⟨u, hu, v, hv, rfl⟩ := exists_of_mem_packages hp
    exact Nat.add_le_add (hx u (List.mem_cons_of_mem _ hu)) (hy v hv)

theorem Item.Holds.pack {w : Nat → Nat} {S : List Nat} {x y : Item} (hx : x.Holds w S) (hy : y.Holds w S) :
    (x.pack y).Holds w S where
  weight := by simp [Item.pack, hx.weight, hy.weight]
  nonempty := by simp [Item.pack, hx.nonempty]
  subset := List.append_subset.2 ⟨hx.subset, hy.subset⟩

/-- An item weighs at least what each of its symbols does. -/
theorem Item.Holds.le_weight {w : Nat → Nat} {S : List Nat} {x : Item} (hx : x.Holds w S) {s : Nat}
    (hs : s ∈ x.syms) : w s ≤ x.weight := by
  rw [hx.weight]
  exact List.le_sum_of_mem (List.mem_map_of_mem hs)

theorem Item.Holds.weight_pos {w : Nat → Nat} {S : List Nat} {x : Item} (hx : x.Holds w S) (hpos : ∀ s ∈ S, 0 < w s) :
    0 < x.weight := by
  obtain ⟨s, hs⟩ := List.exists_mem_of_ne_nil _ hx.nonempty
  exact (hpos s (hx.subset hs)).trans_le (hx.le_weight hs)

/-- A package weighs more than each of its symbols. -/
theorem Item.Holds.lt_weight_pack {w : Nat → Nat} {S : List Nat} {x y : Item} (hx : x.Holds w S) (hy : y.Holds w S)
    (hpos : ∀ s ∈ S, 0 < w s) {s : Nat} (hs : s ∈ (x.pack y).syms) : w s < (x.pack y).weight := by
  have hxpos := hx.weight_pos hpos
  have hypos := hy.weight_pos hpos
  simp only [Item.pack]
  rcases List.mem_append.1 hs with hs | hs
  · have := hx.le_weight hs
    omega
  · have := hy.le_weight hs
    omega

/-! ## Lists of items -/

theorem occurrences_cons (s : Nat) (x : Item) (xs : List Item) :
    occurrences s (x :: xs) = x.syms.count s + occurrences s xs := rfl

theorem occurrences_append (s : Nat) (xs ys : List Item) :
    occurrences s (xs ++ ys) = occurrences s xs + occurrences s ys := by
  simp [occurrences]

theorem occurrences_perm {xs ys : List Item} (h : xs.Perm ys) (s : Nat) : occurrences s xs = occurrences s ys :=
  (h.map _).sum_nat

theorem totalWeight_cons (x : Item) (xs : List Item) : totalWeight (x :: xs) = x.weight + totalWeight xs := rfl

theorem totalWeight_append (xs ys : List Item) : totalWeight (xs ++ ys) = totalWeight xs + totalWeight ys := by
  simp [totalWeight]

theorem totalWeight_perm {xs ys : List Item} (h : xs.Perm ys) : totalWeight xs = totalWeight ys :=
  (h.map _).sum_nat

theorem occurrences_pos_iff {s : Nat} {xs : List Item} : 0 < occurrences s xs ↔ ∃ x ∈ xs, s ∈ x.syms := by
  rw [Nat.pos_iff_ne_zero, occurrences, Ne, List.sum_eq_zero_iff]
  simp [List.count_eq_zero]

theorem occurrences_map_leafOf (w : Nat → Nat) (s : Nat) (A : List Nat) :
    occurrences s (A.map (leafOf w)) = A.count s := by
  induction A with
  | nil => rfl
  | cons a A ih =>
    rw [List.map_cons, occurrences_cons, ih, leafOf, ← List.count_append]
    rfl

theorem totalWeight_map_leafOf (w : Nat → Nat) (A : List Nat) : totalWeight (A.map (leafOf w)) = (A.map w).sum := by
  simp [totalWeight, leafOf, Function.comp_def]

/-- A sum over a list, symbol by symbol of the alphabet. -/
theorem sum_map_eq_sum_mul_count {S : List Nat} (hS : S.Nodup) (g : Nat → Nat) {A : List Nat} (hA : A ⊆ S) :
    (A.map g).sum = (S.map fun s => g s * A.count s).sum := by
  rw [Finset.sum_list_map_count, ← List.sum_toFinset _ hS]
  have hsub : A.toFinset ⊆ S.toFinset := fun s hs => List.mem_toFinset.2 (hA (List.mem_toFinset.1 hs))
  rw [Finset.sum_subset hsub fun s _ hs => by
    rw [List.count_eq_zero_of_not_mem (mt List.mem_toFinset.2 hs), zero_smul]]
  exact Finset.sum_congr rfl fun s _ => Nat.mul_comm _ _

/-- What items weigh, symbol by symbol. -/
theorem totalWeight_eq_sum_occurrences {w : Nat → Nat} {S : List Nat} (hS : S.Nodup) {xs : List Item}
    (hxs : ∀ x ∈ xs, x.Holds w S) : totalWeight xs = (S.map fun s => w s * occurrences s xs).sum := by
  induction xs with
  | nil => simp [totalWeight, occurrences]
  | cons x xs ih =>
    obtain ⟨hx, hrest⟩ := List.forall_mem_cons.1 hxs
    simp only [totalWeight_cons, occurrences_cons, ih hrest, hx.weight, sum_map_eq_sum_mul_count hS w hx.subset,
      Nat.mul_add, List.sum_map_add]

theorem totalWeight_take_le_of_sublist {xs ys : List Item} (hxs : xs.Pairwise Item.Le) (hys : ys.Sublist xs) {t : Nat}
    (ht : t ≤ ys.length) : totalWeight (xs.take t) ≤ totalWeight ys := by
  induction xs generalizing ys t with
  | nil => simp [totalWeight]
  | cons x xs ih =>
    obtain ⟨hx, hrest⟩ := List.pairwise_cons.1 hxs
    rcases t with - | t
    · exact Nat.zero_le _
    rcases ys with - | ⟨y, ys⟩
    · simp at ht
    have hy : x.weight ≤ y.weight := by
      rcases List.mem_cons.1 (hys.subset List.mem_cons_self) with rfl | hy
      · exact le_rfl
      · exact hx y hy
    exact Nat.add_le_add hy (ih hrest hys.tail (Nat.le_of_succ_le_succ ht))

/-- The first items of a list by weight weigh no more than as many others of it. -/
theorem totalWeight_take_le {xs ys : List Item} (hxs : xs.Pairwise Item.Le) (hys : ys.Subperm xs) {t : Nat}
    (ht : t ≤ ys.length) : totalWeight (xs.take t) ≤ totalWeight ys := by
  obtain ⟨zs, hperm, hsub⟩ := hys
  rw [← totalWeight_perm hperm]
  exact totalWeight_take_le_of_sublist hxs hsub (ht.trans_eq hperm.length_eq.symm)

/-! ## The merge -/

/-- The merge of packages and leaves; on equal weight the package comes before the leaf. -/
def mergeItems (ps ls : List Item) : List Item := ps.merge ls fun p l => decide (p.weight ≤ l.weight)

theorem mergeFirst_eq_take : (n : Nat) → (ps ls : List Item) → mergeFirst n ps ls = (mergeItems ps ls).take n
  | 0, ps, ls => by simp [mergeFirst]
  | n + 1, [], ls => by simp [mergeFirst, mergeItems]
  | n + 1, p :: ps, [] => by simp [mergeFirst, mergeItems]
  | n + 1, p :: ps, l :: ls => by
    rw [mergeFirst, mergeFirst_eq_take n ps, mergeFirst_eq_take n (p :: ps), mergeItems, mergeItems, mergeItems,
      List.cons_merge_cons]
    by_cases h : p.weight ≤ l.weight <;> simp [h]

theorem mergeItems_perm (ps ls : List Item) : (mergeItems ps ls).Perm (ps ++ ls) := List.merge_perm_append _

theorem mergeItems_sorted {ps ls : List Item} (hps : ps.Pairwise Item.Le) (hls : ls.Pairwise Item.Le) :
    (mergeItems ps ls).Pairwise Item.Le := by
  have hiff (x y : Item) : decide (x.weight ≤ y.weight) = true ↔ x.Le y := decide_eq_true_iff
  have hmerge := List.pairwise_merge (le := fun x y : Item => decide (x.weight ≤ y.weight))
    (fun x y z => by simpa using Nat.le_trans) (fun x y => by simpa using Nat.le_total x.weight y.weight) ps ls
    (hps.imp (hiff _ _).2) (hls.imp (hiff _ _).2)
  exact hmerge.imp (hiff _ _).1

theorem mergeFirst_length (n : Nat) (ps ls : List Item) :
    (mergeFirst n ps ls).length = min n (ps.length + ls.length) := by
  rw [mergeFirst_eq_take, List.length_take, (mergeItems_perm ps ls).length_eq, List.length_append]

theorem take_mergeFirst {n t : Nat} (ht : t ≤ n) (ps ls : List Item) :
    (mergeFirst n ps ls).take t = mergeFirst t ps ls := by
  rw [mergeFirst_eq_take, mergeFirst_eq_take, List.take_take, Nat.min_eq_left ht]

/-- The first items of the merge are the first b packages and the first a leaves, and none of those packages weighs
more than a leaf left out. -/
theorem exists_mergeFirst_perm {ls : List Item} (hls : ls.Pairwise Item.Le) (n : Nat) (ps : List Item) :
    ∃ b a, b ≤ ps.length ∧ a ≤ ls.length ∧ (mergeFirst n ps ls).Perm (ps.take b ++ ls.take a) ∧
      ∀ p ∈ ps.take b, ∀ x ∈ ls.drop a, p.weight ≤ x.weight := by
  induction n generalizing ps ls with
  | zero => exact ⟨0, 0, by simp [mergeFirst]⟩
  | succ n ih =>
    rcases ps with - | ⟨p, ps⟩
    · refine ⟨0, min (n + 1) ls.length, by simp, by simp, ?_, by simp⟩
      rw [mergeFirst, ← List.take_eq_take_min]
      exact .rfl
    rcases ls with - | ⟨l, ls⟩
    · refine ⟨min (n + 1) (p :: ps).length, 0, by simp, by simp, ?_, by simp⟩
      rw [mergeFirst, ← List.take_eq_take_min, List.take_zero, List.append_nil]
      · simp
    obtain ⟨hl, hrest⟩ := List.pairwise_cons.1 hls
    rw [mergeFirst]
    split
    · next hpl =>
      obtain ⟨b, a, hb, ha, hperm, hle⟩ := ih hls ps
      refine ⟨b + 1, a, Nat.succ_le_succ hb, ha, hperm.cons p, ?_⟩
      refine List.forall_mem_cons.2 ⟨fun x hx => ?_, hle⟩
      rcases List.mem_cons.1 (List.mem_of_mem_drop hx) with rfl | hx
      · exact hpl
      · exact hpl.trans (hl x hx)
    · obtain ⟨b, a, hb, ha, hperm, hle⟩ := ih hrest (p :: ps)
      exact ⟨b, a + 1, hb, Nat.succ_le_succ ha, (hperm.cons l).trans List.perm_middle.symm, hle⟩

end Sys2Proof.Machine
end

section
/-! PROOFS. The rounds of package-merge (44_huffman.md R821), over an alphabet of at least two symbols by weight
ascending: the occurrences of the symbols in the first items of each round are the lengths of a code, and no code within
as many bits costs less than these items weigh. -/

namespace Sys2Proof.Machine

/-! ## The rounds -/

/-- An alphabet of at least two symbols that occur, by weight ascending. -/
structure Alphabet (w : Nat → Nat) (S : List Nat) : Prop where
  nodup : S.Nodup
  sorted : S.Pairwise (fun s r => w s ≤ w r)
  pos : ∀ s ∈ S, 0 < w s
  two_le : 2 ≤ S.length

/-- The list after j rounds from the empty list, the first of which answers the leaves (44_huffman.md R821). -/
def listAfter (w : Nat → Nat) (S : List Nat) : Nat → List Item
  | 0 => []
  | j + 1 => mergeFirst (2 * S.length - 2) (packages (listAfter w S j)) (S.map (leafOf w))

theorem packageRounds_succ (n : Nat) (ls : List Item) (k : Nat) (list : List Item) :
    packageRounds n ls (k + 1) list = mergeFirst n (packages (packageRounds n ls k list)) ls := by
  induction k generalizing list with
  | zero => rfl
  | succ k ih => exact ih _

theorem packageRounds_eq_listAfter (w : Nat → Nat) (S : List Nat) (k : Nat) :
    packageRounds (2 * S.length - 2) (S.map (leafOf w)) k [] = listAfter w S k := by
  induction k with
  | zero => rfl
  | succ k ih => rw [packageRounds_succ, ih, listAfter]

section Rounds

variable {w : Nat → Nat} {S : List Nat} (hS : Alphabet w S)

theorem length_listAfter_succ (w : Nat → Nat) (S : List Nat) (j : Nat) :
    (listAfter w S (j + 1)).length = min (2 * S.length - 2) ((listAfter w S j).length / 2 + S.length) := by
  rw [listAfter, mergeFirst_length, packages_length, List.length_map]

theorem length_listAfter_le (w : Nat → Nat) (S : List Nat) (j : Nat) :
    (listAfter w S j).length ≤ 2 * S.length - 2 := by
  cases j with
  | zero => exact Nat.zero_le _
  | succ j => exact (length_listAfter_succ w S j).trans_le (Nat.min_le_left _ _)

theorem take_listAfter_succ {t : Nat} (ht : t ≤ 2 * S.length - 2) (j : Nat) : (listAfter w S (j + 1)).take t =
    (mergeItems (packages (listAfter w S j)) (S.map (leafOf w))).take t := by
  rw [listAfter, take_mergeFirst ht, mergeFirst_eq_take]

theorem leafOf_holds {s : Nat} (hs : s ∈ S) : (leafOf w s).Holds w S where
  weight := by simp [leafOf]
  nonempty := List.cons_ne_nil _ _
  subset := by simpa [leafOf] using hs

theorem listAfter_holds (w : Nat → Nat) (S : List Nat) (j : Nat) : ∀ x ∈ listAfter w S j, x.Holds w S := by
  induction j with
  | zero => nofun
  | succ j ih =>
    intro x hx
    rw [listAfter, mergeFirst_eq_take] at hx
    rcases List.mem_append.1 ((mergeItems_perm _ _).subset (List.mem_of_mem_take hx)) with hx | hx
    · obtain ⟨y, hy, z, hz, rfl⟩ := exists_of_mem_packages hx
      exact (ih y hy).pack (ih z hz)
    · obtain ⟨s, hs, rfl⟩ := List.mem_map.1 hx
      exact leafOf_holds hs

include hS

theorem Alphabet.leaves_sorted : (S.map (leafOf w)).Pairwise Item.Le := List.pairwise_map.2 hS.sorted

theorem Alphabet.listAfter_sorted (j : Nat) : (listAfter w S j).Pairwise Item.Le := by
  induction j with
  | zero => exact .nil
  | succ j ih =>
    rw [listAfter, mergeFirst_eq_take]
    exact (mergeItems_sorted (packages_sorted ih) hS.leaves_sorted).take

/-- The first t items of a round are the a lightest leaves and the packages of the first 2 b items of the round before,
in which no other symbol occurs: the package that held it would weigh more than its leaf. -/
theorem Alphabet.exists_take_listAfter_split {j t : Nat} (ht : t ≤ (listAfter w S (j + 1)).length) :
    ∃ a b, a + b = t ∧ a ≤ S.length ∧ 2 * b ≤ (listAfter w S j).length ∧
      (∀ s, occurrences s ((listAfter w S (j + 1)).take t) =
        (S.take a).count s + occurrences s ((listAfter w S j).take (2 * b))) ∧
      ∀ s ∈ S, 0 < occurrences s ((listAfter w S j).take (2 * b)) → s ∈ S.take a := by
  obtain ⟨b, a, hb, ha, hperm, hle⟩ := exists_mergeFirst_perm hS.leaves_sorted t (packages (listAfter w S j))
  rw [packages_length] at hb
  rw [List.length_map] at ha
  have hb2 : 2 * b ≤ (listAfter w S j).length := by omega
  have htake : (listAfter w S (j + 1)).take t = mergeFirst t (packages (listAfter w S j)) (S.map (leafOf w)) :=
    take_mergeFirst (ht.trans (length_listAfter_le w S (j + 1))) _ _
  refine ⟨a, b, ?_, ha, hb2, fun s => ?_, fun s hs hocc => ?_⟩
  · have hlen := hperm.length_eq
    rw [← htake, List.length_take, Nat.min_eq_left ht, List.length_append, List.length_take, List.length_take,
      packages_length, List.length_map] at hlen
    omega
  · rw [htake, occurrences_perm hperm, occurrences_append, occurrences_take_packages hb2, ← List.map_take,
      occurrences_map_leafOf, Nat.add_comm]
  · rw [← occurrences_take_packages hb2] at hocc
    obtain ⟨p, hp, hsp⟩ := occurrences_pos_iff.1 hocc
    obtain ⟨x, hx, y, hy, rfl⟩ := exists_of_mem_packages (List.mem_of_mem_take hp)
    have hlt := (listAfter_holds w S j x hx).lt_weight_pack (listAfter_holds w S j y hy) hS.pos hsp
    rw [← List.take_append_drop a S, List.mem_append] at hs
    refine hs.resolve_right fun hs => ?_
    have hleaf : leafOf w s ∈ (S.map (leafOf w)).drop a := List.map_drop ▸ List.mem_map_of_mem hs
    exact absurd (hle _ hp _ hleaf) (not_le.2 hlt)

theorem Alphabet.count_take_le_one (a s : Nat) : (S.take a).count s ≤ 1 :=
  List.nodup_iff_count_le_one.1 (hS.nodup.sublist (List.take_sublist a S)) s

/-- No symbol occurs in a list more often than there were rounds. -/
theorem Alphabet.occurrences_take_le {j t : Nat} (ht : t ≤ (listAfter w S j).length) (s : Nat) :
    occurrences s ((listAfter w S j).take t) ≤ j := by
  induction j generalizing t with
  | zero => simp [listAfter, occurrences]
  | succ j ih =>
    obtain ⟨a, b, -, -, hb, hocc, -⟩ := hS.exists_take_listAfter_split ht
    have hcount := hS.count_take_le_one a s
    have hih := ih hb
    rw [hocc s]
    omega

/-- Where a full list holds every symbol, the next one does: were a leaf left out, all items of the list before would be
in packages, and as no symbol but those of the leaves taken occurs in these, no leaf would be left out. -/
theorem Alphabet.occurrences_listAfter_succ_pos {j : Nat}
    (hfull : (listAfter w S j).length = 2 * S.length - 2 → ∀ s ∈ S, 0 < occurrences s (listAfter w S j)) :
    ∀ s ∈ S, 0 < occurrences s (listAfter w S (j + 1)) := by
  intro s hs
  obtain ⟨a, b, hab, ha, hb, hocc, hnested⟩ := hS.exists_take_listAfter_split (j := j) le_rfl
  have hall : S.length ≤ a := by
    by_contra hlt
    have hlen := length_listAfter_succ w S j
    have hle := length_listAfter_le w S j
    have htwo := hS.two_le
    have hlast : 2 * b = (listAfter w S j).length := by omega
    rw [hlast, List.take_length] at hnested
    have hsub : S ⊆ S.take a := fun r hr => hnested r hr (hfull (by omega) r hr)
    have hle := (hS.nodup.subperm hsub).length_le
    rw [List.length_take] at hle
    omega
  have hone : 0 < (S.take a).count s := List.count_pos_iff.2 (by rwa [List.take_of_length_le hall])
  rw [← List.take_length (l := listAfter w S (j + 1)), hocc s]
  omega

/-- From the first round on every symbol occurs in the list. -/
theorem Alphabet.occurrences_listAfter_pos (j : Nat) : ∀ s ∈ S, 0 < occurrences s (listAfter w S (j + 1)) := by
  induction j with
  | zero =>
    have htwo := hS.two_le
    exact hS.occurrences_listAfter_succ_pos fun hfull => absurd hfull (by simp only [listAfter, List.length_nil]; omega)
  | succ j ih => exact hS.occurrences_listAfter_succ_pos fun _ => ih

end Rounds

/-! ## The Kraft sum -/

/-- The Kraft sum of the lengths of an alphabet's symbols, a symbol of length 0 included, in units of 2^-j. -/
def roomOf (S : List Nat) (j : Nat) (l : Nat → Nat) : Nat := (S.map fun s => 2 ^ (j - l s)).sum

theorem roomOf_congr {S : List Nat} {l l' : Nat → Nat} (h : ∀ s ∈ S, l s = l' s) (j : Nat) :
    roomOf S j l = roomOf S j l' := by
  rw [roomOf, roomOf, List.map_congr_left fun s hs => by rw [h s hs]]

theorem roomOf_le (S : List Nat) (j : Nat) (l : Nat → Nat) : roomOf S j l ≤ S.length * 2 ^ j := by
  have hle := List.sum_le_card_nsmul (S.map fun s => 2 ^ (j - l s)) (2 ^ j) fun x hx => by
    obtain ⟨s, -, rfl⟩ := List.mem_map.1 hx
    exact Nat.pow_le_pow_right Nat.two_pos (Nat.sub_le _ _)
  simpa [roomOf] using hle

theorem roomOf_zero (S : List Nat) (j : Nat) : roomOf S j (fun _ => 0) = S.length * 2 ^ j := by
  simp [roomOf]

/-- Lengths put together from one bit for each of some symbols and further lengths of those symbols only: the room of
each other symbol doubles with the unit halved. -/
theorem roomOf_succ {S : List Nat} {l c l' : Nat → Nat} (hl : ∀ s ∈ S, l s = c s + l' s) (hc : ∀ s ∈ S, c s ≤ 1)
    (h0 : ∀ s ∈ S, c s = 0 → l' s = 0) (j : Nat) :
    roomOf S (j + 1) l + (S.map c).sum * 2 ^ j = roomOf S j l' + S.length * 2 ^ j := by
  have hone : ∀ s ∈ S, 2 ^ (j + 1 - l s) + c s * 2 ^ j = 2 ^ (j - l' s) + 2 ^ j := by
    intro s hs
    rw [hl s hs]
    rcases Nat.le_one_iff_eq_zero_or_eq_one.1 (hc s hs) with h | h
    · rw [h, h0 s hs h]
      simp only [Nat.add_zero, Nat.sub_zero, Nat.zero_mul, Nat.pow_succ]
      omega
    · rw [h, Nat.add_comm j 1, Nat.add_sub_add_left, Nat.one_mul]
  have hsum := congrArg List.sum (List.map_congr_left hone)
  rw [List.sum_map_add, List.sum_map_add, List.sum_map_mul_right] at hsum
  simpa [roomOf] using hsum

/-- The symbols without a bit keep their room, and the others have some. -/
theorem le_roomOf {S : List Nat} {c l' : Nat → Nat} (hc : ∀ s ∈ S, c s ≤ 1) (h0 : ∀ s ∈ S, c s = 0 → l' s = 0)
    (j : Nat) : S.length * 2 ^ j + (S.map c).sum ≤ roomOf S j l' + (S.map c).sum * 2 ^ j := by
  have hone : ∀ s ∈ S, 2 ^ j + c s ≤ 2 ^ (j - l' s) + c s * 2 ^ j := by
    intro s hs
    rcases Nat.le_one_iff_eq_zero_or_eq_one.1 (hc s hs) with h | h
    · rw [h, h0 s hs h]
      simp
    · have hpos := Nat.two_pow_pos (j - l' s)
      rw [h]
      omega
  have hsum := List.sum_le_sum hone
  rw [List.sum_map_add, List.sum_map_add, List.sum_map_mul_right] at hsum
  simpa [roomOf] using hsum

/-- A list of symbols of an alphabet, counted symbol by symbol. -/
theorem sum_count_eq_length {S A : List Nat} (hS : S.Nodup) (hA : A ⊆ S) :
    (S.map fun s => A.count s).sum = A.length := by
  simpa using (sum_map_eq_sum_mul_count hS (fun _ => 1) hA).symm

/-- The symbols of an alphabet with a nonzero length. -/
def codedOf (S : List Nat) (l : Nat → Nat) : List Nat := S.filter fun s => decide (0 < l s)

theorem codedOf_sublist (S : List Nat) (l : Nat → Nat) : (codedOf S l).Sublist S := List.filter_sublist

/-- A symbol with a nonzero length has one bit of it in the first round. -/
theorem count_codedOf {S : List Nat} (hS : S.Nodup) (l : Nat → Nat) {s : Nat} (hs : s ∈ S) :
    (codedOf S l).count s = min 1 (l s) := by
  rw [(hS.sublist (codedOf_sublist S l)).count, codedOf]
  simp only [List.mem_filter, hs, true_and, decide_eq_true_eq]
  split <;> omega

/-- The bound of items by the room they leave, carried one round back, in units p: a symbols have a bit in the round, so
t - a packages are left, of two items each. -/
theorem items_left_le {t a m p room room' : Nat} (hp : 0 < p) (hroom : t * (p * 2) + 2 * room ≤ 2 * m * (p * 2))
    (hsucc : room + a * p = room' + m * p) (hlow : m * p + a ≤ room' + a * p) (hle : room' ≤ m * p) (ha : a ≤ m) :
    t - a ≤ m - 1 ∧ 2 * (t - a) * p + 2 * room' ≤ 2 * m * p := by
  constructor
  · have htwice : t * p + a ≤ 2 * a * p := by linarith
    have hfew : t < 2 * a ∨ t = 0 := by
      refine (Nat.lt_or_ge t (2 * a)).imp_right fun hge => ?_
      have hmul := Nat.mul_le_mul_right p hge
      obtain rfl : a = 0 := by omega
      simpa [hp.ne'] using htwice
    omega
  · rcases Nat.le_total t a with hta | hat
    · rw [Nat.sub_eq_zero_of_le hta]
      linarith
    · obtain ⟨d, rfl⟩ := Nat.exists_eq_add_of_le hat
      rw [Nat.add_sub_cancel_left]
      linarith

section Code

variable {w : Nat → Nat} {S : List Nat} (hS : Alphabet w S)

include hS

/-- The numbers of occurrences in the first t items are the lengths of a code, whose Kraft sum is 1 for 2 m - 2 items
(44_huffman.md R821). -/
theorem Alphabet.roomOf_occurrences {j t : Nat} (ht : t ≤ (listAfter w S j).length) :
    t * 2 ^ j + 2 * roomOf S j (fun s => occurrences s ((listAfter w S j).take t)) = 2 * S.length * 2 ^ j := by
  induction j generalizing t with
  | zero =>
    obtain rfl : t = 0 := Nat.le_zero.1 ht
    simp [listAfter, occurrences, roomOf]
  | succ j ih =>
    obtain ⟨a, b, rfl, ha, hb, hocc, hnested⟩ := hS.exists_take_listAfter_split ht
    have hsucc := roomOf_succ (S := S) (fun s _ => hocc s) (fun s _ => hS.count_take_le_one a s)
      (fun s hs hc => Nat.eq_zero_of_not_pos fun hpos => List.count_eq_zero.1 hc (hnested s hs hpos)) j
    have hih := ih hb
    rw [sum_count_eq_length hS.nodup (List.take_subset a S), List.length_take, Nat.min_eq_left ha] at hsucc
    rw [Nat.pow_succ]
    linarith

/-- The first items of a round weigh no more than the first packages and the leaves of some symbols. -/
theorem Alphabet.totalWeight_take_succ_le {j t b : Nat} (ht : t ≤ 2 * S.length - 2)
    (hb : 2 * b ≤ (listAfter w S j).length) {A : List Nat} (hA : A.Sublist S) (htb : t ≤ b + A.length) :
    t ≤ (listAfter w S (j + 1)).length ∧ totalWeight ((listAfter w S (j + 1)).take t) ≤
      totalWeight ((listAfter w S j).take (2 * b)) + (A.map w).sum := by
  have hlen := hA.length_le
  refine ⟨by rw [length_listAfter_succ]; omega, ?_⟩
  have hsub : ((packages (listAfter w S j)).take b ++ A.map (leafOf w)).Subperm
      (mergeItems (packages (listAfter w S j)) (S.map (leafOf w))) :=
    ((List.take_sublist _ _).append (hA.map _)).subperm.trans (mergeItems_perm _ _).symm.subperm
  rw [take_listAfter_succ ht, ← totalWeight_take_packages hb, ← totalWeight_map_leafOf, ← totalWeight_append]
  refine totalWeight_take_le (mergeItems_sorted (packages_sorted (hS.listAfter_sorted j)) hS.leaves_sorted)
    hsub ?_
  rw [List.length_append, List.length_take, packages_length, List.length_map]
  omega

/-- No code within the limit costs less: lengths of at most j that leave room for t items cost at least what the first
t of the list weigh, and so many there are (44_huffman.md R821). -/
theorem Alphabet.totalWeight_le_cost {j t : Nat} {l : Nat → Nat} (hl : ∀ s ∈ S, l s ≤ j) (ht : t ≤ 2 * S.length - 2)
    (hroom : t * 2 ^ j + 2 * roomOf S j l ≤ 2 * S.length * 2 ^ j) : t ≤ (listAfter w S j).length ∧
      totalWeight ((listAfter w S j).take t) ≤ (S.map fun s => w s * l s).sum := by
  induction j generalizing t l with
  | zero =>
    rw [roomOf_congr (l' := fun _ => 0) (fun s hs => Nat.le_zero.1 (hl s hs)), roomOf_zero] at hroom
    obtain rfl : t = 0 := by omega
    exact ⟨le_rfl, Nat.zero_le _⟩
  | succ j ih =>
    have hsub := codedOf_sublist S l
    have hcount := fun s (hs : s ∈ S) => count_codedOf hS.nodup l hs
    have hle : ∀ s ∈ S, (codedOf S l).count s ≤ 1 := fun s hs => (hcount s hs).trans_le (Nat.min_le_left _ _)
    have h0 : ∀ s ∈ S, (codedOf S l).count s = 0 → l s - 1 = 0 := fun s hs => by rw [hcount s hs]; omega
    have hsplit : ∀ s ∈ S, l s = (codedOf S l).count s + (l s - 1) := fun s hs => by rw [hcount s hs]; omega
    have hsucc := roomOf_succ hsplit hle h0 j
    have hlow := le_roomOf hle h0 j
    rw [sum_count_eq_length hS.nodup hsub.subset] at hsucc hlow
    obtain ⟨hfew, hleft⟩ := items_left_le (Nat.two_pow_pos j) hroom hsucc hlow (roomOf_le S j _) hsub.length_le
    obtain ⟨hb, hweight⟩ := ih (l := fun s => l s - 1) (t := 2 * (t - (codedOf S l).length))
      (fun s hs => by have := hl s hs; omega) (by omega) hleft
    obtain ⟨hlen, hround⟩ := hS.totalWeight_take_succ_le (w := w) ht hb hsub (by omega)
    refine ⟨hlen, hround.trans ?_⟩
    rw [sum_map_eq_sum_mul_count hS.nodup w hsub.subset,
      List.map_congr_left fun s hs => congrArg (w s * ·) (hsplit s hs)]
    simp only [Nat.mul_add, List.sum_map_add]
    omega

end Code

end Sys2Proof.Machine
end

section
/-! PROOFS. The lengths of package-merge (44_huffman.md R821, R822): the leaves are an alphabet by weight ascending, and
the lengths are the numbers of occurrences of its symbols in the list of the last round. -/

namespace Sys2Proof.Machine

open Config (hw)

/-! ## The leaves -/

theorem zipIdx_eq_map_range (f : List Nat) : f.zipIdx = (List.range f.length).map fun k => (f.getD k 0, k) := by
  refine List.ext_getElem (by simp) fun k hk _ => ?_
  have hk : k < f.length := by simpa using hk
  simp [hk]

/-- The symbols that occur, by number ascending. -/
theorem codedSyms_eq_filter (f : List Nat) :
    codedSyms f = (List.range f.length).filter fun k => decide (0 < f.getD k 0) := by
  rw [codedSyms, zipIdx_eq_map_range, List.filter_map, List.map_map]
  exact List.map_id _

theorem mem_codedSyms_iff {f : List Nat} {k : Nat} : k ∈ codedSyms f ↔ 0 < f.getD k 0 := by
  rw [codedSyms_eq_filter, List.mem_filter, List.mem_range, decide_eq_true_eq, and_iff_right_iff_imp]
  intro hpos
  by_contra hk
  rw [List.getD_eq_default _ _ (not_lt.1 hk)] at hpos
  exact hpos.false

theorem insertLeaf_perm (x : Item) (ys : List Item) : (insertLeaf x ys).Perm (x :: ys) := by
  induction ys with
  | nil => exact .rfl
  | cons y ys ih =>
    rw [insertLeaf]
    split
    · exact .rfl
    · exact (ih.cons y).trans (.swap x y ys)

theorem insertLeaf_sorted (x : Item) {ys : List Item} (h : ys.Pairwise Item.Le) :
    (insertLeaf x ys).Pairwise Item.Le := by
  induction ys with
  | nil => exact List.pairwise_singleton _ x
  | cons y ys ih =>
    obtain ⟨hy, hys⟩ := List.pairwise_cons.1 h
    rw [insertLeaf]
    split
    · next hxy =>
      refine List.pairwise_cons.2 ⟨List.forall_mem_cons.2 ⟨hxy, fun z hz => ?_⟩, h⟩
      exact Nat.le_trans hxy (hy z hz)
    · next hxy =>
      refine List.pairwise_cons.2 ⟨fun z hz => ?_, ih hys⟩
      rcases List.mem_cons.1 ((insertLeaf_perm x ys).subset hz) with rfl | hz
      · exact (not_le.1 hxy).le
      · exact hy z hz

theorem foldr_insertLeaf_perm (xs : List Item) : (xs.foldr insertLeaf []).Perm xs := by
  induction xs with
  | nil => exact .rfl
  | cons x xs ih => exact (insertLeaf_perm x _).trans (ih.cons x)

theorem foldr_insertLeaf_sorted (xs : List Item) : (xs.foldr insertLeaf []).Pairwise Item.Le := by
  induction xs with
  | nil => exact .nil
  | cons x xs ih => exact insertLeaf_sorted x ih

theorem leaves_perm (f : List Nat) : (leaves f).Perm ((codedSyms f).map (leafOf fun k => f.getD k 0)) := by
  refine (foldr_insertLeaf_perm _).trans (.of_eq ?_)
  rw [codedSyms_eq_filter, zipIdx_eq_map_range, List.filter_map, List.map_map]
  rfl

/-- The symbols that occur, in the order of their leaves. -/
def symsByWeight (f : List Nat) : List Nat := (leaves f).flatMap Item.syms

theorem symsByWeight_perm (f : List Nat) : (symsByWeight f).Perm (codedSyms f) := by
  refine ((leaves_perm f).flatMap_right _).trans (.of_eq ?_)
  rw [List.flatMap_map]
  exact List.flatMap_singleton' _

theorem leaves_eq_map (f : List Nat) : leaves f = (symsByWeight f).map (leafOf fun k => f.getD k 0) := by
  have hleaf : ∀ x ∈ leaves f, x.syms.map (leafOf fun k => f.getD k 0) = [x] := by
    intro x hx
    obtain ⟨k, -, rfl⟩ := List.mem_map.1 ((leaves_perm f).subset hx)
    rfl
  rw [symsByWeight, List.map_flatMap, List.flatMap_congr hleaf, List.flatMap_singleton']

theorem length_symsByWeight (f : List Nat) : (symsByWeight f).length = (codedSyms f).length :=
  (symsByWeight_perm f).length_eq

theorem length_leaves (f : List Nat) : (leaves f).length = (codedSyms f).length := by
  rw [leaves_eq_map, List.length_map, length_symsByWeight]

/-- The symbols that occur in f are the alphabet of the rounds. -/
theorem symsByWeight_alphabet {f : List Nat} (h : 2 ≤ (codedSyms f).length) :
    Alphabet (fun k => f.getD k 0) (symsByWeight f) where
  nodup := by
    rw [(symsByWeight_perm f).nodup_iff, codedSyms_eq_filter]
    exact List.nodup_range.filter _
  sorted := by
    have hsorted : (leaves f).Pairwise Item.Le := foldr_insertLeaf_sorted _
    rw [leaves_eq_map] at hsorted
    exact (List.pairwise_map (R := Item.Le)).1 hsorted
  pos s hs := mem_codedSyms_iff.1 ((symsByWeight_perm f).subset hs)
  two_le := h.trans_eq (length_symsByWeight f).symm

/-- A sum over the symbols that occur. -/
theorem sum_map_symsByWeight (f : List Nat) (g : Nat → Nat) : ((symsByWeight f).map g).sum =
    ((List.range f.length).map fun k => if 0 < f.getD k 0 then g k else 0).sum := by
  rw [List.sum_map_ite, ((symsByWeight_perm f).map g).sum_nat, codedSyms_eq_filter]
  simp

/-! ## The lengths -/

/-- The list the lengths are counted in (44_huffman.md R821). -/
def lastList (f : List Nat) (limit : Nat) : List Item := listAfter (fun k => f.getD k 0) (symsByWeight f) limit

/-- Fewer than two symbols have length 1 (44_huffman.md R822). -/
theorem katajainen_of_few {f : List Nat} (h : (codedSyms f).length < 2) (limit : Nat) :
    katajainen f limit = f.map fun v => if 0 < v then 1 else 0 := by
  have hlen := length_leaves f
  unfold katajainen
  simp only []
  split
  · next hnil =>
    rw [hnil, length_codedSyms, List.length_nil, eq_comm, List.length_eq_zero_iff, List.filter_eq_nil_iff] at hlen
    exact List.map_congr_left fun v hv => (if_neg (by simpa using hlen v hv)).symm
  · rfl
  · next hmany =>
    rw [hmany, List.length_cons, List.length_cons] at hlen
    omega

/-- Two or more symbols have the numbers of their occurrences in the last list (44_huffman.md R821). -/
theorem katajainen_of_many {f : List Nat} (h : 2 ≤ (codedSyms f).length) {limit : Nat} (hlimit : 1 ≤ limit) :
    katajainen f limit =
      (List.range f.length).map fun k => if 0 < f.getD k 0 then occurrences k (lastList f limit) else 0 := by
  have hlen := length_leaves f
  have hrounds : packageRounds (2 * (leaves f).length - 2) (leaves f) (limit - 1)
      ((leaves f).take (2 * (leaves f).length - 2)) = lastList f limit := by
    obtain ⟨k, rfl⟩ := Nat.exists_eq_add_of_le' hlimit
    rw [leaves_eq_map, List.length_map, lastList, ← packageRounds_eq_listAfter, Nat.add_sub_cancel, packageRounds]
    congr 1
    rw [mergeFirst_eq_take]
    simp [packages, mergeItems]
  unfold katajainen
  simp only []
  split
  · next hnil => simp only [hnil, List.length_nil] at hlen; omega
  · next hone => simp only [hone, List.length_singleton] at hlen; omega
  · next hmany =>
    rw [hrounds, zipIdx_eq_map_range, List.map_map]
    rfl

theorem getD_map_range {n k : Nat} (hk : k < n) (g : Nat → Nat) : ((List.range n).map g).getD k 0 = g k := by
  simp [hk]

/-- The lengths symbol by symbol: each that occurs has the number of its occurrences. -/
theorem getD_katajainen {f : List Nat} (h : 2 ≤ (codedSyms f).length) {limit : Nat} (hlimit : 1 ≤ limit) (k : Nat) :
    (katajainen f limit).getD k 0 = if 0 < f.getD k 0 then occurrences k (lastList f limit) else 0 := by
  rcases Nat.lt_or_ge k f.length with hlt | hge
  · rw [katajainen_of_many h hlimit, getD_map_range hlt]
  · rw [List.getD_eq_default _ _ (by rwa [katajainen_length]), List.getD_eq_default _ _ hge, if_neg (lt_irrefl 0)]

theorem occurrences_lastList_le {f : List Nat} (h : 2 ≤ (codedSyms f).length) (limit k : Nat) :
    occurrences k (lastList f limit) ≤ limit := by
  have hle := (symsByWeight_alphabet h).occurrences_take_le (le_refl (lastList f limit).length) k
  rwa [← lastList, List.take_length] at hle

theorem occurrences_lastList_pos {f : List Nat} (h : 2 ≤ (codedSyms f).length) {limit : Nat} (hlimit : 1 ≤ limit)
    {k : Nat} (hk : 0 < f.getD k 0) : 0 < occurrences k (lastList f limit) := by
  obtain ⟨j, rfl⟩ := Nat.exists_eq_add_of_le' hlimit
  exact (symsByWeight_alphabet h).occurrences_listAfter_pos j k
    ((symsByWeight_perm f).symm.subset (mem_codedSyms_iff.2 hk))

/-- Settles O51: a symbol's occurrences in the last list are at most one for each round, and its leaf is in the list. -/
theorem codeLengthsRespectTheLimit : Obligations.CodeLengthsRespectTheLimit := by
  intro f limit hlimit
  refine ⟨katajainen_length f limit, fun k hk => ?_⟩
  rcases Nat.lt_or_ge (codedSyms f).length 2 with hfew | hmany
  · have hget : (katajainen f limit).getD k 0 = if 0 < f.getD k 0 then 1 else 0 := by
      rw [katajainen_of_few hfew]
      simp [hk]
    rw [hget]
    split <;> omega
  · rw [getD_katajainen hmany hlimit]
    split
    · next hpos =>
      exact ⟨occurrences_lastList_le hmany limit k, iff_of_true (occurrences_lastList_pos hmany hlimit hpos) hpos⟩
    · next hzero => exact ⟨Nat.zero_le _, iff_of_false (lt_irrefl 0) hzero⟩

/-! ## The Kraft sum and the cost -/

theorem eq_map_range_getD (l : List Nat) : l = (List.range l.length).map fun k => l.getD k 0 := by
  rw [← take_eq_map_getD le_rfl, List.take_length]

theorem kraftSum_eq_sum_range (lens : List Nat) : kraftSum hw lens = ((List.range lens.length).map fun k =>
    if 0 < lens.getD k 0 then 2 ^ (15 - lens.getD k 0) else 0).sum := by
  conv_lhs => rw [eq_map_range_getD lens, kraftSum, List.map_map]
  rfl

/-- The room of lengths of at most the limit, in units of 2^-15. -/
theorem roomOf_mul_two_pow {f : List Nat} {limit : Nat} (h15 : limit ≤ 15) {l : Nat → Nat}
    (hl : ∀ s ∈ symsByWeight f, l s ≤ limit) : roomOf (symsByWeight f) limit l * 2 ^ (15 - limit) =
      ((List.range f.length).map fun k => if 0 < f.getD k 0 then 2 ^ (15 - l k) else 0).sum := by
  rw [← sum_map_symsByWeight f fun k => 2 ^ (15 - l k), roomOf, ← List.sum_map_mul_right]
  refine congrArg List.sum (List.map_congr_left fun s hs => ?_)
  have hle := hl s hs
  rw [← Nat.pow_add]
  congr 1
  omega

theorem getD_le_of_forall_le {lens : List Nat} {limit : Nat} (hle : ∀ l ∈ lens, l ≤ limit) (k : Nat) :
    lens.getD k 0 ≤ limit := by
  rcases Nat.lt_or_ge k lens.length with hlt | hge
  · rw [List.getD_eq_getElem _ _ hlt]
    exact hle _ (List.getElem_mem hlt)
  · rw [List.getD_eq_default _ _ hge]
    exact Nat.zero_le _

/-- The symbols that occur in f take their part of the Kraft sum of a code that covers them. -/
theorem roomOf_mul_le_kraftSum {f lens : List Nat} {limit : Nat} (h15 : limit ≤ 15) (hlen : lens.length = f.length)
    (hle : ∀ l ∈ lens, l ≤ limit) (hcover : ∀ k, 0 < f.getD k 0 → 0 < lens.getD k 0) :
    roomOf (symsByWeight f) limit (fun k => lens.getD k 0) * 2 ^ (15 - limit) ≤ kraftSum hw lens := by
  rw [kraftSum_eq_sum_range, hlen, roomOf_mul_two_pow h15 fun s _ => getD_le_of_forall_le hle s]
  refine List.sum_le_sum fun k _ => ?_
  split
  · next hk => rw [if_pos (hcover k hk)]
  · exact Nat.zero_le _

/-- The package-merge lengths have no symbol besides, so theirs is the whole Kraft sum. -/
theorem roomOf_mul_eq_kraftSum {f : List Nat} {limit : Nat} (hlimit : 1 ≤ limit) (h15 : limit ≤ 15)
    (h : 2 ≤ (codedSyms f).length) :
    roomOf (symsByWeight f) limit (fun k => occurrences k (lastList f limit)) * 2 ^ (15 - limit) =
      kraftSum hw (katajainen f limit) := by
  rw [kraftSum_eq_sum_range, katajainen_length, roomOf_mul_two_pow h15 fun s _ => occurrences_lastList_le h limit s]
  refine congrArg List.sum (List.map_congr_left fun k _ => ?_)
  rw [getD_katajainen h hlimit]
  split
  · next hk => rw [if_pos (occurrences_lastList_pos h hlimit hk)]
  · rfl

/-- The cost of lengths, over the symbols that occur. -/
theorem sum_zipWith_mul {f lens : List Nat} (hlen : lens.length = f.length) : (List.zipWith (· * ·) f lens).sum =
    ((symsByWeight f).map fun k => f.getD k 0 * lens.getD k 0).sum := by
  rw [sum_map_symsByWeight]
  congr 1
  refine List.ext_getElem (by simp [hlen]) fun k hk _ => ?_
  have hk : k < f.length ∧ k < lens.length := by simpa using hk
  simp only [List.getElem_zipWith, List.getElem_map, List.getElem_range, List.getD_eq_getElem, hk.1, hk.2]
  split
  · rfl
  · next h => rw [Nat.eq_zero_of_not_pos h, Nat.zero_mul]

/-- The 2 m - 2 items of a whole code of m symbols leave 1 of the Kraft sum (44_huffman.md R821). -/
theorem whole_code_items {m : Nat} (hm : 2 ≤ m) (p : Nat) : (2 * m - 2) * p + 2 * p = 2 * m * p := by
  rw [← Nat.add_mul, Nat.sub_add_cancel (by omega)]

/-- The last list is full where a code within the limit exists, that of the limit for every symbol. -/
theorem length_lastList {f : List Nat} {limit : Nat} (h : 2 ≤ (codedSyms f).length)
    (hexists : (codedSyms f).length ≤ 2 ^ limit) :
    (lastList f limit).length = 2 * (symsByWeight f).length - 2 := by
  refine (length_listAfter_le _ _ _).antisymm ?_
  refine ((symsByWeight_alphabet h).totalWeight_le_cost (l := fun _ => limit) (fun _ _ => le_rfl) le_rfl ?_).1
  have hitems := whole_code_items (symsByWeight_alphabet h).two_le (2 ^ limit)
  have hone : roomOf (symsByWeight f) limit (fun _ => limit) = (symsByWeight f).length := by simp [roomOf]
  rw [← length_symsByWeight] at hexists
  rw [hone]
  omega

/-- The package-merge code is complete: its list holds the items of a whole code. -/
theorem kraftSum_katajainen {f : List Nat} {limit : Nat} (h15 : limit ≤ 15) (hlimit : 1 ≤ limit)
    (h : 2 ≤ (codedSyms f).length) (hexists : (codedSyms f).length ≤ 2 ^ limit) :
    kraftSum hw (katajainen f limit) = 2 ^ 15 := by
  have hS := symsByWeight_alphabet h
  have hitems := whole_code_items hS.two_le (2 ^ limit)
  have hwhole := hS.roomOf_occurrences (le_refl (lastList f limit).length)
  rw [← lastList, List.take_length, length_lastList h hexists] at hwhole
  have hroom : roomOf (symsByWeight f) limit (fun k => occurrences k (lastList f limit)) = 2 ^ limit := by omega
  rw [← roomOf_mul_eq_kraftSum hlimit h15 h, hroom, ← Nat.pow_add, Nat.add_sub_cancel' h15]

/-- The package-merge code costs what the items of its list weigh. -/
theorem sum_zipWith_mul_katajainen {f : List Nat} {limit : Nat} (hlimit : 1 ≤ limit) (h : 2 ≤ (codedSyms f).length) :
    (List.zipWith (· * ·) f (katajainen f limit)).sum = totalWeight (lastList f limit) := by
  have hS := symsByWeight_alphabet h
  rw [sum_zipWith_mul (katajainen_length f limit), lastList,
    totalWeight_eq_sum_occurrences hS.nodup (listAfter_holds _ _ limit)]
  refine congrArg List.sum (List.map_congr_left fun s hs => ?_)
  rw [getD_katajainen h hlimit, if_pos (hS.pos s hs), lastList]

/-- Lengths within the limit that cover every symbol and satisfy the Kraft inequality cost at least what the items of
the list weigh. -/
theorem totalWeight_lastList_le {f lens : List Nat} {limit : Nat} (h15 : limit ≤ 15) (h : 2 ≤ (codedSyms f).length)
    (hlen : lens.length = f.length) (hle : ∀ l ∈ lens, l ≤ limit) (hcover : ∀ k, 0 < f.getD k 0 → 0 < lens.getD k 0)
    (hkraft : kraftSum hw lens ≤ 2 ^ 15) :
    totalWeight (lastList f limit) ≤ (List.zipWith (· * ·) f lens).sum := by
  have hS := symsByWeight_alphabet h
  have hitems := whole_code_items hS.two_le (2 ^ limit)
  have hroom : roomOf (symsByWeight f) limit (fun k => lens.getD k 0) ≤ 2 ^ limit := by
    have hpart := (roomOf_mul_le_kraftSum h15 hlen hle hcover).trans hkraft
    rw [show 2 ^ 15 = 2 ^ limit * 2 ^ (15 - limit) by rw [← Nat.pow_add, Nat.add_sub_cancel' h15]] at hpart
    exact Nat.le_of_mul_le_mul_right hpart (Nat.two_pow_pos _)
  have hweight := (hS.totalWeight_le_cost (fun s _ => getD_le_of_forall_le hle s) le_rfl (by omega)).2
  rw [List.take_of_length_le (length_listAfter_le _ _ limit), ← lastList] at hweight
  rwa [sum_zipWith_mul hlen]

/-- Settles O52: the last list is a whole code, and none within the limit costs less than its items weigh. -/
theorem packageMergeCodesAreCompleteAndOptimal : Obligations.PackageMergeCodesAreCompleteAndOptimal := by
  intro f limit h15 htwo hexists
  rw [← length_codedSyms] at htwo hexists
  have hlimit : 1 ≤ limit := by
    by_contra h
    obtain rfl : limit = 0 := by omega
    omega
  refine ⟨kraftSum_katajainen h15 hlimit htwo hexists, fun lens hlen hle hcover hkraft => ?_⟩
  rw [sum_zipWith_mul_katajainen hlimit htwo]
  exact totalWeight_lastList_le h15 htwo hlen hle hcover hkraft

end Sys2Proof.Machine
end

section
/-! PROOFS. The commands of the block writer but WRESET: what each appends to the output stream, and how it ends where
the bits do not fit (45_block_writer.md R911 to R990). -/

namespace Sys2Proof.Machine

open Config (hw)

/-! ## How a writer command ends -/

/-- A writer command whose bits were all put: the stream is longer by them, the headers among them are counted, and
nothing else changes but the results and the bytes of OUT completed (45_block_writer.md R901). -/
structure WriterEnds (s t : State) (bits : List Bool) (headers : List (Nat × BitVec 3)) (res : Results) : Prop where
  ends : EndsWell s t
  stream : t.streamBits = s.streamBits ++ bits
  pos : t.streamPos = s.streamPos + bits.length
  blocksOut : t.packer.blocksOut = s.packer.blocksOut + word headers.length
  lastBlock : t.packer.lastBlock = (headers.getLast?.map (·.2)).getD s.packer.lastBlock
  res : t.res = res
  lens : t.lens = s.lens
  obs : t.obs = s.obs
  cache : t.cache = s.cache
  mem : SameMemOutside [writtenRun s t] s t

section Ends

variable {s t : State} {bits : List Bool} {headers : List (Nat × BitVec 3)}

/-- A byte outside the completed run of OUT is on one of its two sides. -/
theorem sameMemOutside_writtenRun (hle : s.packer.outLen.toNat ≤ t.packer.outLen.toNat)
    (h : ∀ x, (x < Region.output.base + s.packer.outLen.toNat ∨ Region.output.base + t.packer.outLen.toNat ≤ x) →
      t.readByte x = s.readByte x) : SameMemOutside [writtenRun s t] s t := by
  intro x hx
  have hrun := hx _ List.mem_cons_self
  rw [writtenRun, Region.output_entry] at hrun
  exact h x (by omega)

theorem Emitted.sameMem (h : Emitted s t bits headers) : SameMemOutside [writtenRun s t] s t :=
  sameMemOutside_writtenRun h.outLen_le h.mem

theorem Cut.outLen_le (h : Cut s t bits headers) : s.packer.outLen.toNat ≤ t.packer.outLen.toNat := by
  rw [h.cut.outLen]
  exact le_max_right _ _

theorem Cut.sameMem (h : Cut s t bits headers) : SameMemOutside [writtenRun s t] s t :=
  sameMemOutside_writtenRun h.outLen_le h.mem

theorem Emitted.res (h : Emitted s t bits headers) : t.res = s.res := by rw [h.rest]

theorem Emitted.lens (h : Emitted s t bits headers) : t.lens = s.lens := by rw [h.rest]

theorem Emitted.obs (h : Emitted s t bits headers) : t.obs = s.obs := by rw [h.rest]

theorem Emitted.cache (h : Emitted s t bits headers) : t.cache = s.cache := by rw [h.rest]

theorem Cut.res (h : Cut s t bits headers) : t.res = s.res := by rw [h.rest]

theorem Cut.lens (h : Cut s t bits headers) : t.lens = s.lens := by rw [h.rest]

theorem Cut.obs (h : Cut s t bits headers) : t.obs = s.obs := by rw [h.rest]

theorem Cut.cache (h : Cut s t bits headers) : t.cache = s.cache := by rw [h.rest]

/-- All bits put, then the results written and the command completed. -/
theorem Emitted.writerEnds (h : Emitted s t bits headers) (res : Results) :
    WriterEnds s { t with res := res }.complete bits headers res where
  ends := by
    rw [h.rest]
    exact ⟨rfl, rfl, rfl, rfl, rfl, rfl, rfl, rfl⟩
  stream := h.stream
  pos := h.streamPos
  blocksOut := h.blocksOut
  lastBlock := h.lastBlock
  res := rfl
  lens := h.lens
  obs := h.obs
  cache := h.cache
  mem := h.sameMem

/-- The bits cut, and WRITE_ERROR raised (60_exceptions.md R1007). -/
theorem Cut.writerStops (h : Cut s t bits headers) :
    WriterStops s (t.raiseError { code := .writeError, info := t.packer.outLen }) bits headers := by
  refine ⟨?_, h.cut.raiseError _, h.lens, h.obs, h.cache, h.sameMem⟩
  rw [h.rest]
  exact ⟨rfl, rfl, rfl, rfl, rfl, rfl, rfl, rfl⟩

/-- A command that puts bits, then writes its results, and does nothing else: it ends well where the bits fit, and with
WRITE_ERROR where they do not. -/
theorem Emits.writer {r : Run} (h : Emits s r bits headers) {k : State → State} {res : Results}
    (hk : ∀ t, Emitted s t bits headers → k t = { t with res := res }) {n : Nat} (hn : bits.length = n) :
    (s.HasRoom n → ∃ t, (r.andThen fun t => .ok (k t)).finish = .next t ∧ WriterEnds s t bits headers res) ∧
    (¬ s.HasRoom n → ∃ t, (r.andThen fun t => .ok (k t)).finish = .next t ∧ WriterStops s t bits headers) := by
  subst hn
  refine ⟨fun hr => ?_, fun hr => ?_⟩
  · obtain ⟨t, rfl, ht⟩ := h.fits hr
    rw [Run.ok_andThen, hk t ht]
    exact ⟨_, rfl, ht.writerEnds res⟩
  · obtain ⟨t, rfl, ht⟩ := h.full hr
    exact ⟨_, rfl, ht.writerStops⟩

/-- RES0 after a writer command: the number of bits put (45_block_writer.md R951, R961, R971, R982). -/
theorem Emitted.setWritten (h : Emitted s t bits headers) {n : Nat} (hn : bits.length = n) :
    t.setWritten s.streamPos = { t with res := { s.res with r0 := word n } } := by
  rw [State.setWritten, State.setRes0, h.streamPos, hn, Nat.add_sub_cancel_left, h.res]

theorem WriterEnds.pos_eq {res : Results} (h : WriterEnds s t bits headers res) {n : Nat} (hn : bits.length = n) :
    t.streamPos = s.streamPos + n := hn ▸ h.pos

/-- No header counted. -/
theorem WriterEnds.blocksOut_eq {res : Results} (h : WriterEnds s t bits [] res) :
    t.packer.blocksOut = s.packer.blocksOut :=
  h.blocksOut.trans (BitVec.add_zero _)

/-- A command that puts one whole block, then writes its results, in the words of the statements about WFIXED, WDYNAMIC
and WAUTO. -/
theorem Emits.blockWriter {r : Run} {final : Bool} {kind : Nat} (h : Emits s r bits [headerAt s.streamPos final kind])
    {k : State → State} {res : Results}
    (hk : ∀ t, Emitted s t bits [headerAt s.streamPos final kind] → k t = { t with res := res }) {n : Nat}
    (hn : bits.length = n) :
    (s.HasRoom n → ∃ t, (r.andThen fun t => .ok (k t)).finish = .next t ∧ EndsWell s t ∧
      t.streamBits = s.streamBits ++ bits ∧ t.streamPos = s.streamPos + n ∧ t.res = res ∧
      HeaderCounted s t final kind ∧ t.lens = s.lens ∧ t.obs = s.obs ∧ t.cache = s.cache ∧
      SameMemOutside [writtenRun s t] s t) ∧
    (¬ s.HasRoom n → ∃ t, (r.andThen fun t => .ok (k t)).finish = .next t ∧
      WriterStops s t bits [headerAt s.streamPos final kind]) := by
  refine ⟨fun hr => ?_, (h.writer hk hn).2⟩
  obtain ⟨t, hrun, ht⟩ := (h.writer hk hn).1 hr
  exact ⟨t, hrun, ht.ends, ht.stream, ht.pos_eq hn, ht.res, ⟨ht.blocksOut, ht.lastBlock⟩, ht.lens, ht.obs, ht.cache,
    ht.mem⟩

end Ends

/-! ## WBITS and WFLUSH -/

theorem Run.andThen_ok (r : Run) : (r.andThen fun t => .ok t) = r := by cases r <;> rfl

theorem exec_wbits {s : State} (h : s.argOf .x1 ≤ 32) :
    exec .wbits s = ((putAll (bitsOf (s.argOf .x0) (s.argOf .x1)) s).andThen fun t => .ok t).finish := by
  have hcheck : checkWbits s = .ok () := by simp [checkWbits, h]
  rw [exec_eq_commandRule, commandRule, hcheck, afterChecks_ok, Run.andThen_ok]

theorem wbits_writer {s : State} (h : s.argOf .x1 ≤ 32) :
    (s.HasRoom (s.argOf .x1) → ∃ t, exec .wbits s = .next t ∧
      WriterEnds s t (bitsOf (s.argOf .x0) (s.argOf .x1)) [] s.res) ∧
    (¬ s.HasRoom (s.argOf .x1) → ∃ t, exec .wbits s = .next t ∧
      WriterStops s t (bitsOf (s.argOf .x0) (s.argOf .x1)) []) := by
  rw [exec_wbits h]
  refine (putAll_emits s _).writer (k := id) (fun t ht => ?_) (bitsOf_length _ _)
  rw [← ht.res]
  rfl

theorem wflush_writer (s : State) :
    (s.HasRoom s.flushCount → ∃ t, exec .wflush s = .next t ∧
      WriterEnds s t (List.replicate s.flushCount false) [] { s.res with r0 := word s.flushCount }) ∧
    (¬ s.HasRoom s.flushCount → ∃ t, exec .wflush s = .next t ∧
      WriterStops s t (List.replicate s.flushCount false) []) := by
  refine (flush_emits s).writer (k := fun t => t.setRes0 s.flushCount) (fun t ht => ?_) (List.length_replicate ..)
  rw [← ht.res]
  rfl

/-- The flush ends at a byte boundary (45_block_writer.md R904). -/
theorem bitCnt_of_flushed {s t : State} (h : t.streamPos = s.streamPos + s.flushCount) : t.packer.bitCnt = 0 := by
  have hs : s.packer.bitCnt.toNat < 8 := s.packer.bitCnt.isLt
  have ht : t.packer.bitCnt.toNat < 8 := t.packer.bitCnt.isLt
  unfold State.streamPos State.flushCount at h
  have hzero : t.packer.bitCnt.toNat = 0 := by omega
  exact BitVec.eq_of_toNat_eq hzero

/-- Settles O55: both commands put their bits and no header. -/
theorem wbitsAndWflushAppendBits : Obligations.WbitsAndWflushAppendBits := by
  refine ⟨fun s h => ⟨fun hr => ?_, (wbits_writer h).2⟩, fun s => ⟨Nat.mod_lt _ (by decide), fun hr => ?_,
    (wflush_writer s).2⟩⟩
  · obtain ⟨t, hexec, ht⟩ := (wbits_writer h).1 hr
    have hpos := ht.pos_eq (bitsOf_length _ _)
    exact ⟨t, hexec, ht.ends, ht.stream, hpos, ht.blocksOut_eq, ht.lastBlock, ht.res, ht.lens, ht.obs, ht.cache, ht.mem⟩
  · obtain ⟨t, hexec, ht⟩ := (wflush_writer s).1 hr
    have hpos := ht.pos_eq List.length_replicate
    exact ⟨t, hexec, ht.ends, ht.stream, bitCnt_of_flushed hpos, hpos, ht.blocksOut_eq, ht.lastBlock, ht.res, ht.lens,
      ht.obs, ht.cache, ht.mem⟩

/-! ## WSTORED -/

section StoredRange

variable {s : State} {x y : ArgReg}

theorem storedStream_slice_length (h : ByteRange s x y) (final : Bool) (pos : Nat) {chunks : List Nat}
    (hsum : chunks.sum = s.argOf y - s.argOf x) :
    (storedStream final pos chunks (slice s.window (s.argOf x) (s.argOf y))).length = chunkBits pos chunks := by
  obtain ⟨-, hab, hb⟩ := h
  exact storedStream_length final chunks pos (by rw [hsum, slice_window_length s hab hb])

/-- The stored chunks of a byte range of the window. -/
theorem storedBlocks_emits (h : ByteRange s x y) (final : Bool) :
    Emits s (storedBlocks hw (s.argOf x) (s.argOf y) final s)
      (storedStream final s.streamPos (storedChunks hw (s.argOf y - s.argOf x))
        (slice s.window (s.argOf x) (s.argOf y)))
      (storedHeaders final s.streamPos (storedChunks hw (s.argOf y - s.argOf x))) := by
  obtain ⟨hN, hab, hb⟩ := h
  refine storedChunksFrom_emits final _ s ?_ ?_
  · rw [sum_storedChunks]
    omega
  · rw [sum_storedChunks, window_slice s hab hb]

end StoredRange

theorem exec_wstored {s : State} (h : ByteRange s .x0 .x1) (final : Bool) : exec (.wstored final) s =
    ((storedBlocks hw (s.argOf .x0) (s.argOf .x1) final s).andThen fun t => .ok (t.setWritten s.streamPos)).finish := by
  rw [exec_eq_commandRule, commandRule, wstoredCmd, checkBytes_eq_ok (u := ()).2 h, afterChecks_ok]

/-- Settles O56: the chunks of the window bytes are put, with a header for each. -/
theorem wstoredAppendsStoredBlocks : Obligations.WstoredAppendsStoredBlocks := by
  intro s final h
  have hlen := storedStream_slice_length h final s.streamPos (sum_storedChunks _)
  have hwriter := (storedBlocks_emits h final).writer (fun t ht => ht.setWritten hlen) hlen
  rw [← exec_wstored h] at hwriter
  refine ⟨hlen, fun hr => ?_, hwriter.2⟩
  obtain ⟨t, hexec, ht⟩ := hwriter.1 hr
  have hblocks := ht.blocksOut
  have hlast := ht.lastBlock
  rw [storedHeaders_length] at hblocks
  rw [storedHeaders_getLast? final (storedChunks_ne_nil _)] at hlast
  exact ⟨t, hexec, ht.ends, ht.stream, ht.pos_eq hlen, ht.res, hblocks, hlast, ht.lens, ht.obs, ht.cache, ht.mem⟩

/-! ## WFIXED and WDYNAMIC -/

theorem exec_wfixed {s : State} {x : StoreSel} {es : List Entry} (h : SymbolRange s x es) (final : Bool) :
    exec (.wfixed final x) s =
      ((fixedBlock hw (es.map Entry.sym) final s).andThen fun t => .ok (t.setWritten s.streamPos)).finish := by
  rw [exec_eq_commandRule, commandRule, wfixedCmd, loadRange_eq_ok.2 h, afterChecks_ok]

theorem exec_wdynamic {s : State} {x : StoreSel} {es : List Entry} (h : SymbolRange s x es) (final : Bool) :
    exec (.wdynamic final x) s =
      ((dynamicBlock hw (es.map Entry.sym) final s).andThen fun t => .ok (t.setWritten s.streamPos)).finish := by
  rw [exec_eq_commandRule, commandRule, wdynamicCmd, loadRange_eq_ok.2 h, afterChecks_ok]

/-- Settles O57: the fixed block is one header and the data. -/
theorem wfixedAppendsAFixedBlock : Obligations.WfixedAppendsAFixedBlock := by
  intro s final x es h
  have hlen := fixedStream_length final (es.map Entry.sym)
  rw [exec_wfixed h]
  exact ⟨hlen, (fixedBlock_emits s final _).blockWriter (fun t ht => ht.setWritten hlen) hlen⟩

/-- Settles O58: the dynamic block is one header, the tables and the data, and no table in memory. -/
theorem wdynamicAppendsADynamicBlock : Obligations.WdynamicAppendsADynamicBlock := by
  intro s final x es h
  have hlen := dynamicStream_length final (es.map Entry.sym)
  rw [exec_wdynamic h]
  exact ⟨hlen, (dynamicBlock_emits s final _).blockWriter (fun t ht => ht.setWritten hlen) hlen⟩

/-! ## WAUTO and BLKCOST -/

section Auto

variable {s : State} {y : List Sym} {a b : Nat}

theorem autoBlock_of_stored (h : autoChoice hw s.streamPos (b - a) y = 0) (final : Bool) :
    autoBlock hw y a b final s = storedBlocks hw a b final s := by
  simp only [autoBlock, h]

theorem autoBlock_of_fixed (h : autoChoice hw s.streamPos (b - a) y = 1) (final : Bool) :
    autoBlock hw y a b final s = fixedBlock hw y final s := by
  simp only [autoBlock, h]

theorem autoBlock_of_dynamic (h : autoChoice hw s.streamPos (b - a) y = 2) (final : Bool) :
    autoBlock hw y a b final s = dynamicBlock hw y final s := by
  simp only [autoBlock, h]

/-- A stored block has one chunk, and so one header. -/
theorem autoBlock_emits_of_stored {x x' : ArgReg} (h : ByteRange s x x') (hn : s.argOf x' - s.argOf x ≤ hw.storedMax)
    (hkind : autoChoice hw s.streamPos (s.argOf x' - s.argOf x) y = 0) (final : Bool) :
    Emits s (autoBlock hw y (s.argOf x) (s.argOf x') final s)
      (storedStream final s.streamPos [s.argOf x' - s.argOf x] (slice s.window (s.argOf x) (s.argOf x')))
      [headerAt s.streamPos final 0] := by
  have hemits := storedBlocks_emits h final
  have hheader (len : Nat) : storedHeaders final s.streamPos [len] = [headerAt s.streamPos final 0] := by
    simp [storedHeaders, headerAt]
  rwa [← autoBlock_of_stored hkind, storedChunks_of_le hn, hheader] at hemits

end Auto

theorem exec_wauto {s : State} {x : StoreSel} {es : List Entry} (h : TiledSymbolRange s x es) (final : Bool) :
    exec (.wauto final x) s =
      ((autoBlock hw (es.map Entry.sym) (s.argOf .x2) (s.argOf .x3) final s).andThen fun t =>
        .ok ((t.setWritten s.streamPos).setRes1
          (autoChoice hw s.streamPos (s.argOf .x3 - s.argOf .x2) (es.map Entry.sym)))).finish := by
  rw [exec_eq_commandRule, commandRule, wautoCmd, loadTiledRange_eq_ok.2 h, afterChecks_ok]

/-- RES0 and RES1 of WAUTO: the number of bits put, and the block type (45_block_writer.md R982). -/
theorem Emitted.setWritten_setRes1 {s t : State} {bits : List Bool} {headers : List (Nat × BitVec 3)}
    (h : Emitted s t bits headers) {n : Nat} (hn : bits.length = n) (kind : Nat) :
    (t.setWritten s.streamPos).setRes1 kind = { t with res := { s.res with r0 := word n, r1 := word kind } } := by
  rw [h.setWritten hn]
  rfl

/-- Settles O59: the three ways AutoBlock chooses are the three kinds, each the smallest in R980's order of ties. -/
theorem wautoAppendsTheCheapestBlock : Obligations.WautoAppendsTheCheapestBlock := by
  intro s final x es h y n stored size
  rw [exec_wauto h]
  obtain ⟨-, hbytes, -⟩ := h
  rcases autoChoice_cases s.streamPos n y with ⟨hkind, hn, hdyn, hfixed⟩ | ⟨hkind, hlt, hst⟩ | ⟨hkind, hle, hst⟩
  · have hemits := autoBlock_emits_of_stored hbytes hn hkind final
    have hlen : (storedStream final s.streamPos [n] (slice s.window (s.argOf .x2) (s.argOf .x3))).length = size := by
      rw [storedStream_slice_length hbytes _ _ (List.sum_singleton ..), ← storedChunks_of_le hn]
      exact (min_eq_left (le_min hfixed.le hdyn.le)).symm.trans (if_pos hn).symm
    rw [hkind]
    exact ⟨0, _, hlen, .inl ⟨rfl, hn, hdyn, hfixed, rfl⟩,
      hemits.blockWriter (fun t ht => ht.setWritten_setRes1 hlen 0) hlen⟩
  · have hemits := fixedBlock_emits s final y
    have hlen : (fixedStream final y).length = size := by
      rw [fixedStream_length]
      simp only [size, min_eq_left hlt.le]
      split
      · next hn => exact (min_eq_right (hst hn)).symm
      · rfl
    rw [hkind, autoBlock_of_fixed hkind]
    exact ⟨1, _, hlen, .inr (.inl ⟨rfl, hlt, hst, rfl⟩),
      hemits.blockWriter (fun t ht => ht.setWritten_setRes1 hlen 1) hlen⟩
  · have hemits := dynamicBlock_emits s final y
    have hlen : (dynamicStream final y).length = size := by
      rw [dynamicStream_length]
      simp only [size, min_eq_right hle]
      split
      · next hn => exact (min_eq_right (hst hn)).symm
      · rfl
    rw [hkind, autoBlock_of_dynamic hkind]
    exact ⟨2, _, hlen, .inr (.inr ⟨rfl, hle, hst, rfl⟩),
      hemits.blockWriter (fun t ht => ht.setWritten_setRes1 hlen 2) hlen⟩

/-- Settles O60: the checks pass on a tiled range, and the rest of the rule writes the four results. -/
theorem blkcostReportsTheLengths : Obligations.BlkcostReportsTheLengths := by
  intro s x es h
  rw [exec_eq_commandRule, commandRule, blkcostCmd, loadTiledRange_eq_ok.2 h, afterChecks_ok]
  rfl

end Sys2Proof.Machine
end

section
/-! PROOFS. Error entry: what the error that stops a rule reports, and what the rule has left by then
(60_exceptions.md R1007 to R1012). -/

namespace Sys2Proof.Machine

open Config (hw)

/-! ## The errors of the checks -/

/-- An error of the checks of a command: neither the output-write failure nor the input failure. -/
def CmdError.OfCheck (e : CmdError) : Prop := e.code ≠ .writeError ∧ e.code ≠ .readError

/-- Every error the checks answer is of that kind. -/
def ChecksOnly {α : Type} (checks : Except CmdError α) : Prop := ∀ e, checks = .error e → e.OfCheck

theorem checkAll_checksOnly (cs : List (Bool × Nat)) : ChecksOnly (checkAll cs) := by
  induction cs with
  | nil => exact nofun
  | cons c cs ih =>
    unfold checkAll
    split
    · rintro e ⟨⟩
      exact ⟨nofun, nofun⟩
    · exact ih

theorem ChecksOnly.bind {α β : Type} {x : Except CmdError α} {f : α → Except CmdError β} (hx : ChecksOnly x)
    (hf : ∀ a, ChecksOnly (f a)) : ChecksOnly (x >>= f) := by
  intro e he
  rcases except_bind_eq_error.1 he with he | ⟨a, -, he⟩
  · exact hx e he
  · exact hf a e he

theorem readEntries_checksOnly (s : State) (x : StoreSel) (n k : Nat) : ChecksOnly (readEntries hw s x n k) := by
  intro e he
  obtain ⟨m, -, -, rfl, -⟩ := readEntries_eq_error.1 he
  exact ⟨nofun, nofun⟩

theorem checkTiling_checksOnly (es : List Entry) (i a b : Nat) : ChecksOnly (checkTiling es i a b) := by
  unfold checkTiling
  cases tilingFailure es i a b with
  | none => exact nofun
  | some k =>
    rintro e ⟨⟩
    exact ⟨nofun, nofun⟩

theorem tiledEntries_checksOnly (s : State) (x : StoreSel) (m n a b : Nat) : ChecksOnly (tiledEntries s x m n a b) :=
  (readEntries_checksOnly s x _ _).bind fun es => (checkTiling_checksOnly es _ _ _).bind fun _ => nofun

theorem huffCheck_checksOnly {α : Type} (c : Bool) (n : Nat) {f : Unit → Except CmdError α}
    (hf : ∀ u, ∃ a, f u = .ok a) : ChecksOnly (require c (huffError n) >>= f) := by
  refine ChecksOnly.bind (fun e he => ?_) fun u => ?_
  · obtain ⟨-, rfl⟩ := require_eq_error.1 he
    exact ⟨nofun, nofun⟩
  · obtain ⟨a, ha⟩ := hf u
    rw [ha]
    exact nofun

/-- Checks that begin with a list of BAD_ARG checks. -/
theorem ChecksOnly.of_checkAll {α : Type} {checks : Except CmdError α} {cs : List (Bool × Nat)}
    {f : Unit → Except CmdError α} (h : checks = (checkAll cs >>= f)) (hf : ∀ u, ChecksOnly (f u)) :
    ChecksOnly checks :=
  h ▸ (checkAll_checksOnly cs).bind hf

theorem loadRange_checksOnly (s : State) (x : StoreSel) : ChecksOnly (loadRange hw s x .x0 .x1) :=
  .of_checkAll (loadRange_eq s x) fun _ => readEntries_checksOnly s x _ _

theorem loadTiledRange_checksOnly (s : State) (x : StoreSel) : ChecksOnly (loadTiledRange hw s x) :=
  .of_checkAll (loadTiledRange_eq s x) fun _ => tiledEntries_checksOnly s x _ _ _ _

theorem checkSplit_checksOnly (s : State) : ChecksOnly (checkSplit hw s) :=
  .of_checkAll (checkSplit_eq s) fun _ => tiledEntries_checksOnly s .g _ _ _ _

theorem checkSqueeze_checksOnly (s : State) : ChecksOnly (checkSqueeze hw s) :=
  .of_checkAll (checkSqueeze_eq s) fun _ => tiledEntries_checksOnly s .g _ _ _ _

theorem checkHufflen_checksOnly (s : State) : ChecksOnly (checkHufflen hw s) := by
  obtain ⟨f, hok, hf⟩ := checkHufflen_eq s
  exact .of_checkAll hf fun _ => huffCheck_checksOnly _ _ hok

theorem checkCanon_checksOnly (s : State) : ChecksOnly (checkCanon hw s) := by
  obtain ⟨f, hok, hf⟩ := checkCanon_eq s
  exact .of_checkAll hf fun _ => huffCheck_checksOnly _ _ hok

theorem checkBytes_checksOnly (s : State) (x y : ArgReg) : ChecksOnly (checkBytes hw s x y) :=
  checkBytes_eq s x y ▸ checkAll_checksOnly _

/-! ## What an error reports -/

/-- What the error e reports that stops, at the state u, the rule of a command accepted in s: no result is written
before it unless it is READ_ERROR, WRITE_ERROR gives the OUT_LEN it could not write at, and READ_ERROR gives what the
host reported (60_exceptions.md R1007, R1008, R1011, R1012). -/
structure Reported (s : State) (e : CmdError) (u : State) : Prop where
  res : e.code ≠ .readError → u.res = s.res
  writeError : e.code = .writeError → e.info = u.packer.outLen ∧ s.opt.outLimit.toNat ≤ u.packer.outLen.toNat
  readError : e.code = .readError → s.opt.readFailed = true ∧ e.info = word (s.opt.readKind.toNat <<< 24)

/-- Where a rule stops, its error is reported so. -/
def Run.Reports (s : State) : Run → Prop
  | .ok _ => True
  | .stop e u => Reported s e u

section Reports

variable {s : State}

/-- A check that fails does so in the state at acceptance (60_exceptions.md R1011). -/
theorem CmdError.OfCheck.reported {e : CmdError} (h : e.OfCheck) (s : State) : Reported s e s :=
  ⟨fun _ => rfl, fun hwrite => absurd hwrite h.1, fun hread => absurd hread h.2⟩

theorem afterChecks_reports {α : Type} {checks : Except CmdError α} {k : α → Run} (hc : ChecksOnly checks)
    (hk : ∀ a, checks = .ok a → (k a).Reports s) : (afterChecks s checks k).Reports s := by
  cases h : checks with
  | error e => exact (hc e h).reported s
  | ok a => exact hk a h

/-- WRITE_ERROR at a state with the results as before and OUT_LEN at or above OUT_LIMIT. -/
theorem reported_writeError {u : State} (hres : u.res = s.res)
    (hlimit : s.opt.outLimit.toNat ≤ u.packer.outLen.toNat) :
    Reported s { code := .writeError, info := u.packer.outLen } u :=
  ⟨fun _ => hres, fun _ => ⟨rfl, hlimit⟩, nofun⟩

theorem StreamCut.limit_le {t : State} {bits : List Bool} {headers : List (Nat × BitVec 3)}
    (h : StreamCut s t bits headers) : s.opt.outLimit.toNat ≤ t.packer.outLen.toNat := by
  rw [h.outLen]
  exact le_max_left _ _

/-- Bits put, which either all fit or are cut, with nothing else that could stop the rule after them. -/
theorem Emits.reports {r : Run} {bits : List Bool} {headers : List (Nat × BitVec 3)} (h : Emits s r bits headers)
    (k : State → State) : (r.andThen fun t => .ok (k t)).Reports s := by
  by_cases hr : s.HasRoom bits.length
  · obtain ⟨t, rfl, -⟩ := h.fits hr
    trivial
  · obtain ⟨t, rfl, ht⟩ := h.full hr
    exact reported_writeError ht.res ht.cut.limit_le

/-- The block AutoBlock chooses, or its WRITE_ERROR. -/
theorem autoBlock_reports (h : ByteRange s .x2 .x3) (y : List Sym) (final : Bool) (k : State → State) :
    ((autoBlock hw y (s.argOf .x2) (s.argOf .x3) final s).andThen fun t => .ok (k t)).Reports s := by
  rcases autoChoice_cases s.streamPos (s.argOf .x3 - s.argOf .x2) y with ⟨hkind, -⟩ | ⟨hkind, -⟩ | ⟨hkind, -⟩
  · rw [autoBlock_of_stored hkind]
    exact (storedBlocks_emits h final).reports k
  · rw [autoBlock_of_fixed hkind]
    exact (fixedBlock_emits s final y).reports k
  · rw [autoBlock_of_dynamic hkind]
    exact (dynamicBlock_emits s final y).reports k

/-! ## COMPRESS -/

/-- The work of COMPRESS comes to its end with the options as before, or to WRITE_ERROR before its results. -/
theorem compressWork_cases (hN : s.inputLen ≤ hw.inCap) :
    (∃ v, s.compressStart.compressWork = .ok v ∧ v.opt = s.opt) ∨
      ∃ t, s.compressStart.compressWork = .stop { code := .writeError, info := t.packer.outLen } t ∧ t.res = s.res ∧
        s.opt.outLimit.toNat ≤ t.packer.outLen.toNat := by
  have hopt : ∀ v n, (v : State).opt = s.opt → (v.compressResults n).opt = s.opt := by
    intro v n hv
    rw [(compressResults_appends n v).opt, hv]
  by_cases hhint : s.opt.btype = 0
  · have hemits := compressBody_emits_stored hhint hN
    by_cases hr : s.compressStart.HasRoom (storedStream true 0 (storedChunks hw s.inputLen) s.window).length
    · obtain ⟨t, hbody, ht⟩ := hemits.fits hr
      refine .inl ⟨t.compressResults t.streamPos, ?_, hopt _ _ ht.opt⟩
      rw [State.compressWork, hbody, Run.ok_andThen, flush_of_aligned (by rw [packer_of_stored ht]), Run.ok_andThen]
    · obtain ⟨t, hbody, ht⟩ := hemits.full hr
      refine .inr ⟨t, ?_, ht.res, ht.cut.limit_le⟩
      rw [State.compressWork, hbody, Run.stop_andThen]
  · rcases le_or_gt ((s.blockStreams.length + 7) / 8) s.opt.outLimit.toNat with hfit | hover
    · obtain ⟨t, v, hbody, hflush, ht, hv⟩ := compress_fits hN hhint hfit
      refine .inl ⟨v.compressResults t.streamPos, ?_, hopt _ _ (finished_opt ht hv)⟩
      rw [State.compressWork, hbody, Run.ok_andThen, hflush, Run.ok_andThen]
    · obtain ⟨t, hrun, ht⟩ := compress_full hN hhint hover
      refine .inr ⟨t, hrun _, ?_, ?_⟩
      · rw [ht.rest, planned_eq]
        rfl
      · have := ht.cut.limit_le
        rwa [planned_opt] at this

theorem compressCmd_reports (s : State) : (compressCmd hw s).Reports s := by
  rw [compressCmd_eq]
  refine afterChecks_reports (checkCompress_eq s ▸ checkAll_checksOnly _) fun u hu => ?_
  obtain ⟨-, hN⟩ := checkCompress_eq_ok.1 hu
  rcases compressWork_cases hN with ⟨v, hwork, hopt⟩ | ⟨t, hwork, hres, hlimit⟩ <;> rw [hwork]
  · rw [Run.ok_andThen]
    cases hfail : v.opt.readFailed with
    | false =>
      rw [compressEnd_of_not_readFailed hfail]
      trivial
    | true =>
      rw [compressEnd_of_readFailed hfail, hopt]
      exact ⟨fun h => absurd rfl h, nofun, fun _ => ⟨hopt ▸ hfail, rfl⟩⟩
  · exact reported_writeError hres hlimit

/-! ## Every command, once -/

theorem commandRule_reports (i : Instr) (s : State) : (commandRule s i).Reports s := by
  cases i with
  | nop | sreset | cacheclr | costfixed | wreset => trivial
  | compress => exact compressCmd_reports s
  | findmatch => exact afterChecks_reports (checkFindmatch_eq s ▸ checkAll_checksOnly _) fun _ _ => trivial
  | greedy => exact afterChecks_reports (checkBytes_checksOnly s _ _) fun _ _ => trivial
  | split => exact afterChecks_reports (checkSplit_checksOnly s) fun _ _ => trivial
  | coststat x => exact afterChecks_reports (loadRange_checksOnly s x) fun _ _ => trivial
  | sppass => exact afterChecks_reports (checkSppass_eq s ▸ checkAll_checksOnly _) fun _ _ => trivial
  | squeeze => exact afterChecks_reports (checkSqueeze_checksOnly s) fun _ _ => trivial
  | count x => exact afterChecks_reports (loadRange_checksOnly s x) fun _ _ => trivial
  | hufflen => exact afterChecks_reports (checkHufflen_checksOnly s) fun _ _ => trivial
  | canon => exact afterChecks_reports (checkCanon_checksOnly s) fun _ _ => trivial
  | wbits =>
    refine afterChecks_reports (checkWbits_eq s ▸ checkAll_checksOnly _) fun _ _ => ?_
    exact Run.andThen_ok (putAll _ s) ▸ (putAll_emits s _).reports id
  | wflush => exact (flush_emits s).reports _
  | wstored final =>
    refine afterChecks_reports (checkBytes_checksOnly s _ _) fun _ h => ?_
    exact (storedBlocks_emits (checkBytes_eq_ok.1 h) final).reports _
  | wfixed final x =>
    exact afterChecks_reports (loadRange_checksOnly s x) fun _ _ => (fixedBlock_emits s final _).reports _
  | wdynamic final x =>
    exact afterChecks_reports (loadRange_checksOnly s x) fun _ _ => (dynamicBlock_emits s final _).reports _
  | wauto final x =>
    refine afterChecks_reports (loadTiledRange_checksOnly s x) fun _ h => ?_
    obtain ⟨-, hbytes, -⟩ := loadTiledRange_eq_ok.1 h
    exact autoBlock_reports hbytes _ final _
  | blkcost x => exact afterChecks_reports (loadTiledRange_checksOnly s x) fun _ _ => trivial

/-- t is the state after the entry of an error e, which stopped at the state u the rule of a command accepted in s
(60_exceptions.md R1010). -/
structure ErrorTaken (s t : State) (e : CmdError) (u : State) : Prop where
  taken : t = u.raiseError e
  named : e.code ≠ .none
  status : t.status = (s.raiseError e).status
  opt : t.opt = s.opt
  arg : t.arg = s.arg
  reported : Reported s e u

/-- The rule of a command that ends with an error is one that an error stops: completion leaves STATUS without one. -/
theorem exec_err {i : Instr} {t : State} (herr : s.status.err = false) (hcode : s.status.errCode = .none)
    (ht : exec i s = .next t) (hend : t.status.err = true) : ∃ e u, ErrorTaken s t e u := by
  have hsreset : i ≠ .sreset := by
    rintro rfl
    cases ht
    cases hend
  obtain ⟨r, hr, hexec⟩ := exec_effect i s hsreset
  obtain ⟨v, hv, rfl | ⟨e', hraised, rfl⟩⟩ := hr.finish_eq_next (hexec ▸ ht)
  · have hno : v.status.err = false := hv.status ▸ herr
    cases hno.symm.trans hend
  rw [exec_eq_commandRule] at ht
  have hrep := commandRule_reports i s
  cases hrule : commandRule s i with
  | ok u =>
    rw [hrule, Run.finish_ok, Host.Outcome.next.injEq] at ht
    have hnone : e'.code = .none :=
      (congrArg (fun t => t.status.errCode) ht).symm.trans (commandRule_errCode hrule hcode)
    exact absurd hnone hraised.1
  | stop e u =>
    rw [hrule] at ht hrep
    rw [Run.finish_stop, Host.Outcome.next.injEq] at ht
    have hsame : e.code = e'.code := congrArg (fun t => t.status.errCode) ht
    refine ⟨e, u, ht.symm, hsame ▸ hraised.1, ?_, hv.opt, hv.arg, hrep⟩
    rw [State.raiseError_status, State.raiseError_status, hv.status, hsame]

/-- The same for an accepted word, which may be illegal (60_exceptions.md R1003). -/
theorem runCommand_err {w : Word} {t : State} (herr : s.status.err = false) (hcode : s.status.errCode = .none)
    (ht : runCommand chip w s = .next t) (hend : t.status.err = true) : ∃ e u, ErrorTaken s t e u := by
  rcases runCommand_cases w s with ⟨i, -, hrun⟩ | ⟨-, -, hrun⟩
  · exact exec_err herr hcode (hrun.symm.trans ht) hend
  · cases hrun.symm.trans ht
    have hcheck : CmdError.OfCheck { code := .illegalCmd, info := w } := ⟨nofun, nofun⟩
    exact ⟨_, s, rfl, nofun, rfl, rfl, rfl, hcheck.reported s⟩

end Reports

/-- Settles O27: an error is taken by `raiseError` from a state its rule reports it at, and the bit packer puts all bits
or cuts them. -/
theorem errorEntryRecordsAndStops : Obligations.ErrorEntryRecordsAndStops := by
  refine ⟨fun w s t herr hcode ht hend => ?_, fun bits s => ⟨fun hr => ?_, fun hr => ?_⟩⟩
  · obtain ⟨e, u, rfl, hnamed, hstatus, hopt, harg, hrep⟩ := runCommand_err herr hcode ht hend
    exact ⟨hstatus, hnamed, rfl, hopt, harg, hrep.res, hrep.writeError, hrep.readError⟩
  · obtain ⟨t, ht, hemit⟩ := (putAll_emits s bits).fits hr
    exact ⟨t, ht, hemit.stream, hemit.sameMem⟩
  · obtain ⟨t, ht, hcut⟩ := (putAll_emits s bits).full hr
    exact ⟨t, ht, hcut.cut, hcut.sameMem⟩

end Sys2Proof.Machine
end

section
/-! PROOFS. Which errors a command can raise, and that the four precise ones change no other state (60_exceptions.md
R1001 to R1003, R1011): the rule of every command begins with its checks, which fail in the state at acceptance, and
what comes after them raises WRITE_ERROR or READ_ERROR only. -/

namespace Sys2Proof.Machine

open Config (hw)

/-! ## The errors of the checks, by their codes -/

/-- Every error the checks answer has one of the listed codes. -/
def ChecksFailWith {α : Type} (codes : List ErrCode) (checks : Except CmdError α) : Prop :=
  ∀ e, checks = .error e → e.code ∈ codes

theorem ChecksFailWith.bind {α β : Type} {xs ys : List ErrCode} {x : Except CmdError α}
    {f : α → Except CmdError β} (hx : ChecksFailWith xs x) (hf : ∀ a, ChecksFailWith ys (f a)) :
    ChecksFailWith (xs ++ ys) (x >>= f) := by
  intro e he
  rcases except_bind_eq_error.1 he with he | ⟨a, -, he⟩
  · exact List.mem_append_left ys (hx e he)
  · exact List.mem_append_right xs (hf a e he)

/-- Checks followed by a part that always passes. -/
theorem ChecksFailWith.bind_ok {α β : Type} {codes : List ErrCode} {x : Except CmdError α}
    {f : α → Except CmdError β} (hx : ChecksFailWith codes x) (hf : ∀ a, ∃ b, f a = .ok b) :
    ChecksFailWith codes (x >>= f) := by
  intro e he
  rcases except_bind_eq_error.1 he with he | ⟨a, -, he⟩
  · exact hx e he
  · obtain ⟨b, hb⟩ := hf a
    cases hb.symm.trans he

theorem checkAll_failWith (cs : List (Bool × Nat)) : ChecksFailWith [.badArg] (checkAll cs) := by
  induction cs with
  | nil => exact nofun
  | cons c cs ih =>
    unfold checkAll
    split
    · rintro e ⟨⟩
      exact List.mem_cons_self
    · exact ih

theorem readEntries_failWith (s : State) (x : StoreSel) (n k : Nat) :
    ChecksFailWith [.badSymbol] (readEntries hw s x n k) := by
  intro e he
  obtain ⟨m, -, -, rfl, -⟩ := readEntries_eq_error.1 he
  exact List.mem_cons_self

theorem checkTiling_failWith (es : List Entry) (i a b : Nat) : ChecksFailWith [.badSymbol] (checkTiling es i a b) := by
  unfold checkTiling
  cases tilingFailure es i a b with
  | none => exact nofun
  | some k =>
    rintro e ⟨⟩
    exact List.mem_cons_self

theorem tiledEntries_failWith (s : State) (x : StoreSel) (m n a b : Nat) :
    ChecksFailWith [.badSymbol] (tiledEntries s x m n a b) := by
  intro e he
  have hcodes : e.code ∈ [ErrCode.badSymbol] ++ [.badSymbol] :=
    (readEntries_failWith s x _ _).bind (fun es => (checkTiling_failWith es _ _ _).bind_ok fun _ => ⟨es, rfl⟩) e he
  simpa using hcodes

theorem huffCheck_failWith {α : Type} (c : Bool) (n : Nat) {f : Unit → Except CmdError α}
    (hf : ∀ u, ∃ a, f u = .ok a) : ChecksFailWith [.huffError] (require c (huffError n) >>= f) := by
  refine ChecksFailWith.bind_ok (fun e he => ?_) hf
  obtain ⟨-, rfl⟩ := require_eq_error.1 he
  exact List.mem_cons_self

/-- Checks that begin with a list of BAD_ARG checks. -/
theorem ChecksFailWith.of_checkAll {α : Type} {codes : List ErrCode} {checks : Except CmdError α}
    {cs : List (Bool × Nat)} {f : Unit → Except CmdError α} (h : checks = (checkAll cs >>= f))
    (hf : ∀ u, ChecksFailWith codes (f u)) : ChecksFailWith (.badArg :: codes) checks :=
  h ▸ (checkAll_failWith cs).bind hf

theorem checkBytes_failWith (s : State) (x y : ArgReg) : ChecksFailWith [.badArg] (checkBytes hw s x y) :=
  checkBytes_eq s x y ▸ checkAll_failWith _

theorem loadRange_failWith (s : State) (x : StoreSel) :
    ChecksFailWith [.badArg, .badSymbol] (loadRange hw s x .x0 .x1) :=
  .of_checkAll (loadRange_eq s x) fun _ => readEntries_failWith s x _ _

theorem loadTiledRange_failWith (s : State) (x : StoreSel) :
    ChecksFailWith [.badArg, .badSymbol] (loadTiledRange hw s x) :=
  .of_checkAll (loadTiledRange_eq s x) fun _ => tiledEntries_failWith s x _ _ _ _

theorem checkHufflen_failWith (s : State) : ChecksFailWith [.badArg, .huffError] (checkHufflen hw s) := by
  obtain ⟨f, hok, hf⟩ := checkHufflen_eq s
  exact .of_checkAll hf fun _ => huffCheck_failWith _ _ hok

theorem checkCanon_failWith (s : State) : ChecksFailWith [.badArg, .huffError] (checkCanon hw s) := by
  obtain ⟨f, hok, hf⟩ := checkCanon_eq s
  exact .of_checkAll hf fun _ => huffCheck_failWith _ _ hok

/-! ## Where a rule stops -/

/-- The four errors that are raised before the command writes anything (60_exceptions.md R1011). -/
def preciseCodes : List ErrCode := [.illegalCmd, .badArg, .badSymbol, .huffError]

/-- An error of the part of a rule after its checks, with one of the listed codes. -/
def CmdError.LateWith (codes : List ErrCode) (e : CmdError) : Prop := e.code ∈ codes ∧ e.code ∉ preciseCodes

/-- Where the rule of a command accepted in s stops, it raises an error with one of the listed codes, and a precise one
in s itself. -/
def Run.RaisesFrom (s : State) (codes : List ErrCode) : Run → Prop
  | .ok _ => True
  | .stop e u => e.code ∈ codes ∧ (e.code ∈ preciseCodes → u = s)

theorem CmdError.IsWriteError.lateWith {e : CmdError} (h : e.IsWriteError) {codes : List ErrCode}
    (hcodes : .writeError ∈ codes) : e.LateWith codes := by
  have hcode : e.code = .writeError := h
  rw [CmdError.LateWith, hcode]
  exact ⟨hcodes, by decide⟩

theorem Run.StopsWith.raisesFrom {s : State} {codes : List ErrCode} {r : Run}
    (h : r.StopsWith (CmdError.LateWith codes)) : r.RaisesFrom s codes := by
  cases r with
  | ok t => trivial
  | stop e u => exact ⟨h.1, fun hprecise => absurd hprecise h.2⟩

section Rules

variable {α : Type} {s : State} {xs ys : List ErrCode} {checks : Except CmdError α} {k : α → Run}

/-- A check that fails stops the rule in the state at acceptance; the part after the checks raises no precise error. -/
theorem afterChecks_raisesFrom (hc : ChecksFailWith xs checks)
    (hk : ∀ a, (k a).StopsWith (CmdError.LateWith ys)) : (afterChecks s checks k).RaisesFrom s (xs ++ ys) := by
  cases h : checks with
  | error e => exact ⟨List.mem_append_left ys (hc e h), fun _ => rfl⟩
  | ok a => exact ((hk a).imp fun _ he => ⟨List.mem_append_right xs he.1, he.2⟩).raisesFrom

/-- A rule that completes once its checks pass. -/
theorem afterChecks_ok_raisesFrom {f : α → State} (hc : ChecksFailWith xs checks) :
    (afterChecks s checks fun a => .ok (f a)).RaisesFrom s xs := by
  simpa using afterChecks_raisesFrom (s := s) (k := fun a => .ok (f a)) (ys := []) hc fun _ => trivial

/-- A rule that writes to the stream once its checks pass. -/
theorem afterChecks_write_raisesFrom (hc : ChecksFailWith xs checks)
    (hk : ∀ a, (k a).StopsWith CmdError.IsWriteError) :
    (afterChecks s checks k).RaisesFrom s (xs ++ [.writeError]) :=
  afterChecks_raisesFrom hc fun a => (hk a).imp fun _ he => he.lateWith List.mem_cons_self

/-- The same, with the results set after the bits are put. -/
theorem afterChecks_write_ok_raisesFrom {f : State → State} (hc : ChecksFailWith xs checks)
    (hk : ∀ a, (k a).StopsWith CmdError.IsWriteError) :
    (afterChecks s checks fun a => (k a).andThen fun t => .ok (f t)).RaisesFrom s (xs ++ [.writeError]) :=
  afterChecks_write_raisesFrom hc fun a => (hk a).andThen fun _ => trivial

end Rules

theorem compressEnd_stopsWith (s : State) :
    (compressEnd s).StopsWith (CmdError.LateWith [.writeError, .readError]) := by
  unfold compressEnd
  split
  · have hcode : ErrCode.readError ∈ [ErrCode.writeError, .readError] ∧ .readError ∉ preciseCodes := by decide
    exact hcode
  · trivial

theorem compressCmd_raisesFrom (s : State) :
    (compressCmd hw s).RaisesFrom s [.badArg, .writeError, .readError] := by
  have hwrite : ∀ {r : Run}, r.StopsWith CmdError.IsWriteError →
      r.StopsWith (CmdError.LateWith [.writeError, .readError]) :=
    fun hr => hr.imp fun _ he => he.lateWith List.mem_cons_self
  exact afterChecks_raisesFrom (checkCompress_eq s ▸ checkAll_failWith _) fun _ =>
    (hwrite (compressBody_stopsWith _)).andThen fun t => (hwrite (flush_stopsWith t)).andThen fun _ =>
      compressEnd_stopsWith _

/-- The errors of every command, once (60_exceptions.md R1002, R1011). -/
theorem commandRule_raisesFrom (i : Instr) (s : State) : (commandRule s i).RaisesFrom s (errorsOf i) := by
  cases i with
  | nop | sreset | cacheclr | costfixed | wreset => trivial
  | compress => exact compressCmd_raisesFrom s
  | findmatch => exact afterChecks_ok_raisesFrom (checkFindmatch_eq s ▸ checkAll_failWith _)
  | greedy => exact afterChecks_ok_raisesFrom (checkBytes_failWith s _ _)
  | sppass => exact afterChecks_ok_raisesFrom (checkSppass_eq s ▸ checkAll_failWith _)
  | split =>
    exact afterChecks_ok_raisesFrom (.of_checkAll (checkSplit_eq s) fun _ => tiledEntries_failWith s .g _ _ _ _)
  | squeeze =>
    exact afterChecks_ok_raisesFrom (.of_checkAll (checkSqueeze_eq s) fun _ => tiledEntries_failWith s .g _ _ _ _)
  | coststat x => exact afterChecks_ok_raisesFrom (loadRange_failWith s x)
  | count x => exact afterChecks_ok_raisesFrom (loadRange_failWith s x)
  | blkcost x => exact afterChecks_ok_raisesFrom (loadTiledRange_failWith s x)
  | hufflen => exact afterChecks_ok_raisesFrom (checkHufflen_failWith s)
  | canon => exact afterChecks_ok_raisesFrom (checkCanon_failWith s)
  | wflush =>
    have hwrite : (commandRule s .wflush).StopsWith CmdError.IsWriteError :=
      (flush_stopsWith s).andThen fun _ => trivial
    exact (hwrite.imp fun _ he => he.lateWith List.mem_cons_self).raisesFrom
  | wbits =>
    exact afterChecks_write_raisesFrom (checkWbits_eq s ▸ checkAll_failWith _) fun _ => putAll_stopsWith s _
  | wstored final =>
    exact afterChecks_write_ok_raisesFrom (checkBytes_failWith s _ _) fun _ => storedBlocks_stopsWith s final _ _
  | wfixed final x =>
    exact afterChecks_write_ok_raisesFrom (loadRange_failWith s x) fun _ => fixedBlock_stopsWith s _ final
  | wdynamic final x =>
    exact afterChecks_write_ok_raisesFrom (loadRange_failWith s x) fun _ => dynamicBlock_stopsWith s _ final
  | wauto final x =>
    refine afterChecks_write_raisesFrom (loadTiledRange_failWith s x) fun _ => ?_
    exact (autoBlock_stopsWith s _ final _ _).andThen fun _ => trivial

/-! ## The obligations -/

/-- A command accepted without a recorded error ends without one, or its rule stopped with one of its errors. -/
theorem exec_errCode_cases {i : Instr} {s t : State} (hs : s.status.errCode = .none) (ht : exec i s = .next t) :
    t.status.errCode = .none ∨
      ∃ e u, t = u.raiseError e ∧ e.code ∈ errorsOf i ∧ (e.code ∈ preciseCodes → u = s) := by
  rw [exec_eq_commandRule] at ht
  have hrule := commandRule_raisesFrom i s
  cases hr : commandRule s i with
  | ok u =>
    rw [hr] at ht
    cases ht
    have hnone : u.status.errCode = .none := commandRule_errCode hr hs
    exact .inl hnone
  | stop e u =>
    rw [hr] at ht hrule
    cases ht
    exact .inr ⟨e, u, rfl, hrule⟩

/-- Settles O7: an illegal word takes the entry of ILLEGAL_CMD from the state at acceptance. -/
theorem illegalCommandEndsAtDecode : Obligations.IllegalCommandEndsAtDecode := by
  intro s w e hw
  rcases runCommand_cases w s with ⟨i, hi, -⟩ | ⟨-, -, hrun⟩
  · cases hi.symm.trans hw
  · exact hrun

/-- Settles O26: completion leaves no error code, and a rule that stops raises an error of its list. -/
theorem errorsEachCommandCanRaise : Obligations.ErrorsEachCommandCanRaise := by
  intro i s t hs ht
  obtain hnone | ⟨e, u, rfl, hmem, -⟩ := exec_errCode_cases hs ht
  · exact .inl hnone
  · exact .inr hmem

/-- Settles O25: a precise error is taken in the state at acceptance, where the checks, or the decoder, raise it. -/
theorem preciseErrorsChangeNothing : Obligations.PreciseErrorsChangeNothing := by
  intro w s t hs ht hcode
  rcases runCommand_cases w s with ⟨i, -, hrun⟩ | ⟨-, -, hrun⟩
  · obtain hnone | ⟨e, u, rfl, -, hprecise⟩ := exec_errCode_cases hs (hrun.symm.trans ht)
    · rw [hnone] at hcode
      exact absurd hcode (by decide)
    · obtain rfl := hprecise hcode
      rfl
  · cases hrun.symm.trans ht
    rfl

end Sys2Proof.Machine
end

section
/-! PROOFS. The base case of the machine's two invariants: the state after a hardware reset (70_reset_and_hazards.md
R1100, R1101). -/

namespace Sys2Proof.Machine

theorem inv_reset : Inv State.reset :=
  Inv.of_resetRegisters State.reset_wf (hcache := rfl) (hstatus := rfl) (hinfo := rfl) (hopt := rfl) (hpacker := rfl)
    (hissue := rfl)

/-- A hardware reset leaves no record in the cache to be wrong. -/
theorem cacheCoherent_reset : CacheCoherent State.reset := CacheCoherent.of_cache_eq_nil rfl

/-- Settles O21: every register of the reset state has its reset value, the memory is canonical and the cache empty. -/
theorem invariantAtReset : Obligations.InvariantAtReset := ⟨inv_reset, cacheCoherent_reset⟩

end Sys2Proof.Machine
end
